-- ==== Sys2Proof/Word.lean ====
section
/-!
DEFINITION. The sizes of the machine's data (spec/00_scope.md R9, R10) and the two values of the
operand-size and address-size attributes (R7).
-/
namespace Sys2Proof

/-- A byte: 8 bits (R9). -/
abbrev Byte := BitVec 8

/-- A word: 16 bits (R9). -/
abbrev Word := BitVec 16

/-- A doubleword: 32 bits (R9). -/
abbrev Dword := BitVec 32

/-- A value of `OperandSize`, `AddressSize` or `StackAddrSize` (R7). -/
inductive Size where
  | w16
  | w32
deriving DecidableEq, Repr

/-- The other of 16 and 32: what a 66h or a 67h byte selects (R148). -/
def Size.other : Size → Size
  | .w16 => .w32
  | .w32 => .w16

/-- `OperandSize / 8` (R240). -/
def Size.bytes : Size → Nat
  | .w16 => 2
  | .w32 => 4

end Sys2Proof
end

