-- ==== Sys2Proof/Config.lean ====
section
/-!
DEFINITION. The spec's configuration parameters (spec/00_scope.md R8) that are plain data, as one
record with the defaults R8 recommends, and the parameters that are unknown functions, as
constants without a body: nothing in Lean can evaluate them or prove a value of them.

The parameters of R8 that stand elsewhere: the function of `DeliverFault` speaks of states and is
`platformDelivery` (Sys2Proof/Machine/Deliver.lean); `ResetState` is `State.reset` (log 2, 3).
-/
namespace Sys2Proof

/-- Parameter `real_stack_fault_vector` of R8: the vector of a stack-segment limit violation in Real
Address Mode and Virtual 8086 Mode (spec/20_memory.md R88; spec/90_conflicts.md C11). -/
inductive RealStackVector where
  | int12
  | int13
deriving DecidableEq, Repr, Inhabited

/-- Which function the parameter `Translate` of R8 is (spec/20_memory.md R105; log 7). -/
inductive Translation where
  /-- The default: the identity, which never faults. -/
  | identity
  /-- The platform's own function, of which nothing is known: `Config.platformTranslate`. -/
  | platform
  /-- The 80386's page walk (R106), in force while CR0.PG = 1. -/
  | pageTables
deriving DecidableEq, Repr, Inhabited

/-- Parameter `DeliverFault` of R8: what happens after an exception is raised (spec/60_exceptions.md R436;
log 1). -/
inductive FaultDelivery where
  /-- The default, "none": the run ends in the outcome `Fault`. -/
  | stop
  /-- The platform's own function, of which nothing is known: `platformDelivery`. -/
  | platform
deriving DecidableEq, Repr, Inhabited

/-- Parameter `ExternalAgents` of R8: other bus masters that read and write memory (spec/20_memory.md R108;
log 17). -/
inductive ExternalAgents where
  /-- The default, "none". -/
  | absent
  /-- Before each byte that the processor reads or stores they store what `Config.agentStores` says. -/
  | present
deriving DecidableEq, Repr, Inhabited

/-- What an access does, as `Translate` is told (R105, R484). -/
inductive Access where
  | read
  | write
  | execute
deriving DecidableEq, Repr

/-- With which rights an access is made (R105). -/
inductive Rights where
  | supervisor
  | user
deriving DecidableEq, Repr

/-- The parameters of R8, and one of the model's own. They are fixed for a machine: no step changes them
(log 5). -/
structure Config where
  /-- LSL accepts descriptor type 8 (spec/49_lsl_ltr.md R381). -/
  lslType8Valid : Bool
  /-- LGDT, LIDT and LMSW raise #GP(0) in Virtual 8086 Mode (spec/44_lgdt_lidt.md R252). -/
  v86PrivFault : Bool
  /-- The bits of the machine status word that LMSW writes (spec/46_lldt_lmsw.md R305). -/
  lmswMask : Word
  /-- A segment load sets the Accessed bit in the descriptor in memory (spec/20_memory.md R99). -/
  segLoadSetsAccessed : Bool
  realStackFaultVector : RealStackVector
  /-- LOOP checks its target against CS.limit outside Protected Mode too (spec/48_lods_loop.md R360). -/
  loopLimitCheckReal : Bool
  translation : Translation
  deliverFault : FaultDelivery
  externalAgents : ExternalAgents
  /-- The MODEL's own: `StackAddrSize` follows SS's B bit in Real Address Mode too, as spec/10_state.md R45
  says with "unless"; false is spec/92_eei_decisions.md D35, 16 there (log 13). -/
  realStackByB : Bool
deriving DecidableEq, Repr, Inhabited

/-- The defaults R8 recommends; D35 for the model's own parameter. -/
def Config.recommended : Config where
  lslType8Valid := false
  v86PrivFault := true
  lmswMask := 0x000F#16
  segLoadSetsAccessed := true
  realStackFaultVector := .int13
  loopLimitCheckReal := true
  translation := .identity
  deliverFault := .stop
  externalAgents := .absent
  realStackByB := false

/-- Parameter `Draw` of R8: the value of `draw_N()` (R15) of `width` bits, for the `index`-th value
drawn in a run. A FREE VALUE: it has no body, and two indices give unrelated values (log 6). -/
opaque Config.draw (width index : Nat) : BitVec width

/-- The parameter `Translate` where it is the platform's own: from a linear address, the access and
its rights, to a physical address or the fault-code of a page fault (R8, R105). A FREE VALUE (log 7). -/
opaque Config.platformTranslate (la : Dword) (access : Access) (rights : Rights) : Except Dword Dword

/-- What the other bus masters store before the byte whose access draws the `index`-th value of a run: "every byte
another agent may write as a draw at each read" (spec/20_memory.md R108). A FREE VALUE (log 17). -/
opaque Config.agentStores (index : Nat) : List (Dword × Byte)

end Sys2Proof
end

