-- ==== Sys2Proof/Syntax.lean ====
section
/-!
DEFINITION. The instructions of spec/opcode_table.json, one constructor a row, with their operands as
spec/30_encoding.md gives them (R140 to R154): register names, memory operand forms, and the prefix
bytes that stand before the opcode.
-/
namespace Sys2Proof

/-- The eight general registers, in the order of their numbers 0 to 7 (spec/10_state.md R30). The 16-bit
views AX ... DI have the same numbers (R31). -/
inductive Gpr where
  | eax | ecx | edx | ebx | esp | ebp | esi | edi
deriving DecidableEq, Repr

/-- The six segment registers, in the order of their numbers 0 to 5 (spec/10_state.md R41). -/
inductive SegReg where
  | es | cs | ss | ds | fs | gs
deriving DecidableEq, Repr

/-- The factor 1, 2, 4 or 8 of an index register (R147). -/
inductive Scale where
  | x1 | x2 | x4 | x8
deriving DecidableEq, Repr

/-- The register part of a 16-bit addressing form, in the order of its `r/m` numbers (R146). -/
inductive Base16 where
  | bxSi | bxDi | bpSi | bpDi | si | di | bp | bx
deriving DecidableEq, Repr

/-- The displacement of a 16-bit form: `mod` = 00, 01, 10 (R146). -/
inductive Disp16 where
  | zero
  | disp8 (d : Byte)
  | disp16 (d : Word)
deriving DecidableEq, Repr

/-- The displacement of a 32-bit form: `mod` = 00, 01, 10 (R147). -/
inductive Disp32 where
  | zero
  | disp8 (d : Byte)
  | disp32 (d : Dword)
deriving DecidableEq, Repr

/-- A memory operand: one constructor for each shape of R146 and R147. An index is a register with its
factor, or absent (`index` = 100). -/
inductive MemOp where
  /-- A register part and a displacement, `AddressSize` 16. -/
  | based16 (base : Base16) (disp : Disp16)
  /-- `disp16` alone: `mod` = 00, `r/m` = 110. -/
  | direct16 (disp : Word)
  /-- A register and a displacement without a SIB byte, `AddressSize` 32. -/
  | based32 (base : Gpr) (disp : Disp32)
  /-- `disp32` alone: `mod` = 00, `r/m` = 101. -/
  | direct32 (disp : Dword)
  /-- A SIB byte with a base register. -/
  | sib (base : Gpr) (index : Option (Gpr × Scale)) (disp : Disp32)
  /-- A SIB byte with `base` = 101 and `mod` = 00: no base register, a `disp32`. -/
  | sibDirect (index : Option (Gpr × Scale)) (disp : Dword)
deriving DecidableEq, Repr

/-- What `mod` and `r/m` name: a register (`mod` = 11) or a memory operand (R144). -/
inductive RegMem where
  | reg (r : Gpr)
  | mem (m : MemOp)
deriving DecidableEq, Repr

/-- The bytes before the opcode other than F0, F2 and F3 (R141): whether a 66h byte and a 67h byte
stand there, and the segment override. Their order among themselves carries no meaning (R142). -/
structure Prefixes where
  opSize : Bool
  addrSize : Bool
  seg : Option SegReg
deriving DecidableEq, Repr

/-- No prefix byte. -/
def Prefixes.empty : Prefixes where
  opSize := false
  addrSize := false
  seg := none

/-- The instructions of spec/opcode_table.json (30_encoding.md R154), one constructor a row. `p` holds the
prefix bytes, `dst` the register of the `reg` field, `rm` the operand of `mod` and `r/m`. -/
inductive Instr where
  /-- 9F (R200). -/
  | lahf (p : Prefixes)
  /-- 0F 02 /r with `OperandSize` 16 (R212). -/
  | lar16 (p : Prefixes) (dst : Gpr) (rm : RegMem)
  /-- 0F 02 /r with `OperandSize` 32 (R213). -/
  | lar32 (p : Prefixes) (dst : Gpr) (rm : RegMem)
  /-- 8D /r with `OperandSize` 16 (R231). -/
  | lea16 (p : Prefixes) (dst : Gpr) (rm : RegMem)
  /-- 8D /r with `OperandSize` 32 (R232). -/
  | lea32 (p : Prefixes) (dst : Gpr) (rm : RegMem)
  /-- C9 with `OperandSize` 16 (R241). -/
  | leave16 (p : Prefixes)
  /-- C9 with `OperandSize` 32 (R242). -/
  | leave32 (p : Prefixes)
  /-- 0F 01 /2 (R252). -/
  | lgdt (p : Prefixes) (rm : RegMem)
  /-- 0F 01 /3 (R253). -/
  | lidt (p : Prefixes) (rm : RegMem)
  /-- C5 /r with `OperandSize` 16 (R276). -/
  | lds16 (p : Prefixes) (dst : Gpr) (rm : RegMem)
  /-- C5 /r with `OperandSize` 32 (R277). -/
  | lds32 (p : Prefixes) (dst : Gpr) (rm : RegMem)
  /-- 0F B2 /r with `OperandSize` 16 (R278). -/
  | lss16 (p : Prefixes) (dst : Gpr) (rm : RegMem)
  /-- 0F B2 /r with `OperandSize` 32 (R279). -/
  | lss32 (p : Prefixes) (dst : Gpr) (rm : RegMem)
  /-- C4 /r with `OperandSize` 16 (R280). -/
  | les16 (p : Prefixes) (dst : Gpr) (rm : RegMem)
  /-- C4 /r with `OperandSize` 32 (R281). -/
  | les32 (p : Prefixes) (dst : Gpr) (rm : RegMem)
  /-- 0F B4 /r with `OperandSize` 16 (R282). -/
  | lfs16 (p : Prefixes) (dst : Gpr) (rm : RegMem)
  /-- 0F B4 /r with `OperandSize` 32 (R283). -/
  | lfs32 (p : Prefixes) (dst : Gpr) (rm : RegMem)
  /-- 0F B5 /r with `OperandSize` 16 (R284). -/
  | lgs16 (p : Prefixes) (dst : Gpr) (rm : RegMem)
  /-- 0F B5 /r with `OperandSize` 32 (R285). -/
  | lgs32 (p : Prefixes) (dst : Gpr) (rm : RegMem)
  /-- 0F 00 /2 (R301). -/
  | lldt (p : Prefixes) (rm : RegMem)
  /-- 0F 01 /6 (R305). -/
  | lmsw (p : Prefixes) (rm : RegMem)
  /-- F0 before the instruction `body` (R330, R335): LOCK is written before the instruction it
  prefixes and is part of it (log 28). -/
  | lock (body : Instr)
  /-- AC, with or without F3 (R352, R355). -/
  | lodsb (p : Prefixes) (rep : Bool)
  /-- AD with `OperandSize` 16, with or without F3 (R353, R355). -/
  | lodsw (p : Prefixes) (rep : Bool)
  /-- AD with `OperandSize` 32, with or without F3 (R354, R355). -/
  | lodsd (p : Prefixes) (rep : Bool)
  /-- E2 cb (R361). -/
  | loop (p : Prefixes) (rel8 : Byte)
  /-- E1 cb: LOOPE = LOOPZ (R362). -/
  | loope (p : Prefixes) (rel8 : Byte)
  /-- E0 cb: LOOPNE = LOOPNZ (R363). -/
  | loopne (p : Prefixes) (rel8 : Byte)
  /-- 0F 03 /r with `OperandSize` 16 (R382). -/
  | lsl16 (p : Prefixes) (dst : Gpr) (rm : RegMem)
  /-- 0F 03 /r with `OperandSize` 32 (R383). -/
  | lsl32 (p : Prefixes) (dst : Gpr) (rm : RegMem)
  /-- 0F 00 /3 (R386). -/
  | ltr (p : Prefixes) (rm : RegMem)
deriving DecidableEq, Repr

end Sys2Proof
end

