-- ==== Sys2Proof/WellFormed.lean ====
section
/-!
DEFINITION. Which terms of `Instr` stand for an encoding, given the code segment's default size `dflt`
(spec/30_encoding.md R148): the memory form must be one that the ModR/M and SIB bytes can name in the
address size in force, and a row that R154 tells apart by `OperandSize` must meet its size.
-/
namespace Sys2Proof

/-- `OperandSize`: the default, or the other size if a 66h byte stands there (R148). -/
def Prefixes.operandSize (p : Prefixes) (dflt : Size) : Size :=
  if p.opSize then dflt.other else dflt

/-- `AddressSize`: the default, or the other size if a 67h byte stands there (R148). -/
def Prefixes.addressSize (p : Prefixes) (dflt : Size) : Size :=
  if p.addrSize then dflt.other else dflt

/-- The address size a memory form belongs to (R146, R147). -/
def MemOp.size : MemOp → Size
  | .based16 _ _ | .direct16 _ => .w16
  | .based32 _ _ | .direct32 _ | .sib _ _ _ | .sibDirect _ _ => .w32

/-- ESP cannot be an index (R147). -/
def indexOk : Option (Gpr × Scale) → Bool
  | none => true
  | some (r, _) => r != .esp

/-- The shapes that R146 and R147 can name: [BP] and [EBP] without a displacement do not exist, and a
base of ESP needs a SIB byte. -/
def MemOp.shapeOk : MemOp → Bool
  | .based16 b d => !(b == .bp && d == .zero)
  | .direct16 _ => true
  | .based32 b d => b != .esp && !(b == .ebp && d == .zero)
  | .direct32 _ => true
  | .sib b x d => indexOk x && !(b == .ebp && d == .zero)
  | .sibDirect x _ => indexOk x

/-- A memory operand that the address size `asz` can encode. -/
def MemOp.wf (asz : Size) (m : MemOp) : Bool :=
  m.size == asz && m.shapeOk

/-- An operand of `mod` and `r/m` that the address size `asz` can encode (R144). -/
def RegMem.wf (asz : Size) : RegMem → Bool
  | .reg _ => true
  | .mem m => m.wf asz

/-- The instructions that F0 may be joined to in this spec: not a second F0, and not F3 (R142, R335). -/
def Instr.takesLock : Instr → Bool
  | .lock _ => false
  | .lodsb _ rep | .lodsw _ rep | .lodsd _ rep => !rep
  | _ => true

/-- The terms that stand for an encoding where the default size is `dflt` (R142, R148, R154). -/
def Instr.wf (dflt : Size) : Instr → Bool
  | .lahf _ => true
  | .lar16 p _ rm | .lea16 p _ rm | .lds16 p _ rm | .lss16 p _ rm | .les16 p _ rm | .lfs16 p _ rm
  | .lgs16 p _ rm | .lsl16 p _ rm => p.operandSize dflt == .w16 && rm.wf (p.addressSize dflt)
  | .lar32 p _ rm | .lea32 p _ rm | .lds32 p _ rm | .lss32 p _ rm | .les32 p _ rm | .lfs32 p _ rm
  | .lgs32 p _ rm | .lsl32 p _ rm => p.operandSize dflt == .w32 && rm.wf (p.addressSize dflt)
  | .leave16 p => p.operandSize dflt == .w16
  | .leave32 p => p.operandSize dflt == .w32
  | .lgdt p rm | .lidt p rm | .lldt p rm | .lmsw p rm | .ltr p rm => rm.wf (p.addressSize dflt)
  | .lock body => body.takesLock && body.wf dflt
  | .lodsb _ _ => true
  | .lodsw p _ => p.operandSize dflt == .w16
  | .lodsd p _ => p.operandSize dflt == .w32
  | .loop _ _ | .loope _ _ | .loopne _ _ => true

end Sys2Proof
end

