-- ==== Sys2Proof/Decode.lean ====
section
/-!
DEFINITION. The decoder (spec/30_encoding.md R140 to R161), total on any bytes and rejecting by name, and
after it the encoder, written from the same tables. The default size of the code segment (R148) is an
argument of the decoder.
-/
namespace Sys2Proof

/-! ## Fields of bytes -/

/-- Register numbers (spec/10_state.md R30). -/
def Gpr.toBits : Gpr → BitVec 3
  | .eax => 0#3 | .ecx => 1#3 | .edx => 2#3 | .ebx => 3#3
  | .esp => 4#3 | .ebp => 5#3 | .esi => 6#3 | .edi => 7#3

/-- The register of a number (spec/10_state.md R30). -/
def Gpr.ofBits (b : BitVec 3) : Gpr :=
  match b.toNat with
  | 0 => .eax | 1 => .ecx | 2 => .edx | 3 => .ebx
  | 4 => .esp | 5 => .ebp | 6 => .esi | _ => .edi

/-- The `r/m` number of a 16-bit form (R146). -/
def Base16.toBits : Base16 → BitVec 3
  | .bxSi => 0#3 | .bxDi => 1#3 | .bpSi => 2#3 | .bpDi => 3#3
  | .si => 4#3 | .di => 5#3 | .bp => 6#3 | .bx => 7#3

/-- The 16-bit form of an `r/m` number (R146). -/
def Base16.ofBits (b : BitVec 3) : Base16 :=
  match b.toNat with
  | 0 => .bxSi | 1 => .bxDi | 2 => .bpSi | 3 => .bpDi
  | 4 => .si | 5 => .di | 6 => .bp | _ => .bx

/-- The `scale` field (R147). -/
def Scale.toBits : Scale → BitVec 2
  | .x1 => 0#2 | .x2 => 1#2 | .x4 => 2#2 | .x8 => 3#2

/-- The factor of a `scale` field (R147). -/
def Scale.ofBits (b : BitVec 2) : Scale :=
  match b.toNat with
  | 0 => .x1 | 1 => .x2 | 2 => .x4 | _ => .x8

/-- The top two bits of a ModR/M or SIB byte: `mod` or `scale` (R144, R145). -/
def field76 (b : Byte) : BitVec 2 := b.extractLsb' 6 2

/-- The middle three bits: `reg` or `index` (R144, R145). -/
def field53 (b : Byte) : BitVec 3 := b.extractLsb' 3 3

/-- The low three bits: `r/m` or `base` (R144, R145). -/
def field20 (b : Byte) : BitVec 3 := b.extractLsb' 0 3

/-- A ModR/M or SIB byte from its three fields (R144, R145). -/
def joinFields (hi : BitVec 2) (mid lo : BitVec 3) : Byte := (hi ++ mid) ++ lo

/-! ## Reading bytes -/

/-- Why a byte sequence is refused. Every one is a refusal of the MODEL where spec/30_encoding.md asks for
it, not an exception of the machine. -/
inductive DecodeRefusal where
  /-- An opcode, or a `reg` value of 0F 00 or 0F 01, that R154 does not list (R156, R161). -/
  | opcodeNotInScope
  /-- Two prefix bytes of one group (R142). -/
  | repeatedPrefix
  /-- F3 before an instruction other than LODS (R160). -/
  | repBeforeNonLods
  /-- F2 before an instruction of R154 (R160). -/
  | repneUnsupported
  /-- A SIB byte with `index` = 100 and `scale` not 00 (R147). -/
  | scaledMissingIndex
deriving DecidableEq, Repr

/-- What reading a part of an instruction from bytes can give: more bytes are needed, a refusal, or the
part and the bytes after it. -/
inductive Parse (α : Type) where
  | more
  | refuse (r : DecodeRefusal)
  | ok (a : α) (rest : List Byte)
deriving DecidableEq, Repr

/-- Read one part, then the next from the bytes after it. -/
def Parse.andThen {α β : Type} (x : Parse α) (f : α → List Byte → Parse β) : Parse β :=
  match x with
  | .more => .more
  | .refuse r => .refuse r
  | .ok a rest => f a rest

/-- One byte. -/
def takeByte : List Byte → Parse Byte
  | b :: rest => .ok b rest
  | [] => .more

/-- Two bytes, the low one first (R84, R140). -/
def takeWord : List Byte → Parse Word
  | b0 :: b1 :: rest => .ok (b1 ++ b0) rest
  | _ => .more

/-- Four bytes, the low one first (R84, R140). -/
def takeDword : List Byte → Parse Dword
  | b0 :: b1 :: b2 :: b3 :: rest => .ok ((b3 ++ b2) ++ (b1 ++ b0)) rest
  | _ => .more

/-! ## Prefix bytes -/

/-- The prefix group of which an instruction has at most one byte: F0, F3 or F2 (R142). -/
inductive Group1 where
  | lock
  | rep
  | repne
deriving DecidableEq, Repr

/-- A prefix byte, by its group (R141, R142). -/
inductive PrefixByte where
  | group1 (g : Group1)
  | opSize
  | addrSize
  | seg (k : SegReg)
deriving DecidableEq, Repr

/-- The prefix bytes (R141). -/
def prefixByte (b : Byte) : Option PrefixByte :=
  match b.toNat with
  | 0xF0 => some (.group1 .lock)
  | 0xF3 => some (.group1 .rep)
  | 0xF2 => some (.group1 .repne)
  | 0x66 => some .opSize
  | 0x67 => some .addrSize
  | 0x2E => some (.seg .cs)
  | 0x36 => some (.seg .ss)
  | 0x3E => some (.seg .ds)
  | 0x26 => some (.seg .es)
  | 0x64 => some (.seg .fs)
  | 0x65 => some (.seg .gs)
  | _ => none

/-- The prefix bytes read so far: the first of each group, and whether a group came twice (R142). -/
structure PrefixState where
  group1 : Option Group1
  p : Prefixes
  repeated : Bool
deriving DecidableEq, Repr

/-- No prefix byte read. -/
def PrefixState.empty : PrefixState where
  group1 := none
  p := .empty
  repeated := false

/-- Add a prefix byte. One whose group already has one is only noted: the instruction is refused for it once
its bytes are all read (R142, R430 steps 1 and 2), and how many they are does not depend on which byte of the
group counts. -/
def PrefixState.add (s : PrefixState) : PrefixByte → PrefixState
  | .group1 g => if s.group1.isSome then { s with repeated := true } else { s with group1 := some g }
  | .opSize => if s.p.opSize then { s with repeated := true } else { s with p := { s.p with opSize := true } }
  | .addrSize => if s.p.addrSize then { s with repeated := true } else { s with p := { s.p with addrSize := true } }
  | .seg k => if s.p.seg.isSome then { s with repeated := true } else { s with p := { s.p with seg := some k } }

/-- The prefix bytes and the first byte that is none: the opcode (R143, R155). -/
def parsePrefixes (s : PrefixState) : List Byte → Parse (PrefixState × Byte)
  | [] => .more
  | b :: rest =>
    match prefixByte b with
    | none => .ok (s, b) rest
    | some x => parsePrefixes (s.add x) rest

/-! ## ModR/M, SIB and displacement -/

/-- The displacement that `mod` asks for with `AddressSize` 16 (R146, R155). -/
def parseDisp16 (mod : BitVec 2) (bs : List Byte) : Parse Disp16 :=
  match mod.toNat with
  | 0 => .ok .zero bs
  | 1 => (takeByte bs).andThen fun d rest => .ok (.disp8 d) rest
  | _ => (takeWord bs).andThen fun d rest => .ok (.disp16 d) rest

/-- The displacement that `mod` asks for with `AddressSize` 32 (R147, R155). -/
def parseDisp32 (mod : BitVec 2) (bs : List Byte) : Parse Disp32 :=
  match mod.toNat with
  | 0 => .ok .zero bs
  | 1 => (takeByte bs).andThen fun d rest => .ok (.disp8 d) rest
  | _ => (takeDword bs).andThen fun d rest => .ok (.disp32 d) rest

/-- The memory operand of `mod` (not 11) and `r/m` with `AddressSize` 16 (R146). -/
def parseMem16 (mod : BitVec 2) (rm : BitVec 3) (bs : List Byte) : Parse MemOp :=
  if mod = 0#2 ∧ rm = 6#3 then
    (takeWord bs).andThen fun d rest => .ok (.direct16 d) rest
  else
    (parseDisp16 mod bs).andThen fun d rest => .ok (.based16 (.ofBits rm) d) rest

/-- The index a SIB byte names, the memory operand made with it, and the refusal of `index` = 100 with a
`scale` (R147). The displacement is read first, so that every byte of the encoding is fetched before it
is refused (R430). -/
def withIndex (sib : Byte) (make : Option (Gpr × Scale) → MemOp) (rest : List Byte) : Parse MemOp :=
  if field53 sib = 4#3 then
    if field76 sib = 0#2 then .ok (make none) rest else .refuse .scaledMissingIndex
  else .ok (make (some (.ofBits (field53 sib), .ofBits (field76 sib)))) rest

/-- The memory operand of a SIB byte (R147). -/
def parseSib (mod : BitVec 2) (sib : Byte) (bs : List Byte) : Parse MemOp :=
  if field20 sib = 5#3 ∧ mod = 0#2 then
    (takeDword bs).andThen fun d rest => withIndex sib (fun x => .sibDirect x d) rest
  else
    (parseDisp32 mod bs).andThen fun d rest =>
      withIndex sib (fun x => .sib (.ofBits (field20 sib)) x d) rest

/-- The memory operand of `mod` (not 11) and `r/m` with `AddressSize` 32 (R147). -/
def parseMem32 (mod : BitVec 2) (rm : BitVec 3) (bs : List Byte) : Parse MemOp :=
  if rm = 4#3 then
    (takeByte bs).andThen fun sib rest => parseSib mod sib rest
  else if mod = 0#2 ∧ rm = 5#3 then
    (takeDword bs).andThen fun d rest => .ok (.direct32 d) rest
  else
    (parseDisp32 mod bs).andThen fun d rest => .ok (.based32 (.ofBits rm) d) rest

/-- The operand that a ModR/M byte names (R144). -/
def parseRegMem (asz : Size) (modrm : Byte) (bs : List Byte) : Parse RegMem :=
  if field76 modrm = 3#2 then .ok (.reg (.ofBits (field20 modrm))) bs
  else
    match asz with
    | .w16 => (parseMem16 (field76 modrm) (field20 modrm) bs).andThen fun m rest => .ok (.mem m) rest
    | .w32 => (parseMem32 (field76 modrm) (field20 modrm) bs).andThen fun m rest => .ok (.mem m) rest

/-! ## Opcodes -/

/-- What follows an opcode: the formats of R153, each with the instruction made of its operands. -/
inductive Format where
  /-- `OP`: nothing. -/
  | op (i : Instr)
  /-- `OP_CB`: one byte. -/
  | opCb (make : Byte → Instr)
  /-- `OP_MODRM` and `0F_OP_MODRM`: a ModR/M byte whose `reg` field is a register. -/
  | modRm (make : Gpr → RegMem → Instr)
  /-- `0F_OP_DIGIT`: a ModR/M byte whose `reg` field is part of the opcode. -/
  | digit (make : BitVec 3 → Option (RegMem → Instr))

/-- The row of two that share an opcode (R154). -/
def bySize {α : Type} (osz : Size) (i16 i32 : α) : α :=
  match osz with
  | .w16 => i16
  | .w32 => i32

/-- The opcodes of one byte (R154). -/
def oneByteOpcode (p : Prefixes) (osz : Size) (b : Byte) : Option Format :=
  match b.toNat with
  | 0x9F => some (.op (.lahf p))
  | 0x8D => some (.modRm (bySize osz (.lea16 p) (.lea32 p)))
  | 0xC9 => some (.op (bySize osz (.leave16 p) (.leave32 p)))
  | 0xC5 => some (.modRm (bySize osz (.lds16 p) (.lds32 p)))
  | 0xC4 => some (.modRm (bySize osz (.les16 p) (.les32 p)))
  | 0xAC => some (.op (.lodsb p false))
  | 0xAD => some (.op (bySize osz (.lodsw p false) (.lodsd p false)))
  | 0xE2 => some (.opCb (.loop p))
  | 0xE1 => some (.opCb (.loope p))
  | 0xE0 => some (.opCb (.loopne p))
  | _ => none

/-- Group 0F 00: /2 and /3 (R154, R156). -/
def group0F00 (p : Prefixes) (reg : BitVec 3) : Option (RegMem → Instr) :=
  match reg.toNat with
  | 2 => some (.lldt p)
  | 3 => some (.ltr p)
  | _ => none

/-- Group 0F 01: /2, /3 and /6 (R154, R156). -/
def group0F01 (p : Prefixes) (reg : BitVec 3) : Option (RegMem → Instr) :=
  match reg.toNat with
  | 2 => some (.lgdt p)
  | 3 => some (.lidt p)
  | 6 => some (.lmsw p)
  | _ => none

/-- The opcodes of two bytes, by the byte after 0F (R154). -/
def twoByteOpcode (p : Prefixes) (osz : Size) (b : Byte) : Option Format :=
  match b.toNat with
  | 0x00 => some (.digit (group0F00 p))
  | 0x01 => some (.digit (group0F01 p))
  | 0x02 => some (.modRm (bySize osz (.lar16 p) (.lar32 p)))
  | 0x03 => some (.modRm (bySize osz (.lsl16 p) (.lsl32 p)))
  | 0xB2 => some (.modRm (bySize osz (.lss16 p) (.lss32 p)))
  | 0xB4 => some (.modRm (bySize osz (.lfs16 p) (.lfs32 p)))
  | 0xB5 => some (.modRm (bySize osz (.lgs16 p) (.lgs32 p)))
  | _ => none

/-- Read what a format asks for (R153, R155). -/
def parseFormat (asz : Size) (f : Option Format) (bs : List Byte) : Parse Instr :=
  match f with
  | none => .refuse .opcodeNotInScope
  | some (.op i) => .ok i bs
  | some (.opCb make) => (takeByte bs).andThen fun d rest => .ok (make d) rest
  | some (.modRm make) =>
    (takeByte bs).andThen fun modrm rest =>
      (parseRegMem asz modrm rest).andThen fun rm rest' => .ok (make (.ofBits (field53 modrm)) rm) rest'
  | some (.digit make) =>
    (takeByte bs).andThen fun modrm rest =>
      match make (field53 modrm) with
      | none => .refuse .opcodeNotInScope
      | some make' => (parseRegMem asz modrm rest).andThen fun rm rest' => .ok (make' rm) rest'

/-- The instruction after its prefixes, from its opcode byte on (R143). -/
def parseBody (dflt : Size) (p : Prefixes) (opcode : Byte) (bs : List Byte) : Parse Instr :=
  if opcode = 0x0F#8 then
    (takeByte bs).andThen fun b rest =>
      parseFormat (p.addressSize dflt) (twoByteOpcode p (p.operandSize dflt) b) rest
  else parseFormat (p.addressSize dflt) (oneByteOpcode p (p.operandSize dflt) opcode) bs

/-- F3 joined to an instruction: LODS is repeated, every other is refused (R160, R355). -/
def repeated : Instr → Option Instr
  | .lodsb p _ => some (.lodsb p true)
  | .lodsw p _ => some (.lodsw p true)
  | .lodsd p _ => some (.lodsd p true)
  | _ => none

/-- F0, F3 or F2 joined to a whole instruction: R330 and R335, R355, R160; and the refusal of a prefix group
that came twice (R142). -/
def joinGroup1 (s : PrefixState) (i : Instr) (rest : List Byte) : Parse Instr :=
  if s.repeated then .refuse .repeatedPrefix
  else match s.group1 with
  | none => .ok i rest
  | some .lock => .ok (.lock i) rest
  | some .repne => .refuse .repneUnsupported
  | some .rep =>
    match repeated i with
    | some i' => .ok i' rest
    | none => .refuse .repBeforeNonLods

/-- The decoder (R140, R155): the instruction that the bytes begin with, where the code segment's default
size is `dflt`, and the bytes after it. -/
def decode (dflt : Size) (bs : List Byte) : Parse Instr :=
  (parsePrefixes .empty bs).andThen fun (s, opcode) rest =>
    (parseBody dflt s.p opcode rest).andThen fun i rest' => joinGroup1 s i rest'

/-! ## The encoder -/

/-- The bytes of a word, the low one first (R84). -/
def wordBytes (w : Word) : List Byte := [w.extractLsb' 0 8, w.extractLsb' 8 8]

/-- The bytes of a doubleword, the low one first (R84). -/
def dwordBytes (d : Dword) : List Byte :=
  [d.extractLsb' 0 8, d.extractLsb' 8 8, d.extractLsb' 16 8, d.extractLsb' 24 8]

/-- The segment-override bytes (R141). -/
def SegReg.overrideByte : SegReg → Byte
  | .es => 0x26#8 | .cs => 0x2E#8 | .ss => 0x36#8 | .ds => 0x3E#8 | .fs => 0x64#8 | .gs => 0x65#8

/-- The prefix bytes in one order of the many that R142 allows. -/
def Prefixes.bytes (p : Prefixes) : List Byte :=
  (if p.opSize then [0x66#8] else []) ++ (if p.addrSize then [0x67#8] else []) ++
    (match p.seg with
     | none => []
     | some k => [k.overrideByte])

/-- `mod` of a displacement, `AddressSize` 16 (R146). -/
def Disp16.mod : Disp16 → BitVec 2
  | .zero => 0#2 | .disp8 _ => 1#2 | .disp16 _ => 2#2

/-- The bytes of a displacement, `AddressSize` 16. -/
def Disp16.bytes : Disp16 → List Byte
  | .zero => [] | .disp8 d => [d] | .disp16 d => wordBytes d

/-- `mod` of a displacement, `AddressSize` 32 (R147). -/
def Disp32.mod : Disp32 → BitVec 2
  | .zero => 0#2 | .disp8 _ => 1#2 | .disp32 _ => 2#2

/-- The bytes of a displacement, `AddressSize` 32. -/
def Disp32.bytes : Disp32 → List Byte
  | .zero => [] | .disp8 d => [d] | .disp32 d => dwordBytes d

/-- The SIB byte (R145, R147). -/
def sibByte (base : BitVec 3) (index : Option (Gpr × Scale)) : Byte :=
  match index with
  | none => joinFields 0#2 4#3 base
  | some (r, f) => joinFields f.toBits r.toBits base

/-- `mod` of a memory form (R146, R147). -/
def MemOp.mod : MemOp → BitVec 2
  | .based16 _ d => d.mod
  | .based32 _ d | .sib _ _ d => d.mod
  | .direct16 _ | .direct32 _ | .sibDirect _ _ => 0#2

/-- `r/m` of a memory form (R146, R147). -/
def MemOp.rm : MemOp → BitVec 3
  | .based16 b _ => b.toBits
  | .direct16 _ => 6#3
  | .based32 b _ => b.toBits
  | .direct32 _ => 5#3
  | .sib _ _ _ | .sibDirect _ _ => 4#3

/-- The SIB and displacement bytes of a memory form (R146, R147). -/
def MemOp.tail : MemOp → List Byte
  | .based16 _ d => d.bytes
  | .direct16 d => wordBytes d
  | .based32 _ d => d.bytes
  | .direct32 d => dwordBytes d
  | .sib b x d => sibByte b.toBits x :: d.bytes
  | .sibDirect x d => sibByte 5#3 x :: dwordBytes d

/-- The ModR/M byte with the given `reg` field, and what follows it (R144). -/
def RegMem.bytes (reg : BitVec 3) : RegMem → List Byte
  | .reg r => [joinFields 3#2 reg r.toBits]
  | .mem m => joinFields m.mod reg m.rm :: m.tail

/-- The F3 byte of a repeated LODS (R355). -/
def repBytes (rep : Bool) : List Byte := if rep then [0xF3#8] else []

/-- The bytes of an instruction (R154). Of the orders of prefix bytes that R142 allows it picks F0 or F3,
66, 67, segment. -/
def encode : Instr → List Byte
  | .lahf p => p.bytes ++ [0x9F#8]
  | .lar16 p r rm | .lar32 p r rm => p.bytes ++ 0x0F#8 :: 0x02#8 :: rm.bytes r.toBits
  | .lea16 p r rm | .lea32 p r rm => p.bytes ++ 0x8D#8 :: rm.bytes r.toBits
  | .leave16 p | .leave32 p => p.bytes ++ [0xC9#8]
  | .lgdt p rm => p.bytes ++ 0x0F#8 :: 0x01#8 :: rm.bytes 2#3
  | .lidt p rm => p.bytes ++ 0x0F#8 :: 0x01#8 :: rm.bytes 3#3
  | .lds16 p r rm | .lds32 p r rm => p.bytes ++ 0xC5#8 :: rm.bytes r.toBits
  | .lss16 p r rm | .lss32 p r rm => p.bytes ++ 0x0F#8 :: 0xB2#8 :: rm.bytes r.toBits
  | .les16 p r rm | .les32 p r rm => p.bytes ++ 0xC4#8 :: rm.bytes r.toBits
  | .lfs16 p r rm | .lfs32 p r rm => p.bytes ++ 0x0F#8 :: 0xB4#8 :: rm.bytes r.toBits
  | .lgs16 p r rm | .lgs32 p r rm => p.bytes ++ 0x0F#8 :: 0xB5#8 :: rm.bytes r.toBits
  | .lldt p rm => p.bytes ++ 0x0F#8 :: 0x00#8 :: rm.bytes 2#3
  | .lmsw p rm => p.bytes ++ 0x0F#8 :: 0x01#8 :: rm.bytes 6#3
  | .lock i => 0xF0#8 :: encode i
  | .lodsb p rep => repBytes rep ++ (p.bytes ++ [0xAC#8])
  | .lodsw p rep | .lodsd p rep => repBytes rep ++ (p.bytes ++ [0xAD#8])
  | .loop p d => p.bytes ++ [0xE2#8, d]
  | .loope p d => p.bytes ++ [0xE1#8, d]
  | .loopne p d => p.bytes ++ [0xE0#8, d]
  | .lsl16 p r rm | .lsl32 p r rm => p.bytes ++ 0x0F#8 :: 0x03#8 :: rm.bytes r.toBits
  | .ltr p rm => p.bytes ++ 0x0F#8 :: 0x00#8 :: rm.bytes 3#3

/-! ## Length (R155) -/

/-- How many prefix bytes there are besides F0 and F3. -/
def Prefixes.length (p : Prefixes) : Nat :=
  (if p.opSize then 1 else 0) + (if p.addrSize then 1 else 0) + (if p.seg.isSome then 1 else 0)

/-- The displacement bytes, `AddressSize` 16. -/
def Disp16.length : Disp16 → Nat
  | .zero => 0 | .disp8 _ => 1 | .disp16 _ => 2

/-- The displacement bytes, `AddressSize` 32. -/
def Disp32.length : Disp32 → Nat
  | .zero => 0 | .disp8 _ => 1 | .disp32 _ => 4

/-- The SIB and displacement bytes. -/
def MemOp.length : MemOp → Nat
  | .based16 _ d => d.length
  | .direct16 _ => 2
  | .based32 _ d => d.length
  | .direct32 _ => 4
  | .sib _ _ d => 1 + d.length
  | .sibDirect _ _ => 5

/-- The ModR/M, SIB and displacement bytes. -/
def RegMem.length : RegMem → Nat
  | .reg _ => 1
  | .mem m => 1 + m.length

/-- The number of bytes of an instruction, prefixes included (R140, R155). -/
def Instr.length : Instr → Nat
  | .lahf p | .leave16 p | .leave32 p => p.length + 1
  | .lea16 p _ rm | .lea32 p _ rm | .lds16 p _ rm | .lds32 p _ rm | .les16 p _ rm | .les32 p _ rm =>
    p.length + 1 + rm.length
  | .lar16 p _ rm | .lar32 p _ rm | .lss16 p _ rm | .lss32 p _ rm | .lfs16 p _ rm | .lfs32 p _ rm
  | .lgs16 p _ rm | .lgs32 p _ rm | .lsl16 p _ rm | .lsl32 p _ rm => p.length + 2 + rm.length
  | .lgdt p rm | .lidt p rm | .lldt p rm | .lmsw p rm | .ltr p rm => p.length + 2 + rm.length
  | .lock i => 1 + i.length
  | .lodsb p rep | .lodsw p rep | .lodsd p rep => (if rep then 1 else 0) + p.length + 1
  | .loop p _ | .loope p _ | .loopne p _ => p.length + 2

/-! ## A word of the opcode table -/

/-- The length of the longest instruction that is not refused: four prefix bytes, two opcode bytes, ModR/M, SIB and a
displacement of four bytes (R142, R155). -/
def maxLength : Nat := 12

/-- The first `n` bytes of a number, the low one first. -/
def bytesOfNat : Nat → Nat → List Byte
  | 0, _ => []
  | n + 1, w => BitVec.ofNat 8 w :: bytesOfNat n (w / 256)

/-- The bytes of an instruction whose table bits are `w`, zeros above its `nbits` bits. -/
def tableBytes (nbits w : Nat) : List Byte := bytesOfNat maxLength (w % 2 ^ nbits)

/-- The instruction that the decoder reads from a word of spec/opcode_table.json, byte 0 of the
instruction in bits 7..0, with the default size 16 that the machine has after reset (log 24). -/
def decodeTableWord (nbits w : Nat) : Option Instr :=
  match decode .w16 (tableBytes nbits w) with
  | .ok i _ => some i
  | _ => none

end Sys2Proof
end

