-- ==== Sys2Proof/Machine/State.lean ====
section
/-!
DEFINITION. The state of the machine as plain data (spec/10_state.md), why a step can stop, and the state
after reset. Every field of `State` is listed in INVENTORY.md under "State".
-/
namespace Sys2Proof.Machine

/-- The eight general registers of 32 bits (R30). -/
structure Gprs where
  eax : Dword
  ecx : Dword
  edx : Dword
  ebx : Dword
  esp : Dword
  ebp : Dword
  esi : Dword
  edi : Dword
deriving DecidableEq, Repr, Inhabited

/-- A segment register: the visible selector and the hidden part loaded from a descriptor (R42, R43). `ar`
holds bits 23:20 of the descriptor's second doubleword above its bits 15:8, the order that R386 gives for TR:
bit 11 G, bit 10 D or B, bit 9 reserved, bit 8 AVL, bit 7 P, bits 6:5 DPL, bit 4 S, bits 3:0 type (log 31). -/
structure SegCache where
  sel : Word
  base : Dword
  limit : Dword
  ar : BitVec 12
  valid : Bool
deriving DecidableEq, Repr, Inhabited

/-- The six segment registers (R41). -/
structure SegRegs where
  es : SegCache
  cs : SegCache
  ss : SegCache
  ds : SegCache
  fs : SegCache
  gs : SegCache
deriving DecidableEq, Repr, Inhabited

/-- GDTR and IDTR (R47). -/
structure TableReg where
  base : Dword
  limit : Word
deriving DecidableEq, Repr, Inhabited

/-- LDTR (R48). -/
structure LdtReg where
  sel : Word
  base : Dword
  limit : Dword
  valid : Bool
deriving DecidableEq, Repr, Inhabited

/-- TR (R49); `ar` as in `SegCache`. -/
structure TaskReg where
  sel : Word
  base : Dword
  limit : Dword
  ar : BitVec 12
deriving DecidableEq, Repr, Inhabited

/-- A translation kept in the translation buffer (spec/20_memory.md R106): for a page, bits 31:12 of a linear
address, the frame and the rights that its two page entries gave together, and whether the table entry's
D bit was set by then. -/
structure TlbEntry where
  page : BitVec 20
  frame : BitVec 20
  user : Bool
  writable : Bool
  dirty : Bool
deriving DecidableEq, Repr

/-- Physical memory (spec/20_memory.md R81): the bytes that differ from what an unlisted address reads as,
with their addresses, in the canonical form of `Memory.wf`. -/
abbrev Memory := List Host.Cell

/-- The state of the machine. -/
structure State where
  gpr : Gprs
  /-- EIP (R35). -/
  eip : Dword
  /-- EFLAGS (R37). -/
  eflags : Dword
  seg : SegRegs
  gdtr : TableReg
  idtr : TableReg
  ldtr : LdtReg
  tr : TaskReg
  /-- CR0, whose low half is the machine status word (R50). -/
  cr0 : Dword
  /-- CR2, CR3, DR0 to DR3, DR6, DR7, TR6 and TR7: the registers of R51, which no in-scope instruction names; CR3 locates
  the page directory. No rule gives the width of CR2, of a debug or of a test register: 32 bits for each, the family's
  (log 30: PRESUMED). -/
  cr2 : Dword
  cr3 : Dword
  dr0 : Dword
  dr1 : Dword
  dr2 : Dword
  dr3 : Dword
  dr6 : Dword
  dr7 : Dword
  tr6 : Dword
  tr7 : Dword
  mem : Memory
  /-- The translation buffer: "Translations are cached in a TLB" (spec/20_memory.md R106; log 9). -/
  tlb : List TlbEntry
  /-- An LMSW has just set PE, and the jump it needs has not been executed (spec/70_reset_and_hazards.md R478). -/
  peJustSet : Bool
  /-- The MODEL's own: how many free values the run has drawn (log 6). -/
  draws : Nat
  /-- The MODEL's own: the configuration parameters, constant in a run (log 5). -/
  cfg : Config
deriving DecidableEq, Repr, Inhabited

/-- The exceptions of the machine (spec/60_exceptions.md R420 to R424): an exception ends the step in the
spec's outcome `Fault(vector, code, pc, la)` (R436), and the state is the one before the instruction. `code` is
absent where none is delivered; `pc` is the faulting instruction's first byte. All are raised by
`takeException` alone. Each is SAFE: the run stops where the hardware would enter a handler (log 1). -/
inductive Fault where
  /-- #UD, vector 6: LEA, LGDT, LIDT or a full-pointer load of a register; LOCK; LAR, LSL, LLDT, LTR
  outside Protected Mode. Safe. -/
  | invalidOpcode (pc : Dword)
  /-- #NP, vector 11: a segment, LDT or TSS that is not present. Safe. -/
  | segmentNotPresent (code : Option Dword) (pc : Dword)
  /-- #SS, vector 12: an address outside the stack segment, or a new stack segment that is not present.
  Safe. -/
  | stackFault (code : Option Dword) (pc : Dword)
  /-- #GP, vector 13: every other protection or limit violation. Safe. -/
  | generalProtection (code : Option Dword) (pc : Dword)
  /-- #PF, vector 14: `Translate` refused a linear address, `la`. Safe. -/
  | pageFault (code : Option Dword) (pc la : Dword)
deriving DecidableEq, Repr

/-- Why the MODEL has no next state although the machine may have one. -/
inductive Refusal where
  /-- Raised by no arm of `exec`: kept for an instruction without a meaning. Safe. -/
  | notModelled (mnemonic : String)
  /-- Raised by `step` when the decoder refuses the bytes at the program counter (spec/30_encoding.md R142,
  R147, R160, R161), once all of them are fetched (spec/60_exceptions.md R430; log 20). Safe: nothing is claimed
  of such an instruction. -/
  | undecoded (reason : DecodeRefusal)
  /-- Raised by `step` for every instruction directly after an LMSW that set PE: "instruction after
  mode-switching LMSW is not an intrasegment jump" (spec/70_reset_and_hazards.md R478). Safe. -/
  | afterModeSwitch
deriving DecidableEq, Repr

/-- SS, DS, ES, FS and GS after reset (R59): selector 0, base 0, limit FFFFh, valid; writable data (R100). -/
def SegCache.afterReset : SegCache where
  sel := 0#16
  base := 0#32
  limit := 0xFFFF#32
  ar := 0x093#12
  valid := true

/-- The machine right after reset: the values of R59, all marked there as general knowledge (PRESUMED, log 2);
where R59 says "undefined" or nothing, zero and what log 3 names (DESIGN CHOICE). -/
def State.reset : State where
  gpr :=
    { eax := 0#32, ecx := 0#32, edx := 0x300#32, ebx := 0#32, esp := 0#32, ebp := 0#32, esi := 0#32
      edi := 0#32 }
  eip := 0xFFF0#32
  eflags := 0x2#32
  seg :=
    { es := .afterReset
      cs := { sel := 0xF000#16, base := 0xFFFF0000#32, limit := 0xFFFF#32, ar := 0x09B#12, valid := true }
      ss := .afterReset
      ds := .afterReset
      fs := .afterReset
      gs := .afterReset }
  gdtr := { base := 0#32, limit := 0#16 }
  idtr := { base := 0#32, limit := 0x3FF#16 }
  ldtr := { sel := 0#16, base := 0#32, limit := 0#32, valid := false }
  tr := { sel := 0#16, base := 0#32, limit := 0#32, ar := 0#12 }
  cr0 := 0#32
  cr2 := 0#32
  cr3 := 0#32
  dr0 := 0#32
  dr1 := 0#32
  dr2 := 0#32
  dr3 := 0#32
  dr6 := 0#32
  dr7 := 0#32
  tr6 := 0#32
  tr7 := 0#32
  mem := []
  tlb := []
  peJustSet := false
  draws := 0
  cfg := .recommended

end Sys2Proof.Machine
end

