-- ==== Sys2Proof/Machine/Flags.lean ====
section
/-!
DEFINITION. EFLAGS (spec/10_state.md R37): every flag by its bit, the one flag that in-scope instructions
write (R38), and the byte that LAHF delivers (spec/40_lahf.md R200).
-/
namespace Sys2Proof.Machine

/-- Carry, bit 0. -/
def State.cf (s : State) : Bool := s.eflags.getLsbD 0
/-- Parity, bit 2. -/
def State.pf (s : State) : Bool := s.eflags.getLsbD 2
/-- Auxiliary carry, bit 4. -/
def State.af (s : State) : Bool := s.eflags.getLsbD 4
/-- Zero, bit 6. -/
def State.zf (s : State) : Bool := s.eflags.getLsbD 6
/-- Sign, bit 7. -/
def State.sf (s : State) : Bool := s.eflags.getLsbD 7
/-- Trap, bit 8: nothing reads it, single-stepping is not modelled (spec/60_exceptions.md R444; log 18). -/
def State.tf (s : State) : Bool := s.eflags.getLsbD 8
/-- Interrupt enable, bit 9: "never read or written by an in-scope instruction" (R440). -/
def State.intf (s : State) : Bool := s.eflags.getLsbD 9
/-- Direction, bit 10. -/
def State.df (s : State) : Bool := s.eflags.getLsbD 10
/-- Overflow, bit 11. -/
def State.of (s : State) : Bool := s.eflags.getLsbD 11
/-- I/O privilege level, bits 13:12: "No in-scope instruction depends on IOPL" (R438). -/
def State.iopl (s : State) : BitVec 2 := s.eflags.extractLsb' 12 2
/-- Nested task, bit 14. -/
def State.nt (s : State) : Bool := s.eflags.getLsbD 14
/-- Resume, bit 16. -/
def State.rf (s : State) : Bool := s.eflags.getLsbD 16
/-- Virtual 8086 Mode, bit 17. -/
def State.vm (s : State) : Bool := s.eflags.getLsbD 17

/-- Bit 6 of an EFLAGS value replaced. -/
def withZf (flags : Dword) (z : Bool) : Dword :=
  if z then flags ||| 0x40#32 else flags &&& 0xFFFFFFBF#32

/-- ZF written, every other flag kept: the writes of LAR and LSL (R38). -/
def State.setZf (s : State) (z : Bool) : State := { s with eflags := withZf s.eflags z }

/-- `AH <- SF:ZF:xx:AF:xx:PF:xx:CF` (R200): the three "xx" bits, 5, 3 and 1, are free values, the next three
the run draws (log 6). -/
def State.flagsByte (s : State) : Byte :=
  BitVec.ofBool s.sf ++ BitVec.ofBool s.zf ++ Config.draw 1 s.draws ++ BitVec.ofBool s.af ++
    Config.draw 1 (s.draws + 1) ++ BitVec.ofBool s.pf ++ Config.draw 1 (s.draws + 2) ++
    BitVec.ofBool s.cf

end Sys2Proof.Machine
end

