-- ==== Sys2Proof/Machine/Memory.lean ====
section
/-!
DEFINITION. Physical memory (spec/20_memory.md R81, R84): one byte read and written in the canonical list,
and items of several bytes, little-endian.
-/
namespace Sys2Proof.Machine

/-- What an address that memory does not list reads as (log 4: DESIGN CHOICE, unsafe). -/
def unlistedByte : Byte := 0#8

/-- The byte at an address. -/
def Memory.read : Memory → Nat → Byte
  | [], _ => unlistedByte
  | (k, v) :: rest, a => if k = a then v else Memory.read rest a

/-- Put a byte in front of the rest of memory, unless it is what an unlisted address reads as. -/
def Memory.place (a : Nat) (b : Byte) (rest : Memory) : Memory :=
  if b = unlistedByte then rest else (a, b) :: rest

/-- The byte at an address replaced, the canonical form kept. -/
def Memory.write : Memory → Nat → Byte → Memory
  | [], a, b => Memory.place a b []
  | (k, v) :: rest, a, b =>
    if a < k then Memory.place a b ((k, v) :: rest)
    else if a = k then Memory.place a b rest
    else (k, v) :: Memory.write rest a b

/-- The addresses rise strictly from `lo` on, and no entry is what an unlisted address reads as. -/
def Memory.wfFrom (lo : Nat) : Memory → Bool
  | [] => true
  | (k, v) :: rest => decide (lo ≤ k) && decide (k < 2 ^ 32) && decide (v ≠ unlistedByte) && Memory.wfFrom (k + 1) rest

/-- The canonical form: addresses strictly rising and below 2^32 (R80), no entry equal to what an unlisted
address reads as. -/
def Memory.wf (m : Memory) : Bool := Memory.wfFrom 0 m

/-- The byte at a physical address (R81). -/
def Memory.byteAt (m : Memory) (pa : Dword) : Byte := Memory.read m pa.toNat

/-- The byte at a physical address replaced. -/
def Memory.setByte (m : Memory) (pa : Dword) (b : Byte) : Memory := Memory.write m pa.toNat b

/-- The number whose bytes stand at the given physical addresses, the first the least significant (R84). -/
def Memory.number (m : Memory) : List Dword → Nat
  | [] => 0
  | pa :: rest => (Memory.byteAt m pa).toNat + 256 * Memory.number m rest

/-- The bytes of a number stored at the given physical addresses, the least significant first (R84). -/
def Memory.setNumber (m : Memory) : List Dword → Nat → Memory
  | [], _ => m
  | pa :: rest, v => Memory.setNumber (Memory.setByte m pa (BitVec.ofNat 8 v)) rest (v / 256)

/-- Bytes stored one after another, each at its address. -/
def Memory.storeAll (m : Memory) : List (Dword × Byte) → Memory
  | [] => m
  | (a, b) :: rest => Memory.storeAll (Memory.setByte m a b) rest

/-- The `n` addresses from `pa` on (R84). -/
def consecutive (pa : Dword) : Nat → List Dword
  | 0 => []
  | n + 1 => pa :: consecutive (pa + 1#32) n

/-- `MemRead(pa, 4)` (R84), for the entries of the page directory and page tables (R106). -/
def Memory.dwordAt (m : Memory) (pa : Dword) : Dword :=
  (Memory.byteAt m (pa + 3#32) ++ Memory.byteAt m (pa + 2#32)) ++
    (Memory.byteAt m (pa + 1#32) ++ Memory.byteAt m pa)

end Sys2Proof.Machine
end

