-- ==== Sys2Proof/Machine/Ops.lean ====
section
/-!
DEFINITION. The named operations over registers and memory: register access (spec/00_scope.md R12), mode and
privilege (spec/10_state.md R52, R53), TAKING AN EXCEPTION (spec/60_exceptions.md R436), linear access with
address translation (spec/20_memory.md R105, R106) and segment-relative access (R88 to R92).

An operation that can raise answers in `Except Fault`. One that reads memory answers the value AND the state
after the read: with the page walk of R106 a read sets Accessed bits; in every other case it is the state before.
-/
namespace Sys2Proof.Machine

/-! ## Registers (R12) -/

/-- `x[i]`. -/
def Gprs.get (g : Gprs) : Gpr → Dword
  | .eax => g.eax | .ecx => g.ecx | .edx => g.edx | .ebx => g.ebx
  | .esp => g.esp | .ebp => g.ebp | .esi => g.esi | .edi => g.edi

/-- `x[i] <- v`. -/
def Gprs.set (g : Gprs) (r : Gpr) (v : Dword) : Gprs :=
  match r with
  | .eax => { g with eax := v } | .ecx => { g with ecx := v } | .edx => { g with edx := v }
  | .ebx => { g with ebx := v } | .esp => { g with esp := v } | .ebp => { g with ebp := v }
  | .esi => { g with esi := v } | .edi => { g with edi := v }

/-- Bits 15:0 of a doubleword. -/
def lowWord (d : Dword) : Word := d.extractLsb' 0 16

/-- A doubleword with bits 15:0 replaced (R31). -/
def withLowWord (d : Dword) (v : Word) : Dword := d.extractLsb' 16 16 ++ v

/-- A doubleword with bits 7:0 replaced (R32). -/
def withByte0 (d : Dword) (v : Byte) : Dword := d.extractLsb' 8 24 ++ v

/-- A doubleword with bits 15:8 replaced (R32). -/
def withByte1 (d : Dword) (v : Byte) : Dword := (d.extractLsb' 16 16 ++ v) ++ d.extractLsb' 0 8

/-- `x[i]`. -/
def State.reg32 (s : State) (r : Gpr) : Dword := s.gpr.get r

/-- `x[i] <- v`. -/
def State.setReg32 (s : State) (r : Gpr) (v : Dword) : State := { s with gpr := s.gpr.set r v }

/-- `x16[i]` (R31). -/
def State.reg16 (s : State) (r : Gpr) : Word := lowWord (s.reg32 r)

/-- `x16[i] <- v`: bits 31:16 keep their value (R31). -/
def State.setReg16 (s : State) (r : Gpr) (v : Word) : State :=
  s.setReg32 r (withLowWord (s.reg32 r) v)

/-- The 8-bit views, in the order of their numbers 0 to 7 (R32). -/
inductive Reg8 where
  | al | cl | dl | bl | ah | ch | dh | bh
deriving DecidableEq, Repr

/-- The register of which an 8-bit view is a part. -/
def Reg8.home : Reg8 → Gpr
  | .al | .ah => .eax | .cl | .ch => .ecx | .dl | .dh => .edx | .bl | .bh => .ebx

/-- Whether an 8-bit view is bits 15:8, not 7:0. -/
def Reg8.high : Reg8 → Bool
  | .al | .cl | .dl | .bl => false
  | .ah | .ch | .dh | .bh => true

/-- `x8[i]` (R12). -/
def State.reg8 (s : State) (r : Reg8) : Byte :=
  (s.reg32 r.home).extractLsb' (if r.high then 8 else 0) 8

/-- `x8[i] <- v`: only those 8 bits change (R32). -/
def State.setReg8 (s : State) (r : Reg8) (v : Byte) : State :=
  s.setReg32 r.home
    (if r.high then withByte1 (s.reg32 r.home) v else withByte0 (s.reg32 r.home) v)

/-- `reg_N(i)`, zero-extended to 32 bits. -/
def State.regN (s : State) (n : Size) (r : Gpr) : Dword :=
  match n with
  | .w16 => (s.reg16 r).setWidth 32
  | .w32 => s.reg32 r

/-- `reg_N(i) <- v`, of whose bits N are stored. -/
def State.setRegN (s : State) (n : Size) (r : Gpr) (v : Dword) : State :=
  match n with
  | .w16 => s.setReg16 r (lowWord v)
  | .w32 => s.setReg32 r v

/-- `S[k]`. -/
def SegRegs.get (g : SegRegs) : SegReg → SegCache
  | .es => g.es | .cs => g.cs | .ss => g.ss | .ds => g.ds | .fs => g.fs | .gs => g.gs

/-- `S[k]` replaced. -/
def SegRegs.set (g : SegRegs) (k : SegReg) (c : SegCache) : SegRegs :=
  match k with
  | .es => { g with es := c } | .cs => { g with cs := c } | .ss => { g with ss := c }
  | .ds => { g with ds := c } | .fs => { g with fs := c } | .gs => { g with gs := c }

/-- `S[k]` replaced. -/
def State.setSeg (s : State) (k : SegReg) (c : SegCache) : State := { s with seg := s.seg.set k c }

/-- `pc <- t`. -/
def State.setEip (s : State) (t : Dword) : State := { s with eip := t }

/-- `next_pc`: the offset after the last byte of the instruction (R36). -/
def State.nextPc (s : State) (i : Instr) : Dword := s.eip + BitVec.ofNat 32 i.length

/-- `pc <- next_pc` (R12, R36). -/
def State.retire (s : State) (i : Instr) : State := s.setEip (s.nextPc i)

/-! ## Attribute bits of a segment (R94, R95) -/

/-- S: a code or data segment. -/
def arS (ar : BitVec 12) : Bool := ar.getLsbD 4
/-- The segment is a code segment: S = 1 and type bit 3. -/
def arCode (ar : BitVec 12) : Bool := arS ar && ar.getLsbD 3
/-- The segment is a data segment: S = 1 and not type bit 3. -/
def arData (ar : BitVec 12) : Bool := arS ar && !ar.getLsbD 3
/-- Type bit 2 of a data segment: expand-down. -/
def arExpandDown (ar : BitVec 12) : Bool := arData ar && ar.getLsbD 2
/-- Type bit 1: writable if a data segment, readable if a code segment. -/
def arRW (ar : BitVec 12) : Bool := ar.getLsbD 1
/-- D of a code segment, B of a data segment: bit 22 of the second doubleword. -/
def arBig (ar : BitVec 12) : Bool := ar.getLsbD 10

/-- `Readable(ar)` (R90): false only for a code segment that is execute-only. -/
def readable (ar : BitVec 12) : Bool := !(arCode ar && !arRW ar)

/-! ## Mode, privilege and default sizes -/

/-- The three operating modes (R3, R52). -/
inductive Mode where
  | real
  | prot
  | v86
deriving DecidableEq, Repr

/-- CR0.PE. -/
def State.pe (s : State) : Bool := s.cr0.getLsbD 0

/-- The mode, from CR0.PE and EFLAGS.VM (R52). -/
def State.mode (s : State) : Mode :=
  if s.pe then (if s.vm then .v86 else .prot) else .real

/-- CPL (R53): CS's low two bits in Protected Mode, 0 in Real Address Mode, 3 in Virtual 8086 Mode. After
the LMSW that entered Protected Mode and until the jump it needs, CPL is still 0 (R53, R306; log 10). -/
def State.cpl (s : State) : BitVec 2 :=
  match s.mode with
  | .real => 0#2
  | .v86 => 3#2
  | .prot => if s.peJustSet then 0#2 else s.seg.cs.sel.extractLsb' 0 2

/-- `Dflt` (R148): 32 only in Protected Mode with CS's D bit set. -/
def State.dflt (s : State) : Size :=
  if s.mode = .prot ∧ arBig s.seg.cs.ar = true then .w32 else .w16

/-- `StackAddrSize` (R45, D35): by SS's B bit in Protected Mode, 16 in Virtual 8086 Mode, and 16 in Real Address
Mode but for the model's parameter, which follows R45's "unless" (log 13). -/
def State.stackAddrSize (s : State) : Size :=
  if arBig s.seg.ss.ar = true ∧ (s.mode = .prot ∨ (s.mode = .real ∧ s.cfg.realStackByB = true)) then .w32
  else .w16

/-! ## Taking an exception (R14, R436)

There is no return from one beside it: "The sources name no return instruction" (R433). -/

/-- An exception as an instruction raises it, with its error code where it has one. -/
inductive Exc where
  | ud
  | np (code : Dword)
  | ss (code : Dword)
  | gp (code : Dword)
  | pf (code la : Dword)
deriving DecidableEq, Repr

/-- The error code delivered: none in Real Address Mode (R421, R425; log 14). -/
def State.errorCode (s : State) (code : Dword) : Option Dword :=
  if s.mode = .real then none else some code

/-- Taking an exception: "`raise X(code)` ends the step with the outcome `Fault(vector, code, pc, la)`", the
state being the one before the instruction (R436). -/
def takeException (s : State) : Exc → Fault
  | .ud => .invalidOpcode s.eip
  | .np code => .segmentNotPresent (s.errorCode code) s.eip
  | .ss code => .stackFault (s.errorCode code) s.eip
  | .gp code => .generalProtection (s.errorCode code) s.eip
  | .pf code la => .pageFault (s.errorCode code) s.eip la

/-- Raise an exception in the middle of an instruction. -/
def raise {α : Type} (s : State) (e : Exc) : Except Fault α := .error (takeException s e)

/-- `vector` of the outcome (R420 to R424). -/
def Fault.vector : Fault → Nat
  | .invalidOpcode _ => 6
  | .segmentNotPresent _ _ => 11
  | .stackFault _ _ => 12
  | .generalProtection _ _ => 13
  | .pageFault _ _ _ => 14

/-- `code` of the outcome (R427 to R429). -/
def Fault.code : Fault → Option Dword
  | .invalidOpcode _ => none
  | .segmentNotPresent c _ | .stackFault c _ | .generalProtection c _ | .pageFault c _ _ => c

/-- `pc` of the outcome (R431). -/
def Fault.pc : Fault → Dword
  | .invalidOpcode pc | .segmentNotPresent _ pc | .stackFault _ pc | .generalProtection _ pc
  | .pageFault _ pc _ => pc

/-- `la` of the outcome: the faulting linear address of a page fault (R436). -/
def Fault.la : Fault → Option Dword
  | .pageFault _ _ la => some la
  | _ => none

/-- The error code that names a selector: RPL, EXT and IDT bits 0 (R428). -/
def selectorCode (sel : Word) : Dword := (sel &&& 0xFFFC#16).setWidth 32

/-- What a meaning answers: the next state, or the exception taken. -/
def settle (r : Except Fault State) : Host.Outcome State Fault Refusal :=
  match r with
  | .ok s => .next s
  | .error f => .fault f

/-- The counter of free values advanced by `n` that have been drawn (spec/00_scope.md R15; log 6). -/
def State.drawn (s : State) (n : Nat) : State := { s with draws := s.draws + n }

/-! ## The bus: one byte at a time (R84, R87, R108; log 17, 35)

"a model with `ExternalAgents` should treat only single bytes as atomic" (R87): other agents may store before each byte
that the processor reads or stores, page entries included. Every address is plain memory: a read has no side effect
(log 35: DESIGN CHOICE; R87 and R101 leave to the platform what stands at an address). -/

/-- The parameter `ExternalAgents`: what other bus masters store before the processor's next byte is a free value
(R108); nothing by default. -/
def State.agentsAct (s : State) : State :=
  match s.cfg.externalAgents with
  | .absent => s
  | .present => { s with mem := Memory.storeAll s.mem (Config.agentStores s.draws), draws := s.draws + 1 }

/-- One byte read, and the state after it. -/
def State.busByte (s : State) (pa : Dword) : Byte × State := (Memory.byteAt s.agentsAct.mem pa, s.agentsAct)

/-- One byte stored. -/
def State.busStore (s : State) (pa : Dword) (b : Byte) : State :=
  { s.agentsAct with mem := Memory.setByte s.agentsAct.mem pa b }

/-- `MemRead` (R84) of the bytes at the given addresses, the first the least significant, one after another. -/
def State.busRead (s : State) : List Dword → Nat × State
  | [] => (0, s)
  | pa :: rest =>
    let r := (s.busByte pa).2.busRead rest
    ((s.busByte pa).1.toNat + 256 * r.1, r.2)

/-- `MemWrite` (R84) of the bytes of a number to the given addresses, the least significant first. -/
def State.busWrite (s : State) : List Dword → Nat → State
  | [], _ => s
  | pa :: rest, v => (s.busStore pa (BitVec.ofNat 8 v)).busWrite rest (v / 256)

/-- `MemRead(pa, 4)` (R84), for the entries of the page directory and page tables (R106). -/
def State.busDword (s : State) (pa : Dword) : Dword × State :=
  (BitVec.ofNat 32 (s.busRead (consecutive pa 4)).1, (s.busRead (consecutive pa 4)).2)

/-- Bits of the byte at a physical address set: a read and a store, between which other agents may store, for no
instruction in scope is locked (R87; spec/47_lock.md R333). -/
def State.busSetBits (s : State) (pa : Dword) (bits : Byte) : State :=
  (s.busByte pa).2.busStore pa ((s.busByte pa).1 ||| bits)

/-! ## Address translation (R105, R106) -/

/-- The #PF fault-code: bit 0 protection violation, bit 1 write, bit 2 user (R106, R429). -/
def faultCode (present : Bool) (access : Access) (rights : Rights) : Dword :=
  (BitVec.ofBool (rights == .user) ++ BitVec.ofBool (access == .write) ++ BitVec.ofBool present).setWidth 32

/-- What a page walk finds: where the two entries stand, the physical address, the rights that the two entries
give together, and the table entry's D bit. -/
structure PageWalk where
  pde : Dword
  pte : Dword
  pa : Dword
  user : Bool
  writable : Bool
  dirty : Bool
deriving DecidableEq, Repr

/-- Bits 31:12 of CR3 or of a page entry (R106). -/
def frameOf (d : Dword) : Dword := d &&& 0xFFFFF000#32

/-- The rights refuse an access: a user's where U/S is 0 in either entry, or a write of a user's where R/W is
(R106). -/
def accessDenied (user writable : Bool) (access : Access) (rights : Rights) : Bool :=
  rights == .user && (!user || (access == .write && !writable))

/-- Where the directory entry of a linear address stands (R106). -/
def pdeAddress (cr3 la : Dword) : Dword := frameOf cr3 + ((la >>> 22) <<< 2)

/-- Where the table entry of a linear address stands, given its directory entry (R106). -/
def pteAddress (pde la : Dword) : Dword := frameOf pde + (((la >>> 12) &&& 0x3FF#32) <<< 2)

/-- What a directory entry and a table entry make of an access (R106): the physical address, or the fault-code. R106 and
R429 do not say which code a fault has where the directory entry refuses the access and the table entry is not present:
the model looks at both P bits before it looks at any right, so that the code is that of an absent page (log 33: DESIGN
CHOICE). -/
def walkOf (pdeAt pde pteAt pte la : Dword) (access : Access) (rights : Rights) : Except Dword PageWalk :=
  let userOk := pde.getLsbD 2 && pte.getLsbD 2
  let writeOk := pde.getLsbD 1 && pte.getLsbD 1
  if !pde.getLsbD 0 then .error (faultCode false access rights)
  else if !pte.getLsbD 0 then .error (faultCode false access rights)
  else if accessDenied userOk writeOk access rights then .error (faultCode true access rights)
  else
    .ok
      { pde := pdeAt, pte := pteAt, pa := frameOf pte + (la &&& 0xFFF#32)
        user := userOk, writable := writeOk, dirty := pte.getLsbD 6 }

/-- What the page walk (R106) finds in a memory that nothing changes meanwhile. -/
def pageWalk (m : Memory) (cr3 la : Dword) (access : Access) (rights : Rights) : Except Dword PageWalk :=
  let pde := Memory.dwordAt m (pdeAddress cr3 la)
  walkOf (pdeAddress cr3 la) pde (pteAddress pde la) (Memory.dwordAt m (pteAddress pde la)) la access rights

/-- The bits a use sets in a page-table entry: A, and D on a write (R106). -/
def usedBits (access : Access) : Byte :=
  if access = .write then 0x60#8 else 0x20#8

/-! ### The translation buffer (R106; log 9) -/

/-- Bits 31:12 of an address: its page, or its frame. -/
def pageOf (a : Dword) : BitVec 20 := a.extractLsb' 12 20

/-- What the buffer keeps of a page walk. -/
def PageWalk.entry (w : PageWalk) (la : Dword) (access : Access) : TlbEntry where
  page := pageOf la
  frame := pageOf w.pa
  user := w.user
  writable := w.writable
  dirty := w.dirty || access == .write

/-- The entry that the buffer has for a page. -/
def tlbFind : List TlbEntry → BitVec 20 → Option TlbEntry
  | [], _ => none
  | e :: rest, page => if e.page = page then some e else tlbFind rest page

/-- An entry put in the place of an older one for its page. -/
def tlbInsert (e : TlbEntry) (tlb : List TlbEntry) : List TlbEntry :=
  e :: tlb.filter fun x => x.page != e.page

/-- The page entries in memory still give the translation that the buffer keeps. -/
def TlbEntry.current (e : TlbEntry) (m : Memory) (cr3 : Dword) : Bool :=
  match pageWalk m cr3 (e.page ++ 0#12) .read .supervisor with
  | .ok w => pageOf w.pa == e.frame && w.user == e.user && w.writable == e.writable
  | .error _ => false

/-- "Paging is on iff CR0.PG = 1 (and PE = 1)" (R106). -/
def State.pagingOn (s : State) : Bool := s.pe && s.cr0.getLsbD 31

/-- The two page entries of a linear address read, and what the walk makes of them (R106). -/
def State.readEntries (s : State) (la : Dword) (access : Access) (rights : Rights) : Except Dword PageWalk × State :=
  let pde := s.busDword (pdeAddress s.cr3 la)
  let pte := pde.2.busDword (pteAddress pde.1 la)
  (walkOf (pdeAddress s.cr3 la) pde.1 (pteAddress pde.1 la) pte.1 la access rights, pte.2)

/-- The use of a translation: A set in both entries, D in the page-table entry on a write (R106; log 8). -/
def State.markUsed (s : State) (w : PageWalk) (access : Access) : State :=
  (s.busSetBits w.pde 0x20#8).busSetBits w.pte (usedBits access)

/-- A linear address translated by the page walk, whose result the buffer then keeps (R106). -/
def State.walkPage (s : State) (la : Dword) (access : Access) (rights : Rights) : Except Fault (Dword × State) :=
  match s.readEntries la access rights with
  | (.ok w, s1) => .ok (w.pa, { s1.markUsed w access with tlb := tlbInsert (w.entry la access) s.tlb })
  | (.error code, _) => raise s (.pf code la)

/-- A linear address translated by an entry of the buffer: the rights are the entry's, no page entry is read or
marked, but that the first write to a page walks to set D. -/
def State.useEntry (s : State) (e : TlbEntry) (la : Dword) (access : Access) (rights : Rights) :
    Except Fault (Dword × State) :=
  if accessDenied e.user e.writable access rights then raise s (.pf (faultCode true access rights) la)
  else if access = .write ∧ e.dirty = false then s.walkPage la access rights
  else .ok (e.frame ++ la.extractLsb' 0 12, s)

/-- The walk gives what the buffer's entry gives: the page entries in memory still say so, and no other agent can
change them meanwhile. -/
def State.agreesWith (s : State) (e : TlbEntry) : Bool :=
  e.current s.mem s.cr3 && s.cfg.externalAgents == .absent

/-- `Translate` with page tables and the buffer (R106). Where the buffer has an entry for the page that the page
entries in memory no longer give, or may not give when they are read, it is a free value whether the buffer still holds
it: R106 gives neither its size nor its replacement. Where they agree, holding it or not makes no difference but for the
Accessed bits, "set by the processor on any use" (log 9). -/
def State.pagedTranslate (s : State) (la : Dword) (access : Access) (rights : Rights) :
    Except Fault (Dword × State) :=
  match tlbFind s.tlb (pageOf la) with
  | none => s.walkPage la access rights
  | some e =>
    if s.agreesWith e then s.walkPage la access rights
    else if Config.draw 1 s.draws = 1#1 then (s.drawn 1).useEntry e la access rights
    else (s.drawn 1).walkPage la access rights

/-- CR3 loaded, which empties the translation buffer (R106). No in-scope instruction does it (R51, R113): it is
for building a launch state. -/
def State.loadCr3 (s : State) (v : Dword) : State := { s with cr3 := v, tlb := [] }

/-- `Translate` (R105) of one linear address: the physical address and the state after its use, or #PF. In
Real Address Mode it is the identity (R88). -/
def State.translate (s : State) (la : Dword) (access : Access) (rights : Rights) :
    Except Fault (Dword × State) :=
  if s.mode = .real then .ok (la, s)
  else
    match s.cfg.translation with
    | .identity => .ok (la, s)
    | .platform =>
      match Config.platformTranslate la access rights with
      | .ok pa => .ok (pa, s)
      | .error code => raise s (.pf code la)
    | .pageTables => if s.pagingOn then s.pagedTranslate la access rights else .ok (la, s)

/-- The physical addresses of `n` bytes from a linear address on (R105). -/
def State.translateRange (s : State) (la : Dword) (access : Access) (rights : Rights) :
    Nat → Except Fault (List Dword × State)
  | 0 => .ok ([], s)
  | n + 1 =>
    match s.translate la access rights with
    | .error f => .error f
    | .ok (pa, s1) =>
      match s1.translateRange (la + 1#32) access rights n with
      | .error f => .error f
      | .ok (pas, s2) => .ok (pa :: pas, s2)

/-- `LinRead(la, n, kind)` (R105): the number, and the state after it. The bytes are all translated before the first of
them is read (log 27). -/
def State.linRead (s : State) (la : Dword) (n : Nat) (access : Access) (rights : Rights) :
    Except Fault (Nat × State) :=
  match s.translateRange la access rights n with
  | .error f => .error f
  | .ok (pas, s1) => .ok (s1.busRead pas)

/-- `LinWrite(la, n, v, kind)` (R105). -/
def State.linWrite (s : State) (la : Dword) (n v : Nat) (rights : Rights) : Except Fault State :=
  match s.translateRange la .write rights n with
  | .error f => .error f
  | .ok (pas, s1) => .ok (s1.busWrite pas v)

/-- The rights of an access of kind `user_or_cpl` (R105). -/
def State.programRights (s : State) : Rights :=
  if s.cpl = 3#2 then .user else .supervisor

/-! ## Segment-relative access (R88 to R92) -/

/-- `InLimit(S, off, n)` (R91; R92 for an expand-down data segment), without wrap-around. That
in Real Address Mode an operand may not pass offset FFFFh is this test with the limit FFFFh that every segment has
there, says R91: for a launch state with a larger limit the limit counts (log 34: DEDUCED). -/
def inLimit (c : SegCache) (off : Dword) (n : Nat) : Bool :=
  if arExpandDown c.ar then
    decide (c.limit.toNat < off.toNat) &&
      decide (off.toNat + n - 1 ≤ if arBig c.ar then 0xFFFFFFFF else 0xFFFF)
  else decide (off.toNat + n - 1 ≤ c.limit.toNat)

/-- `SegFault(k)` (R88): the vector outside Protected Mode is a parameter for the stack segment. -/
def State.segFault (s : State) (k : SegReg) : Exc :=
  if s.mode = .prot then (if k = .ss then .ss 0#32 else .gp 0#32)
  else if k = .ss then
    match s.cfg.realStackFaultVector with
    | .int12 => .ss 0#32
    | .int13 => .gp 0#32
  else .gp 0#32

/-- The checks of `SegRead` that a segment register can fail before any memory is read (R88 to R92). -/
def State.segOk (s : State) (k : SegReg) (off : Dword) (n : Nat) : Bool :=
  (s.mode != .prot || ((s.seg.get k).valid && readable (s.seg.get k).ar)) && inLimit (s.seg.get k) off n

/-- `SegRead(k, off, n)` (R88). -/
def State.segRead (s : State) (k : SegReg) (off : Dword) (n : Nat) : Except Fault (Nat × State) :=
  if s.segOk k off n then s.linRead ((s.seg.get k).base + off) n .read s.programRights
  else raise s (s.segFault k)

/-- An operand of `n` bytes at an offset computed with 16 bits passes offset FFFFh. -/
def passesFFFF (a : Size) (off : Dword) (n : Nat) : Bool := a == .w16 && decide (65536 < off.toNat + n)

/-- `SegRead(k, off, n)` of an operand that faults where it passes offset FFFFh of an address of 16 bits, whatever the
segment's limit: the corner cases of spec/43_leave.md R241, R242 and of spec/44_lgdt_lidt.md R252, R253. The exception is
the segment's (log 34: DEDUCED). -/
def State.segReadTo (s : State) (k : SegReg) (a : Size) (off : Dword) (n : Nat) : Except Fault (Nat × State) :=
  if passesFFFF a off n then raise s (s.segFault k) else s.segRead k off n

end Sys2Proof.Machine
end

