-- ==== Sys2Proof/Machine/Operands.lean ====
section
/-!
DEFINITION. Operand forms (spec/30_encoding.md R144 to R152): the effective address of a memory operand, its
segment, and reading it.
-/
namespace Sys2Proof.Machine

/-- `disp8` sign-extended to 16 bits, or `disp16` (R146). -/
def disp16Value : Disp16 → Word
  | .zero => 0#16
  | .disp8 d => d.signExtend 16
  | .disp16 d => d

/-- `disp8` sign-extended to 32 bits, or `disp32` (R147). -/
def disp32Value : Disp32 → Dword
  | .zero => 0#32
  | .disp8 d => d.signExtend 32
  | .disp32 d => d

/-- The register sum of a 16-bit form (R146). -/
def baseSum (s : State) : Base16 → Word
  | .bxSi => s.reg16 .ebx + s.reg16 .esi
  | .bxDi => s.reg16 .ebx + s.reg16 .edi
  | .bpSi => s.reg16 .ebp + s.reg16 .esi
  | .bpDi => s.reg16 .ebp + s.reg16 .edi
  | .si => s.reg16 .esi
  | .di => s.reg16 .edi
  | .bp => s.reg16 .ebp
  | .bx => s.reg16 .ebx

/-- `X << scale` (R147). -/
def scaled (x : Dword) : Scale → Dword
  | .x1 => x
  | .x2 => x <<< 1
  | .x4 => x <<< 2
  | .x8 => x <<< 3

/-- The index of a SIB form, 0 where there is none (R147). -/
def indexValue (s : State) : Option (Gpr × Scale) → Dword
  | none => 0#32
  | some (r, f) => scaled (s.reg32 r) f

/-- `Addr(m)` (R146, R147, R150): a 16-bit sum zero-extended, or a 32-bit sum. -/
def effectiveAddress (s : State) : MemOp → Dword
  | .based16 b d => (baseSum s b + disp16Value d).setWidth 32
  | .direct16 d => d.setWidth 32
  | .based32 b d => s.reg32 b + disp32Value d
  | .direct32 d => d
  | .sib b x d => s.reg32 b + indexValue s x + disp32Value d
  | .sibDirect x d => indexValue s x + d

/-- The default segment of a memory form: SS where the base is BP, EBP or ESP, else DS (R146, R147). -/
def defaultSegment : MemOp → SegReg
  | .based16 b _ =>
    match b with
    | .bpSi | .bpDi | .bp => .ss
    | .bxSi | .bxDi | .si | .di | .bx => .ds
  | .direct16 _ | .direct32 _ | .sibDirect _ _ => .ds
  | .based32 b _ | .sib b _ _ => if b = .esp ∨ b = .ebp then .ss else .ds

/-- The segment of an access: its default, or the one an override names (R149). -/
def segmentOr (p : Prefixes) (dflt : SegReg) : SegReg := p.seg.getD dflt

/-- The segment of a memory operand (R149). -/
def operandSegment (p : Prefixes) (m : MemOp) : SegReg := segmentOr p (defaultSegment m)

/-- `SegRead(seg, Addr(m), n)`: `n` bytes of a memory operand. -/
def State.readMem (s : State) (p : Prefixes) (m : MemOp) (n : Nat) : Except Fault (Nat × State) :=
  s.segRead (operandSegment p m) (effectiveAddress s m) n

/-- The six bytes of LGDT and LIDT: with `AddressSize` 16 they may not pass offset FFFFh (corner case of R252). -/
def State.readTable (s : State) (p : Prefixes) (m : MemOp) : Except Fault (Nat × State) :=
  s.segReadTo (operandSegment p m) m.size (effectiveAddress s m) 6

/-- The 16-bit source `r/m16`: `x16[r/m]` if `mod` = 11, else a word in memory. LAR and LSL read an `r/m32`
the same way (R152). -/
def State.readSelector (s : State) (p : Prefixes) : RegMem → Except Fault (Word × State)
  | .reg r => .ok (s.reg16 r, s)
  | .mem m =>
    match s.readMem p m 2 with
    | .error f => .error f
    | .ok (v, s1) => .ok (BitVec.ofNat 16 v, s1)

end Sys2Proof.Machine
end

