-- ==== Sys2Proof/Machine/Descriptors.lean ====
section
/-!
DEFINITION. Selectors and descriptors (spec/20_memory.md R93 to R98), the selector test LAR and LSL share
(spec/41_lar.md R211, R214; spec/49_lsl_ltr.md R381), and the checks of a segment load in Protected Mode
(spec/45_lds_les_lfs_lgs_lss.md R272, R273).
-/
namespace Sys2Proof.Machine

/-! ## Selectors (R96, R97) -/

/-- `IsNull(sel)`: 0000h to 0003h (R97). -/
def isNull (sel : Word) : Bool := sel.extractLsb' 2 14 == 0#14

/-- RPL, bits 1:0. -/
def selRpl (sel : Word) : BitVec 2 := sel.extractLsb' 0 2

/-- TI, bit 2: the selector names an entry of the LDT. -/
def selTi (sel : Word) : Bool := sel.getLsbD 2

/-- The byte offset of the named entry in its table: 8 times the index in bits 15:3. -/
def selOffset (sel : Word) : Nat := 8 * (sel.extractLsb' 3 13).toNat

/-! ## Descriptors (R93 to R95) -/

/-- A descriptor as `ReadDesc` delivers it (R98): its two doublewords and its linear address. -/
structure Desc where
  lo : Dword
  hi : Dword
  la : Dword
deriving DecidableEq, Repr

/-- The access-rights byte, `hi[15:8]`. -/
def Desc.arByte (d : Desc) : Byte := d.hi.extractLsb' 8 8
/-- S, `hi[12]`. -/
def Desc.s (d : Desc) : Bool := d.hi.getLsbD 12
/-- The type, `hi[11:8]`. -/
def Desc.type (d : Desc) : BitVec 4 := d.hi.extractLsb' 8 4
/-- DPL, `hi[14:13]`. -/
def Desc.dpl (d : Desc) : BitVec 2 := d.hi.extractLsb' 13 2
/-- P, `hi[15]`. -/
def Desc.present (d : Desc) : Bool := d.hi.getLsbD 15
/-- G, `hi[23]`: the limit is page granular. -/
def Desc.granular (d : Desc) : Bool := d.hi.getLsbD 23

/-- `base = hi[31:24] : hi[7:0] : lo[31:16]` (R94). -/
def Desc.base (d : Desc) : Dword :=
  (d.hi.extractLsb' 24 8 ++ d.hi.extractLsb' 0 8) ++ d.lo.extractLsb' 16 16

/-- The 20-bit raw limit, `hi[19:16] : lo[15:0]` (R94). -/
def Desc.raw (d : Desc) : BitVec 20 := d.hi.extractLsb' 16 4 ++ d.lo.extractLsb' 0 16

/-- `explimit`: the byte-granular limit (R93). -/
def Desc.limit (d : Desc) : Dword :=
  if d.granular then (d.raw.setWidth 32 <<< 12) ||| 0xFFF#32 else d.raw.setWidth 32

/-- The attributes of a descriptor, `hi[23:20] : hi[15:8]`, with the access-rights byte replaced (R386). -/
def Desc.attributes (d : Desc) (arByte : Byte) : BitVec 12 := d.hi.extractLsb' 20 4 ++ arByte

/-- A data segment: S = 1, type bit 3 clear (R95). -/
def Desc.isData (d : Desc) : Bool := d.s && !d.type.getLsbD 3
/-- A writable data segment: type bit 1 (R95). -/
def Desc.isWritableData (d : Desc) : Bool := d.isData && d.type.getLsbD 1
/-- A readable code segment: S = 1, type bits 3 and 1 (R95). -/
def Desc.isReadableCode (d : Desc) : Bool := d.s && d.type.getLsbD 3 && d.type.getLsbD 1
/-- A conforming code segment: S = 1, type bits 3 and 2 (R95). -/
def Desc.isConforming (d : Desc) : Bool := d.s && d.type.getLsbD 3 && d.type.getLsbD 2

/-- The table a selector names, by TI: its linear base and limit; none while LDTR is invalid (R98). -/
def State.tableOf (s : State) (sel : Word) : Option (Dword × Dword) :=
  if selTi sel then (if s.ldtr.valid then some (s.ldtr.base, s.ldtr.limit) else none)
  else some (s.gdtr.base, s.gdtr.limit.setWidth 32)

/-- The linear address of the descriptor a selector names, or none where it lies outside its table: the
test `8*index + 7 > tl`, unbounded (R98). -/
def State.descAddress (s : State) (sel : Word) : Option Dword :=
  match s.tableOf sel with
  | none => none
  | some (base, limit) =>
    if selOffset sel + 7 ≤ limit.toNat then some (base + BitVec.ofNat 32 (selOffset sel)) else none

/-- `ReadDesc(sel)` (R98): none is `OutOfTable`. Two doublewords, linear, with supervisor rights. -/
def State.readDesc (s : State) (sel : Word) : Except Fault (Option Desc × State) :=
  match s.descAddress sel with
  | none => .ok (none, s)
  | some la =>
    match s.linRead la 4 .read .supervisor with
    | .error f => .error f
    | .ok (lo, s1) =>
      match s1.linRead (la + 4#32) 4 .read .supervisor with
      | .error f => .error f
      | .ok (hi, s2) => .ok (some { lo := BitVec.ofNat 32 lo, hi := BitVec.ofNat 32 hi, la := la }, s2)

/-! ## The selector test of LAR and LSL (R211) -/

/-- `LarValidType` (R214). -/
def larValidType (s : Bool) (type : BitVec 4) : Bool :=
  s ||
    match type.toNat with
    | 1 | 2 | 3 | 4 | 5 | 6 | 7 | 9 | 11 | 12 | 14 | 15 => true
    | _ => false

/-- `LslValidType` (R381), with the parameter for type 8. -/
def lslValidType (type8 : Bool) (s : Bool) (type : BitVec 4) : Bool :=
  s ||
    match type.toNat with
    | 1 | 2 | 3 | 9 | 11 => true
    | 8 => type8
    | _ => false

/-- Whether a descriptor is visible to a selector with the given RPL: always for conforming code, else CPL and
RPL must not exceed DPL (R211). -/
def visible (d : Desc) (cpl rpl : BitVec 2) : Bool :=
  d.isConforming || (decide (cpl.toNat ≤ d.dpl.toNat) && decide (rpl.toNat ≤ d.dpl.toNat))

/-- `Query(sel, ValidType)` (R211): the descriptor, or none for `Fail`. -/
def State.query (s : State) (sel : Word) (validType : Bool → BitVec 4 → Bool) :
    Except Fault (Option Desc × State) :=
  if isNull sel then .ok (none, s)
  else
    match s.readDesc sel with
    | .error f => .error f
    | .ok (none, s1) => .ok (none, s1)
    | .ok (some d, s1) =>
      if validType d.s d.type && visible d s.cpl (selRpl sel) then .ok (some d, s1) else .ok (none, s1)

/-! ## The checks of a segment load in Protected Mode -/

/-- `CheckSS(sel)` (R272): the exception of the first failing check on the descriptor, none if SS may be
loaded from it. -/
def ssRefusal (cpl : BitVec 2) (sel : Word) (d : Desc) : Option Exc :=
  if selRpl sel ≠ cpl then some (.gp (selectorCode sel))
  else if d.isWritableData = false then some (.gp (selectorCode sel))
  else if d.dpl ≠ cpl then some (.gp (selectorCode sel))
  else if d.present = false then some (.ss (selectorCode sel))
  else none

/-- `CheckData(sel)` (R273): the exception of the first failing check on the descriptor, none if DS, ES, FS or
GS may be loaded from it. -/
def dataRefusal (cpl : BitVec 2) (sel : Word) (d : Desc) : Option Exc :=
  if (d.isData || d.isReadableCode) = false then some (.gp (selectorCode sel))
  else if d.isConforming = false ∧ (d.dpl.toNat < (selRpl sel).toNat ∨ d.dpl.toNat < cpl.toNat) then
    some (.gp (selectorCode sel))
  else if d.present = false then some (.np (selectorCode sel))
  else none

/-- The descriptor of a non-null selector that passes `refusal`, or the exception: #GP(selector) outside the
table (R272, R273). -/
def State.fetchDesc (s : State) (sel : Word) (refusal : Desc → Option Exc) :
    Except Fault (Desc × State) :=
  match s.readDesc sel with
  | .error f => .error f
  | .ok (none, _) => raise s (.gp (selectorCode sel))
  | .ok (some d, s1) =>
    match refusal d with
    | some e => raise s e
    | none => .ok (d, s1)

/-- The checks of loading `S[k]` with a selector in Protected Mode: the descriptor to load, or none for a null
selector into DS, ES, FS or GS (R272 to R274). -/
def State.checkSegment (s : State) (k : SegReg) (sel : Word) : Except Fault (Option Desc × State) :=
  if isNull sel then
    if k = .ss then raise s (.gp 0#32) else .ok (none, s)
  else
    match s.fetchDesc sel (if k = .ss then ssRefusal s.cpl sel else dataRefusal s.cpl sel) with
    | .error f => .error f
    | .ok (d, s1) => .ok (some d, s1)

/-! ## Loading a segment register (R275) -/

/-- `S[k]` after a load outside Protected Mode (R271, R100): the base is 16 times the selector, the limit
FFFFh in Virtual 8086 Mode, and the rest as held, but that a non-null load sets `valid` (R43; log 11, 12). -/
def SegCache.loadReal (c : SegCache) (v86 : Bool) (sel : Word) : SegCache :=
  { c with
    sel := sel
    base := sel.setWidth 32 <<< 4
    limit := if v86 then 0xFFFF#32 else c.limit
    valid := c.valid || !isNull sel }

/-- `S[k]` after the load of a null selector in Protected Mode (R274; log 21). -/
def SegCache.loadNull (c : SegCache) (sel : Word) : SegCache :=
  { c with sel := sel, valid := false }

/-- `S[k]` after the load of a descriptor (R275): A = 1 in the cached attributes. -/
def SegCache.ofDesc (sel : Word) (d : Desc) : SegCache where
  sel := sel
  base := d.base
  limit := d.limit
  ar := d.attributes (d.arByte ||| 0x01#8)
  valid := true

/-- The Accessed bit set in the descriptor in memory, where it is clear and the parameter says so (R99). -/
def State.setAccessed (s : State) (d : Desc) : Except Fault State :=
  if d.type.getLsbD 0 = false ∧ s.cfg.segLoadSetsAccessed = true then
    s.linWrite (d.la + 5#32) 1 (d.arByte ||| 0x01#8).toNat .supervisor
  else .ok s

/-- `S[k]` loaded with a selector, in any mode: every check, then the writes (R275). -/
def State.loadSegment (s : State) (k : SegReg) (sel : Word) : Except Fault State :=
  if s.mode = .prot then
    match s.checkSegment k sel with
    | .error f => .error f
    | .ok (none, s1) => .ok (s1.setSeg k ((s1.seg.get k).loadNull sel))
    | .ok (some d, s1) =>
      match s1.setAccessed d with
      | .error f => .error f
      | .ok s2 => .ok (s2.setSeg k (SegCache.ofDesc sel d))
  else .ok (s.setSeg k ((s.seg.get k).loadReal (s.mode = .v86) sel))

end Sys2Proof.Machine
end

