-- ==== Sys2Proof/Machine/FullPointer.lean ====
section
/-!
DEFINITION. LDS, LSS, LES, LFS, LGS (spec/45_lds_les_lfs_lgs_lss.md).
-/
namespace Sys2Proof.Machine

/-- `LoadFullPointer(k, N)` (R275): the pointer of R270 is read as one item, the segment register is loaded
(every check before any write), and the general register takes the offset. -/
def loadFullPointer (i : Instr) (k : SegReg) (n : Size) (p : Prefixes) (dst : Gpr) (rm : RegMem)
    (s : State) : Except Fault State :=
  match rm with
  | .reg _ => raise s .ud
  | .mem m =>
    match s.readMem p m (n.bytes + 2) with
    | .error f => .error f
    | .ok (v, s1) =>
      match s1.loadSegment k (BitVec.ofNat 16 (v / 2 ^ (8 * n.bytes))) with
      | .error f => .error f
      | .ok s2 => .ok ((s2.setRegN n dst (BitVec.ofNat 32 v)).retire i)

/-- LDS r16,m16:16 (R276). -/
def execLds16 (p : Prefixes) (dst : Gpr) (rm : RegMem) (s : State) : Host.Outcome State Fault Refusal :=
  settle (loadFullPointer (.lds16 p dst rm) .ds .w16 p dst rm s)

/-- LDS r32,m16:32 (R277). -/
def execLds32 (p : Prefixes) (dst : Gpr) (rm : RegMem) (s : State) : Host.Outcome State Fault Refusal :=
  settle (loadFullPointer (.lds32 p dst rm) .ds .w32 p dst rm s)

/-- LSS r16,m16:16 (R278). -/
def execLss16 (p : Prefixes) (dst : Gpr) (rm : RegMem) (s : State) : Host.Outcome State Fault Refusal :=
  settle (loadFullPointer (.lss16 p dst rm) .ss .w16 p dst rm s)

/-- LSS r32,m16:32 (R279). -/
def execLss32 (p : Prefixes) (dst : Gpr) (rm : RegMem) (s : State) : Host.Outcome State Fault Refusal :=
  settle (loadFullPointer (.lss32 p dst rm) .ss .w32 p dst rm s)

/-- LES r16,m16:16 (R280). -/
def execLes16 (p : Prefixes) (dst : Gpr) (rm : RegMem) (s : State) : Host.Outcome State Fault Refusal :=
  settle (loadFullPointer (.les16 p dst rm) .es .w16 p dst rm s)

/-- LES r32,m16:32 (R281). -/
def execLes32 (p : Prefixes) (dst : Gpr) (rm : RegMem) (s : State) : Host.Outcome State Fault Refusal :=
  settle (loadFullPointer (.les32 p dst rm) .es .w32 p dst rm s)

/-- LFS r16,m16:16 (R282). -/
def execLfs16 (p : Prefixes) (dst : Gpr) (rm : RegMem) (s : State) : Host.Outcome State Fault Refusal :=
  settle (loadFullPointer (.lfs16 p dst rm) .fs .w16 p dst rm s)

/-- LFS r32,m16:32 (R283). -/
def execLfs32 (p : Prefixes) (dst : Gpr) (rm : RegMem) (s : State) : Host.Outcome State Fault Refusal :=
  settle (loadFullPointer (.lfs32 p dst rm) .fs .w32 p dst rm s)

/-- LGS r16,m16:16 (R284): GS, not DS (spec/90_conflicts.md C2). -/
def execLgs16 (p : Prefixes) (dst : Gpr) (rm : RegMem) (s : State) : Host.Outcome State Fault Refusal :=
  settle (loadFullPointer (.lgs16 p dst rm) .gs .w16 p dst rm s)

/-- LGS r32,m16:32 (R285). -/
def execLgs32 (p : Prefixes) (dst : Gpr) (rm : RegMem) (s : State) : Host.Outcome State Fault Refusal :=
  settle (loadFullPointer (.lgs32 p dst rm) .gs .w32 p dst rm s)

end Sys2Proof.Machine
end

