-- ==== Sys2Proof/Machine/Lock.lean ====
section
/-!
DEFINITION. The LOCK prefix (spec/47_lock.md).
-/
namespace Sys2Proof.Machine

/-- LOCK before an instruction of this spec (R330, R335): none is in the list of R331, so #UD, in every mode
and before the instruction's own checks. -/
def execLock (_body : Instr) (s : State) : Host.Outcome State Fault Refusal :=
  settle (raise s .ud)

end Sys2Proof.Machine
end

