-- ==== Sys2Proof/Machine/Lods.lean ====
section
/-!
DEFINITION. LODS and REP LODS (spec/48_lods_loop.md R350 to R355).
-/
namespace Sys2Proof.Machine

/-- What LODS loads: a byte, a word or a doubleword. -/
inductive LodsWidth where
  | byte
  | word
  | dword
deriving DecidableEq, Repr

/-- W of R350: 1, 2 or 4. -/
def LodsWidth.bytes : LodsWidth → Nat
  | .byte => 1
  | .word => 2
  | .dword => 4

/-- AL, AX or EAX written. -/
def State.setAccumulator (s : State) (w : LodsWidth) (v : Nat) : State :=
  match w with
  | .byte => s.setReg8 .al (BitVec.ofNat 8 v)
  | .word => s.setReg16 .eax (BitVec.ofNat 16 v)
  | .dword => s.setReg32 .eax (BitVec.ofNat 32 v)

/-- The source index advanced: by +W if DF = 0, by -W if DF = 1 (R350). -/
def advanceIndex (df : Bool) (w : LodsWidth) (index : Dword) : Dword :=
  if df then index - BitVec.ofNat 32 w.bytes else index + BitVec.ofNat 32 w.bytes

/-- One LODS without its `pc <- next_pc` (R352 to R354): through DS or the override (R351), at SI or ESI. -/
def lodsOnce (w : LodsWidth) (p : Prefixes) (s : State) : Except Fault State :=
  match s.segRead (segmentOr p .ds) (s.regN (p.addressSize s.dflt) .esi) w.bytes with
  | .error f => .error f
  | .ok (v, s1) =>
    .ok ((s1.setAccumulator w v).setRegN (p.addressSize s.dflt) .esi
      (advanceIndex s.df w (s.regN (p.addressSize s.dflt) .esi)))

/-- LODS, or one iteration of REP LODS (R355): with F3 the count in CX or ECX is decremented, and the program
counter stays until it is 0. -/
def loadString (i : Instr) (w : LodsWidth) (p : Prefixes) (rep : Bool) (s : State) : Except Fault State :=
  if rep then
    if s.regN (p.addressSize s.dflt) .ecx = 0#32 then .ok (s.retire i)
    else
      match lodsOnce w p s with
      | .error f => .error f
      | .ok s1 =>
        if s.regN (p.addressSize s.dflt) .ecx - 1#32 = 0#32 then
          .ok ((s1.setRegN (p.addressSize s.dflt) .ecx 0#32).retire i)
        else
          .ok (s1.setRegN (p.addressSize s.dflt) .ecx (s.regN (p.addressSize s.dflt) .ecx - 1#32))
  else
    match lodsOnce w p s with
    | .error f => .error f
    | .ok s1 => .ok (s1.retire i)

/-- LODS m8 / LODSB (R352). -/
def execLodsb (p : Prefixes) (rep : Bool) (s : State) : Host.Outcome State Fault Refusal :=
  settle (loadString (.lodsb p rep) .byte p rep s)

/-- LODS m16 / LODSW (R353). -/
def execLodsw (p : Prefixes) (rep : Bool) (s : State) : Host.Outcome State Fault Refusal :=
  settle (loadString (.lodsw p rep) .word p rep s)

/-- LODS m32 / LODSD (R354). -/
def execLodsd (p : Prefixes) (rep : Bool) (s : State) : Host.Outcome State Fault Refusal :=
  settle (loadString (.lodsd p rep) .dword p rep s)

end Sys2Proof.Machine
end

