-- ==== Sys2Proof/Machine/Loop.lean ====
section
/-!
DEFINITION. LOOP, LOOPE, LOOPNE (spec/48_lods_loop.md R360 to R364).
-/
namespace Sys2Proof.Machine

/-- The decremented count (R360 a, b): CX or ECX by the address size, modulo 2^16 or 2^32. -/
def State.countDown (s : State) (asz : Size) : Dword :=
  match asz with
  | .w16 => (s.reg16 .ecx - 1#16).setWidth 32
  | .w32 => s.reg32 .ecx - 1#32

/-- The branch target (R360 d): from the address of the next instruction, in the operand size; a 16-bit
target leaves EIP[31:16] = 0. -/
def loopTarget (osz : Size) (next : Dword) (rel8 : Byte) : Dword :=
  match osz with
  | .w16 => (lowWord next + rel8.signExtend 16).setWidth 32
  | .w32 => next + rel8.signExtend 32

/-- The target lies beyond CS's limit, and the mode checks it (R360 e). -/
def State.targetRefused (s : State) (target : Dword) : Bool :=
  decide (s.seg.cs.limit.toNat < target.toNat) && (s.mode == .prot || s.cfg.loopLimitCheckReal)

/-- `LoopStep(cond)` (R360): the condition is on the decremented count and on ZF. -/
def loopStep (i : Instr) (p : Prefixes) (rel8 : Byte) (cond : Dword → Bool → Bool) (s : State) :
    Except Fault State :=
  let asz := p.addressSize s.dflt
  let count := s.countDown asz
  let target := loopTarget (p.operandSize s.dflt) (s.nextPc i) rel8
  if cond count s.zf then
    if s.targetRefused target then raise s (.gp 0#32)
    else .ok ((s.setRegN asz .ecx count).setEip target)
  else .ok ((s.setRegN asz .ecx count).retire i)

/-- LOOP rel8 (R361). -/
def execLoop (p : Prefixes) (rel8 : Byte) (s : State) : Host.Outcome State Fault Refusal :=
  settle (loopStep (.loop p rel8) p rel8 (fun count _ => count != 0#32) s)

/-- LOOPE rel8 = LOOPZ rel8 (R362). -/
def execLoope (p : Prefixes) (rel8 : Byte) (s : State) : Host.Outcome State Fault Refusal :=
  settle (loopStep (.loope p rel8) p rel8 (fun count zf => zf && count != 0#32) s)

/-- LOOPNE rel8 = LOOPNZ rel8 (R363). -/
def execLoopne (p : Prefixes) (rel8 : Byte) (s : State) : Host.Outcome State Fault Refusal :=
  settle (loopStep (.loopne p rel8) p rel8 (fun count zf => !zf && count != 0#32) s)

end Sys2Proof.Machine
end

