-- ==== Sys2Proof/Machine/Transfer.lean ====
section
/-!
DEFINITION. LAHF (spec/40_lahf.md), LEA (spec/42_lea.md) and LEAVE (spec/43_leave.md).
-/
namespace Sys2Proof.Machine

/-- LAHF (R200, R201): the same in every mode. -/
def execLahf (p : Prefixes) (s : State) : Host.Outcome State Fault Refusal :=
  settle (.ok (((s.setReg8 .ah s.flagsByte).drawn 3).retire (.lahf p)))

/-- The body of LEA (R230 to R233): no segment register and no memory is touched. A 16-bit address is
zero-extended in a 32-bit destination, a 32-bit one truncated in a 16-bit destination. -/
def loadEffectiveAddress (i : Instr) (n : Size) (dst : Gpr) (rm : RegMem) (s : State) :
    Except Fault State :=
  match rm with
  | .reg _ => raise s .ud
  | .mem m => .ok ((s.setRegN n dst (effectiveAddress s m)).retire i)

/-- LEA r16,m (R231). -/
def execLea16 (p : Prefixes) (dst : Gpr) (rm : RegMem) (s : State) : Host.Outcome State Fault Refusal :=
  settle (loadEffectiveAddress (.lea16 p dst rm) .w16 dst rm s)

/-- LEA r32,m (R232). -/
def execLea32 (p : Prefixes) (dst : Gpr) (rm : RegMem) (s : State) : Host.Outcome State Fault Refusal :=
  settle (loadEffectiveAddress (.lea32 p dst rm) .w32 dst rm s)

/-- `PopAt(sp, W)` (R240): the number at SS:sp, the raised stack pointer, and the state after the read. The
stack pointer is stored with `StackAddrSize` bits, which takes it modulo 2^16 or 2^32. With 16 of them an item that
passes offset FFFFh faults (corner cases of R241, R242). -/
def State.popAt (s : State) (sp : Dword) (w : Nat) : Except Fault (Nat × Dword × State) :=
  match s.segReadTo .ss s.stackAddrSize sp w with
  | .error f => .error f
  | .ok (v, s1) => .ok (v, sp + BitVec.ofNat 32 w, s1)

/-- The body of LEAVE (R241, R242): `StackAddrSize` chooses the frame pointer that addresses the pop and the
stack pointer that receives the raised value; `OperandSize` the width popped. With `StackAddrSize` 16 a pop
that passes offset FFFFh faults also where the stack segment's limit lies above it (log 34: DEDUCED). -/
def leaveFrame (i : Instr) (n : Size) (s : State) : Except Fault State :=
  match s.popAt (s.regN s.stackAddrSize .ebp) n.bytes with
  | .error f => .error f
  | .ok (v, sp, s1) =>
    .ok (((s1.setRegN s.stackAddrSize .esp sp).setRegN n .ebp (BitVec.ofNat 32 v)).retire i)

/-- LEAVE with `OperandSize` 16 (R241). -/
def execLeave16 (p : Prefixes) (s : State) : Host.Outcome State Fault Refusal :=
  settle (leaveFrame (.leave16 p) .w16 s)

/-- LEAVE with `OperandSize` 32 (R242). -/
def execLeave32 (p : Prefixes) (s : State) : Host.Outcome State Fault Refusal :=
  settle (leaveFrame (.leave32 p) .w32 s)

end Sys2Proof.Machine
end

