-- ==== Sys2Proof/Machine/SegmentQuery.lean ====
section
/-!
DEFINITION. LAR (spec/41_lar.md) and LSL (spec/49_lsl_ltr.md): an attribute of the descriptor that a selector
names, if the selector is visible and the type valid; ZF tells.
-/
namespace Sys2Proof.Machine

/-- What LAR and LSL share (R210, R212, R380, R382): the mode check, the selector, the test, and ZF. `store`
writes the destination from the descriptor; it is not called where the test fails, so that the destination is
unchanged. -/
def querySegment (i : Instr) (p : Prefixes) (rm : RegMem) (validType : Bool → BitVec 4 → Bool)
    (store : Desc → State → State) (s : State) : Except Fault State :=
  if s.mode ≠ .prot then raise s .ud
  else
    match s.readSelector p rm with
    | .error f => .error f
    | .ok (sel, s1) =>
      match s1.query sel validType with
      | .error f => .error f
      | .ok (none, s2) => .ok ((s2.setZf false).retire i)
      | .ok (some d, s2) => .ok (((store d s2).setZf true).retire i)

/-- `d.hi[15:0] & FF00h` (R212). -/
def larWord (d : Desc) : Word := lowWord d.hi &&& 0xFF00#16

/-- `(d.hi & 00F0FF00h) | (draw_4() << 16)` (R213): bits 19:16 are the free value `x`. -/
def larDword (d : Desc) (x : BitVec 4) : Dword := (d.hi &&& 0x00F0FF00#32) ||| (x.setWidth 32 <<< 16)

/-- LAR r16,r/m16 (R212). -/
def execLar16 (p : Prefixes) (dst : Gpr) (rm : RegMem) (s : State) : Host.Outcome State Fault Refusal :=
  settle (querySegment (.lar16 p dst rm) p rm larValidType (fun d t => t.setReg16 dst (larWord d)) s)

/-- LAR r32,r/m32 (R213). -/
def execLar32 (p : Prefixes) (dst : Gpr) (rm : RegMem) (s : State) : Host.Outcome State Fault Refusal :=
  settle (querySegment (.lar32 p dst rm) p rm larValidType
    (fun d t => (t.setReg32 dst (larDword d (Config.draw 4 t.draws))).drawn 1) s)

/-- LSL r16,r/m16 (R382): the low 16 bits of the byte-granular limit. -/
def execLsl16 (p : Prefixes) (dst : Gpr) (rm : RegMem) (s : State) : Host.Outcome State Fault Refusal :=
  settle (querySegment (.lsl16 p dst rm) p rm (lslValidType s.cfg.lslType8Valid)
    (fun d t => t.setReg16 dst (lowWord d.limit)) s)

/-- LSL r32,r/m32 (R383): the byte-granular limit. -/
def execLsl32 (p : Prefixes) (dst : Gpr) (rm : RegMem) (s : State) : Host.Outcome State Fault Refusal :=
  settle (querySegment (.lsl32 p dst rm) p rm (lslValidType s.cfg.lslType8Valid)
    (fun d t => t.setReg32 dst d.limit) s)

end Sys2Proof.Machine
end

