-- ==== Sys2Proof/Machine/SystemRegisters.lean ====
section
/-!
DEFINITION. LGDT and LIDT (spec/44_lgdt_lidt.md), LLDT and LMSW (spec/46_lldt_lmsw.md), LTR
(spec/49_lsl_ltr.md).
-/
namespace Sys2Proof.Machine

/-- The privilege check of LGDT, LIDT and LMSW fails: CPL not 0 in Protected Mode, or Virtual 8086 Mode with
its parameter (R252, R305). -/
def State.deniesSystem (s : State) : Bool :=
  match s.mode with
  | .real => false
  | .prot => s.cpl != 0#2
  | .v86 => s.cfg.v86PrivFault

/-- The table register that a six-byte operand describes (R250, R251): 24 bits of base with a 16-bit operand
size. -/
def tableOfOperand (n : Size) (v : Nat) : TableReg where
  limit := BitVec.ofNat 16 v
  base :=
    match n with
    | .w16 => (BitVec.ofNat 24 (v / 2 ^ 16)).setWidth 32
    | .w32 => BitVec.ofNat 32 (v / 2 ^ 16)

/-- The body of LGDT and LIDT (R252, R253); `store` writes the register. -/
def loadTableRegister (i : Instr) (p : Prefixes) (rm : RegMem) (store : TableReg → State → State)
    (s : State) : Except Fault State :=
  match rm with
  | .reg _ => raise s .ud
  | .mem m =>
    if s.deniesSystem then raise s (.gp 0#32)
    else
      match s.readTable p m with
      | .error f => .error f
      | .ok (v, s1) => .ok ((store (tableOfOperand (p.operandSize s.dflt) v) s1).retire i)

/-- LGDT m16&32 (R252). -/
def execLgdt (p : Prefixes) (rm : RegMem) (s : State) : Host.Outcome State Fault Refusal :=
  settle (loadTableRegister (.lgdt p rm) p rm (fun t u => { u with gdtr := t }) s)

/-- LIDT m16&32 (R253). -/
def execLidt (p : Prefixes) (rm : RegMem) (s : State) : Host.Outcome State Fault Refusal :=
  settle (loadTableRegister (.lidt p rm) p rm (fun t u => { u with idtr := t }) s)

/-- What LLDT asks of a descriptor: an LDT, present (R301). -/
def lldtRefusal (sel : Word) (d : Desc) : Option Exc :=
  if (!d.s && d.type == 2#4) = false then some (.gp (selectorCode sel))
  else if d.present = false then some (.np (selectorCode sel))
  else none

/-- The body of LLDT (R300 to R303). -/
def loadLdtr (i : Instr) (p : Prefixes) (rm : RegMem) (s : State) : Except Fault State :=
  if s.mode ≠ .prot then raise s .ud
  else if s.cpl ≠ 0#2 then raise s (.gp 0#32)
  else
    match s.readSelector p rm with
    | .error f => .error f
    | .ok (sel, s1) =>
      if isNull sel then
        .ok ({ s1 with ldtr := { s1.ldtr with sel := sel, valid := false } }.retire i)
      else if selTi sel then raise s1 (.gp (selectorCode sel))
      else
        match s1.fetchDesc sel (lldtRefusal sel) with
        | .error f => .error f
        | .ok (d, s2) =>
          .ok ({ s2 with ldtr := { sel := sel, base := d.base, limit := d.limit, valid := true } }.retire i)

/-- LLDT r/m16 (R301). -/
def execLldt (p : Prefixes) (rm : RegMem) (s : State) : Host.Outcome State Fault Refusal :=
  settle (loadLdtr (.lldt p rm) p rm s)

/-- The machine status word after LMSW (R305): the masked bits of the source, PE never cleared. -/
def mswAfter (mask msw src : Word) : Word :=
  ((msw &&& ~~~mask) ||| (src &&& mask)) ||| (msw &&& 1#16)

/-- CR0[15:0] written; an LMSW that sets PE leaves the obligation of R306. -/
def State.setMsw (s : State) (w : Word) : State :=
  { s with
    cr0 := withLowWord s.cr0 w
    peJustSet := s.peJustSet || (!s.pe && w.getLsbD 0) }

/-- The body of LMSW (R304 to R306). -/
def loadMsw (i : Instr) (p : Prefixes) (rm : RegMem) (s : State) : Except Fault State :=
  if s.deniesSystem then raise s (.gp 0#32)
  else
    match s.readSelector p rm with
    | .error f => .error f
    | .ok (src, s1) => .ok ((s1.setMsw (mswAfter s1.cfg.lmswMask (lowWord s1.cr0) src)).retire i)

/-- LMSW r/m16 (R305). -/
def execLmsw (p : Prefixes) (rm : RegMem) (s : State) : Host.Outcome State Fault Refusal :=
  settle (loadMsw (.lmsw p rm) p rm s)

/-- What LTR asks of a descriptor: an available TSS, present (R386). -/
def ltrRefusal (sel : Word) (d : Desc) : Option Exc :=
  if (!d.s && (d.type == 1#4 || d.type == 9#4)) = false then some (.gp (selectorCode sel))
  else if d.present = false then some (.np (selectorCode sel))
  else none

/-- The access-rights byte of a TSS descriptor marked busy: type 1 becomes 3, 9 becomes B (R386). -/
def busyByte (d : Desc) : Byte := d.arByte ||| 0x02#8

/-- TR loaded from a TSS descriptor (R386). -/
def TaskReg.ofDesc (sel : Word) (d : Desc) : TaskReg where
  sel := sel
  base := d.base
  limit := d.limit
  ar := d.attributes (busyByte d)

/-- The body of LTR (R385, R386). -/
def loadTaskRegister (i : Instr) (p : Prefixes) (rm : RegMem) (s : State) : Except Fault State :=
  if s.mode ≠ .prot then raise s .ud
  else if s.cpl ≠ 0#2 then raise s (.gp 0#32)
  else
    match s.readSelector p rm with
    | .error f => .error f
    | .ok (sel, s1) =>
      if isNull sel then raise s1 (.gp 0#32)
      else if selTi sel then raise s1 (.gp (selectorCode sel))
      else
        match s1.fetchDesc sel (ltrRefusal sel) with
        | .error f => .error f
        | .ok (d, s2) =>
          match s2.linWrite (d.la + 5#32) 1 (busyByte d).toNat .supervisor with
          | .error f => .error f
          | .ok s3 => .ok ({ s3 with tr := TaskReg.ofDesc sel d }.retire i)

/-- LTR r/m16 (R386). -/
def execLtr (p : Prefixes) (rm : RegMem) (s : State) : Host.Outcome State Fault Refusal :=
  settle (loadTaskRegister (.ltr p rm) p rm s)

end Sys2Proof.Machine
end

