-- ==== Sys2Proof/Machine/Dispatch.lean ====
section
/-!
DEFINITION. One arm for each constructor of Instr, each one call of its meaning.
-/
namespace Sys2Proof.Machine

def exec (i : Instr) (s : State) : Host.Outcome State Fault Refusal :=
  match i with
  | .lahf p => Sys2Proof.Machine.execLahf p s
  | .lar16 p dst rm => Sys2Proof.Machine.execLar16 p dst rm s
  | .lar32 p dst rm => Sys2Proof.Machine.execLar32 p dst rm s
  | .lea16 p dst rm => Sys2Proof.Machine.execLea16 p dst rm s
  | .lea32 p dst rm => Sys2Proof.Machine.execLea32 p dst rm s
  | .leave16 p => Sys2Proof.Machine.execLeave16 p s
  | .leave32 p => Sys2Proof.Machine.execLeave32 p s
  | .lgdt p rm => Sys2Proof.Machine.execLgdt p rm s
  | .lidt p rm => Sys2Proof.Machine.execLidt p rm s
  | .lds16 p dst rm => Sys2Proof.Machine.execLds16 p dst rm s
  | .lds32 p dst rm => Sys2Proof.Machine.execLds32 p dst rm s
  | .lss16 p dst rm => Sys2Proof.Machine.execLss16 p dst rm s
  | .lss32 p dst rm => Sys2Proof.Machine.execLss32 p dst rm s
  | .les16 p dst rm => Sys2Proof.Machine.execLes16 p dst rm s
  | .les32 p dst rm => Sys2Proof.Machine.execLes32 p dst rm s
  | .lfs16 p dst rm => Sys2Proof.Machine.execLfs16 p dst rm s
  | .lfs32 p dst rm => Sys2Proof.Machine.execLfs32 p dst rm s
  | .lgs16 p dst rm => Sys2Proof.Machine.execLgs16 p dst rm s
  | .lgs32 p dst rm => Sys2Proof.Machine.execLgs32 p dst rm s
  | .lldt p rm => Sys2Proof.Machine.execLldt p rm s
  | .lmsw p rm => Sys2Proof.Machine.execLmsw p rm s
  | .lock body => Sys2Proof.Machine.execLock body s
  | .lodsb p rep => Sys2Proof.Machine.execLodsb p rep s
  | .lodsw p rep => Sys2Proof.Machine.execLodsw p rep s
  | .lodsd p rep => Sys2Proof.Machine.execLodsd p rep s
  | .loop p rel8 => Sys2Proof.Machine.execLoop p rel8 s
  | .loope p rel8 => Sys2Proof.Machine.execLoope p rel8 s
  | .loopne p rel8 => Sys2Proof.Machine.execLoopne p rel8 s
  | .lsl16 p dst rm => Sys2Proof.Machine.execLsl16 p dst rm s
  | .lsl32 p dst rm => Sys2Proof.Machine.execLsl32 p dst rm s
  | .ltr p rm => Sys2Proof.Machine.execLtr p rm s

end Sys2Proof.Machine
end

