-- ==== Sys2Proof/Machine/Fetch.lean ====
section
/-!
DEFINITION. Fetching an instruction (spec/70_reset_and_hazards.md R484): its bytes one after another at
CS:EIP, each checked against CS's limit, and no byte beyond its end.
-/
namespace Sys2Proof.Machine

/-- What fetching an instruction can give: the instruction and the state after the fetch (with the page walk of
R106 a fetch sets Accessed bits), an exception, or a refusal. -/
inductive Fetched where
  | ok (i : Instr) (s : State)
  | fault (f : Fault)
  | refused (r : Refusal)
deriving DecidableEq, Repr

/-- The byte at offset EIP + `k`, read as an execute access. -/
def State.fetchByte (s : State) (k : Nat) : Except Fault (Byte × State) :=
  match s.linRead (s.seg.cs.base + s.eip + BitVec.ofNat 32 k) 1 .execute s.programRights with
  | .error f => .error f
  | .ok (v, s1) => .ok (BitVec.ofNat 8 v, s1)

/-- How many bytes from EIP on lie within CS's limit (R91; log 15). -/
def State.bytesWithinLimit (s : State) : Nat := s.seg.cs.limit.toNat + 1 - s.eip.toNat

/-- Fetch bytes until they make an instruction or a refusal, after those in `bs`; `room` more lie within CS's
limit, and the byte beyond them is #GP(0), Interrupt 13 in Real Address Mode (R91, R426). -/
def State.fetchMore (s : State) (dflt : Size) : Nat → List Byte → Fetched
  | 0, _ => .fault (takeException s (.gp 0#32))
  | room + 1, bs =>
    match s.fetchByte bs.length with
    | .error f => .fault f
    | .ok (b, s1) =>
      match decode dflt (bs ++ [b]) with
      | .ok i _ => .ok i s1
      | .refuse r => .refused (.undecoded r)
      | .more => s1.fetchMore dflt room (bs ++ [b])

/-- The instruction at CS:EIP. -/
def State.fetch (s : State) : Fetched := s.fetchMore s.dflt s.bytesWithinLimit []

/-- Bytes stored at consecutive linear addresses from `la` on, as a loader would store them; a byte whose
address `Translate` refuses is left out. -/
def State.placeBytes (s : State) (la : Dword) : List Byte → State
  | [] => s
  | b :: rest =>
    match s.translate la .execute s.programRights with
    | .error _ => s.placeBytes (la + 1#32) rest
    | .ok (pa, _) => { s with mem := Memory.setByte s.mem pa b }.placeBytes (la + 1#32) rest

end Sys2Proof.Machine
end

