-- ==== Sys2Proof/Machine/Step.lean ====
section
/-!
DEFINITION. One step of the machine: the instruction at CS:EIP is fetched, decoded and executed; the program
counter is moved by the meaning itself (spec/10_state.md R36). The other outcomes: an exception, with the state
before the instruction (spec/60_exceptions.md R436), and a refusal.
-/
namespace Sys2Proof.Machine

/-- One step. After an LMSW that set PE every instruction is refused (spec/70_reset_and_hazards.md R478): the
fetch and the decoder's own refusals come first (spec/60_exceptions.md R430). -/
def step (s : State) : Host.Outcome State Fault Refusal :=
  match s.fetch with
  | .fault f => .fault f
  | .refused r => .refused r
  | .ok i s1 => if s1.peJustSet then .refused .afterModeSwitch else exec i s1

/-- `s` with the instruction whose table bits are `w`, zeros above its `nbits` bits, stored where `step` fetches
its next instruction: `maxLength` bytes at CS:EIP (log 23). -/
def State.withFetchWord (s : State) (nbits w : Nat) : State :=
  s.placeBytes (s.seg.cs.base + s.eip) (tableBytes nbits w)

end Sys2Proof.Machine
end

