-- ==== Sys2Proof/Machine/Deliver.lean ====
section
/-!
DEFINITION. What happens after an exception: the parameter `DeliverFault : State x Fault -> State`
(spec/60_exceptions.md R436, spec/00_scope.md R8). "`raise X(code)` ends the step", so that this stands after `step`
and not in it.
-/
namespace Sys2Proof.Machine

/-- The platform's own `DeliverFault`, "for which the sources give nothing" (R436). A FREE VALUE (log 1). -/
opaque platformDelivery (s : State) (f : Fault) : State

/-- `DeliverFault` of the state before the instruction and the exception it raised: by default there is no next
state, and the run ends in the outcome `Fault`. -/
def State.deliverFault (s : State) (f : Fault) : Option State :=
  match s.cfg.deliverFault with
  | .stop => none
  | .platform => some (platformDelivery s f)

/-- One step, and after an exception what `DeliverFault` makes of it. With the default it is `step`. -/
def advance (s : State) : Host.Outcome State Fault Refusal :=
  match step s with
  | .next t => .next t
  | .refused r => .refused r
  | .fault f =>
    match s.deliverFault f with
    | none => .fault f
    | some t => .next t

end Sys2Proof.Machine
end

