-- ==== Sys2Proof/Safety.lean ====
section
/-!
DEFINITION. The terms that statements about the machine use: safe runs and reachable states, what two states have in
common, an item of memory, what each instruction may write and which exceptions it may raise (as the spec's tables
list them), and the invariant of the machine.
-/
namespace Sys2Proof.Machine

/-! ## Runs -/

/-- `n` steps from `s` end in no exception and no refusal. -/
def SafeFor (n : Nat) (s : State) : Prop := ∃ t, Host.Core.run core n s = .next t

/-- The meaning of one instruction applied `n` times over, stopping at the first exception: the iterations of a repeated
LODS, whose program counter stays (R355). -/
def execTimes (i : Instr) : Nat → State → Host.Outcome State Fault Refusal
  | 0, s => .next s
  | n + 1, s =>
    match exec i s with
    | .next t => execTimes i n t
    | .fault f => .fault f
    | .refused r => .refused r

/-- The states that steps lead to from `s`. -/
inductive Reachable (s : State) : State → Prop where
  | start : Reachable s s
  | step {t u : State} : Reachable s t → step t = .next u → Reachable s u

/-- Every run from `s` ends in no exception and no refusal. -/
def Safe (s : State) : Prop := ∀ n, SafeFor n s

/-! ## What two states have in common -/

/-- `t` is `s` but for what an access to memory can change: memory, the translation buffer, and the counter of free
values. -/
def AgreeButAccess (s t : State) : Prop := t = { s with mem := t.mem, tlb := t.tlb, draws := t.draws }

/-- `Translate` is the identity in this state (R105, R106): Real Address Mode, the default of the parameter, or the
page walk with CR0.PG = 0. -/
def State.unpaged (s : State) : Bool :=
  s.mode == .real || s.cfg.translation == .identity || (s.cfg.translation == .pageTables && !s.pagingOn)

/-- `Translate` is the identity and no other agent stores to memory (R105, R108): an access changes nothing but the
bytes it stores. -/
def State.quiet (s : State) : Bool := s.unpaged && s.cfg.externalAgents == .absent

/-- The page walk is in force (R106). -/
def State.walks (s : State) : Bool := s.cfg.translation == .pageTables && s.pagingOn

/-- The item of `n` bytes at a physical address: `MemRead(pa, n)` (R84), the low byte first. -/
def Memory.item (m : Memory) (pa : Dword) : Nat → Nat
  | 0 => 0
  | n + 1 => (Memory.byteAt m pa).toNat + 256 * Memory.item m (pa + 1#32) n

/-- The bytes `bs` stand in memory from a physical address on. -/
def Memory.holds (m : Memory) (pa : Dword) : List Byte → Prop
  | [] => True
  | b :: rest => Memory.byteAt m pa = b ∧ Memory.holds m (pa + 1#32) rest

/-- The physical address is one of the `n` from `pa` on. -/
def inRange (pa : Dword) (n : Nat) (a : Dword) : Prop := ∃ k < n, a = pa + BitVec.ofNat 32 k

/-- A page entry that the page walk of one of `n` bytes from a linear address on uses (R106). -/
def State.usesEntry (s : State) (la : Dword) (n : Nat) (access : Access) (rights : Rights) (a : Dword) : Prop :=
  ∃ k < n, ∃ w, pageWalk s.mem s.cr3 (la + BitVec.ofNat 32 k) access rights = .ok w ∧ (a = w.pde ∨ a = w.pte)

/-- A page-table entry that the page walk of one of `n` bytes from a linear address on uses (R106). -/
def State.usesTableEntry (s : State) (la : Dword) (n : Nat) (access : Access) (rights : Rights) (a : Dword) : Prop :=
  ∃ k < n, ∃ w, pageWalk s.mem s.cr3 (la + BitVec.ofNat 32 k) access rights = .ok w ∧ a = w.pte

/-- Every translation in the buffer is the one that the page entries in memory give. -/
def State.tlbCurrent (s : State) : Bool := s.tlb.all fun e => e.current s.mem s.cr3

/-- Reading the bytes at CS:EIP + `k` onward as execute accesses, one after another, gives `bs` and leaves `t`
(R105, R484). -/
def State.readsBytes (s : State) (k : Nat) : List Byte → State → Prop
  | [], t => t = s
  | b :: rest, t =>
    ∃ s1, s.linRead (s.seg.cs.base + s.eip + BitVec.ofNat 32 k) 1 .execute s.programRights = .ok (b.toNat, s1) ∧
      s1.readsBytes (k + 1) rest t

/-! ## Encodings, as the spec's tables give them -/

/-- The group of a prefix byte: LOCK, REP and REPNE; operand size; address size; segment (R141, R142). -/
def prefixGroup (b : Byte) : Option Nat :=
  if b ∈ [0xF0#8, 0xF2#8, 0xF3#8] then some 0
  else if b = 0x66#8 then some 1
  else if b = 0x67#8 then some 2
  else if b ∈ [0x2E#8, 0x36#8, 0x3E#8, 0x26#8, 0x64#8, 0x65#8] then some 3
  else none

/-- Prefix bytes with those left out whose group is among `seen` or came before. -/
def firstOfGroups (seen : List (Option Nat)) : List Byte → List Byte
  | [] => []
  | b :: rest =>
    if prefixGroup b ∈ seen then firstOfGroups seen rest
    else b :: firstOfGroups (prefixGroup b :: seen) rest

/-- The registers of a 16-bit addressing form by its `r/m` number, the table of R146. -/
def rmRegisters16 (rm : BitVec 3) : List Gpr :=
  match rm.toNat with
  | 0 => [.ebx, .esi] | 1 => [.ebx, .edi] | 2 => [.ebp, .esi] | 3 => [.ebp, .edi]
  | 4 => [.esi] | 5 => [.edi] | 6 => [.ebp] | _ => [.ebx]

/-- What displacement bytes stand for: one is signed, two or four are little-endian (R146, R147). -/
def dispValue : List Byte → Int
  | [] => 0
  | [b] => b.toInt
  | [b0, b1] => b0.toNat + 256 * b1.toNat
  | [b0, b1, b2, b3] => b0.toNat + 256 * b1.toNat + 65536 * b2.toNat + 16777216 * b3.toNat
  | _ => 0

/-- How many displacement bytes a 16-bit form has (R155). -/
def dispBytes16 (mod : BitVec 2) (rm : BitVec 3) : Nat :=
  if mod = 0#2 then (if rm = 6#3 then 2 else 0) else if mod = 1#2 then 1 else 2

/-- How many displacement bytes a 32-bit form has; `base` is `r/m`, or the SIB byte's `base` (R155). -/
def dispBytes32 (mod : BitVec 2) (base : BitVec 3) : Nat :=
  if mod = 0#2 then (if base = 5#3 then 4 else 0) else if mod = 1#2 then 1 else 4

/-! ## What an instruction may write -/

/-- The segment register that an instruction loads (R46). -/
def loadsSegment : Instr → Option SegReg
  | .lds16 _ _ _ | .lds32 _ _ _ => some .ds
  | .lss16 _ _ _ | .lss32 _ _ _ => some .ss
  | .les16 _ _ _ | .les32 _ _ _ => some .es
  | .lfs16 _ _ _ | .lfs32 _ _ _ => some .fs
  | .lgs16 _ _ _ | .lgs32 _ _ _ => some .gs
  | _ => none

/-- The general registers that an instruction may write (R33); ECX for a repeated LODS (R355). -/
def writesGpr : Instr → List Gpr
  | .lahf _ => [.eax]
  | .lar16 _ r _ | .lar32 _ r _ | .lsl16 _ r _ | .lsl32 _ r _ | .lea16 _ r _ | .lea32 _ r _
  | .lds16 _ r _ | .lds32 _ r _ | .lss16 _ r _ | .lss32 _ r _ | .les16 _ r _ | .les32 _ r _
  | .lfs16 _ r _ | .lfs32 _ r _ | .lgs16 _ r _ | .lgs32 _ r _ => [r]
  | .leave16 _ | .leave32 _ => [.esp, .ebp]
  | .lodsb _ rep | .lodsw _ rep | .lodsd _ rep => if rep then [.eax, .esi, .ecx] else [.eax, .esi]
  | .loop _ _ | .loope _ _ | .loopne _ _ => [.ecx]
  | .lgdt _ _ | .lidt _ _ | .lldt _ _ | .lmsw _ _ | .ltr _ _ | .lock _ => []

/-- A full-pointer load by its parts. -/
structure FullPointer where
  k : SegReg
  n : Size
  p : Prefixes
  dst : Gpr
  rm : RegMem
deriving DecidableEq, Repr

/-- The ten full-pointer loads: the segment register, the operand size and the operands of each (R276 to R285). -/
def fullPointer : Instr → Option FullPointer
  | .lds16 p dst rm => some ⟨.ds, .w16, p, dst, rm⟩
  | .lds32 p dst rm => some ⟨.ds, .w32, p, dst, rm⟩
  | .lss16 p dst rm => some ⟨.ss, .w16, p, dst, rm⟩
  | .lss32 p dst rm => some ⟨.ss, .w32, p, dst, rm⟩
  | .les16 p dst rm => some ⟨.es, .w16, p, dst, rm⟩
  | .les32 p dst rm => some ⟨.es, .w32, p, dst, rm⟩
  | .lfs16 p dst rm => some ⟨.fs, .w16, p, dst, rm⟩
  | .lfs32 p dst rm => some ⟨.fs, .w32, p, dst, rm⟩
  | .lgs16 p dst rm => some ⟨.gs, .w16, p, dst, rm⟩
  | .lgs32 p dst rm => some ⟨.gs, .w32, p, dst, rm⟩
  | _ => none

/-- LAR and LSL, the only instructions that write a flag (R38). -/
def writesZf : Instr → Bool
  | .lar16 _ _ _ | .lar32 _ _ _ | .lsl16 _ _ _ | .lsl32 _ _ _ => true
  | _ => false

/-- The instructions that store to memory themselves, besides page entries: LTR and the full-pointer loads (R82). -/
def storesMemory : Instr → Bool
  | .ltr _ _ => true
  | i => (loadsSegment i).isSome

/-- The instructions that run only at CPL 0 in Protected Mode (R438). -/
def isPrivileged : Instr → Bool
  | .lgdt _ _ | .lidt _ _ | .lldt _ _ | .lmsw _ _ | .ltr _ _ => true
  | _ => false

/-- LGDT, LIDT and LMSW pass their privilege check: Real Address Mode, CPL 0 in Protected Mode, or Virtual 8086 Mode
where the parameter lets them run (R252, R253, R305). -/
abbrev State.mayLoadSystem (s : State) : Prop :=
  s.mode = .real ∨ (s.mode = .prot ∧ s.cpl = 0#2) ∨ (s.mode = .v86 ∧ s.cfg.v86PrivFault = false)

/-! ## What an instruction reads -/

/-- The operand in memory that an instruction reads: segment, offset, bytes (R82, R87). -/
def State.operandRead (s : State) : Instr → Option (SegReg × Dword × Nat)
  | .lar16 p _ (.mem m) | .lar32 p _ (.mem m) | .lsl16 p _ (.mem m) | .lsl32 p _ (.mem m) | .lldt p (.mem m)
  | .ltr p (.mem m) | .lmsw p (.mem m) => some (operandSegment p m, effectiveAddress s m, 2)
  | .lgdt p (.mem m) | .lidt p (.mem m) => some (operandSegment p m, effectiveAddress s m, 6)
  | .leave16 _ => some (.ss, s.regN s.stackAddrSize .ebp, 2)
  | .leave32 _ => some (.ss, s.regN s.stackAddrSize .ebp, 4)
  | .lodsb p _ => some (p.seg.getD .ds, s.regN (p.addressSize s.dflt) .esi, 1)
  | .lodsw p _ => some (p.seg.getD .ds, s.regN (p.addressSize s.dflt) .esi, 2)
  | .lodsd p _ => some (p.seg.getD .ds, s.regN (p.addressSize s.dflt) .esi, 4)
  | i =>
    match fullPointer i with
    | some ⟨_, n, p, _, .mem m⟩ => some (operandSegment p m, effectiveAddress s m, n.bytes + 2)
    | _ => none

/-- The operand that gives LAR, LSL, LLDT and LTR their selector. -/
def selectorOperand : Instr → Option (Prefixes × RegMem)
  | .lar16 p _ rm | .lar32 p _ rm | .lsl16 p _ rm | .lsl32 p _ rm | .lldt p rm | .ltr p rm => some (p, rm)
  | _ => none

/-- The `n` bytes from a linear address on, with these rights, are what an instruction reads: its operand with the
program's rights, or the descriptor that its selector names with a supervisor's (R98, R105). -/
def State.readsAt (s : State) (i : Instr) (la : Dword) (n : Nat) (rights : Rights) : Prop :=
  (∃ k off, s.operandRead i = some (k, off, n) ∧ la = (s.seg.get k).base + off ∧ rights = s.programRights) ∨
    (∃ p rm sel s1, selectorOperand i = some (p, rm) ∧ s.readSelector p rm = .ok (sel, s1) ∧
      s.descAddress sel = some la ∧ n = 8 ∧ rights = .supervisor)

/-- LAR, LSL, LLDT, LTR: not recognized outside Protected Mode (R158). -/
def isProtectedOnly : Instr → Bool
  | .lar16 _ _ _ | .lar32 _ _ _ | .lsl16 _ _ _ | .lsl32 _ _ _ | .lldt _ _ | .ltr _ _ => true
  | _ => false

/-! ## Which exceptions an instruction may raise -/

/-- The vector of a segment violation: 12 for SS in Protected Mode, and outside it where the parameter says so
(R88, R422); else 13. -/
def State.segVector (s : State) (k : SegReg) : Nat :=
  if k = .ss ∧ (s.mode = .prot ∨ s.cfg.realStackFaultVector = .int12) then 12 else 13

/-- The vectors of a read through a segment, "mem" in R426: the segment's, and #PF except in Real Address Mode. -/
def State.readVectors (s : State) (k : SegReg) : List Nat :=
  if s.mode = .real then [s.segVector k] else [s.segVector k, 14]

/-- The vectors of reading an operand: none for a register. -/
def State.operandVectors (s : State) (p : Prefixes) : RegMem → List Nat
  | .reg _ => []
  | .mem m => s.readVectors (operandSegment p m)

/-- The vectors that R426 lists for an instruction in the mode of a state, by the form of its operand. -/
def mayRaise (s : State) : Instr → List Nat
  | .lahf _ => []
  | .lock _ => [6]
  | .lea16 _ _ rm | .lea32 _ _ rm =>
    match rm with
    | .reg _ => [6]
    | .mem _ => []
  | .leave16 _ | .leave32 _ => s.readVectors .ss
  | .lgdt p rm | .lidt p rm =>
    match rm with
    | .reg _ => [6]
    | .mem _ => if s.mayLoadSystem then s.operandVectors p rm else [13]
  | .lmsw p rm => if s.mayLoadSystem then s.operandVectors p rm else [13]
  | .lodsb p _ | .lodsw p _ | .lodsd p _ => s.readVectors (p.seg.getD .ds)
  | .loop _ _ | .loope _ _ | .loopne _ _ => if s.mode = .prot ∨ s.cfg.loopLimitCheckReal = true then [13] else []
  | .lar16 p _ rm | .lar32 p _ rm | .lsl16 p _ rm | .lsl32 p _ rm =>
    if s.mode = .prot then 14 :: s.operandVectors p rm else [6]
  | .lldt p rm | .ltr p rm =>
    if s.mode = .prot then (if s.cpl = 0#2 then 11 :: 13 :: 14 :: s.operandVectors p rm else [13]) else [6]
  | i =>
    match fullPointer i with
    | some ⟨k, _, p, _, .mem m⟩ =>
      if s.mode = .prot then (if k = .ss then 12 else 11) :: 13 :: 14 :: s.operandVectors p (.mem m)
      else s.operandVectors p (.mem m)
    | _ => [6]

/-! ## The invariant of the machine -/

/-- What DS, ES, FS and GS can hold after any load: attributes of a data segment or a readable code segment (R90). -/
def dataSegmentOk (c : SegCache) : Bool := arS c.ar && readable c.ar

/-- What SS can hold: a writable data segment, never marked invalid (R89, R272). -/
def stackSegmentOk (c : SegCache) : Bool := c.valid && arData c.ar && arRW c.ar

/-- The invariant that every step keeps: memory is canonical, the stack segment is a valid writable data segment, the
data segments hold data or readable code, CS is valid, EFLAGS.VM is clear in Real Address Mode, and the obligation of
R306 stands only in Protected Mode. -/
def State.Inv (s : State) : Prop :=
  Memory.wf s.mem = true ∧ stackSegmentOk s.seg.ss = true ∧ s.seg.cs.valid = true ∧
    dataSegmentOk s.seg.ds = true ∧ dataSegmentOk s.seg.es = true ∧ dataSegmentOk s.seg.fs = true ∧
    dataSegmentOk s.seg.gs = true ∧ (s.mode = .real → s.vm = false) ∧ (s.peJustSet = true → s.mode = .prot)

end Sys2Proof.Machine
end

