-- ==== Sys2Proof/Certificates/Slice0/Obligations.lean ====
section
/-!
DEFINITION. The statements for the provers, each a proposition about the machine. Where a statement speaks of a read
that succeeds (`segRead`, `readMem`, `readSelector`, `readDesc` answering `.ok`), it holds under every address
translation; the statements on memory access say when such a read succeeds and what it answers.
-/

open Sys2Proof Sys2Proof.Machine

/-! ## Encoding -/

/-- The bytes of every well-formed instruction decode to it, whatever follows them (spec/30_encoding.md R140, R142 to
R148, R154). -/
def Obligations.DecodeOfEncode : Prop :=
  ∀ (dflt : Size) (i : Instr) (rest : List Byte), i.wf dflt = true → decode dflt (encode i ++ rest) = .ok i rest

/-- What the decoder accepts is well-formed, and it takes exactly the bytes that R155 counts. -/
def Obligations.DecodedIsWellFormedOfItsLength : Prop :=
  ∀ (dflt : Size) (bs : List Byte) (i : Instr) (rest : List Byte), decode dflt bs = .ok i rest →
    i.wf dflt = true ∧ ∃ used, bs = used ++ rest ∧ used.length = i.length

/-- Twelve bytes always settle what an instruction is, unless two of its prefix bytes are of one group: with at most one
of each no encoding is longer (R142, R155). -/
def Obligations.DecodeNeedsAtMostMaxLength : Prop :=
  ∀ (dflt : Size) (bs : List Byte), maxLength ≤ bs.length → decode dflt bs = .more →
    ∃ pre post, bs = pre ++ post ∧ (∀ b ∈ pre, prefixGroup b ≠ none) ∧ firstOfGroups [] pre ≠ pre

/-- "Prefixes may come in any order" (R142): permuting the prefix bytes changes nothing in what is decoded. -/
def Obligations.PrefixOrderIsIrrelevant : Prop :=
  ∀ (dflt : Size) (pre pre' : List Byte) (opcode : Byte) (rest : List Byte),
    (∀ b ∈ pre, prefixGroup b ≠ none) → pre.Perm pre' → prefixGroup opcode = none →
      decode dflt (pre ++ opcode :: rest) = decode dflt (pre' ++ opcode :: rest)

/-- Two prefix bytes of one group (R142), wherever they stand among the prefixes: no instruction is decoded; when the
same bytes with one prefix of each group would make an instruction, so that all its bytes are read (R430), it is refused
by this name; and more bytes are needed exactly when they would be needed with one prefix of each group. -/
def Obligations.RepeatedPrefixGroupRefused : Prop :=
  ∀ (dflt : Size) (pre rest : List Byte), (∀ b ∈ pre, prefixGroup b ≠ none) → firstOfGroups [] pre ≠ pre →
    (∀ i r, decode dflt (pre ++ rest) ≠ .ok i r) ∧
    (∀ i r, decode dflt (firstOfGroups [] pre ++ rest) = .ok i r → decode dflt (pre ++ rest) = .refuse .repeatedPrefix) ∧
    (decode dflt (pre ++ rest) = .more ↔ decode dflt (firstOfGroups [] pre ++ rest) = .more)

/-- Every opcode that R154 does not list, and every `reg` value of 0F 00 and 0F 01 that R156 does not, is refused as
out of scope, with or without prefixes (R161). -/
def Obligations.OpcodeOutsideTheTableRefused : Prop :=
  ∀ (dflt : Size) (group1 : List Byte) (p : Prefixes) (b modrm : Byte) (rest : List Byte),
    group1 ∈ [[], [0xF0#8], [0xF3#8], [0xF2#8]] →
      (prefixGroup b = none →
        b ∉ [0x9F#8, 0x8D#8, 0xC9#8, 0xC5#8, 0xC4#8, 0xAC#8, 0xAD#8, 0xE2#8, 0xE1#8, 0xE0#8, 0x0F#8] →
        decode dflt (group1 ++ (p.bytes ++ b :: rest)) = .refuse .opcodeNotInScope) ∧
      (b ∉ [0x00#8, 0x01#8, 0x02#8, 0x03#8, 0xB2#8, 0xB4#8, 0xB5#8] →
        decode dflt (group1 ++ (p.bytes ++ 0x0F#8 :: b :: rest)) = .refuse .opcodeNotInScope) ∧
      (field53 modrm ∉ [2#3, 3#3] →
        decode dflt (group1 ++ (p.bytes ++ 0x0F#8 :: 0x00#8 :: modrm :: rest)) = .refuse .opcodeNotInScope) ∧
      (field53 modrm ∉ [2#3, 3#3, 6#3] →
        decode dflt (group1 ++ (p.bytes ++ 0x0F#8 :: 0x01#8 :: modrm :: rest)) = .refuse .opcodeNotInScope)

/-- F3 before an instruction other than LODS, and F2 before any, are refused (R160). `takesLock` leaves out the terms
that hold an F0 or F3 byte already. -/
def Obligations.RepeatPrefixOnlyBeforeLods : Prop :=
  ∀ (dflt : Size) (i : Instr) (rest : List Byte), i.wf dflt = true → i.takesLock = true →
    ((∀ p rep, i ≠ .lodsb p rep ∧ i ≠ .lodsw p rep ∧ i ≠ .lodsd p rep) →
      decode dflt (0xF3#8 :: (encode i ++ rest)) = .refuse .repBeforeNonLods) ∧
    decode dflt (0xF2#8 :: (encode i ++ rest)) = .refuse .repneUnsupported

/-- Bytes written out from R141 to R154 decode to the instructions they stand for. -/
def Obligations.SampleWordsDecode : Prop :=
  decode .w16 [0x8D#8, 0x9B#8, 0x34#8, 0x12#8] = .ok (.lea16 .empty .ebx (.mem (.based16 .bpDi (.disp16 0x1234#16)))) [] ∧
  decode .w32 [0x8D#8, 0x04#8, 0xB5#8, 0x10#8, 0x00#8, 0x00#8, 0x00#8] =
    .ok (.lea32 .empty .eax (.mem (.sibDirect (some (.esi, .x4)) 0x10#32))) [] ∧
  decode .w32 [0x66#8, 0x0F#8, 0x03#8, 0x56#8, 0x08#8] =
    .ok (.lsl16 { Prefixes.empty with opSize := true } .edx (.mem (.based32 .esi (.disp8 0x08#8)))) [] ∧
  decode .w16 [0x0F#8, 0x01#8, 0x36#8, 0x00#8, 0x06#8] = .ok (.lmsw .empty (.mem (.direct16 0x0600#16))) [] ∧
  decode .w16 [0x67#8, 0xF3#8, 0x26#8, 0xAC#8] =
    .ok (.lodsb { opSize := false, addrSize := true, seg := some .es } true) [] ∧
  decode .w16 [0xF0#8, 0x0F#8, 0x00#8, 0xD0#8] = .ok (.lock (.lldt .empty (.reg .eax))) [] ∧
  decode .w16 [0xE1#8, 0xEE#8] = .ok (.loope .empty 0xEE#8) []

/-- The 16-bit addressing forms (R146), from the ModR/M byte to the offset and the default segment: the sum of the
table's registers and the displacement modulo 2^16. -/
def Obligations.AddressingForms16 : Prop :=
  ∀ (s : State) (modrm : Byte) (disp rest : List Byte), field76 modrm ≠ 3#2 →
    disp.length = dispBytes16 (field76 modrm) (field20 modrm) →
      ∃ m, parseRegMem .w16 modrm (disp ++ rest) = .ok (.mem m) rest ∧
        (if field76 modrm = 0#2 ∧ field20 modrm = 6#3 then
          ((effectiveAddress s m).toNat : Int) = dispValue disp ∧ defaultSegment m = .ds
        else
          ((effectiveAddress s m).toNat : Int) =
              ((((rmRegisters16 (field20 modrm)).map fun r => (s.reg32 r).toNat % 65536).sum : Nat) + dispValue disp) % 65536 ∧
            defaultSegment m = if field20 modrm ∈ [2#3, 3#3, 6#3] then .ss else .ds)

/-- The 32-bit addressing forms without a SIB byte (R147). -/
def Obligations.AddressingForms32 : Prop :=
  ∀ (s : State) (modrm : Byte) (disp rest : List Byte), field76 modrm ≠ 3#2 → field20 modrm ≠ 4#3 →
    disp.length = dispBytes32 (field76 modrm) (field20 modrm) →
      ∃ m, parseRegMem .w32 modrm (disp ++ rest) = .ok (.mem m) rest ∧
        (if field76 modrm = 0#2 ∧ field20 modrm = 5#3 then
          ((effectiveAddress s m).toNat : Int) = dispValue disp ∧ defaultSegment m = .ds
        else
          ((effectiveAddress s m).toNat : Int) =
              ((s.reg32 (.ofBits (field20 modrm))).toNat + dispValue disp) % 4294967296 ∧
            defaultSegment m = if field20 modrm = 5#3 then .ss else .ds)

/-- The 32-bit addressing forms with a SIB byte (R147): base, index times 1, 2, 4 or 8, displacement; `index` 100 with a
`scale` other than 00 is refused. -/
def Obligations.AddressingFormsSib : Prop :=
  ∀ (s : State) (modrm sib : Byte) (disp rest : List Byte), field76 modrm ≠ 3#2 → field20 modrm = 4#3 →
    disp.length = dispBytes32 (field76 modrm) (field20 sib) →
    (field53 sib = 4#3 ∧ field76 sib ≠ 0#2 →
      parseRegMem .w32 modrm (sib :: (disp ++ rest)) = .refuse .scaledMissingIndex) ∧
    (¬ (field53 sib = 4#3 ∧ field76 sib ≠ 0#2) →
      ∃ m, parseRegMem .w32 modrm (sib :: (disp ++ rest)) = .ok (.mem m) rest ∧
        ((effectiveAddress s m).toNat : Int) =
          (((if field76 modrm = 0#2 ∧ field20 sib = 5#3 then 0 else (s.reg32 (.ofBits (field20 sib))).toNat) +
              (if field53 sib = 4#3 then 0 else (s.reg32 (.ofBits (field53 sib))).toNat * 2 ^ (field76 sib).toNat) : Nat) +
            dispValue disp) % 4294967296 ∧
        defaultSegment m =
          if field20 sib = 4#3 ∨ (field20 sib = 5#3 ∧ field76 modrm ≠ 0#2) then .ss else .ds)

/-! ## Fetch and step -/

/-- A STEP RUNS THE DECODED INSTRUCTION: where the bytes read at CS:EIP, all within CS's limit, decode to an instruction
and no mode switch is pending, the step is the instruction's meaning in the state that reading them leaves; it moves the
program counter itself (R36, R484). Where the decoder refuses them, the step is refused by the decoder's name for it and
raises nothing, pending mode switch or not (R6, R161, R430). In a quiet state the bytes are those that stand there, and
nothing is left changed. -/
def Obligations.StepRunsTheDecodedInstruction : Prop :=
  ∀ (s : State) (bs : List Byte), s.eip.toNat + bs.length ≤ s.seg.cs.limit.toNat + 1 →
    (∀ i, decode s.dflt bs = .ok i [] → s.peJustSet = false →
      (∀ s1, s.readsBytes 0 bs s1 → step s = exec i s1) ∧
      (s.quiet = true → Memory.holds s.mem (s.seg.cs.base + s.eip) bs → step s = exec i s)) ∧
    (∀ r, decode s.dflt bs = .refuse r →
      (∀ s1, s.readsBytes 0 bs s1 → step s = .refused (.undecoded r)) ∧
      (s.quiet = true → Memory.holds s.mem (s.seg.cs.base + s.eip) bs → step s = .refused (.undecoded r)))

/-- Under every address translation, a step that answers a next state has read, at CS:EIP within the limit and as
execute accesses with the program's rights, the bytes of a well-formed instruction, and run it (R105, R484). Without
other agents the reading changes nothing where the page walk is not in force; where it is, only the translation buffer,
the count of free values, and in memory the Accessed bits of page entries that the walks of these bytes use (R106). -/
def Obligations.StepIsAFetchedInstruction : Prop :=
  ∀ s t : State, step s = .next t →
    ∃ (i : Instr) (bs : List Byte) (s1 : State), decode s.dflt bs = .ok i [] ∧ bs.length = i.length ∧
      s.eip.toNat + bs.length ≤ s.seg.cs.limit.toNat + 1 ∧ s.readsBytes 0 bs s1 ∧ AgreeButAccess s s1 ∧
      s.peJustSet = false ∧ exec i s1 = .next t ∧
      (s.cfg.externalAgents = .absent →
        (s.walks = false → s1 = s) ∧
        (Memory.wf s.mem = true → ∀ a, Memory.byteAt s1.mem a = Memory.byteAt s.mem a ∨
          (s.usesEntry (s.seg.cs.base + s.eip) bs.length .execute s.programRights a ∧
            Memory.byteAt s1.mem a = Memory.byteAt s.mem a ||| 0x20#8))) ∧
      (s.quiet = true → Memory.holds s.mem (s.seg.cs.base + s.eip) bs)

/-- The exceptions of a fetch (R91, R426, R430), under every address translation, where the bytes read so far lie within
CS's limit and do not end an instruction. If the next byte lies beyond the limit, the step is #GP(0), Interrupt 13 in
Real Address Mode. If it lies within it and reading it raises, the step raises the same, a page fault that bears the
address of the instruction's first byte. So it is for an instruction that would be refused for its prefixes. -/
def Obligations.FetchFaultsEndTheStep : Prop :=
  ∀ (s s1 : State) (bs : List Byte), s.readsBytes 0 bs s1 → decode s.dflt bs = .more →
    (∀ k < bs.length, s.eip.toNat + k ≤ s.seg.cs.limit.toNat) →
    (s.seg.cs.limit.toNat < s.eip.toNat + bs.length →
      step s = .fault (.generalProtection (if s.mode = .real then none else some 0#32) s.eip)) ∧
    (s.eip.toNat + bs.length ≤ s.seg.cs.limit.toNat → ∀ f,
      s1.linRead (s.seg.cs.base + s.eip + BitVec.ofNat 32 bs.length) 1 .execute s.programRights = .error f →
        step s = .fault f ∧ f.vector = 14 ∧ f.pc = s.eip ∧ s.mode ≠ .real)

/-- Directly after an LMSW that set PE no step answers a next state, and a decodable instruction is refused by its own
reason, whatever it is and under every address translation (R306, R478). -/
def Obligations.StepAfterModeSwitchRefused : Prop :=
  ∀ s : State, s.peJustSet = true →
    (∀ t, step s ≠ .next t) ∧
    ∀ (bs : List Byte) (i : Instr) (s1 : State), s.readsBytes 0 bs s1 →
      s.eip.toNat + bs.length ≤ s.seg.cs.limit.toNat + 1 → decode s.dflt bs = .ok i [] →
      step s = .refused .afterModeSwitch

/-! ## Memory -/

/-- Items of memory are little-endian (R84). Where translation is the identity, an access takes its bytes one at a time
from the lowest address on, and other agents may store before each ("should treat only single bytes as atomic", R87).
In a quiet state a read of `n` bytes answers the sum of the bytes times 256^i and changes nothing; a write stores byte
`i` of the number at address `i` and leaves every other byte alone. Addresses wrap modulo 2^32. -/
def Obligations.MemoryItemsAreLittleEndian : Prop :=
  ∀ (s : State) (la : Dword) (n v : Nat) (access : Access) (rights : Rights), s.unpaged = true →
    (∀ w t, s.agentsAct.linRead (la + 1#32) n access rights = .ok (w, t) →
      s.linRead la (n + 1) access rights = .ok ((Memory.byteAt s.agentsAct.mem la).toNat + 256 * w, t)) ∧
    (s.linWrite la (n + 1) v rights =
      { s.agentsAct with mem := Memory.setByte s.agentsAct.mem la (BitVec.ofNat 8 v) }.linWrite (la + 1#32) n (v / 256)
        rights) ∧
    (s.quiet = true → s.linRead la n access rights =
      .ok (((List.range n).map fun i => (Memory.byteAt s.mem (la + BitVec.ofNat 32 i)).toNat * 2 ^ (8 * i)).sum, s)) ∧
    (s.quiet = true → Memory.wf s.mem = true → n ≤ 8 →
      ∃ t, s.linWrite la n v rights = .ok t ∧ t = { s with mem := t.mem } ∧ Memory.wf t.mem = true ∧
        (∀ i < n, (Memory.byteAt t.mem (la + BitVec.ofNat 32 i)).toNat = v / 2 ^ (8 * i) % 256) ∧
        ∀ a, ¬ inRange la n a → Memory.byteAt t.mem a = Memory.byteAt s.mem a)

/-- A segment-relative read (R88 to R92), under every address translation: the limit test is made on unbounded numbers,
above the limit for an expand-down data segment, and in Real Address Mode too it is the limit that counts (log 34); in
Protected Mode the segment must be valid and not an execute-only code segment. If all hold, it is the linear read at
base + offset, with a user's rights where CPL is 3 and a supervisor's else (R105), which in a quiet state delivers the
bytes there and changes nothing; if not, no memory matters: #SS(0) for SS and #GP(0) for the others in Protected Mode,
and outside it the vector of the parameter for SS. -/
def Obligations.SegmentReadChecks : Prop :=
  ∀ (s : State) (k : SegReg) (off : Dword) (n : Nat), 0 < n →
    let c := s.seg.get k
    let expandDown := c.ar.getLsbD 4 = true ∧ c.ar.getLsbD 3 = false ∧ c.ar.getLsbD 2 = true
    let inside :=
      (expandDown → c.limit.toNat < off.toNat ∧
        off.toNat + n - 1 ≤ if c.ar.getLsbD 10 then 0xFFFFFFFF else 0xFFFF) ∧
      (¬ expandDown → off.toNat + n - 1 ≤ c.limit.toNat)
    let allowed :=
      s.mode = .prot → c.valid = true ∧
        ¬ (c.ar.getLsbD 4 = true ∧ c.ar.getLsbD 3 = true ∧ c.ar.getLsbD 1 = false)
    let stackVector := s.mode = .prot ∨ s.cfg.realStackFaultVector = .int12
    let code := if s.mode = .real then none else some 0#32
    (allowed ∧ inside →
      s.segRead k off n = s.linRead (c.base + off) n .read (if s.cpl = 3#2 then .user else .supervisor) ∧
      (s.quiet = true → s.segRead k off n = .ok (Memory.item s.mem (c.base + off) n, s))) ∧
    (¬ (allowed ∧ inside) → s.segRead k off n =
      .error (if k = .ss ∧ stackVector then .stackFault code s.eip else .generalProtection code s.eip))

/-- An access under the page walk (R106), where no translation in the buffer is stale: its bytes are all translated,
and then read or written one at a time (R87). Without other agents each byte's physical address is its walk's, and the
translations change memory by the Accessed bit, bit 5, of every directory and table entry that these walks use, for a
write by the Dirty bit, bit 6, of the table entries too, and nowhere else; a read then delivers the bytes at those
addresses, and a write stores its own. -/
def Obligations.PagedAccessMarksOnlyUsedEntries : Prop :=
  ∀ (s t : State) (la : Dword) (n : Nat) (access : Access) (rights : Rights) (pas : List Dword),
    Memory.wf s.mem = true → s.walks = true → s.tlbCurrent = true →
    s.translateRange la access rights n = .ok (pas, t) →
      AgreeButAccess s t ∧ Memory.wf t.mem = true ∧ pas.length = n ∧
      s.linRead la n access rights = .ok (t.busRead pas) ∧
      (access = .write → ∀ v, s.linWrite la n v rights = .ok (t.busWrite pas v)) ∧
      (s.cfg.externalAgents = .absent →
        t = { s with mem := t.mem, tlb := t.tlb } ∧
        (∀ k < n, ∃ w, pageWalk s.mem s.cr3 (la + BitVec.ofNat 32 k) access rights = .ok w ∧ pas[k]? = some w.pa) ∧
        (∀ a, (access = .write → s.usesTableEntry la n access rights a →
            Memory.byteAt t.mem a = Memory.byteAt s.mem a ||| 0x60#8) ∧
          (¬ (access = .write ∧ s.usesTableEntry la n access rights a) → s.usesEntry la n access rights a →
            Memory.byteAt t.mem a = Memory.byteAt s.mem a ||| 0x20#8) ∧
          (¬ s.usesEntry la n access rights a → Memory.byteAt t.mem a = Memory.byteAt s.mem a)) ∧
        s.linRead la n access rights = .ok (Memory.number t.mem pas, t) ∧
        (access = .write → ∀ v, s.linWrite la n v rights = .ok { t with mem := Memory.setNumber t.mem pas v }))

/-- Translation with page tables (R106). The walk, in arithmetic: the directory entry at CR3's frame + 4 times bits
31:22, the table entry at its frame + 4 times bits 21:12, each read byte by byte; a clear P bit is a fault with code bit
0 clear, also where the directory entry refuses the access (the model's choice, log 33); a user access needs U/S in both,
and R/W in both to write, or faults with code bit 0 set; else the address is the table entry's frame + bits 11:0, A is
set in both entries and D in the table entry on a write. Without other agents the entries are those in memory, and no
other byte changes. A translation in the buffer that is stale, or that other agents may make so, is used where a free
value says so, else the walk (the model's choice, log 9). -/
def Obligations.PageWalkTranslates : Prop :=
  ∀ (s : State) (la : Dword) (access : Access) (rights : Rights), s.cfg.translation = .pageTables → s.pe = true →
    s.cr0.getLsbD 31 = true →
    let pdeAt := BitVec.ofNat 32 (s.cr3.toNat / 4096 * 4096 + la.toNat / 4194304 * 4)
    let r1 := s.busRead (consecutive pdeAt 4)
    let pde := r1.1
    let pteAt := BitVec.ofNat 32 (pde / 4096 * 4096 + la.toNat / 4096 % 1024 * 4)
    let r2 := r1.2.busRead (consecutive pteAt 4)
    let pte := r2.1
    let present := pde % 2 = 1 ∧ pte % 2 = 1
    let denied := rights = .user ∧
      (pde / 4 % 2 = 0 ∨ pte / 4 % 2 = 0 ∨ (access = .write ∧ (pde / 2 % 2 = 0 ∨ pte / 2 % 2 = 0)))
    let code := (if access = .write then 2 else 0) + (if rights = .user then 4 else 0)
    let used : Byte := if access = .write then 0x60#8 else 0x20#8
    let holds := fun e : TlbEntry => e.current s.mem s.cr3 = true ∧ s.cfg.externalAgents = .absent
    (s.cfg.externalAgents = .absent → pde = Memory.item s.mem pdeAt 4 ∧ pte = Memory.item s.mem pteAt 4) ∧
    (¬ present → s.walkPage la access rights = .error (.pageFault (some (BitVec.ofNat 32 code)) s.eip la)) ∧
    (present ∧ denied →
      s.walkPage la access rights = .error (.pageFault (some (BitVec.ofNat 32 (code + 1))) s.eip la)) ∧
    (present ∧ ¬ denied → ∃ t,
      s.walkPage la access rights = .ok (BitVec.ofNat 32 (pte / 4096 * 4096 + la.toNat % 4096), t) ∧
      AgreeButAccess s t ∧ t.mem = ((r2.2.busSetBits pdeAt 0x20#8).busSetBits pteAt used).mem ∧
      (s.cfg.externalAgents = .absent →
        t = { s with mem := t.mem, tlb := t.tlb } ∧
        (Memory.wf s.mem = true → ∀ a, Memory.byteAt t.mem a =
          if a = pteAt then Memory.byteAt s.mem a ||| used
          else if a = pdeAt then Memory.byteAt s.mem a ||| 0x20#8 else Memory.byteAt s.mem a))) ∧
    ((∀ e, tlbFind s.tlb (pageOf la) = some e → holds e) →
      s.translate la access rights = s.walkPage la access rights) ∧
    (∀ e, tlbFind s.tlb (pageOf la) = some e → ¬ holds e →
      let refused := rights = .user ∧ (e.user = false ∨ (access = .write ∧ e.writable = false))
      s.translate la access rights =
        if Config.draw 1 s.draws ≠ 1#1 ∨ (¬ refused ∧ access = .write ∧ e.dirty = false) then
          { s with draws := s.draws + 1 }.walkPage la access rights
        else if refused then .error (.pageFault (some (BitVec.ofNat 32 (code + 1))) s.eip la)
        else .ok (BitVec.ofNat 32 (e.frame.toNat * 4096 + la.toNat % 4096), { s with draws := s.draws + 1 }))

/-! ## Selectors and descriptors -/

/-- "`IsNull(sel)` is `sel[15:2] = 0`, that is `sel` in 0000h..0003h" (R97). -/
def Obligations.NullSelectorsAreZeroToThree : Prop :=
  ∀ sel : Word, (isNull sel = true ↔ sel.extractLsb' 2 14 = 0#14) ∧ (isNull sel = true ↔ sel.toNat ≤ 3)

/-- The descriptor a selector names (R96, R98), under every address translation: bit 2 picks the GDT or the LDT, the
index bits 15:3 times 8 the place in it; nothing where the entry's last byte passes the table's limit, or where LDTR is
invalid; else two linear reads of a doubleword with a supervisor's rights, whatever CPL is, and their page faults. -/
def Obligations.DescriptorFetch : Prop :=
  ∀ (s : State) (sel : Word),
    let ldt := sel.toNat / 4 % 2 = 1
    let offset := sel.toNat / 8 * 8
    let inTable :=
      (¬ ldt → offset + 7 ≤ s.gdtr.limit.toNat) ∧
      (ldt → s.ldtr.valid = true ∧ offset + 7 ≤ s.ldtr.limit.toNat)
    let la := (if ldt then s.ldtr.base else s.gdtr.base) + BitVec.ofNat 32 offset
    (¬ inTable → s.readDesc sel = .ok (none, s)) ∧
    (inTable →
      (∀ f, s.linRead la 4 .read .supervisor = .error f → s.readDesc sel = .error f) ∧
      (∀ lo s1, s.linRead la 4 .read .supervisor = .ok (lo, s1) →
        (∀ f, s1.linRead (la + 4#32) 4 .read .supervisor = .error f → s.readDesc sel = .error f) ∧
        ∀ hi s2, s1.linRead (la + 4#32) 4 .read .supervisor = .ok (hi, s2) →
          ∃ d, s.readDesc sel = .ok (some d, s2) ∧ d.la = la ∧ d.lo.toNat = lo ∧ d.hi.toNat = hi) ∧
      (s.quiet = true → ∃ d, s.readDesc sel = .ok (some d, s) ∧ d.la = la ∧ d.lo.toNat = Memory.item s.mem la 4 ∧
        d.hi.toNat = Memory.item s.mem (la + 4#32) 4))

/-- The base and the byte-granular limit of a descriptor (R93, R94), in arithmetic on its two doublewords. -/
def Obligations.DescriptorBaseAndLimit : Prop :=
  ∀ d : Desc,
    let raw := d.hi.toNat / 65536 % 16 * 65536 + d.lo.toNat % 65536
    d.base.toNat = d.hi.toNat / 16777216 * 16777216 + d.hi.toNat % 256 * 65536 + d.lo.toNat / 65536 ∧
    d.limit.toNat = if d.hi.getLsbD 23 then raw * 4096 + 4095 else raw

/-- The selector test of LAR and LSL (R211), under every address translation: for a null selector nothing is read and
nothing delivered; else it raises what the descriptor's reads raise, and delivers the descriptor exactly if the selector
lies in its table, names a valid type and is visible, that is a conforming code segment or DPL at least CPL and RPL. It
raises nothing of its own, and changes nothing but what those reads change, which is nothing in a quiet state. -/
def Obligations.QueryDeliversVisibleDescriptors : Prop :=
  ∀ (s : State) (sel : Word) (valid : Bool → BitVec 4 → Bool),
    (sel.toNat < 4 → s.query sel valid = .ok (none, s)) ∧
    (4 ≤ sel.toNat →
      (∀ f, s.readDesc sel = .error f → s.query sel valid = .error f) ∧
      (s.quiet = true → ∃ r, s.readDesc sel = .ok (r, s)) ∧
      ∀ r s1, s.readDesc sel = .ok (r, s1) →
        ∃ q, s.query sel valid = .ok (q, s1) ∧
          ∀ d, q = some d ↔ r = some d ∧
            valid (d.hi.getLsbD 12) (d.hi.extractLsb' 8 4) = true ∧
            ((d.hi.getLsbD 12 = true ∧ d.hi.getLsbD 11 = true ∧ d.hi.getLsbD 10 = true) ∨
              (s.cpl.toNat ≤ d.hi.toNat / 8192 % 4 ∧ sel.toNat % 4 ≤ d.hi.toNat / 8192 % 4)))

/-! ## LAHF, LEA, LEAVE -/

/-- LAHF (R200, R201), in every mode and at every CPL: AH's bits 7, 6, 4, 2 and 0 are SF, ZF, AF, PF and CF, its bits
5, 3 and 1 the next three free values, and nothing else changes but the program counter. -/
def Obligations.LahfLoadsFlags : Prop :=
  ∀ (p : Prefixes) (s : State), ∃ t, exec (.lahf p) s = .next t ∧
    t = { s with gpr := t.gpr, eip := s.eip + BitVec.ofNat 32 (Instr.lahf p).length, draws := s.draws + 3 } ∧
    (∀ r, r ≠ .eax → t.reg32 r = s.reg32 r) ∧
    (∀ k, k < 8 ∨ 16 ≤ k → (t.reg32 .eax).getLsbD k = (s.reg32 .eax).getLsbD k) ∧
    (∀ k ∈ [7, 6, 4, 2, 0], (t.reg32 .eax).getLsbD (8 + k) = s.eflags.getLsbD k) ∧
    (t.reg32 .eax).getLsbD 13 = (Config.draw 1 s.draws).getLsbD 0 ∧
    (t.reg32 .eax).getLsbD 11 = (Config.draw 1 (s.draws + 1)).getLsbD 0 ∧
    (t.reg32 .eax).getLsbD 9 = (Config.draw 1 (s.draws + 2)).getLsbD 0

/-- LEA (R230 to R233), in every mode and whatever the segment registers hold: the 16-bit form stores the address's
low 16 bits and keeps the register's upper half, the 32-bit form stores the whole address, which a 16-bit addressing
form zero-extends. Nothing else changes but the program counter. A register operand is #UD. -/
def Obligations.LeaStoresTheAddress : Prop :=
  ∀ (p : Prefixes) (dst r : Gpr) (m : MemOp) (s : State),
    (∃ t, exec (.lea16 p dst (.mem m)) s = .next t ∧
      t = { s with gpr := t.gpr, eip := s.eip + BitVec.ofNat 32 (Instr.lea16 p dst (.mem m)).length } ∧
      (∀ r, r ≠ dst → t.reg32 r = s.reg32 r) ∧
      (t.reg32 dst).toNat = (s.reg32 dst).toNat / 65536 * 65536 + (effectiveAddress s m).toNat % 65536) ∧
    (∃ t, exec (.lea32 p dst (.mem m)) s = .next t ∧
      t = { s with gpr := t.gpr, eip := s.eip + BitVec.ofNat 32 (Instr.lea32 p dst (.mem m)).length } ∧
      (∀ r, r ≠ dst → t.reg32 r = s.reg32 r) ∧ t.reg32 dst = effectiveAddress s m ∧
      (m.size = .w16 → (t.reg32 dst).toNat < 65536)) ∧
    exec (.lea16 p dst (.reg r)) s = .fault (.invalidOpcode s.eip) ∧
    exec (.lea32 p dst (.reg r)) s = .fault (.invalidOpcode s.eip)

/-- LEAVE (R45, R240 to R242), both operand sizes (2 or 4 bytes popped) and both stack address sizes: the item is read
through SS at BP or EBP; SP or ESP becomes that plus its size, modulo 2^16 or 2^32; BP or EBP becomes the item; the
upper halves that are not written stay. If the read raises, LEAVE raises the same, with nothing written. With 16 bits of
stack address an item that passes offset FFFFh is the stack segment's fault, whatever its limit: corner cases of R241 and
R242 say so and their pseudocode does not, and the case is the model's choice (log 34). The stack address size is 32 in
Protected Mode where SS's B bit is set, and else 16, but that in Real Address Mode the model's own parameter can let the
B bit count: R45 and D35 differ there, and the case is the model's choice (log 13). -/
def Obligations.LeaveReleasesTheFrame : Prop :=
  ∀ (p : Prefixes) (s : State), ∀ iw ∈ ([(.leave16 p, 2), (.leave32 p, 4)] : List (Instr × Nat)),
    let big := s.seg.ss.ar.getLsbD 10 = true ∧ (s.mode = .prot ∨ (s.mode = .real ∧ s.cfg.realStackByB = true))
    let size := if big then 4294967296 else 65536
    let frame := (s.reg32 .ebp).toNat % size
    let passes := ¬ big ∧ 65536 < frame + iw.2
    let stackVector := s.mode = .prot ∨ s.cfg.realStackFaultVector = .int12
    let code := if s.mode = .real then none else some 0#32
    (passes → exec iw.1 s =
      .fault (if stackVector then .stackFault code s.eip else .generalProtection code s.eip)) ∧
    (¬ passes → ∀ v s1, s.segRead .ss (BitVec.ofNat 32 frame) iw.2 = .ok (v, s1) →
      ∃ t, exec iw.1 s = .next t ∧
        t = { s1 with gpr := t.gpr, eip := s.eip + BitVec.ofNat 32 iw.1.length } ∧
        (∀ r, r ≠ .esp → r ≠ .ebp → t.reg32 r = s.reg32 r) ∧
        (t.reg32 .esp).toNat = (s.reg32 .esp).toNat / size * size + (frame + iw.2) % size ∧
        (t.reg32 .ebp).toNat = (if iw.2 = 2 then (s.reg32 .ebp).toNat / 65536 * 65536 else 0) + v) ∧
    (¬ passes → ∀ f, s.segRead .ss (BitVec.ofNat 32 frame) iw.2 = .error f → exec iw.1 s = .fault f)

/-! ## LODS -/

/-- LODSB, LODSW and LODSD (R350 to R354): W = 1, 2 or 4 bytes at SI or ESI are read through DS or the override; the
low W bytes of EAX become them; SI or ESI moves by W, up if DF = 0 and down if DF = 1, modulo 2^16 or 2^32, ESI's
upper half staying with SI. Nothing else changes but the program counter. If the read raises, LODS raises the same. In
Real Address Mode with a limit above FFFFh a word at SI = FFFFh, or a doubleword at FFFDh to FFFFh, is read where R353
and R354 say that it faults: the model's choice (log 34). -/
def Obligations.LodsLoadsAndSteps : Prop :=
  ∀ (p : Prefixes) (s : State),
    ∀ iw ∈ ([(.lodsb p false, 1), (.lodsw p false, 2), (.lodsd p false, 4)] : List (Instr × Nat)),
    let size := if p.addressSize s.dflt = .w16 then 65536 else 4294967296
    let index := (s.reg32 .esi).toNat % size
    let moved : Int := if s.eflags.getLsbD 10 then (index : Int) - (iw.2 : Int) else (index : Int) + (iw.2 : Int)
    (∀ v s1, s.segRead (p.seg.getD .ds) (BitVec.ofNat 32 index) iw.2 = .ok (v, s1) →
      ∃ t, exec iw.1 s = .next t ∧
        t = { s1 with gpr := t.gpr, eip := s.eip + BitVec.ofNat 32 iw.1.length } ∧
        (∀ r, r ≠ .eax → r ≠ .esi → t.reg32 r = s.reg32 r) ∧
        (t.reg32 .eax).toNat = (s.reg32 .eax).toNat / 2 ^ (8 * iw.2) * 2 ^ (8 * iw.2) + v ∧
        ((t.reg32 .esi).toNat : Int) = (((s.reg32 .esi).toNat / size * size : Nat) : Int) + moved % size) ∧
    (∀ f, s.segRead (p.seg.getD .ds) (BitVec.ofNat 32 index) iw.2 = .error f → exec iw.1 s = .fault f)

/-- REP LODS (R355), one iteration a step: with CX or ECX 0 only the program counter moves; else the load of
`LodsLoadsAndSteps` is done and the count drops by 1, and the program counter moves on only when it reaches 0. The case
of a word or doubleword that passes FFFFh in Real Address Mode with a larger limit is the model's choice here too
(log 34). -/
def Obligations.RepLodsIteratesOnce : Prop :=
  ∀ (p : Prefixes) (s : State),
    ∀ iw ∈ ([(.lodsb p true, 1), (.lodsw p true, 2), (.lodsd p true, 4)] : List (Instr × Nat)),
    let size := if p.addressSize s.dflt = .w16 then 65536 else 4294967296
    let index := (s.reg32 .esi).toNat % size
    let count := (s.reg32 .ecx).toNat % size
    let moved : Int := if s.eflags.getLsbD 10 then (index : Int) - (iw.2 : Int) else (index : Int) + (iw.2 : Int)
    let next := s.eip + BitVec.ofNat 32 iw.1.length
    (count = 0 → exec iw.1 s = .next { s with eip := next }) ∧
    (0 < count → ∀ v s1, s.segRead (p.seg.getD .ds) (BitVec.ofNat 32 index) iw.2 = .ok (v, s1) →
      ∃ t, exec iw.1 s = .next t ∧
        t = { s1 with gpr := t.gpr, eip := if count = 1 then next else s.eip } ∧
        (∀ r, r ≠ .eax → r ≠ .esi → r ≠ .ecx → t.reg32 r = s.reg32 r) ∧
        (t.reg32 .eax).toNat = (s.reg32 .eax).toNat / 2 ^ (8 * iw.2) * 2 ^ (8 * iw.2) + v ∧
        ((t.reg32 .esi).toNat : Int) = (((s.reg32 .esi).toNat / size * size : Nat) : Int) + moved % size ∧
        (t.reg32 .ecx).toNat + 1 = (s.reg32 .ecx).toNat) ∧
    (0 < count → ∀ f, s.segRead (p.seg.getD .ds) (BitVec.ofNat 32 index) iw.2 = .error f → exec iw.1 s = .fault f)

/-- "The net effect of REP LODSB with CX = n > 0 and no fault" (R355): where every byte it reads is inside the segment
and the state is quiet, n steps leave AL the last byte, SI advanced by n (or moved down by n if DF = 1),
CX = 0 and the program counter past the instruction, and nothing else changed. -/
def Obligations.RepLodsbNetEffect : Prop :=
  ∀ (p : Prefixes) (n : Nat) (s : State), s.quiet = true → p.addressSize s.dflt = .w16 → 0 < n →
    (s.reg32 .ecx).toNat % 65536 = n →
    let at_ (j : Nat) : Dword :=
      BitVec.ofInt 32 (((s.reg32 .esi).toNat + (if s.eflags.getLsbD 10 then -(j : Int) else j)) % 65536)
    (∀ j < n, ∃ v, s.segRead (p.seg.getD .ds) (at_ j) 1 = .ok (v, s)) →
      ∃ t, execTimes (.lodsb p true) n s = .next t ∧
        t = { s with gpr := t.gpr, eip := s.eip + BitVec.ofNat 32 (Instr.lodsb p true).length } ∧
        (∀ r, r ≠ .eax → r ≠ .esi → r ≠ .ecx → t.reg32 r = s.reg32 r) ∧
        (t.reg32 .eax).toNat = (s.reg32 .eax).toNat / 256 * 256 +
          (Memory.byteAt s.mem ((s.seg.get (p.seg.getD .ds)).base + at_ (n - 1))).toNat ∧
        (t.reg32 .esi).toNat = (s.reg32 .esi).toNat / 65536 * 65536 + (at_ n).toNat ∧
        (t.reg32 .ecx).toNat = (s.reg32 .ecx).toNat / 65536 * 65536

/-! ## LOOP -/

/-- LOOP, LOOPE and LOOPNE (R360 to R363): CX or ECX drops by 1 modulo 2^16 or 2^32; the branch is taken if the count
is then not 0 and, for LOOPE and LOOPNE, ZF is 1 or 0. The target is the next instruction's offset plus the signed
displacement, modulo 2^32, or modulo 2^16 on the low 16 bits with a 16-bit operand size. A taken target beyond CS's
limit is #GP(0), Interrupt 13 in Real Address Mode, with nothing changed, in Protected Mode or where the parameter
says so. Nothing but the count and the program counter changes. -/
def Obligations.LoopCountsAndBranches : Prop :=
  ∀ (p : Prefixes) (rel8 : Byte) (s : State),
    ∀ ic ∈ [(Instr.loop p rel8, true), (Instr.loope p rel8, s.eflags.getLsbD 6), (Instr.loopne p rel8, !s.eflags.getLsbD 6)],
    let size := if p.addressSize s.dflt = .w16 then 65536 else 4294967296
    let count : Int := (((s.reg32 .ecx).toNat % size : Nat) - 1) % size
    let next := s.eip + BitVec.ofNat 32 (Instr.loop p rel8).length
    let target : Int :=
      if p.operandSize s.dflt = .w16 then ((next.toNat % 65536 : Nat) + rel8.toInt) % 65536
      else (next.toNat + rel8.toInt) % 4294967296
    let taken := count ≠ 0 ∧ ic.2 = true
    let beyond := s.seg.cs.limit.toNat < target ∧ (s.mode = .prot ∨ s.cfg.loopLimitCheckReal = true)
    (taken ∧ beyond →
      exec ic.1 s = .fault (.generalProtection (if s.mode = .real then none else some 0#32) s.eip)) ∧
    (¬ (taken ∧ beyond) → ∃ t, exec ic.1 s = .next t ∧
      t = { s with gpr := t.gpr, eip := if taken then BitVec.ofInt 32 target else next } ∧
      (∀ r, r ≠ .ecx → t.reg32 r = s.reg32 r) ∧
      ((t.reg32 .ecx).toNat : Int) = (((s.reg32 .ecx).toNat / size * size : Nat) : Int) + count)

/-! ## LAR and LSL -/

/-- LAR in Protected Mode (R211 to R214): where the selector test delivers a descriptor, the 16-bit form stores its
access-rights byte in bits 15:8 and zeros in 7:0, the 32-bit form bits 23:20 and 15:8 of the second doubleword, a free
value in 19:16 and zeros elsewhere, and ZF is 1; where it does not, the destination stays and ZF is 0. The types it
accepts are every S = 1 type and the table's. No other flag or register changes; what the reads raise, LAR raises. -/
def Obligations.LarStoresAccessRights : Prop :=
  ∀ (p : Prefixes) (dst : Gpr) (rm : RegMem) (s : State), s.mode = .prot →
    let types : Bool → BitVec 4 → Bool := fun sys type => sys || decide (type.toNat ∈ [1, 2, 3, 4, 5, 6, 7, 9, 11, 12, 14, 15])
    (∀ f, s.readSelector p rm = .error f →
      exec (.lar16 p dst rm) s = .fault f ∧ exec (.lar32 p dst rm) s = .fault f) ∧
    ∀ sel s1, s.readSelector p rm = .ok (sel, s1) →
      (∀ f, s1.query sel types = .error f →
        exec (.lar16 p dst rm) s = .fault f ∧ exec (.lar32 p dst rm) s = .fault f) ∧
      (∀ s2, s1.query sel types = .ok (none, s2) →
        ∀ i ∈ [Instr.lar16 p dst rm, .lar32 p dst rm], ∃ t, exec i s = .next t ∧
          t = { s2 with eflags := t.eflags, eip := s.eip + BitVec.ofNat 32 i.length } ∧
          ∀ k, t.eflags.getLsbD k = if k = 6 then false else s.eflags.getLsbD k) ∧
      (∀ d s2, s1.query sel types = .ok (some d, s2) →
        (∃ t, exec (.lar16 p dst rm) s = .next t ∧
          t = { s2 with gpr := t.gpr, eflags := t.eflags
                        eip := s.eip + BitVec.ofNat 32 (Instr.lar16 p dst rm).length } ∧
          (∀ r, r ≠ dst → t.reg32 r = s.reg32 r) ∧
          (∀ k, t.eflags.getLsbD k = if k = 6 then true else s.eflags.getLsbD k) ∧
          (t.reg32 dst).toNat = (s.reg32 dst).toNat / 65536 * 65536 + d.hi.toNat / 256 % 256 * 256) ∧
        (∃ t, exec (.lar32 p dst rm) s = .next t ∧
          t = { s2 with gpr := t.gpr, eflags := t.eflags, draws := s2.draws + 1
                        eip := s.eip + BitVec.ofNat 32 (Instr.lar32 p dst rm).length } ∧
          (∀ r, r ≠ dst → t.reg32 r = s.reg32 r) ∧
          (∀ k, t.eflags.getLsbD k = if k = 6 then true else s.eflags.getLsbD k) ∧
          ∀ k, (t.reg32 dst).getLsbD k =
            if (8 ≤ k ∧ k < 16) ∨ (20 ≤ k ∧ k < 24) then d.hi.getLsbD k
            else if 16 ≤ k ∧ k < 20 then (Config.draw 4 s2.draws).getLsbD (k - 16) else false))

/-- LSL in Protected Mode (R381 to R383): where the selector test delivers a descriptor, the 32-bit form stores its
byte-granular limit, the 16-bit form the limit's low 16 bits, and ZF is 1; where it does not, the destination stays
and ZF is 0. The types it accepts are every S = 1 type, 1, 2, 3, 9 and B, and 8 by the parameter. -/
def Obligations.LslStoresTheLimit : Prop :=
  ∀ (p : Prefixes) (dst : Gpr) (rm : RegMem) (s : State), s.mode = .prot →
    let types : Bool → BitVec 4 → Bool := fun sys type =>
      sys || decide (type.toNat ∈ [1, 2, 3, 9, 11]) || (s.cfg.lslType8Valid && decide (type.toNat = 8))
    (∀ f, s.readSelector p rm = .error f →
      exec (.lsl16 p dst rm) s = .fault f ∧ exec (.lsl32 p dst rm) s = .fault f) ∧
    ∀ sel s1, s.readSelector p rm = .ok (sel, s1) →
      (∀ f, s1.query sel types = .error f →
        exec (.lsl16 p dst rm) s = .fault f ∧ exec (.lsl32 p dst rm) s = .fault f) ∧
      (∀ s2, s1.query sel types = .ok (none, s2) →
        ∀ i ∈ [Instr.lsl16 p dst rm, .lsl32 p dst rm], ∃ t, exec i s = .next t ∧
          t = { s2 with eflags := t.eflags, eip := s.eip + BitVec.ofNat 32 i.length } ∧
          ∀ k, t.eflags.getLsbD k = if k = 6 then false else s.eflags.getLsbD k) ∧
      (∀ d s2, s1.query sel types = .ok (some d, s2) →
        let raw := d.hi.toNat / 65536 % 16 * 65536 + d.lo.toNat % 65536
        let limit := if d.hi.getLsbD 23 then raw * 4096 + 4095 else raw
        ∀ io ∈ [(Instr.lsl16 p dst rm, (s.reg32 dst).toNat / 65536 * 65536 + limit % 65536), (.lsl32 p dst rm, limit)],
          ∃ t, exec io.1 s = .next t ∧
            t = { s2 with gpr := t.gpr, eflags := t.eflags, eip := s.eip + BitVec.ofNat 32 io.1.length } ∧
            (∀ r, r ≠ dst → t.reg32 r = s.reg32 r) ∧
            (∀ k, t.eflags.getLsbD k = if k = 6 then true else s.eflags.getLsbD k) ∧
            (t.reg32 dst).toNat = io.2)

/-- The byte-granular limit kept in a descriptor cache and returned by LSL (R93), and "the same number a segment-register
load puts in `S[k].limit`" (R384): wherever the selector in a register can be loaded into a segment register in
Protected Mode, LSL of that register sets ZF and delivers the limit that the load puts there, which is the raw limit,
or shifted left 12 and ORed with FFFh if G is 1; exactly the offsets up to it are inside the segment, unless it expands
down. The state is quiet. -/
def Obligations.LslAgreesWithTheLoadedLimit : Prop :=
  ∀ (p : Prefixes) (dst src : Gpr) (k : SegReg) (s u : State), s.quiet = true → s.mode = .prot →
    4 ≤ (s.reg16 src).toNat → s.loadSegment k (s.reg16 src) = .ok u →
      ∃ t, exec (.lsl32 p dst (.reg src)) s = .next t ∧ t.eflags.getLsbD 6 = true ∧
        t.reg32 dst = (u.seg.get k).limit ∧
        (∀ d, s.readDesc (s.reg16 src) = .ok (some d, s) →
          let raw := d.hi.toNat / 65536 % 16 * 65536 + d.lo.toNat % 65536
          (t.reg32 dst).toNat = if d.hi.getLsbD 23 then raw * 4096 + 4095 else raw) ∧
        (arExpandDown (u.seg.get k).ar = false →
          ∀ off : Dword, inLimit (u.seg.get k) off 1 = true ↔ off.toNat ≤ (t.reg32 dst).toNat)

/-! ## LGDT, LIDT, LLDT, LMSW, LTR -/

/-- LGDT and LIDT (R250 to R253): where the privilege check passes and the six bytes are readable, the limit is the low
16 bits of the operand and the base the 32 bits above, or 24 of them with a 16-bit operand size; only GDTR, or IDTR,
and the program counter change. If the read raises, they raise the same. An operand that with a 16-bit address passes
offset FFFFh is its segment's fault, whatever the limit: the corner case of R252 says so and the pseudocode does not, and
the case is the model's choice (log 34). -/
def Obligations.LgdtLidtLoadTheTable : Prop :=
  ∀ (p : Prefixes) (m : MemOp) (s : State), s.mayLoadSystem →
    let passes := m.size = .w16 ∧ 65536 < (effectiveAddress s m).toNat + 6
    let stackVector := operandSegment p m = .ss ∧ (s.mode = .prot ∨ s.cfg.realStackFaultVector = .int12)
    let code := if s.mode = .real then none else some 0#32
    let beyond := if stackVector then Fault.stackFault code s.eip else .generalProtection code s.eip
    (passes → exec (.lgdt p (.mem m)) s = .fault beyond ∧ exec (.lidt p (.mem m)) s = .fault beyond) ∧
    (¬ passes → ∀ f, s.readMem p m 6 = .error f →
      exec (.lgdt p (.mem m)) s = .fault f ∧ exec (.lidt p (.mem m)) s = .fault f) ∧
    (¬ passes → ∀ v s1, s.readMem p m 6 = .ok (v, s1) →
      (∃ t, exec (.lgdt p (.mem m)) s = .next t ∧
        t = { s1 with gdtr := t.gdtr, eip := s.eip + BitVec.ofNat 32 (Instr.lgdt p (.mem m)).length } ∧
        t.gdtr.limit.toNat = v % 65536 ∧
        t.gdtr.base.toNat = if p.operandSize s.dflt = .w16 then v / 65536 % 16777216 else v / 65536) ∧
      (∃ t, exec (.lidt p (.mem m)) s = .next t ∧
        t = { s1 with idtr := t.idtr, eip := s.eip + BitVec.ofNat 32 (Instr.lidt p (.mem m)).length } ∧
        t.idtr.limit.toNat = v % 65536 ∧
        t.idtr.base.toNat = if p.operandSize s.dflt = .w16 then v / 65536 % 16777216 else v / 65536))

/-- LLDT in Protected Mode at CPL 0 (R301 to R303): a null selector is stored and marks LDTR invalid; a selector of
the LDT, one outside the GDT, and one whose descriptor is no LDT are #GP(selector), an absent one is #NP(selector),
with the RPL bits of the code clear; else LDTR takes the selector, the base and the byte-granular limit. Whatever state
it answers, only LDTR and the program counter have changed (R302), besides what its reads may change: nothing without the
page walk and without other agents. -/
def Obligations.LldtLoadsLdtr : Prop :=
  ∀ (p : Prefixes) (rm : RegMem) (s : State), s.mode = .prot → s.cpl = 0#2 →
    (∀ t, exec (.lldt p rm) s = .next t →
      t = { s with ldtr := t.ldtr, eip := t.eip, mem := t.mem, tlb := t.tlb, draws := t.draws } ∧
        (s.walks = false → s.cfg.externalAgents = .absent → t = { s with ldtr := t.ldtr, eip := t.eip })) ∧
    (∀ f, s.readSelector p rm = .error f → exec (.lldt p rm) s = .fault f) ∧
    ∀ sel s1, s.readSelector p rm = .ok (sel, s1) →
      let code := some (BitVec.ofNat 32 (sel.toNat / 4 * 4))
      let next := s.eip + BitVec.ofNat 32 (Instr.lldt p rm).length
      (sel.toNat < 4 → ∃ t, exec (.lldt p rm) s = .next t ∧ t = { s1 with ldtr := t.ldtr, eip := next } ∧
        t.ldtr.sel = sel ∧ t.ldtr.valid = false) ∧
      (4 ≤ sel.toNat → sel.getLsbD 2 = true → exec (.lldt p rm) s = .fault (.generalProtection code s.eip)) ∧
      (4 ≤ sel.toNat → sel.getLsbD 2 = false →
        (∀ f, s1.readDesc sel = .error f → exec (.lldt p rm) s = .fault f) ∧
        (∀ s2, s1.readDesc sel = .ok (none, s2) → exec (.lldt p rm) s = .fault (.generalProtection code s.eip)) ∧
        ∀ d s2, s1.readDesc sel = .ok (some d, s2) →
          let isLdt := d.hi.getLsbD 12 = false ∧ d.hi.toNat / 256 % 16 = 2
          (¬ isLdt → exec (.lldt p rm) s = .fault (.generalProtection code s.eip)) ∧
          (isLdt → d.hi.getLsbD 15 = false → exec (.lldt p rm) s = .fault (.segmentNotPresent code s.eip)) ∧
          (isLdt → d.hi.getLsbD 15 = true → exec (.lldt p rm) s =
            .next { s2 with ldtr := { sel := sel, base := d.base, limit := d.limit, valid := true }, eip := next }))

/-- LTR in Protected Mode at CPL 0 (R386): a null selector is #GP(0); a selector of the LDT, one outside the GDT, and
one whose descriptor is no available TSS are #GP(selector), an absent one is #NP(selector); else the descriptor's
access-rights byte is written back with its busy bit set, TR takes the selector, the base, the limit and the
attributes with that byte, and nothing else changes but the program counter. The byte's address is the translation,
for a supervisor's write, of the descriptor's linear address + 5; every other byte stays as that translation, and other
agents before the store, leave it, and where that write is #PF so is LTR. -/
def Obligations.LtrLoadsTaskRegister : Prop :=
  ∀ (p : Prefixes) (rm : RegMem) (s : State), s.mode = .prot → s.cpl = 0#2 →
    (∀ f, s.readSelector p rm = .error f → exec (.ltr p rm) s = .fault f) ∧
    ∀ sel s1, s.readSelector p rm = .ok (sel, s1) →
      let code := some (BitVec.ofNat 32 (sel.toNat / 4 * 4))
      (sel.toNat < 4 → exec (.ltr p rm) s = .fault (.generalProtection (some 0#32) s.eip)) ∧
      (4 ≤ sel.toNat → sel.getLsbD 2 = true → exec (.ltr p rm) s = .fault (.generalProtection code s.eip)) ∧
      (4 ≤ sel.toNat → sel.getLsbD 2 = false →
        (∀ f, s1.readDesc sel = .error f → exec (.ltr p rm) s = .fault f) ∧
        (∀ s2, s1.readDesc sel = .ok (none, s2) → exec (.ltr p rm) s = .fault (.generalProtection code s.eip)) ∧
        ∀ d s2, s1.readDesc sel = .ok (some d, s2) →
          let available := d.hi.getLsbD 12 = false ∧ (d.hi.toNat / 256 % 16 = 1 ∨ d.hi.toNat / 256 % 16 = 9)
          let busy : Byte := d.hi.extractLsb' 8 8 ||| 0x02#8
          (¬ available → exec (.ltr p rm) s = .fault (.generalProtection code s.eip)) ∧
          (available → d.hi.getLsbD 15 = false → exec (.ltr p rm) s = .fault (.segmentNotPresent code s.eip)) ∧
          (available → d.hi.getLsbD 15 = true →
            (match s2.linWrite (d.la + 5#32) 1 busy.toNat .supervisor with
              | .error f => exec (.ltr p rm) s = .fault f
              | .ok _ => ∃ t, exec (.ltr p rm) s = .next t) ∧
            ∀ pa s3, s2.translate (d.la + 5#32) .write .supervisor = .ok (pa, s3) →
              ∃ t, exec (.ltr p rm) s = .next t ∧
                t = { s3.agentsAct with
                      mem := t.mem, eip := s.eip + BitVec.ofNat 32 (Instr.ltr p rm).length
                      tr := { sel := sel, base := d.base, limit := d.limit, ar := d.hi.extractLsb' 20 4 ++ busy } } ∧
                (Memory.wf s3.mem = true → Memory.byteAt t.mem pa = busy) ∧
                ∀ a, a ≠ pa → Memory.byteAt t.mem a = Memory.byteAt s3.agentsAct.mem a))

/-- "which is why a second LTR of the same selector faults" (R386): after LTR of a register, LTR of the same register
is #GP(selector). The state is quiet. -/
def Obligations.SecondLtrFaults : Prop :=
  ∀ (p p' : Prefixes) (r : Gpr) (s t : State), s.quiet = true → Memory.wf s.mem = true →
    exec (.ltr p (.reg r)) s = .next t →
      exec (.ltr p' (.reg r)) t =
        .fault (.generalProtection (some (BitVec.ofNat 32 ((s.reg16 r).toNat / 4 * 4))) t.eip)

/-- LMSW (R304 to R306), where its privilege check passes and its source is readable: the bits of the machine status
word that the mask selects become the source's, but that PE stays 1 where it was 1; CR0[31:16] and the other bits
stay; a switch of PE from 0 to 1 is remembered; nothing else changes but the program counter. -/
def Obligations.LmswLoadsTheStatusWord : Prop :=
  ∀ (p : Prefixes) (rm : RegMem) (s : State), s.mayLoadSystem →
    (∀ f, s.readSelector p rm = .error f → exec (.lmsw p rm) s = .fault f) ∧
    ∀ src s1, s.readSelector p rm = .ok (src, s1) →
      ∃ t, exec (.lmsw p rm) s = .next t ∧
        t = { s1 with cr0 := t.cr0, peJustSet := t.peJustSet
                      eip := s.eip + BitVec.ofNat 32 (Instr.lmsw p rm).length } ∧
        (∀ k, 0 < k → t.cr0.getLsbD k =
          if k < 16 ∧ s.cfg.lmswMask.getLsbD k = true then src.getLsbD k else s.cr0.getLsbD k) ∧
        t.cr0.getLsbD 0 = (s.cr0.getLsbD 0 || (s.cfg.lmswMask.getLsbD 0 && src.getLsbD 0)) ∧
        t.peJustSet = (s.peJustSet || (!s.cr0.getLsbD 0 && t.cr0.getLsbD 0))

/-- The switch to Protected Mode (R306): an LMSW of Real Address Mode whose source has bit 0 set, with PE in the mask,
leaves Protected Mode at CPL 0 with every segment register, GDTR, IDTR, LDTR and TR as they were, and the step after
it answers no next state. -/
def Obligations.LmswEntersProtectedMode : Prop :=
  ∀ (p : Prefixes) (rm : RegMem) (s s1 : State) (src : Word), s.mode = .real → s.vm = false →
    s.readSelector p rm = .ok (src, s1) → src.getLsbD 0 = true → s.cfg.lmswMask.getLsbD 0 = true →
      ∃ t, exec (.lmsw p rm) s = .next t ∧ t.mode = .prot ∧ t.cpl = 0#2 ∧ t.seg = s.seg ∧ t.gdtr = s.gdtr ∧
        t.idtr = s.idtr ∧ t.ldtr = s.ldtr ∧ t.tr = s.tr ∧ ∀ u, step t ≠ .next u

/-! ## The full-pointer loads -/

/-- LDS, LSS, LES, LFS, LGS outside Protected Mode (R270, R271, R275, R100), both operand sizes, null selectors
included: the segment register takes the selector and 16 times it as its base, keeps its attributes, keeps its limit
in Real Address Mode and takes FFFFh in Virtual 8086 Mode; the general register takes the offset. Nothing else
changes but the program counter. If the read raises, so does the instruction. That a selector of 4 or more marks the
register valid is the model's choice (log 11), and so is that Virtual 8086 Mode keeps the attributes, where R100 speaks
of the limit only (log 12). -/
def Obligations.FullPointerOutsideProtectedMode : Prop :=
  ∀ (i : Instr) (fp : FullPointer) (m : MemOp) (s : State), fullPointer i = some fp → fp.rm = .mem m → s.mode ≠ .prot →
    (∀ f, s.readMem fp.p m (fp.n.bytes + 2) = .error f → exec i s = .fault f) ∧
    ∀ v s1, s.readMem fp.p m (fp.n.bytes + 2) = .ok (v, s1) →
      let sel := v / 2 ^ (8 * fp.n.bytes)
      let off := v % 2 ^ (8 * fp.n.bytes)
      ∃ t, exec i s = .next t ∧
        t = { s1 with gpr := t.gpr, seg := t.seg, eip := s.eip + BitVec.ofNat 32 i.length } ∧
        (t.seg.get fp.k).sel.toNat = sel ∧ (t.seg.get fp.k).base.toNat = 16 * sel ∧
        (t.seg.get fp.k).limit = (if s.mode = .v86 then 0xFFFF#32 else (s.seg.get fp.k).limit) ∧
        (t.seg.get fp.k).ar = (s.seg.get fp.k).ar ∧ (4 ≤ sel → (t.seg.get fp.k).valid = true) ∧
        (∀ k, k ≠ fp.k → t.seg.get k = s.seg.get k) ∧ (∀ r, r ≠ fp.dst → t.reg32 r = s.reg32 r) ∧
        (t.reg32 fp.dst).toNat = (if fp.n = .w16 then (s.reg32 fp.dst).toNat / 65536 * 65536 else 0) + off

/-- LDS, LES, LFS, LGS of a null selector in Protected Mode (R274): the segment register takes the selector and is
marked invalid, the general register takes the offset; no descriptor is read; every later read through it is #GP(0),
whatever the offset and size (R89). LSS of one is #GP(0) (R272). -/
def Obligations.FullPointerOfNullSelector : Prop :=
  ∀ (i : Instr) (fp : FullPointer) (m : MemOp) (s s1 : State) (v : Nat), fullPointer i = some fp → fp.rm = .mem m →
    s.mode = .prot → s.readMem fp.p m (fp.n.bytes + 2) = .ok (v, s1) → v / 2 ^ (8 * fp.n.bytes) < 4 →
    (fp.k = .ss → exec i s = .fault (.generalProtection (some 0#32) s.eip)) ∧
    (fp.k ≠ .ss → ∃ t, exec i s = .next t ∧
      t = { s1 with gpr := t.gpr, seg := t.seg, eip := s.eip + BitVec.ofNat 32 i.length } ∧
      (t.seg.get fp.k).sel.toNat = v / 2 ^ (8 * fp.n.bytes) ∧ (t.seg.get fp.k).valid = false ∧
      (∀ k, k ≠ fp.k → t.seg.get k = s.seg.get k) ∧ (∀ r, r ≠ fp.dst → t.reg32 r = s.reg32 r) ∧
      (t.reg32 fp.dst).toNat =
        (if fp.n = .w16 then (s.reg32 fp.dst).toNat / 65536 * 65536 else 0) + v % 2 ^ (8 * fp.n.bytes) ∧
      ∀ off n, t.segRead fp.k off n = .error (.generalProtection (some 0#32) t.eip))

/-- The Protected Mode checks of LDS, LES, LFS, LGS (R273) and of LSS (R272) on a selector that is not null, in their
order: outside its table #GP(selector); for SS the RPL must equal CPL, the descriptor be writable data, its DPL equal
CPL, all else #GP(selector), and be present, else #SS(selector); for the others it must be data or readable code, and
unless conforming RPL and CPL must not exceed its DPL, else #GP(selector), and be present, else #NP(selector). Before
them the load raises what the read of its operand raises, whatever the selector would be. -/
def Obligations.FullPointerDescriptorChecks : Prop :=
  ∀ (i : Instr) (fp : FullPointer) (m : MemOp) (s : State), fullPointer i = some fp → fp.rm = .mem m →
    s.mode = .prot →
    (∀ f, s.readMem fp.p m (fp.n.bytes + 2) = .error f → exec i s = .fault f) ∧
    ∀ v s1, s.readMem fp.p m (fp.n.bytes + 2) = .ok (v, s1) → 4 ≤ v / 2 ^ (8 * fp.n.bytes) →
    let sel : Word := BitVec.ofNat 16 (v / 2 ^ (8 * fp.n.bytes))
    let code := some (BitVec.ofNat 32 (sel.toNat / 4 * 4))
    (∀ f, s1.readDesc sel = .error f → exec i s = .fault f) ∧
    (∀ s2, s1.readDesc sel = .ok (none, s2) → exec i s = .fault (.generalProtection code s.eip)) ∧
    ∀ d s2, s1.readDesc sel = .ok (some d, s2) →
      let rpl := sel.toNat % 4
      let dpl := d.hi.toNat / 8192 % 4
      let cpl := s.cpl.toNat
      let data := d.hi.getLsbD 12 = true ∧ d.hi.getLsbD 11 = false
      let readableCode := d.hi.getLsbD 12 = true ∧ d.hi.getLsbD 11 = true ∧ d.hi.getLsbD 9 = true
      let conforming := readableCode ∧ d.hi.getLsbD 10 = true
      let stackOk := rpl = cpl ∧ (data ∧ d.hi.getLsbD 9 = true) ∧ dpl = cpl
      let dataOk := (data ∨ readableCode) ∧ (conforming ∨ (rpl ≤ dpl ∧ cpl ≤ dpl))
      (fp.k = .ss → ¬ stackOk → exec i s = .fault (.generalProtection code s.eip)) ∧
      (fp.k = .ss → stackOk → d.hi.getLsbD 15 = false → exec i s = .fault (.stackFault code s.eip)) ∧
      (fp.k ≠ .ss → ¬ dataOk → exec i s = .fault (.generalProtection code s.eip)) ∧
      (fp.k ≠ .ss → dataOk → d.hi.getLsbD 15 = false → exec i s = .fault (.segmentNotPresent code s.eip))

/-- A full-pointer load whose descriptor passes every check (R275, R99): the segment register takes the selector, the
descriptor's base, byte-granular limit and attributes with A set, and is valid; the general register takes the offset;
if A was clear and the parameter says so, the access-rights byte in memory, at the translation of the descriptor's
linear address + 5, gets it, and every other byte stays as that translation, and other agents before the store, leave
it; where that write is #PF so is the load. -/
def Obligations.FullPointerLoadsTheDescriptor : Prop :=
  ∀ (i : Instr) (fp : FullPointer) (m : MemOp) (s s1 s2 : State) (v : Nat) (d : Desc), fullPointer i = some fp →
    fp.rm = .mem m → s.mode = .prot → s.readMem fp.p m (fp.n.bytes + 2) = .ok (v, s1) →
    4 ≤ v / 2 ^ (8 * fp.n.bytes) →
    let sel : Word := BitVec.ofNat 16 (v / 2 ^ (8 * fp.n.bytes))
    let accessed : Byte := d.hi.extractLsb' 8 8 ||| 0x01#8
    let marks := d.hi.getLsbD 8 = false ∧ s.cfg.segLoadSetsAccessed = true
    s1.readDesc sel = .ok (some d, s2) →
    (if fp.k = .ss then ssRefusal s.cpl sel d else dataRefusal s.cpl sel d) = none →
    let result : State → State → Prop := fun u t =>
      t = { u with mem := t.mem, gpr := t.gpr, seg := t.seg, eip := s.eip + BitVec.ofNat 32 i.length } ∧
      t.seg.get fp.k =
        { sel := sel, base := d.base, limit := d.limit, ar := d.hi.extractLsb' 20 4 ++ accessed, valid := true } ∧
      (∀ k, k ≠ fp.k → t.seg.get k = s.seg.get k) ∧ (∀ r, r ≠ fp.dst → t.reg32 r = s.reg32 r) ∧
      (t.reg32 fp.dst).toNat =
        (if fp.n = .w16 then (s.reg32 fp.dst).toNat / 65536 * 65536 else 0) + v % 2 ^ (8 * fp.n.bytes)
    (¬ marks → ∃ t, exec i s = .next t ∧ result s2 t ∧ t.mem = s2.mem) ∧
    (marks →
      (match s2.linWrite (d.la + 5#32) 1 accessed.toNat .supervisor with
        | .error f => exec i s = .fault f
        | .ok _ => ∃ t, exec i s = .next t) ∧
      ∀ pa s3, s2.translate (d.la + 5#32) .write .supervisor = .ok (pa, s3) →
        ∃ t, exec i s = .next t ∧ result s3.agentsAct t ∧
        (Memory.wf s3.mem = true → Memory.byteAt t.mem pa = accessed) ∧
        ∀ a, a ≠ pa → Memory.byteAt t.mem a = Memory.byteAt s3.agentsAct.mem a)

/-! ## Undefined and refused forms -/

/-- F0 before any instruction of this spec is #UD, in every mode and before that instruction's own checks (R330,
R335). -/
def Obligations.LockIsUndefined : Prop :=
  ∀ (body : Instr) (s : State), exec (.lock body) s = .fault (.invalidOpcode s.eip)

/-- A register operand of LGDT, LIDT and the full-pointer loads is #UD in every mode and at every CPL (R157, R159); for
LEA `LeaStoresTheAddress` says it. -/
def Obligations.RegisterOperandUndefined : Prop :=
  ∀ (p : Prefixes) (r : Gpr) (i : Instr) (fp : FullPointer) (s : State),
    exec (.lgdt p (.reg r)) s = .fault (.invalidOpcode s.eip) ∧
    exec (.lidt p (.reg r)) s = .fault (.invalidOpcode s.eip) ∧
    (fullPointer i = some fp → fp.rm = .reg r → exec i s = .fault (.invalidOpcode s.eip))

/-- LAR, LSL, LLDT and LTR are not recognized outside Protected Mode: #UD, whatever their operand (R158, R210, R300,
R380, R385). -/
def Obligations.NotRecognizedOutsideProtectedMode : Prop :=
  ∀ (i : Instr) (s : State), isProtectedOnly i = true → s.mode ≠ .prot →
    exec i s = .fault (.invalidOpcode s.eip)

/-- The privileged instructions with CPL not 0 in Protected Mode, and LGDT, LIDT, LMSW in Virtual 8086 Mode with the
parameter true, are #GP(0), whatever their operand; a register operand of LGDT and LIDT stays #UD (R438, R159). -/
def Obligations.PrivilegedFaultsBelowLevelZero : Prop :=
  ∀ (i : Instr) (s : State), isPrivileged i = true → (∀ p r, i ≠ .lgdt p (.reg r) ∧ i ≠ .lidt p (.reg r)) →
    (s.mode = .prot ∧ s.cpl ≠ 0#2) ∨ (s.mode = .v86 ∧ s.cfg.v86PrivFault = true ∧ isProtectedOnly i = false) →
      exec i s = .fault (.generalProtection (some 0#32) s.eip)

/-! ## The whole machine -/

/-- "Writers: LAR and LSL write ZF and no other flag. Every other in-scope instruction writes no flag" (R38). -/
def Obligations.OnlyLarAndLslWriteAFlag : Prop :=
  ∀ (i : Instr) (s t : State), exec i s = .next t →
    ∀ k, (k = 6 ∧ writesZf i = true) ∨ t.eflags.getLsbD k = s.eflags.getLsbD k

/-- The general registers an instruction may write are those that R33 lists for it (and CX or ECX for REP LODS, R355);
every other keeps its 32 bits. -/
def Obligations.GeneralRegisterFrame : Prop :=
  ∀ (i : Instr) (s t : State), exec i s = .next t → ∀ r, r ∉ writesGpr i → t.reg32 r = s.reg32 r

/-- "LDS writes DS, LES writes ES, LFS writes FS, LGS writes GS, LSS writes SS. No other in-scope instruction writes
any of the six" (R46): every segment register but the one loaded keeps its selector and hidden part, CS always. -/
def Obligations.SegmentRegisterFrame : Prop :=
  ∀ (i : Instr) (s t : State), exec i s = .next t →
    t.seg.cs = s.seg.cs ∧ ∀ k, loadsSegment i ≠ some k → t.seg.get k = s.seg.get k

/-- Who writes the system registers (R47 to R51): only LGDT writes GDTR, only LIDT IDTR, only LLDT LDTR, only LTR TR,
only LMSW CR0, whose PG bit stays; CR2, CR3, the debug and test registers and the parameters are never written. -/
def Obligations.SystemRegisterFrame : Prop :=
  ∀ (i : Instr) (s t : State), exec i s = .next t →
    ((∀ p rm, i ≠ .lgdt p rm) → t.gdtr = s.gdtr) ∧ ((∀ p rm, i ≠ .lidt p rm) → t.idtr = s.idtr) ∧
    ((∀ p rm, i ≠ .lldt p rm) → t.ldtr = s.ldtr) ∧ ((∀ p rm, i ≠ .ltr p rm) → t.tr = s.tr) ∧
    ((∀ p rm, i ≠ .lmsw p rm) → t.cr0 = s.cr0 ∧ t.peJustSet = s.peJustSet) ∧
    t.cr0.getLsbD 31 = s.cr0.getLsbD 31 ∧ t.cr2 = s.cr2 ∧ t.cr3 = s.cr3 ∧ t.dr0 = s.dr0 ∧ t.dr1 = s.dr1 ∧
    t.dr2 = s.dr2 ∧ t.dr3 = s.dr3 ∧ t.dr6 = s.dr6 ∧ t.dr7 = s.dr7 ∧ t.tr6 = s.tr6 ∧ t.tr7 = s.tr7 ∧ t.cfg = s.cfg

/-- Memory in a quiet state, where translation is the identity and no other agent stores (R82): only LTR and the
full-pointer loads store, and one byte only: byte 5 of the descriptor that the selector they were given names, whose
linear address the tables' registers fix. Every other instruction leaves memory as it is. -/
def Obligations.MemoryFrame : Prop :=
  ∀ (i : Instr) (s t : State), s.quiet = true → exec i s = .next t →
    (storesMemory i = false → t.mem = s.mem) ∧
    (∀ p rm sel, i = .ltr p rm → s.readSelector p rm = .ok (sel, s) →
      ∀ a, (∀ la, s.descAddress sel = some la → a ≠ la + 5#32) → Memory.byteAt t.mem a = Memory.byteAt s.mem a) ∧
    (∀ fp m v, fullPointer i = some fp → fp.rm = .mem m → s.readMem fp.p m (fp.n.bytes + 2) = .ok (v, s) →
      ∀ a, (∀ la, s.descAddress (BitVec.ofNat 16 (v / 2 ^ (8 * fp.n.bytes))) = some la → a ≠ la + 5#32) →
        Memory.byteAt t.mem a = Memory.byteAt s.mem a)

/-- Memory under every address translation (R106): without other agents an instruction that stores nothing itself leaves
every byte of memory as it is, but that where the page walk is in force the byte at the address of a page entry which
the walks of the bytes it reads use, of its operand or of the descriptor that its selector names, may get its Accessed
bit, bit 5. -/
def Obligations.PagedMemoryFrame : Prop :=
  ∀ (i : Instr) (s t : State), Memory.wf s.mem = true → s.cfg.externalAgents = .absent → storesMemory i = false →
    exec i s = .next t →
    ∀ a, Memory.byteAt t.mem a = Memory.byteAt s.mem a ∨
      (s.walks = true ∧ (∃ la n rights, s.readsAt i la n rights ∧ s.usesEntry la n .read rights a) ∧
        Memory.byteAt t.mem a = Memory.byteAt s.mem a ||| 0x20#8)

/-- Every instruction of the table, in every state, completes or raises an exception that R426's table lists for it in
the mode, and is never refused; the exception bears the address of the instruction (R431), no error code in Real
Address Mode (R425), and a linear address only if it is a page fault. -/
def Obligations.ExceptionsAreListed : Prop :=
  ∀ (i : Instr) (s : State), (∃ t, exec i s = .next t) ∨
    ∃ f, exec i s = .fault f ∧ f.vector ∈ mayRaise s i ∧ f.pc = s.eip ∧ (s.mode = .real → f.code = none) ∧
      (f.la ≠ none → f.vector = 14)

/-- "LMSW will not switch back to Real Address Mode" (R305), for every mask, and no other instruction does: a step
never clears PE. -/
def Obligations.ProtectionEnableIsSticky : Prop :=
  ∀ s t : State, step s = .next t → s.cr0.getLsbD 0 = true → t.cr0.getLsbD 0 = true

/-- "within this spec CPL is constant for the life of a program" (R437), in every state that meets the invariant; and
the mode changes only from Real Address Mode to Protected Mode, by an LMSW that leaves the obligation of R306. -/
def Obligations.PrivilegeLevelIsConstant : Prop :=
  ∀ s t : State, s.Inv → step s = .next t →
    t.cpl = s.cpl ∧ (t.mode = s.mode ∨ (s.mode = .real ∧ t.mode = .prot ∧ t.peJustSet = true))

/-- Below level 0 the machine's tables and status word are out of reach: no step of a program at CPL 1, 2 or 3, nor of
one in Virtual 8086 Mode where the parameter says so, changes GDTR, IDTR, LDTR, TR or CR0 (R438). -/
def Obligations.UnprivilegedStepsKeepSystemRegisters : Prop :=
  ∀ s t : State, (s.mode = .prot ∧ s.cpl ≠ 0#2) ∨ (s.mode = .v86 ∧ s.cfg.v86PrivFault = true) →
    step s = .next t →
      t.gdtr = s.gdtr ∧ t.idtr = s.idtr ∧ t.ldtr = s.ldtr ∧ t.tr = s.tr ∧ t.cr0 = s.cr0 ∧ t.mode = s.mode ∧
        t.cpl = s.cpl

/-- The invariant holds after reset. It rests on the model's reset values (log 2, 3, 4). -/
def Obligations.InvariantHoldsAtReset : Prop := State.reset.Inv

/-- Every step keeps the invariant: memory stays canonical; SS stays a valid writable data segment (R89, R272); DS, ES,
FS and GS hold data or readable code (R90, R273); CS stays valid; VM is clear in Real Address Mode. -/
def Obligations.InvariantIsKept : Prop :=
  ∀ s t : State, s.Inv → step s = .next t → t.Inv

/-- What reset leaves of the values that R59 lists, all of them general knowledge there (the model's choice, log 2):
Real Address Mode at CPL 0, the first fetch at FFFFFFF0h, flags 00000002h, and the tables of Real Address Mode. -/
def Obligations.ResetValues : Prop :=
  State.reset.mode = .real ∧ State.reset.cpl = 0#2 ∧ State.reset.eip = 0xFFF0#32 ∧ State.reset.eflags = 0x2#32 ∧
    State.reset.seg.cs.sel = 0xF000#16 ∧ State.reset.seg.cs.base + State.reset.eip = 0xFFFFFFF0#32 ∧
    State.reset.seg.cs.limit = 0xFFFF#32 ∧
    (∀ k, k ≠ .cs → (State.reset.seg.get k).sel = 0#16 ∧ (State.reset.seg.get k).base = 0#32 ∧
      (State.reset.seg.get k).limit = 0xFFFF#32 ∧ (State.reset.seg.get k).valid = true) ∧
    State.reset.idtr = { base := 0#32, limit := 0x3FF#16 } ∧ State.reset.dr7 = 0#32 ∧
    State.reset.reg8 .dh = 0x03#8
end

