-- ==== Sys2Proof/Laws/State.lean ====
section
/-!
SUPPORT. One lemma for each field and each update of the state, and the laws of the register files.
-/
namespace Sys2Proof.Machine

/-! ## setReg32 -/

@[simp] theorem State.setReg32_eip (s : State) (r : Gpr) (v : Dword) : (s.setReg32 r v).eip = s.eip := rfl
@[simp] theorem State.setReg32_eflags (s : State) (r : Gpr) (v : Dword) : (s.setReg32 r v).eflags = s.eflags := rfl
@[simp] theorem State.setReg32_seg (s : State) (r : Gpr) (v : Dword) : (s.setReg32 r v).seg = s.seg := rfl
@[simp] theorem State.setReg32_gdtr (s : State) (r : Gpr) (v : Dword) : (s.setReg32 r v).gdtr = s.gdtr := rfl
@[simp] theorem State.setReg32_idtr (s : State) (r : Gpr) (v : Dword) : (s.setReg32 r v).idtr = s.idtr := rfl
@[simp] theorem State.setReg32_ldtr (s : State) (r : Gpr) (v : Dword) : (s.setReg32 r v).ldtr = s.ldtr := rfl
@[simp] theorem State.setReg32_tr (s : State) (r : Gpr) (v : Dword) : (s.setReg32 r v).tr = s.tr := rfl
@[simp] theorem State.setReg32_cr0 (s : State) (r : Gpr) (v : Dword) : (s.setReg32 r v).cr0 = s.cr0 := rfl
@[simp] theorem State.setReg32_cr2 (s : State) (r : Gpr) (v : Dword) : (s.setReg32 r v).cr2 = s.cr2 := rfl
@[simp] theorem State.setReg32_cr3 (s : State) (r : Gpr) (v : Dword) : (s.setReg32 r v).cr3 = s.cr3 := rfl
@[simp] theorem State.setReg32_dr0 (s : State) (r : Gpr) (v : Dword) : (s.setReg32 r v).dr0 = s.dr0 := rfl
@[simp] theorem State.setReg32_dr1 (s : State) (r : Gpr) (v : Dword) : (s.setReg32 r v).dr1 = s.dr1 := rfl
@[simp] theorem State.setReg32_dr2 (s : State) (r : Gpr) (v : Dword) : (s.setReg32 r v).dr2 = s.dr2 := rfl
@[simp] theorem State.setReg32_dr3 (s : State) (r : Gpr) (v : Dword) : (s.setReg32 r v).dr3 = s.dr3 := rfl
@[simp] theorem State.setReg32_dr6 (s : State) (r : Gpr) (v : Dword) : (s.setReg32 r v).dr6 = s.dr6 := rfl
@[simp] theorem State.setReg32_dr7 (s : State) (r : Gpr) (v : Dword) : (s.setReg32 r v).dr7 = s.dr7 := rfl
@[simp] theorem State.setReg32_tr6 (s : State) (r : Gpr) (v : Dword) : (s.setReg32 r v).tr6 = s.tr6 := rfl
@[simp] theorem State.setReg32_tr7 (s : State) (r : Gpr) (v : Dword) : (s.setReg32 r v).tr7 = s.tr7 := rfl
@[simp] theorem State.setReg32_mem (s : State) (r : Gpr) (v : Dword) : (s.setReg32 r v).mem = s.mem := rfl
@[simp] theorem State.setReg32_tlb (s : State) (r : Gpr) (v : Dword) : (s.setReg32 r v).tlb = s.tlb := rfl
@[simp] theorem State.setReg32_peJustSet (s : State) (r : Gpr) (v : Dword) : (s.setReg32 r v).peJustSet = s.peJustSet := rfl
@[simp] theorem State.setReg32_draws (s : State) (r : Gpr) (v : Dword) : (s.setReg32 r v).draws = s.draws := rfl
@[simp] theorem State.setReg32_cfg (s : State) (r : Gpr) (v : Dword) : (s.setReg32 r v).cfg = s.cfg := rfl

/-! ## setReg16 -/

@[simp] theorem State.setReg16_eip (s : State) (r : Gpr) (v : Word) : (s.setReg16 r v).eip = s.eip := rfl
@[simp] theorem State.setReg16_eflags (s : State) (r : Gpr) (v : Word) : (s.setReg16 r v).eflags = s.eflags := rfl
@[simp] theorem State.setReg16_seg (s : State) (r : Gpr) (v : Word) : (s.setReg16 r v).seg = s.seg := rfl
@[simp] theorem State.setReg16_gdtr (s : State) (r : Gpr) (v : Word) : (s.setReg16 r v).gdtr = s.gdtr := rfl
@[simp] theorem State.setReg16_idtr (s : State) (r : Gpr) (v : Word) : (s.setReg16 r v).idtr = s.idtr := rfl
@[simp] theorem State.setReg16_ldtr (s : State) (r : Gpr) (v : Word) : (s.setReg16 r v).ldtr = s.ldtr := rfl
@[simp] theorem State.setReg16_tr (s : State) (r : Gpr) (v : Word) : (s.setReg16 r v).tr = s.tr := rfl
@[simp] theorem State.setReg16_cr0 (s : State) (r : Gpr) (v : Word) : (s.setReg16 r v).cr0 = s.cr0 := rfl
@[simp] theorem State.setReg16_cr2 (s : State) (r : Gpr) (v : Word) : (s.setReg16 r v).cr2 = s.cr2 := rfl
@[simp] theorem State.setReg16_cr3 (s : State) (r : Gpr) (v : Word) : (s.setReg16 r v).cr3 = s.cr3 := rfl
@[simp] theorem State.setReg16_dr0 (s : State) (r : Gpr) (v : Word) : (s.setReg16 r v).dr0 = s.dr0 := rfl
@[simp] theorem State.setReg16_dr1 (s : State) (r : Gpr) (v : Word) : (s.setReg16 r v).dr1 = s.dr1 := rfl
@[simp] theorem State.setReg16_dr2 (s : State) (r : Gpr) (v : Word) : (s.setReg16 r v).dr2 = s.dr2 := rfl
@[simp] theorem State.setReg16_dr3 (s : State) (r : Gpr) (v : Word) : (s.setReg16 r v).dr3 = s.dr3 := rfl
@[simp] theorem State.setReg16_dr6 (s : State) (r : Gpr) (v : Word) : (s.setReg16 r v).dr6 = s.dr6 := rfl
@[simp] theorem State.setReg16_dr7 (s : State) (r : Gpr) (v : Word) : (s.setReg16 r v).dr7 = s.dr7 := rfl
@[simp] theorem State.setReg16_tr6 (s : State) (r : Gpr) (v : Word) : (s.setReg16 r v).tr6 = s.tr6 := rfl
@[simp] theorem State.setReg16_tr7 (s : State) (r : Gpr) (v : Word) : (s.setReg16 r v).tr7 = s.tr7 := rfl
@[simp] theorem State.setReg16_mem (s : State) (r : Gpr) (v : Word) : (s.setReg16 r v).mem = s.mem := rfl
@[simp] theorem State.setReg16_tlb (s : State) (r : Gpr) (v : Word) : (s.setReg16 r v).tlb = s.tlb := rfl
@[simp] theorem State.setReg16_peJustSet (s : State) (r : Gpr) (v : Word) : (s.setReg16 r v).peJustSet = s.peJustSet := rfl
@[simp] theorem State.setReg16_draws (s : State) (r : Gpr) (v : Word) : (s.setReg16 r v).draws = s.draws := rfl
@[simp] theorem State.setReg16_cfg (s : State) (r : Gpr) (v : Word) : (s.setReg16 r v).cfg = s.cfg := rfl

/-! ## setReg8 -/

@[simp] theorem State.setReg8_eip (s : State) (r : Reg8) (v : Byte) : (s.setReg8 r v).eip = s.eip := rfl
@[simp] theorem State.setReg8_eflags (s : State) (r : Reg8) (v : Byte) : (s.setReg8 r v).eflags = s.eflags := rfl
@[simp] theorem State.setReg8_seg (s : State) (r : Reg8) (v : Byte) : (s.setReg8 r v).seg = s.seg := rfl
@[simp] theorem State.setReg8_gdtr (s : State) (r : Reg8) (v : Byte) : (s.setReg8 r v).gdtr = s.gdtr := rfl
@[simp] theorem State.setReg8_idtr (s : State) (r : Reg8) (v : Byte) : (s.setReg8 r v).idtr = s.idtr := rfl
@[simp] theorem State.setReg8_ldtr (s : State) (r : Reg8) (v : Byte) : (s.setReg8 r v).ldtr = s.ldtr := rfl
@[simp] theorem State.setReg8_tr (s : State) (r : Reg8) (v : Byte) : (s.setReg8 r v).tr = s.tr := rfl
@[simp] theorem State.setReg8_cr0 (s : State) (r : Reg8) (v : Byte) : (s.setReg8 r v).cr0 = s.cr0 := rfl
@[simp] theorem State.setReg8_cr2 (s : State) (r : Reg8) (v : Byte) : (s.setReg8 r v).cr2 = s.cr2 := rfl
@[simp] theorem State.setReg8_cr3 (s : State) (r : Reg8) (v : Byte) : (s.setReg8 r v).cr3 = s.cr3 := rfl
@[simp] theorem State.setReg8_dr0 (s : State) (r : Reg8) (v : Byte) : (s.setReg8 r v).dr0 = s.dr0 := rfl
@[simp] theorem State.setReg8_dr1 (s : State) (r : Reg8) (v : Byte) : (s.setReg8 r v).dr1 = s.dr1 := rfl
@[simp] theorem State.setReg8_dr2 (s : State) (r : Reg8) (v : Byte) : (s.setReg8 r v).dr2 = s.dr2 := rfl
@[simp] theorem State.setReg8_dr3 (s : State) (r : Reg8) (v : Byte) : (s.setReg8 r v).dr3 = s.dr3 := rfl
@[simp] theorem State.setReg8_dr6 (s : State) (r : Reg8) (v : Byte) : (s.setReg8 r v).dr6 = s.dr6 := rfl
@[simp] theorem State.setReg8_dr7 (s : State) (r : Reg8) (v : Byte) : (s.setReg8 r v).dr7 = s.dr7 := rfl
@[simp] theorem State.setReg8_tr6 (s : State) (r : Reg8) (v : Byte) : (s.setReg8 r v).tr6 = s.tr6 := rfl
@[simp] theorem State.setReg8_tr7 (s : State) (r : Reg8) (v : Byte) : (s.setReg8 r v).tr7 = s.tr7 := rfl
@[simp] theorem State.setReg8_mem (s : State) (r : Reg8) (v : Byte) : (s.setReg8 r v).mem = s.mem := rfl
@[simp] theorem State.setReg8_tlb (s : State) (r : Reg8) (v : Byte) : (s.setReg8 r v).tlb = s.tlb := rfl
@[simp] theorem State.setReg8_peJustSet (s : State) (r : Reg8) (v : Byte) : (s.setReg8 r v).peJustSet = s.peJustSet := rfl
@[simp] theorem State.setReg8_draws (s : State) (r : Reg8) (v : Byte) : (s.setReg8 r v).draws = s.draws := rfl
@[simp] theorem State.setReg8_cfg (s : State) (r : Reg8) (v : Byte) : (s.setReg8 r v).cfg = s.cfg := rfl

/-! ## setRegN -/

@[simp] theorem State.setRegN_eip (s : State) (n : Size) (r : Gpr) (v : Dword) : (s.setRegN n r v).eip = s.eip := by cases n <;> rfl
@[simp] theorem State.setRegN_eflags (s : State) (n : Size) (r : Gpr) (v : Dword) : (s.setRegN n r v).eflags = s.eflags := by cases n <;> rfl
@[simp] theorem State.setRegN_seg (s : State) (n : Size) (r : Gpr) (v : Dword) : (s.setRegN n r v).seg = s.seg := by cases n <;> rfl
@[simp] theorem State.setRegN_gdtr (s : State) (n : Size) (r : Gpr) (v : Dword) : (s.setRegN n r v).gdtr = s.gdtr := by cases n <;> rfl
@[simp] theorem State.setRegN_idtr (s : State) (n : Size) (r : Gpr) (v : Dword) : (s.setRegN n r v).idtr = s.idtr := by cases n <;> rfl
@[simp] theorem State.setRegN_ldtr (s : State) (n : Size) (r : Gpr) (v : Dword) : (s.setRegN n r v).ldtr = s.ldtr := by cases n <;> rfl
@[simp] theorem State.setRegN_tr (s : State) (n : Size) (r : Gpr) (v : Dword) : (s.setRegN n r v).tr = s.tr := by cases n <;> rfl
@[simp] theorem State.setRegN_cr0 (s : State) (n : Size) (r : Gpr) (v : Dword) : (s.setRegN n r v).cr0 = s.cr0 := by cases n <;> rfl
@[simp] theorem State.setRegN_cr2 (s : State) (n : Size) (r : Gpr) (v : Dword) : (s.setRegN n r v).cr2 = s.cr2 := by cases n <;> rfl
@[simp] theorem State.setRegN_cr3 (s : State) (n : Size) (r : Gpr) (v : Dword) : (s.setRegN n r v).cr3 = s.cr3 := by cases n <;> rfl
@[simp] theorem State.setRegN_dr0 (s : State) (n : Size) (r : Gpr) (v : Dword) : (s.setRegN n r v).dr0 = s.dr0 := by cases n <;> rfl
@[simp] theorem State.setRegN_dr1 (s : State) (n : Size) (r : Gpr) (v : Dword) : (s.setRegN n r v).dr1 = s.dr1 := by cases n <;> rfl
@[simp] theorem State.setRegN_dr2 (s : State) (n : Size) (r : Gpr) (v : Dword) : (s.setRegN n r v).dr2 = s.dr2 := by cases n <;> rfl
@[simp] theorem State.setRegN_dr3 (s : State) (n : Size) (r : Gpr) (v : Dword) : (s.setRegN n r v).dr3 = s.dr3 := by cases n <;> rfl
@[simp] theorem State.setRegN_dr6 (s : State) (n : Size) (r : Gpr) (v : Dword) : (s.setRegN n r v).dr6 = s.dr6 := by cases n <;> rfl
@[simp] theorem State.setRegN_dr7 (s : State) (n : Size) (r : Gpr) (v : Dword) : (s.setRegN n r v).dr7 = s.dr7 := by cases n <;> rfl
@[simp] theorem State.setRegN_tr6 (s : State) (n : Size) (r : Gpr) (v : Dword) : (s.setRegN n r v).tr6 = s.tr6 := by cases n <;> rfl
@[simp] theorem State.setRegN_tr7 (s : State) (n : Size) (r : Gpr) (v : Dword) : (s.setRegN n r v).tr7 = s.tr7 := by cases n <;> rfl
@[simp] theorem State.setRegN_mem (s : State) (n : Size) (r : Gpr) (v : Dword) : (s.setRegN n r v).mem = s.mem := by cases n <;> rfl
@[simp] theorem State.setRegN_tlb (s : State) (n : Size) (r : Gpr) (v : Dword) : (s.setRegN n r v).tlb = s.tlb := by cases n <;> rfl
@[simp] theorem State.setRegN_peJustSet (s : State) (n : Size) (r : Gpr) (v : Dword) : (s.setRegN n r v).peJustSet = s.peJustSet := by cases n <;> rfl
@[simp] theorem State.setRegN_draws (s : State) (n : Size) (r : Gpr) (v : Dword) : (s.setRegN n r v).draws = s.draws := by cases n <;> rfl
@[simp] theorem State.setRegN_cfg (s : State) (n : Size) (r : Gpr) (v : Dword) : (s.setRegN n r v).cfg = s.cfg := by cases n <;> rfl

/-! ## setAccumulator -/

@[simp] theorem State.setAccumulator_eip (s : State) (w : LodsWidth) (v : Nat) : (s.setAccumulator w v).eip = s.eip := by cases w <;> rfl
@[simp] theorem State.setAccumulator_eflags (s : State) (w : LodsWidth) (v : Nat) : (s.setAccumulator w v).eflags = s.eflags := by cases w <;> rfl
@[simp] theorem State.setAccumulator_seg (s : State) (w : LodsWidth) (v : Nat) : (s.setAccumulator w v).seg = s.seg := by cases w <;> rfl
@[simp] theorem State.setAccumulator_gdtr (s : State) (w : LodsWidth) (v : Nat) : (s.setAccumulator w v).gdtr = s.gdtr := by cases w <;> rfl
@[simp] theorem State.setAccumulator_idtr (s : State) (w : LodsWidth) (v : Nat) : (s.setAccumulator w v).idtr = s.idtr := by cases w <;> rfl
@[simp] theorem State.setAccumulator_ldtr (s : State) (w : LodsWidth) (v : Nat) : (s.setAccumulator w v).ldtr = s.ldtr := by cases w <;> rfl
@[simp] theorem State.setAccumulator_tr (s : State) (w : LodsWidth) (v : Nat) : (s.setAccumulator w v).tr = s.tr := by cases w <;> rfl
@[simp] theorem State.setAccumulator_cr0 (s : State) (w : LodsWidth) (v : Nat) : (s.setAccumulator w v).cr0 = s.cr0 := by cases w <;> rfl
@[simp] theorem State.setAccumulator_cr2 (s : State) (w : LodsWidth) (v : Nat) : (s.setAccumulator w v).cr2 = s.cr2 := by cases w <;> rfl
@[simp] theorem State.setAccumulator_cr3 (s : State) (w : LodsWidth) (v : Nat) : (s.setAccumulator w v).cr3 = s.cr3 := by cases w <;> rfl
@[simp] theorem State.setAccumulator_dr0 (s : State) (w : LodsWidth) (v : Nat) : (s.setAccumulator w v).dr0 = s.dr0 := by cases w <;> rfl
@[simp] theorem State.setAccumulator_dr1 (s : State) (w : LodsWidth) (v : Nat) : (s.setAccumulator w v).dr1 = s.dr1 := by cases w <;> rfl
@[simp] theorem State.setAccumulator_dr2 (s : State) (w : LodsWidth) (v : Nat) : (s.setAccumulator w v).dr2 = s.dr2 := by cases w <;> rfl
@[simp] theorem State.setAccumulator_dr3 (s : State) (w : LodsWidth) (v : Nat) : (s.setAccumulator w v).dr3 = s.dr3 := by cases w <;> rfl
@[simp] theorem State.setAccumulator_dr6 (s : State) (w : LodsWidth) (v : Nat) : (s.setAccumulator w v).dr6 = s.dr6 := by cases w <;> rfl
@[simp] theorem State.setAccumulator_dr7 (s : State) (w : LodsWidth) (v : Nat) : (s.setAccumulator w v).dr7 = s.dr7 := by cases w <;> rfl
@[simp] theorem State.setAccumulator_tr6 (s : State) (w : LodsWidth) (v : Nat) : (s.setAccumulator w v).tr6 = s.tr6 := by cases w <;> rfl
@[simp] theorem State.setAccumulator_tr7 (s : State) (w : LodsWidth) (v : Nat) : (s.setAccumulator w v).tr7 = s.tr7 := by cases w <;> rfl
@[simp] theorem State.setAccumulator_mem (s : State) (w : LodsWidth) (v : Nat) : (s.setAccumulator w v).mem = s.mem := by cases w <;> rfl
@[simp] theorem State.setAccumulator_tlb (s : State) (w : LodsWidth) (v : Nat) : (s.setAccumulator w v).tlb = s.tlb := by cases w <;> rfl
@[simp] theorem State.setAccumulator_peJustSet (s : State) (w : LodsWidth) (v : Nat) : (s.setAccumulator w v).peJustSet = s.peJustSet := by cases w <;> rfl
@[simp] theorem State.setAccumulator_draws (s : State) (w : LodsWidth) (v : Nat) : (s.setAccumulator w v).draws = s.draws := by cases w <;> rfl
@[simp] theorem State.setAccumulator_cfg (s : State) (w : LodsWidth) (v : Nat) : (s.setAccumulator w v).cfg = s.cfg := by cases w <;> rfl

/-! ## setSeg -/

@[simp] theorem State.setSeg_gpr (s : State) (k : SegReg) (c : SegCache) : (s.setSeg k c).gpr = s.gpr := rfl
@[simp] theorem State.setSeg_eip (s : State) (k : SegReg) (c : SegCache) : (s.setSeg k c).eip = s.eip := rfl
@[simp] theorem State.setSeg_eflags (s : State) (k : SegReg) (c : SegCache) : (s.setSeg k c).eflags = s.eflags := rfl
@[simp] theorem State.setSeg_gdtr (s : State) (k : SegReg) (c : SegCache) : (s.setSeg k c).gdtr = s.gdtr := rfl
@[simp] theorem State.setSeg_idtr (s : State) (k : SegReg) (c : SegCache) : (s.setSeg k c).idtr = s.idtr := rfl
@[simp] theorem State.setSeg_ldtr (s : State) (k : SegReg) (c : SegCache) : (s.setSeg k c).ldtr = s.ldtr := rfl
@[simp] theorem State.setSeg_tr (s : State) (k : SegReg) (c : SegCache) : (s.setSeg k c).tr = s.tr := rfl
@[simp] theorem State.setSeg_cr0 (s : State) (k : SegReg) (c : SegCache) : (s.setSeg k c).cr0 = s.cr0 := rfl
@[simp] theorem State.setSeg_cr2 (s : State) (k : SegReg) (c : SegCache) : (s.setSeg k c).cr2 = s.cr2 := rfl
@[simp] theorem State.setSeg_cr3 (s : State) (k : SegReg) (c : SegCache) : (s.setSeg k c).cr3 = s.cr3 := rfl
@[simp] theorem State.setSeg_dr0 (s : State) (k : SegReg) (c : SegCache) : (s.setSeg k c).dr0 = s.dr0 := rfl
@[simp] theorem State.setSeg_dr1 (s : State) (k : SegReg) (c : SegCache) : (s.setSeg k c).dr1 = s.dr1 := rfl
@[simp] theorem State.setSeg_dr2 (s : State) (k : SegReg) (c : SegCache) : (s.setSeg k c).dr2 = s.dr2 := rfl
@[simp] theorem State.setSeg_dr3 (s : State) (k : SegReg) (c : SegCache) : (s.setSeg k c).dr3 = s.dr3 := rfl
@[simp] theorem State.setSeg_dr6 (s : State) (k : SegReg) (c : SegCache) : (s.setSeg k c).dr6 = s.dr6 := rfl
@[simp] theorem State.setSeg_dr7 (s : State) (k : SegReg) (c : SegCache) : (s.setSeg k c).dr7 = s.dr7 := rfl
@[simp] theorem State.setSeg_tr6 (s : State) (k : SegReg) (c : SegCache) : (s.setSeg k c).tr6 = s.tr6 := rfl
@[simp] theorem State.setSeg_tr7 (s : State) (k : SegReg) (c : SegCache) : (s.setSeg k c).tr7 = s.tr7 := rfl
@[simp] theorem State.setSeg_mem (s : State) (k : SegReg) (c : SegCache) : (s.setSeg k c).mem = s.mem := rfl
@[simp] theorem State.setSeg_tlb (s : State) (k : SegReg) (c : SegCache) : (s.setSeg k c).tlb = s.tlb := rfl
@[simp] theorem State.setSeg_peJustSet (s : State) (k : SegReg) (c : SegCache) : (s.setSeg k c).peJustSet = s.peJustSet := rfl
@[simp] theorem State.setSeg_draws (s : State) (k : SegReg) (c : SegCache) : (s.setSeg k c).draws = s.draws := rfl
@[simp] theorem State.setSeg_cfg (s : State) (k : SegReg) (c : SegCache) : (s.setSeg k c).cfg = s.cfg := rfl

/-! ## setEip -/

@[simp] theorem State.setEip_gpr (s : State) (e : Dword) : (s.setEip e).gpr = s.gpr := rfl
@[simp] theorem State.setEip_eflags (s : State) (e : Dword) : (s.setEip e).eflags = s.eflags := rfl
@[simp] theorem State.setEip_seg (s : State) (e : Dword) : (s.setEip e).seg = s.seg := rfl
@[simp] theorem State.setEip_gdtr (s : State) (e : Dword) : (s.setEip e).gdtr = s.gdtr := rfl
@[simp] theorem State.setEip_idtr (s : State) (e : Dword) : (s.setEip e).idtr = s.idtr := rfl
@[simp] theorem State.setEip_ldtr (s : State) (e : Dword) : (s.setEip e).ldtr = s.ldtr := rfl
@[simp] theorem State.setEip_tr (s : State) (e : Dword) : (s.setEip e).tr = s.tr := rfl
@[simp] theorem State.setEip_cr0 (s : State) (e : Dword) : (s.setEip e).cr0 = s.cr0 := rfl
@[simp] theorem State.setEip_cr2 (s : State) (e : Dword) : (s.setEip e).cr2 = s.cr2 := rfl
@[simp] theorem State.setEip_cr3 (s : State) (e : Dword) : (s.setEip e).cr3 = s.cr3 := rfl
@[simp] theorem State.setEip_dr0 (s : State) (e : Dword) : (s.setEip e).dr0 = s.dr0 := rfl
@[simp] theorem State.setEip_dr1 (s : State) (e : Dword) : (s.setEip e).dr1 = s.dr1 := rfl
@[simp] theorem State.setEip_dr2 (s : State) (e : Dword) : (s.setEip e).dr2 = s.dr2 := rfl
@[simp] theorem State.setEip_dr3 (s : State) (e : Dword) : (s.setEip e).dr3 = s.dr3 := rfl
@[simp] theorem State.setEip_dr6 (s : State) (e : Dword) : (s.setEip e).dr6 = s.dr6 := rfl
@[simp] theorem State.setEip_dr7 (s : State) (e : Dword) : (s.setEip e).dr7 = s.dr7 := rfl
@[simp] theorem State.setEip_tr6 (s : State) (e : Dword) : (s.setEip e).tr6 = s.tr6 := rfl
@[simp] theorem State.setEip_tr7 (s : State) (e : Dword) : (s.setEip e).tr7 = s.tr7 := rfl
@[simp] theorem State.setEip_mem (s : State) (e : Dword) : (s.setEip e).mem = s.mem := rfl
@[simp] theorem State.setEip_tlb (s : State) (e : Dword) : (s.setEip e).tlb = s.tlb := rfl
@[simp] theorem State.setEip_peJustSet (s : State) (e : Dword) : (s.setEip e).peJustSet = s.peJustSet := rfl
@[simp] theorem State.setEip_draws (s : State) (e : Dword) : (s.setEip e).draws = s.draws := rfl
@[simp] theorem State.setEip_cfg (s : State) (e : Dword) : (s.setEip e).cfg = s.cfg := rfl

/-! ## retire -/

@[simp] theorem State.retire_gpr (s : State) (i : Instr) : (s.retire i).gpr = s.gpr := rfl
@[simp] theorem State.retire_eflags (s : State) (i : Instr) : (s.retire i).eflags = s.eflags := rfl
@[simp] theorem State.retire_seg (s : State) (i : Instr) : (s.retire i).seg = s.seg := rfl
@[simp] theorem State.retire_gdtr (s : State) (i : Instr) : (s.retire i).gdtr = s.gdtr := rfl
@[simp] theorem State.retire_idtr (s : State) (i : Instr) : (s.retire i).idtr = s.idtr := rfl
@[simp] theorem State.retire_ldtr (s : State) (i : Instr) : (s.retire i).ldtr = s.ldtr := rfl
@[simp] theorem State.retire_tr (s : State) (i : Instr) : (s.retire i).tr = s.tr := rfl
@[simp] theorem State.retire_cr0 (s : State) (i : Instr) : (s.retire i).cr0 = s.cr0 := rfl
@[simp] theorem State.retire_cr2 (s : State) (i : Instr) : (s.retire i).cr2 = s.cr2 := rfl
@[simp] theorem State.retire_cr3 (s : State) (i : Instr) : (s.retire i).cr3 = s.cr3 := rfl
@[simp] theorem State.retire_dr0 (s : State) (i : Instr) : (s.retire i).dr0 = s.dr0 := rfl
@[simp] theorem State.retire_dr1 (s : State) (i : Instr) : (s.retire i).dr1 = s.dr1 := rfl
@[simp] theorem State.retire_dr2 (s : State) (i : Instr) : (s.retire i).dr2 = s.dr2 := rfl
@[simp] theorem State.retire_dr3 (s : State) (i : Instr) : (s.retire i).dr3 = s.dr3 := rfl
@[simp] theorem State.retire_dr6 (s : State) (i : Instr) : (s.retire i).dr6 = s.dr6 := rfl
@[simp] theorem State.retire_dr7 (s : State) (i : Instr) : (s.retire i).dr7 = s.dr7 := rfl
@[simp] theorem State.retire_tr6 (s : State) (i : Instr) : (s.retire i).tr6 = s.tr6 := rfl
@[simp] theorem State.retire_tr7 (s : State) (i : Instr) : (s.retire i).tr7 = s.tr7 := rfl
@[simp] theorem State.retire_mem (s : State) (i : Instr) : (s.retire i).mem = s.mem := rfl
@[simp] theorem State.retire_tlb (s : State) (i : Instr) : (s.retire i).tlb = s.tlb := rfl
@[simp] theorem State.retire_peJustSet (s : State) (i : Instr) : (s.retire i).peJustSet = s.peJustSet := rfl
@[simp] theorem State.retire_draws (s : State) (i : Instr) : (s.retire i).draws = s.draws := rfl
@[simp] theorem State.retire_cfg (s : State) (i : Instr) : (s.retire i).cfg = s.cfg := rfl

/-! ## setZf -/

@[simp] theorem State.setZf_gpr (s : State) (z : Bool) : (s.setZf z).gpr = s.gpr := rfl
@[simp] theorem State.setZf_eip (s : State) (z : Bool) : (s.setZf z).eip = s.eip := rfl
@[simp] theorem State.setZf_seg (s : State) (z : Bool) : (s.setZf z).seg = s.seg := rfl
@[simp] theorem State.setZf_gdtr (s : State) (z : Bool) : (s.setZf z).gdtr = s.gdtr := rfl
@[simp] theorem State.setZf_idtr (s : State) (z : Bool) : (s.setZf z).idtr = s.idtr := rfl
@[simp] theorem State.setZf_ldtr (s : State) (z : Bool) : (s.setZf z).ldtr = s.ldtr := rfl
@[simp] theorem State.setZf_tr (s : State) (z : Bool) : (s.setZf z).tr = s.tr := rfl
@[simp] theorem State.setZf_cr0 (s : State) (z : Bool) : (s.setZf z).cr0 = s.cr0 := rfl
@[simp] theorem State.setZf_cr2 (s : State) (z : Bool) : (s.setZf z).cr2 = s.cr2 := rfl
@[simp] theorem State.setZf_cr3 (s : State) (z : Bool) : (s.setZf z).cr3 = s.cr3 := rfl
@[simp] theorem State.setZf_dr0 (s : State) (z : Bool) : (s.setZf z).dr0 = s.dr0 := rfl
@[simp] theorem State.setZf_dr1 (s : State) (z : Bool) : (s.setZf z).dr1 = s.dr1 := rfl
@[simp] theorem State.setZf_dr2 (s : State) (z : Bool) : (s.setZf z).dr2 = s.dr2 := rfl
@[simp] theorem State.setZf_dr3 (s : State) (z : Bool) : (s.setZf z).dr3 = s.dr3 := rfl
@[simp] theorem State.setZf_dr6 (s : State) (z : Bool) : (s.setZf z).dr6 = s.dr6 := rfl
@[simp] theorem State.setZf_dr7 (s : State) (z : Bool) : (s.setZf z).dr7 = s.dr7 := rfl
@[simp] theorem State.setZf_tr6 (s : State) (z : Bool) : (s.setZf z).tr6 = s.tr6 := rfl
@[simp] theorem State.setZf_tr7 (s : State) (z : Bool) : (s.setZf z).tr7 = s.tr7 := rfl
@[simp] theorem State.setZf_mem (s : State) (z : Bool) : (s.setZf z).mem = s.mem := rfl
@[simp] theorem State.setZf_tlb (s : State) (z : Bool) : (s.setZf z).tlb = s.tlb := rfl
@[simp] theorem State.setZf_peJustSet (s : State) (z : Bool) : (s.setZf z).peJustSet = s.peJustSet := rfl
@[simp] theorem State.setZf_draws (s : State) (z : Bool) : (s.setZf z).draws = s.draws := rfl
@[simp] theorem State.setZf_cfg (s : State) (z : Bool) : (s.setZf z).cfg = s.cfg := rfl

/-! ## drawn -/

@[simp] theorem State.drawn_gpr (s : State) (n : Nat) : (s.drawn n).gpr = s.gpr := rfl
@[simp] theorem State.drawn_eip (s : State) (n : Nat) : (s.drawn n).eip = s.eip := rfl
@[simp] theorem State.drawn_eflags (s : State) (n : Nat) : (s.drawn n).eflags = s.eflags := rfl
@[simp] theorem State.drawn_seg (s : State) (n : Nat) : (s.drawn n).seg = s.seg := rfl
@[simp] theorem State.drawn_gdtr (s : State) (n : Nat) : (s.drawn n).gdtr = s.gdtr := rfl
@[simp] theorem State.drawn_idtr (s : State) (n : Nat) : (s.drawn n).idtr = s.idtr := rfl
@[simp] theorem State.drawn_ldtr (s : State) (n : Nat) : (s.drawn n).ldtr = s.ldtr := rfl
@[simp] theorem State.drawn_tr (s : State) (n : Nat) : (s.drawn n).tr = s.tr := rfl
@[simp] theorem State.drawn_cr0 (s : State) (n : Nat) : (s.drawn n).cr0 = s.cr0 := rfl
@[simp] theorem State.drawn_cr2 (s : State) (n : Nat) : (s.drawn n).cr2 = s.cr2 := rfl
@[simp] theorem State.drawn_cr3 (s : State) (n : Nat) : (s.drawn n).cr3 = s.cr3 := rfl
@[simp] theorem State.drawn_dr0 (s : State) (n : Nat) : (s.drawn n).dr0 = s.dr0 := rfl
@[simp] theorem State.drawn_dr1 (s : State) (n : Nat) : (s.drawn n).dr1 = s.dr1 := rfl
@[simp] theorem State.drawn_dr2 (s : State) (n : Nat) : (s.drawn n).dr2 = s.dr2 := rfl
@[simp] theorem State.drawn_dr3 (s : State) (n : Nat) : (s.drawn n).dr3 = s.dr3 := rfl
@[simp] theorem State.drawn_dr6 (s : State) (n : Nat) : (s.drawn n).dr6 = s.dr6 := rfl
@[simp] theorem State.drawn_dr7 (s : State) (n : Nat) : (s.drawn n).dr7 = s.dr7 := rfl
@[simp] theorem State.drawn_tr6 (s : State) (n : Nat) : (s.drawn n).tr6 = s.tr6 := rfl
@[simp] theorem State.drawn_tr7 (s : State) (n : Nat) : (s.drawn n).tr7 = s.tr7 := rfl
@[simp] theorem State.drawn_mem (s : State) (n : Nat) : (s.drawn n).mem = s.mem := rfl
@[simp] theorem State.drawn_tlb (s : State) (n : Nat) : (s.drawn n).tlb = s.tlb := rfl
@[simp] theorem State.drawn_peJustSet (s : State) (n : Nat) : (s.drawn n).peJustSet = s.peJustSet := rfl
@[simp] theorem State.drawn_cfg (s : State) (n : Nat) : (s.drawn n).cfg = s.cfg := rfl

/-! ## setMsw -/

@[simp] theorem State.setMsw_gpr (s : State) (w : Word) : (s.setMsw w).gpr = s.gpr := rfl
@[simp] theorem State.setMsw_eip (s : State) (w : Word) : (s.setMsw w).eip = s.eip := rfl
@[simp] theorem State.setMsw_eflags (s : State) (w : Word) : (s.setMsw w).eflags = s.eflags := rfl
@[simp] theorem State.setMsw_seg (s : State) (w : Word) : (s.setMsw w).seg = s.seg := rfl
@[simp] theorem State.setMsw_gdtr (s : State) (w : Word) : (s.setMsw w).gdtr = s.gdtr := rfl
@[simp] theorem State.setMsw_idtr (s : State) (w : Word) : (s.setMsw w).idtr = s.idtr := rfl
@[simp] theorem State.setMsw_ldtr (s : State) (w : Word) : (s.setMsw w).ldtr = s.ldtr := rfl
@[simp] theorem State.setMsw_tr (s : State) (w : Word) : (s.setMsw w).tr = s.tr := rfl
@[simp] theorem State.setMsw_cr2 (s : State) (w : Word) : (s.setMsw w).cr2 = s.cr2 := rfl
@[simp] theorem State.setMsw_cr3 (s : State) (w : Word) : (s.setMsw w).cr3 = s.cr3 := rfl
@[simp] theorem State.setMsw_dr0 (s : State) (w : Word) : (s.setMsw w).dr0 = s.dr0 := rfl
@[simp] theorem State.setMsw_dr1 (s : State) (w : Word) : (s.setMsw w).dr1 = s.dr1 := rfl
@[simp] theorem State.setMsw_dr2 (s : State) (w : Word) : (s.setMsw w).dr2 = s.dr2 := rfl
@[simp] theorem State.setMsw_dr3 (s : State) (w : Word) : (s.setMsw w).dr3 = s.dr3 := rfl
@[simp] theorem State.setMsw_dr6 (s : State) (w : Word) : (s.setMsw w).dr6 = s.dr6 := rfl
@[simp] theorem State.setMsw_dr7 (s : State) (w : Word) : (s.setMsw w).dr7 = s.dr7 := rfl
@[simp] theorem State.setMsw_tr6 (s : State) (w : Word) : (s.setMsw w).tr6 = s.tr6 := rfl
@[simp] theorem State.setMsw_tr7 (s : State) (w : Word) : (s.setMsw w).tr7 = s.tr7 := rfl
@[simp] theorem State.setMsw_mem (s : State) (w : Word) : (s.setMsw w).mem = s.mem := rfl
@[simp] theorem State.setMsw_tlb (s : State) (w : Word) : (s.setMsw w).tlb = s.tlb := rfl
@[simp] theorem State.setMsw_draws (s : State) (w : Word) : (s.setMsw w).draws = s.draws := rfl
@[simp] theorem State.setMsw_cfg (s : State) (w : Word) : (s.setMsw w).cfg = s.cfg := rfl

/-! ## The fields that the updates do change -/

@[simp] theorem State.setReg32_gpr (s : State) (r : Gpr) (v : Dword) :
    (s.setReg32 r v).gpr = s.gpr.set r v := rfl
@[simp] theorem State.setSeg_seg (s : State) (k : SegReg) (c : SegCache) :
    (s.setSeg k c).seg = s.seg.set k c := rfl
@[simp] theorem State.setEip_eip (s : State) (e : Dword) : (s.setEip e).eip = e := rfl
@[simp] theorem State.retire_eip (s : State) (i : Instr) :
    (s.retire i).eip = s.eip + BitVec.ofNat 32 i.length := rfl
@[simp] theorem State.setZf_eflags (s : State) (z : Bool) : (s.setZf z).eflags = withZf s.eflags z := rfl
@[simp] theorem State.drawn_draws (s : State) (n : Nat) : (s.drawn n).draws = s.draws + n := rfl
@[simp] theorem State.setMsw_cr0 (s : State) (w : Word) : (s.setMsw w).cr0 = withLowWord s.cr0 w := rfl
@[simp] theorem State.setMsw_peJustSet (s : State) (w : Word) :
    (s.setMsw w).peJustSet = (s.peJustSet || (!s.pe && w.getLsbD 0)) := rfl

/-! ## The register files -/

@[simp] theorem Gprs.get_set_same (g : Gprs) (r : Gpr) (v : Dword) : (g.set r v).get r = v := by
  cases r <;> rfl

theorem Gprs.get_set_other (g : Gprs) (v : Dword) (r q : Gpr) (h : q ≠ r) : (g.set r v).get q = g.get q := by
  cases r <;> cases q <;> first | rfl | exact absurd rfl h

theorem Gprs.set_get (g : Gprs) (r : Gpr) : g.set r (g.get r) = g := by cases r <;> rfl

@[simp] theorem SegRegs.get_set_same (g : SegRegs) (k : SegReg) (c : SegCache) : (g.set k c).get k = c := by
  cases k <;> rfl

theorem SegRegs.get_set_other (g : SegRegs) (c : SegCache) (k j : SegReg) (h : j ≠ k) :
    (g.set k c).get j = g.get j := by
  cases k <;> cases j <;> first | rfl | exact absurd rfl h

@[simp] theorem State.reg32_setReg32_same (s : State) (r : Gpr) (v : Dword) :
    (s.setReg32 r v).reg32 r = v := Gprs.get_set_same s.gpr r v

theorem State.reg32_setReg32_other (s : State) (v : Dword) (r q : Gpr) (h : q ≠ r) :
    (s.setReg32 r v).reg32 q = s.reg32 q := Gprs.get_set_other s.gpr v r q h

theorem State.reg32_setReg16_other (s : State) (v : Word) (r q : Gpr) (h : q ≠ r) :
    (s.setReg16 r v).reg32 q = s.reg32 q := Gprs.get_set_other s.gpr _ r q h

theorem State.reg32_setReg8_other (s : State) (v : Byte) (r : Reg8) (q : Gpr) (h : q ≠ r.home) :
    (s.setReg8 r v).reg32 q = s.reg32 q := Gprs.get_set_other s.gpr _ r.home q h

theorem State.reg32_setRegN_other (s : State) (v : Dword) (n : Size) (r q : Gpr) (h : q ≠ r) :
    (s.setRegN n r v).reg32 q = s.reg32 q := by
  cases n
  · exact s.reg32_setReg16_other _ r q h
  · exact s.reg32_setReg32_other _ r q h

/-! ## Parts of a doubleword -/

/-- Bits 15:0 from the word, bits 31:16 kept. -/
theorem withLowWord_bit (d : Dword) (v : Word) (j : Nat) :
    (withLowWord d v).getLsbD j = if j < 16 then v.getLsbD j else d.getLsbD j := by
  have h := BitVec.getLsbD_append (x := d.extractLsb' 16 16) (y := v) (i := j)
  refine h.trans ?_
  by_cases hj : j < 16
  · simp [hj]
  · simp only [hj, if_false, BitVec.getLsbD_extractLsb']
    by_cases h2 : j < 32
    · simp [show j - 16 < 16 by omega, show 16 + (j - 16) = j by omega]
    · simp [show ¬ j - 16 < 16 by omega, BitVec.getLsbD_of_ge d j (by omega)]

/-- Bits 7:0 from the byte, bits 31:8 kept. -/
theorem withByte0_bit (d : Dword) (v : Byte) (j : Nat) :
    (withByte0 d v).getLsbD j = if j < 8 then v.getLsbD j else d.getLsbD j := by
  have h := BitVec.getLsbD_append (x := d.extractLsb' 8 24) (y := v) (i := j)
  refine h.trans ?_
  by_cases hj : j < 8
  · simp [hj]
  · simp only [hj, if_false, BitVec.getLsbD_extractLsb']
    by_cases h2 : j < 32
    · simp [show j - 8 < 24 by omega, show 8 + (j - 8) = j by omega]
    · simp [show ¬ j - 8 < 24 by omega, BitVec.getLsbD_of_ge d j (by omega)]

/-- Bits 15:8 from the byte, every other bit kept. -/
theorem withByte1_bit (d : Dword) (v : Byte) (j : Nat) :
    (withByte1 d v).getLsbD j = if 8 ≤ j ∧ j < 16 then v.getLsbD (j - 8) else d.getLsbD j := by
  have h := BitVec.getLsbD_append (x := d.extractLsb' 16 16 ++ v) (y := d.extractLsb' 0 8) (i := j)
  have h' := BitVec.getLsbD_append (x := d.extractLsb' 16 16) (y := v) (i := j - 8)
  refine h.trans ?_
  rw [h']
  by_cases hj : j < 8
  · simp [hj, show ¬ 8 ≤ j by omega]
  · by_cases h2 : j < 16
    · simp [hj, h2, show j - 8 < 8 by omega, show 8 ≤ j by omega]
    · simp only [hj, h2, if_false, show ¬ j - 8 < 8 by omega, BitVec.getLsbD_extractLsb', and_false]
      by_cases h3 : j < 32
      · simp [show j - 8 - 8 < 16 by omega, show 16 + (j - 8 - 8) = j by omega]
      · simp [show ¬ j - 8 - 8 < 16 by omega, BitVec.getLsbD_of_ge d j (by omega)]

@[simp] theorem lowWord_withLowWord (d : Dword) (v : Word) : lowWord (withLowWord d v) = v := by
  apply BitVec.eq_of_getLsbD_eq
  intro j hj
  simp only [lowWord, BitVec.getLsbD_extractLsb', withLowWord_bit]
  simp [hj]

@[simp] theorem highWord_withLowWord (d : Dword) (v : Word) :
    (withLowWord d v).extractLsb' 16 16 = d.extractLsb' 16 16 := by
  apply BitVec.eq_of_getLsbD_eq
  intro j hj
  simp only [BitVec.getLsbD_extractLsb', withLowWord_bit]
  simp [show ¬ 16 + j < 16 by omega]

@[simp] theorem State.reg16_setReg16_same (s : State) (r : Gpr) (v : Word) :
    (s.setReg16 r v).reg16 r = v := by
  simp [State.reg16, State.setReg16]

/-! ## Mode, privilege and sizes depend on few fields -/

theorem State.mode_congr (s t : State) (h0 : t.cr0 = s.cr0) (hf : t.eflags = s.eflags) : t.mode = s.mode := by
  simp [State.mode, State.pe, State.vm, h0, hf]

@[simp] theorem State.withAccess_mode (s : State) (m : Memory) (b : List TlbEntry) (n : Nat) :
    ({ s with mem := m, tlb := b, draws := n } : State).mode = s.mode := rfl
@[simp] theorem State.withAccess_cpl (s : State) (m : Memory) (b : List TlbEntry) (n : Nat) :
    ({ s with mem := m, tlb := b, draws := n } : State).cpl = s.cpl := rfl
@[simp] theorem State.withAccess_dflt (s : State) (m : Memory) (b : List TlbEntry) (n : Nat) :
    ({ s with mem := m, tlb := b, draws := n } : State).dflt = s.dflt := rfl
@[simp] theorem State.withAccess_stackAddrSize (s : State) (m : Memory) (b : List TlbEntry) (n : Nat) :
    ({ s with mem := m, tlb := b, draws := n } : State).stackAddrSize = s.stackAddrSize := rfl
@[simp] theorem State.withAccess_takeException (s : State) (m : Memory) (b : List TlbEntry) (n : Nat) (e : Exc) :
    takeException { s with mem := m, tlb := b, draws := n } e = takeException s e := by cases e <;> rfl

/-- ZF written as told, every other bit of EFLAGS kept. -/
theorem withZf_bit (flags : Dword) (z : Bool) (j : Nat) (h : j < 32) :
    (withZf flags z).getLsbD j = if j = 6 then z else flags.getLsbD j := by
  have h' : j = 0 ∨ j = 1 ∨ j = 2 ∨ j = 3 ∨ j = 4 ∨ j = 5 ∨ j = 6 ∨ j = 7 ∨ j = 8 ∨ j = 9 ∨ j = 10 ∨ j = 11 ∨
      j = 12 ∨ j = 13 ∨ j = 14 ∨ j = 15 ∨ j = 16 ∨ j = 17 ∨ j = 18 ∨ j = 19 ∨ j = 20 ∨ j = 21 ∨ j = 22 ∨
      j = 23 ∨ j = 24 ∨ j = 25 ∨ j = 26 ∨ j = 27 ∨ j = 28 ∨ j = 29 ∨ j = 30 ∨ j = 31 := by omega
  rcases h' with rfl | rfl | rfl | rfl | rfl | rfl | rfl | rfl | rfl | rfl | rfl | rfl | rfl | rfl | rfl |
    rfl | rfl | rfl | rfl | rfl | rfl | rfl | rfl | rfl | rfl | rfl | rfl | rfl | rfl | rfl | rfl | rfl <;>
  cases z <;> simp [withZf]

@[simp] theorem State.setZf_zf (s : State) (z : Bool) : (s.setZf z).zf = z := by
  simp only [State.zf, State.setZf_eflags, withZf_bit _ _ 6 (by decide), if_true]

@[simp] theorem State.setZf_vm (s : State) (z : Bool) : (s.setZf z).vm = s.vm := by
  simp [State.vm, State.setZf_eflags, withZf_bit s.eflags z 17 (by decide), -BitVec.getLsbD_eq_getElem]

@[simp] theorem State.setZf_mode (s : State) (z : Bool) : (s.setZf z).mode = s.mode := by
  simp [State.mode, State.pe]

end Sys2Proof.Machine
end

