-- ==== Sys2Proof/Laws/Memory.lean ====
section
/-!
SUPPORT. Memory: the canonical form is kept by every operation, a byte written is read back, and a write leaves
every other byte alone.
-/
namespace Sys2Proof.Machine

/-- What the canonical form says of a memory that is not empty. -/
theorem Memory.wfFrom_cons (lo k : Nat) (v : Byte) (rest : Memory) :
    Memory.wfFrom lo ((k, v) :: rest) = true ↔
      lo ≤ k ∧ k < 2 ^ 32 ∧ v ≠ unlistedByte ∧ Memory.wfFrom (k + 1) rest = true := by
  simp [Memory.wfFrom, and_assoc]

theorem Memory.wfFrom_mono (lo lo' : Nat) (h : lo ≤ lo') (m : Memory) (hm : Memory.wfFrom lo' m = true) :
    Memory.wfFrom lo m = true := by
  cases m with
  | nil => rfl
  | cons c rest =>
    obtain ⟨k, v⟩ := c
    rw [Memory.wfFrom_cons] at hm ⊢
    exact ⟨Nat.le_trans h hm.1, hm.2⟩

/-- An address below every listed one reads as unlisted. -/
theorem Memory.read_below (m : Memory) (lo a : Nat) (hm : Memory.wfFrom lo m = true) (h : a < lo) :
    Memory.read m a = unlistedByte := by
  induction m generalizing lo with
  | nil => rfl
  | cons c rest ih =>
    obtain ⟨k, v⟩ := c
    rw [Memory.wfFrom_cons] at hm
    simp only [Memory.read, show ¬ k = a by omega, if_false]
    exact ih (k + 1) hm.2.2.2 (by omega)

theorem Memory.place_wfFrom (lo a : Nat) (b : Byte) (rest : Memory) (ha : lo ≤ a) (h32 : a < 2 ^ 32)
    (hr : Memory.wfFrom (a + 1) rest = true) : Memory.wfFrom lo (Memory.place a b rest) = true := by
  unfold Memory.place
  split
  · exact Memory.wfFrom_mono lo (a + 1) (by omega) rest hr
  · rename_i hb
    exact (Memory.wfFrom_cons lo a b rest).2 ⟨ha, h32, hb, hr⟩

/-- A write at or above `lo` keeps the canonical form from `lo` on. -/
theorem Memory.write_wfFrom (m : Memory) (lo a : Nat) (b : Byte) (ha : lo ≤ a) (h32 : a < 2 ^ 32)
    (hm : Memory.wfFrom lo m = true) : Memory.wfFrom lo (Memory.write m a b) = true := by
  induction m generalizing lo with
  | nil => exact Memory.place_wfFrom lo a b [] ha h32 rfl
  | cons c rest ih =>
    obtain ⟨k, v⟩ := c
    have hc := (Memory.wfFrom_cons lo k v rest).1 hm
    unfold Memory.write
    split
    · rename_i hlt
      exact Memory.place_wfFrom lo a b _ ha h32
        ((Memory.wfFrom_cons (a + 1) k v rest).2 ⟨by omega, hc.2⟩)
    · split
      · rename_i heq
        subst heq
        exact Memory.place_wfFrom lo a b rest ha h32 hc.2.2.2
      · exact (Memory.wfFrom_cons lo k v _).2 ⟨hc.1, hc.2.1, hc.2.2.1, ih (k + 1) (by omega) hc.2.2.2⟩

/-- A write keeps the canonical form. -/
theorem Memory.write_wf (m : Memory) (a : Nat) (b : Byte) (h32 : a < 2 ^ 32) (hm : Memory.wf m = true) :
    Memory.wf (Memory.write m a b) = true :=
  Memory.write_wfFrom m 0 a b (Nat.zero_le a) h32 hm

theorem Memory.read_place_other (a c : Nat) (b : Byte) (rest : Memory) (h : c ≠ a) :
    Memory.read (Memory.place a b rest) c = Memory.read rest c := by
  unfold Memory.place
  split
  · rfl
  · simp [Memory.read, Ne.symm h]

theorem Memory.read_place_same (a : Nat) (b : Byte) (rest : Memory)
    (hr : Memory.wfFrom (a + 1) rest = true) : Memory.read (Memory.place a b rest) a = b := by
  unfold Memory.place
  split
  · rename_i hb
    rw [Memory.read_below rest (a + 1) a hr (by omega), hb]
  · simp [Memory.read]

/-- A write leaves every other byte alone. -/
theorem Memory.read_write_other (m : Memory) (a c : Nat) (b : Byte) (h : c ≠ a) :
    Memory.read (Memory.write m a b) c = Memory.read m c := by
  induction m with
  | nil => exact Memory.read_place_other a c b [] h
  | cons e rest ih =>
    obtain ⟨k, v⟩ := e
    unfold Memory.write
    split
    · exact Memory.read_place_other a c b _ h
    · split
      · rename_i heq
        subst heq
        rw [Memory.read_place_other a c b rest h]
        simp [Memory.read, Ne.symm h]
      · simp only [Memory.read, ih]

theorem Memory.read_write_same_from (m : Memory) (lo a : Nat) (b : Byte) (hm : Memory.wfFrom lo m = true) :
    Memory.read (Memory.write m a b) a = b := by
  induction m generalizing lo with
  | nil => exact Memory.read_place_same a b [] rfl
  | cons e rest ih =>
    obtain ⟨k, v⟩ := e
    have hc := (Memory.wfFrom_cons lo k v rest).1 hm
    unfold Memory.write
    split
    · rename_i hlt
      exact Memory.read_place_same a b _ ((Memory.wfFrom_cons (a + 1) k v rest).2 ⟨by omega, hc.2⟩)
    · split
      · rename_i heq
        subst heq
        exact Memory.read_place_same a b rest hc.2.2.2
      · rename_i h1 h2
        simp only [Memory.read, show ¬ k = a by omega, if_false]
        exact ih (k + 1) hc.2.2.2

/-- A byte written is read back. -/
theorem Memory.read_write_same (m : Memory) (a : Nat) (b : Byte) (hm : Memory.wf m = true) :
    Memory.read (Memory.write m a b) a = b :=
  Memory.read_write_same_from m 0 a b hm

/-! ## The same by physical address -/

theorem Memory.setByte_wf (m : Memory) (pa : Dword) (b : Byte) (hm : Memory.wf m = true) :
    Memory.wf (Memory.setByte m pa b) = true :=
  Memory.write_wf m pa.toNat b pa.isLt hm

theorem Memory.byteAt_setByte_same (m : Memory) (pa : Dword) (b : Byte) (hm : Memory.wf m = true) :
    Memory.byteAt (Memory.setByte m pa b) pa = b :=
  Memory.read_write_same m pa.toNat b hm

theorem Memory.byteAt_setByte_other (m : Memory) (pa pb : Dword) (b : Byte) (h : pb ≠ pa) :
    Memory.byteAt (Memory.setByte m pa b) pb = Memory.byteAt m pb :=
  Memory.read_write_other m pa.toNat pb.toNat b fun e => h (BitVec.eq_of_toNat_eq e)

theorem Memory.storeAll_wf (m : Memory) (l : List (Dword × Byte)) (hm : Memory.wf m = true) :
    Memory.wf (Memory.storeAll m l) = true := by
  induction l generalizing m with
  | nil => exact hm
  | cons c rest ih => exact ih _ (Memory.setByte_wf m c.1 c.2 hm)

/-- The number at consecutive addresses, byte by byte. -/
theorem number_consecutive_dword (m : Memory) (pa : Dword) :
    BitVec.ofNat 32 (Memory.number m (consecutive pa 4)) = Memory.dwordAt m pa := by
  have e2 : pa + 1#32 + 1#32 = pa + 2#32 := by rw [BitVec.add_assoc]; rfl
  have e3 : pa + 2#32 + 1#32 = pa + 3#32 := by rw [BitVec.add_assoc]; rfl
  apply BitVec.eq_of_toNat_eq
  simp only [consecutive, Memory.number, Memory.dwordAt, e2, e3, BitVec.toNat_ofNat]
  have h0 := (Memory.byteAt m pa).isLt
  have h1 := (Memory.byteAt m (pa + 1#32)).isLt
  have h2 := (Memory.byteAt m (pa + 2#32)).isLt
  have h3 := (Memory.byteAt m (pa + 3#32)).isLt
  have key : ∀ (a b : Nat) (x : BitVec a) (y : BitVec b), (x ++ y).toNat = x.toNat * 2 ^ b + y.toNat := by
    intro a b x y
    rw [BitVec.toNat_append, Nat.shiftLeft_eq, Nat.mul_comm, Nat.two_pow_add_eq_or_of_lt y.isLt]
  rw [key, key, key]
  omega

/-! ## Marks in page entries -/

/-- Bits of the byte at a physical address set. -/
def Memory.setBits (m : Memory) (pa : Dword) (bits : Byte) : Memory :=
  Memory.setByte m pa (Memory.byteAt m pa ||| bits)

/-- Memory after the use of a translation that no other agent sees: A in both entries, D in the page-table entry on a
write (R106). -/
def PageWalk.mark (w : PageWalk) (access : Access) (m : Memory) : Memory :=
  Memory.setBits (Memory.setBits m w.pde 0x20#8) w.pte (usedBits access)

theorem Memory.setBits_wf (m : Memory) (pa : Dword) (bits : Byte) (hm : Memory.wf m = true) :
    Memory.wf (Memory.setBits m pa bits) = true :=
  Memory.setByte_wf m pa _ hm

theorem Memory.setNumber_wf (m : Memory) (pas : List Dword) (v : Nat) (hm : Memory.wf m = true) :
    Memory.wf (Memory.setNumber m pas v) = true := by
  induction pas generalizing m v with
  | nil => exact hm
  | cons pa rest ih => exact ih _ _ (Memory.setByte_wf m pa _ hm)

theorem Memory.byteAt_setNumber_other (m : Memory) (pas : List Dword) (v : Nat) (a : Dword) (h : a ∉ pas) :
    Memory.byteAt (Memory.setNumber m pas v) a = Memory.byteAt m a := by
  induction pas generalizing m v with
  | nil => rfl
  | cons pa rest ih =>
    rw [List.mem_cons, not_or] at h
    exact (ih _ _ h.2).trans (Memory.byteAt_setByte_other m pa a _ h.1)

theorem PageWalk.mark_wf (w : PageWalk) (access : Access) (m : Memory) (hm : Memory.wf m = true) :
    Memory.wf (w.mark access m) = true :=
  Memory.setBits_wf _ _ _ (Memory.setBits_wf _ _ _ hm)

end Sys2Proof.Machine
end

