-- ==== Sys2Proof/Laws/Access.lean ====
section
/-!
SUPPORT. What the operations that read or write memory can do: they change nothing but memory, the translation buffer
and the counter of free values, they keep memory's canonical form, and in a quiet state a read changes nothing.
-/
namespace Sys2Proof.Machine

/-! ## States that agree but for what an access changes -/

theorem AgreeButAccess.refl (s : State) : AgreeButAccess s s := rfl

theorem AgreeButAccess.trans {s t u : State} (h1 : AgreeButAccess s t) (h2 : AgreeButAccess t u) :
    AgreeButAccess s u := by
  unfold AgreeButAccess at *
  rw [h2, h1]

theorem AgreeButAccess.takeException {s t : State} (h : AgreeButAccess s t) (e : Exc) :
    takeException t e = takeException s e := by
  rw [h]; exact State.withAccess_takeException s t.mem t.tlb t.draws e

theorem AgreeButAccess.mode {s t : State} (h : AgreeButAccess s t) : t.mode = s.mode := by rw [h]; rfl
theorem AgreeButAccess.cpl {s t : State} (h : AgreeButAccess s t) : t.cpl = s.cpl := by rw [h]; rfl
theorem AgreeButAccess.dflt {s t : State} (h : AgreeButAccess s t) : t.dflt = s.dflt := by rw [h]; rfl
theorem AgreeButAccess.gpr {s t : State} (h : AgreeButAccess s t) : t.gpr = s.gpr := by rw [h]
theorem AgreeButAccess.eip {s t : State} (h : AgreeButAccess s t) : t.eip = s.eip := by rw [h]
theorem AgreeButAccess.eflags {s t : State} (h : AgreeButAccess s t) : t.eflags = s.eflags := by rw [h]
theorem AgreeButAccess.seg {s t : State} (h : AgreeButAccess s t) : t.seg = s.seg := by rw [h]
theorem AgreeButAccess.gdtr {s t : State} (h : AgreeButAccess s t) : t.gdtr = s.gdtr := by rw [h]
theorem AgreeButAccess.ldtr {s t : State} (h : AgreeButAccess s t) : t.ldtr = s.ldtr := by rw [h]
theorem AgreeButAccess.cr0 {s t : State} (h : AgreeButAccess s t) : t.cr0 = s.cr0 := by rw [h]
theorem AgreeButAccess.cr3 {s t : State} (h : AgreeButAccess s t) : t.cr3 = s.cr3 := by rw [h]
theorem AgreeButAccess.cfg {s t : State} (h : AgreeButAccess s t) : t.cfg = s.cfg := by rw [h]
theorem AgreeButAccess.peJustSet {s t : State} (h : AgreeButAccess s t) : t.peJustSet = s.peJustSet := by rw [h]
theorem AgreeButAccess.programRights {s t : State} (h : AgreeButAccess s t) : t.programRights = s.programRights := by
  rw [h]; rfl

theorem State.quiet_unpaged {s : State} (hq : s.quiet = true) : s.unpaged = true := by
  simp only [State.quiet, Bool.and_eq_true] at hq; exact hq.1

theorem State.quiet_agents {s : State} (hq : s.quiet = true) : s.cfg.externalAgents = .absent := by
  simp only [State.quiet, Bool.and_eq_true, beq_iff_eq] at hq; exact hq.2

/-! ## Other agents -/

theorem State.agentsAct_absent {s : State} (h : s.cfg.externalAgents = .absent) : s.agentsAct = s := by
  unfold State.agentsAct; rw [h]

theorem State.agentsAct_agrees (s : State) : AgreeButAccess s s.agentsAct := by
  unfold State.agentsAct; split <;> rfl

theorem State.agentsAct_wf {s : State} (hm : Memory.wf s.mem = true) : Memory.wf s.agentsAct.mem = true := by
  unfold State.agentsAct
  split
  · exact hm
  · exact Memory.storeAll_wf _ _ hm

/-! ## The bus -/

theorem State.busStore_agrees (s : State) (pa : Dword) (b : Byte) : AgreeButAccess s (s.busStore pa b) :=
  s.agentsAct_agrees.trans rfl

theorem State.busRead_agrees (s : State) (pas : List Dword) : AgreeButAccess s (s.busRead pas).2 := by
  induction pas generalizing s with
  | nil => rfl
  | cons pa rest ih => exact s.agentsAct_agrees.trans (ih _)

theorem State.busWrite_agrees (s : State) (pas : List Dword) (v : Nat) : AgreeButAccess s (s.busWrite pas v) := by
  induction pas generalizing s v with
  | nil => rfl
  | cons pa rest ih => exact (s.busStore_agrees pa _).trans (ih _ _)

theorem State.busSetBits_agrees (s : State) (pa : Dword) (bits : Byte) : AgreeButAccess s (s.busSetBits pa bits) :=
  s.agentsAct_agrees.trans (State.busStore_agrees _ pa _)

theorem State.busStore_wf {s : State} (hm : Memory.wf s.mem = true) (pa : Dword) (b : Byte) :
    Memory.wf (s.busStore pa b).mem = true :=
  Memory.setByte_wf _ _ _ (State.agentsAct_wf hm)

theorem State.busRead_wf {s : State} (hm : Memory.wf s.mem = true) (pas : List Dword) :
    Memory.wf (s.busRead pas).2.mem = true := by
  induction pas generalizing s with
  | nil => exact hm
  | cons pa rest ih => exact ih (State.agentsAct_wf hm)

theorem State.busWrite_wf {s : State} (hm : Memory.wf s.mem = true) (pas : List Dword) (v : Nat) :
    Memory.wf (s.busWrite pas v).mem = true := by
  induction pas generalizing s v with
  | nil => exact hm
  | cons pa rest ih => exact ih (State.busStore_wf hm _ _) _

theorem State.busSetBits_wf {s : State} (hm : Memory.wf s.mem = true) (pa : Dword) (bits : Byte) :
    Memory.wf (s.busSetBits pa bits).mem = true :=
  State.busStore_wf (State.agentsAct_wf hm) _ _

/-- Without other agents a read is that of the bytes in memory, and changes nothing. -/
theorem State.busRead_absent {s : State} (h : s.cfg.externalAgents = .absent) (pas : List Dword) :
    s.busRead pas = (Memory.number s.mem pas, s) := by
  induction pas with
  | nil => rfl
  | cons pa rest ih => simp only [State.busRead, State.busByte, State.agentsAct_absent h, ih, Memory.number]

theorem State.busWrite_absent {s : State} (h : s.cfg.externalAgents = .absent) (pas : List Dword) (v : Nat) :
    s.busWrite pas v = { s with mem := Memory.setNumber s.mem pas v } := by
  induction pas generalizing s v with
  | nil => rfl
  | cons pa rest ih =>
    simp only [State.busWrite, State.busStore, State.agentsAct_absent h, Memory.setNumber]
    exact ih (s := { s with mem := Memory.setByte s.mem pa (BitVec.ofNat 8 v) }) h _

theorem State.busSetBits_absent {s : State} (h : s.cfg.externalAgents = .absent) (pa : Dword) (bits : Byte) :
    s.busSetBits pa bits = { s with mem := Memory.setBits s.mem pa bits } := by
  simp only [State.busSetBits, State.busByte, State.busStore, State.agentsAct_absent h, Memory.setBits]

/-! ## Translation -/

theorem State.busDword_absent {s : State} (h : s.cfg.externalAgents = .absent) (pa : Dword) :
    s.busDword pa = (Memory.dwordAt s.mem pa, s) := by
  simp only [State.busDword, State.busRead_absent h, number_consecutive_dword]

theorem State.readEntries_agrees (s : State) (la : Dword) (access : Access) (rights : Rights) :
    AgreeButAccess s (s.readEntries la access rights).2 :=
  (s.busRead_agrees _).trans (State.busRead_agrees _ _)

theorem State.readEntries_wf {s : State} (hm : Memory.wf s.mem = true) (la : Dword) (access : Access)
    (rights : Rights) : Memory.wf (s.readEntries la access rights).2.mem = true :=
  State.busRead_wf (State.busRead_wf hm _) _

/-- Without other agents the entries read are those in memory. -/
theorem State.readEntries_absent {s : State} (h : s.cfg.externalAgents = .absent) (la : Dword) (access : Access)
    (rights : Rights) : s.readEntries la access rights = (pageWalk s.mem s.cr3 la access rights, s) := by
  simp only [State.readEntries, State.busDword_absent h, pageWalk]

theorem State.markUsed_agrees (s : State) (w : PageWalk) (access : Access) : AgreeButAccess s (s.markUsed w access) :=
  (s.busSetBits_agrees _ _).trans (State.busSetBits_agrees _ _ _)

theorem State.markUsed_wf {s : State} (hm : Memory.wf s.mem = true) (w : PageWalk) (access : Access) :
    Memory.wf (s.markUsed w access).mem = true :=
  State.busSetBits_wf (State.busSetBits_wf hm _ _) _ _

theorem State.markUsed_absent {s : State} (h : s.cfg.externalAgents = .absent) (w : PageWalk) (access : Access) :
    s.markUsed w access = { s with mem := w.mark access s.mem } := by
  unfold State.markUsed
  rw [State.busSetBits_absent h, State.busSetBits_absent (by exact h)]
  rfl

/-- What a page walk that succeeds does: the entries read and marked, and the buffer's new entry. -/
theorem State.walkPage_ok {s t : State} {la pa : Dword} {access : Access} {rights : Rights}
    (h : s.walkPage la access rights = .ok (pa, t)) :
    ∃ w s1, s.readEntries la access rights = (.ok w, s1) ∧ pa = w.pa ∧
      t = { s1.markUsed w access with tlb := tlbInsert (w.entry la access) s.tlb } := by
  unfold State.walkPage at h
  split at h
  · rename_i w s1 hw; cases h; exact ⟨w, s1, hw, rfl, rfl⟩
  · simp [raise] at h

/-- Without other agents: the walk of the entries in memory. -/
theorem State.walkPage_ok_absent {s t : State} {la pa : Dword} {access : Access} {rights : Rights}
    (hx : s.cfg.externalAgents = .absent) (h : s.walkPage la access rights = .ok (pa, t)) :
    ∃ w, pageWalk s.mem s.cr3 la access rights = .ok w ∧ pa = w.pa ∧
      t = { s with mem := w.mark access s.mem, tlb := tlbInsert (w.entry la access) s.tlb } := by
  obtain ⟨w, s1, hw, rfl, rfl⟩ := State.walkPage_ok h
  rw [State.readEntries_absent hx, Prod.mk.injEq] at hw
  obtain ⟨hw, rfl⟩ := hw
  exact ⟨w, hw, rfl, by rw [State.markUsed_absent hx]⟩

theorem State.walkPage_agrees {s t : State} {la pa : Dword} {access : Access} {rights : Rights}
    (h : s.walkPage la access rights = .ok (pa, t)) : AgreeButAccess s t := by
  obtain ⟨w, s1, hw, -, rfl⟩ := State.walkPage_ok h
  have h1 := s.readEntries_agrees la access rights
  rw [hw] at h1
  exact (h1.trans (State.markUsed_agrees s1 w access)).trans rfl

theorem State.walkPage_wf {s t : State} {la pa : Dword} {access : Access} {rights : Rights}
    (h : s.walkPage la access rights = .ok (pa, t)) (hm : Memory.wf s.mem = true) : Memory.wf t.mem = true := by
  obtain ⟨w, s1, hw, -, rfl⟩ := State.walkPage_ok h
  have h1 := State.readEntries_wf hm la access rights
  rw [hw] at h1
  exact State.markUsed_wf h1 w access

theorem State.walkPage_fault {s : State} {la : Dword} {access : Access} {rights : Rights} {f : Fault}
    (h : s.walkPage la access rights = .error f) : ∃ code, f = Machine.takeException s (.pf code la) := by
  unfold State.walkPage at h
  split at h
  · cases h
  · simp only [raise, Except.error.injEq] at h; exact ⟨_, h.symm⟩

/-- What `Translate` can do where it succeeds: nothing; walk the page tables, perhaps after drawing a free value; or
use a stale entry of the buffer. -/
theorem State.translate_cases {s t : State} {la pa : Dword} {access : Access} {rights : Rights}
    (h : s.translate la access rights = .ok (pa, t)) :
    t = s ∨ (s.walks = true ∧
      ((∃ s0, (s0 = s ∨ s0 = s.drawn 1) ∧ s0.walkPage la access rights = .ok (pa, t)) ∨
      ∃ e, tlbFind s.tlb (pageOf la) = some e ∧ s.agreesWith e = false ∧
        accessDenied e.user e.writable access rights = false ∧ pa = e.frame ++ la.extractLsb' 0 12 ∧
        t = s.drawn 1)) := by
  unfold State.translate at h
  split at h
  · cases h; exact .inl rfl
  · split at h
    · cases h; exact .inl rfl
    · split at h
      · cases h; exact .inl rfl
      · simp [raise] at h
    · rename_i hcfg
      split at h
      · rename_i hon
        refine .inr ⟨by simp [State.walks, hcfg, hon], ?_⟩
        unfold State.pagedTranslate at h
        split at h
        · exact .inl ⟨s, .inl rfl, h⟩
        · rename_i e he
          split at h
          · exact .inl ⟨s, .inl rfl, h⟩
          · rename_i hcur
            split at h
            · unfold State.useEntry at h
              split at h
              · simp [raise] at h
              · rename_i hden
                split at h
                · exact .inl ⟨_, .inr rfl, h⟩
                · cases h
                  exact .inr ⟨e, he, by simpa using hcur, by simpa using hden, rfl, rfl⟩
            · exact .inl ⟨_, .inr rfl, h⟩
      · cases h; exact .inl rfl

theorem State.translate_agrees {s t : State} {la pa : Dword} {access : Access} {rights : Rights}
    (h : s.translate la access rights = .ok (pa, t)) : AgreeButAccess s t := by
  obtain rfl | ⟨-, ⟨s0, rfl | rfl, h1⟩ | ⟨e, -, -, -, -, rfl⟩⟩ := State.translate_cases h
  · rfl
  · exact State.walkPage_agrees h1
  · exact AgreeButAccess.trans (show AgreeButAccess s (s.drawn 1) from rfl) (State.walkPage_agrees h1)
  · rfl

theorem State.translate_wf {s t : State} {la pa : Dword} {access : Access} {rights : Rights}
    (h : s.translate la access rights = .ok (pa, t)) (hm : Memory.wf s.mem = true) : Memory.wf t.mem = true := by
  obtain rfl | ⟨-, ⟨s0, rfl | rfl, h1⟩ | ⟨e, -, -, -, -, rfl⟩⟩ := State.translate_cases h
  · exact hm
  · exact State.walkPage_wf h1 hm
  · exact State.walkPage_wf h1 hm
  · exact hm

/-- Where the page walk is not in force, a translation that succeeds changes nothing. -/
theorem State.translate_unwalked {s t : State} {la pa : Dword} {access : Access} {rights : Rights}
    (hw : s.walks = false) (h : s.translate la access rights = .ok (pa, t)) : t = s := by
  obtain rfl | ⟨hw', -⟩ := State.translate_cases h
  · rfl
  · simp [hw] at hw'

theorem State.translate_unpaged {s : State} (hu : s.unpaged = true) (la : Dword) (access : Access)
    (rights : Rights) : s.translate la access rights = .ok (la, s) := by
  unfold State.translate
  split
  · rfl
  · rename_i hmode
    simp only [State.unpaged, Bool.or_eq_true, beq_iff_eq, Bool.and_eq_true, Bool.not_eq_true'] at hu
    rcases hu with (hu | hu) | hu
    · exact absurd hu hmode
    · rw [hu]
    · rw [hu.1]; simp [hu.2]

theorem drawn_takeException (s : State) (n : Nat) (e : Exc) : takeException (s.drawn n) e = takeException s e := by
  cases e <;> rfl

theorem drawn_fault {s : State} {la : Dword} {f : Fault}
    (h : ∃ code, f = takeException (s.drawn 1) (.pf code la)) : ∃ code, f = takeException s (.pf code la) := by
  simpa only [drawn_takeException] using h

/-- An exception of a translation: #PF with the linear address. -/
theorem State.translate_fault {s : State} {la : Dword} {access : Access} {rights : Rights} {f : Fault}
    (h : s.translate la access rights = .error f) :
    s.mode ≠ .real ∧ ∃ code, f = Machine.takeException s (.pf code la) := by
  unfold State.translate at h
  split at h
  · cases h
  · rename_i hmode
    refine ⟨hmode, ?_⟩
    split at h
    · cases h
    · split at h
      · cases h
      · simp only [raise, Except.error.injEq] at h; exact ⟨_, h.symm⟩
    · split at h
      · unfold State.pagedTranslate at h
        split at h
        · exact State.walkPage_fault h
        · split at h
          · exact State.walkPage_fault h
          · split at h
            · unfold State.useEntry at h
              split at h
              · simp only [raise, Except.error.injEq] at h; exact ⟨_, h.symm⟩
              · split at h
                · exact drawn_fault (State.walkPage_fault h)
                · cases h
            · exact drawn_fault (State.walkPage_fault h)
      · cases h

theorem number_consecutive (m : Memory) (pa : Dword) (n : Nat) :
    Memory.number m (consecutive pa n) = Memory.item m pa n := by
  induction n generalizing pa with
  | zero => rfl
  | succ n ih => simp only [consecutive, Memory.number, Memory.item, ih]

theorem State.translateRange_cons {s t : State} {la : Dword} {access : Access} {rights : Rights} {n : Nat}
    {pas : List Dword} (h : s.translateRange la access rights (n + 1) = .ok (pas, t)) :
    ∃ pa s1 rest, s.translate la access rights = .ok (pa, s1) ∧
      s1.translateRange (la + 1#32) access rights n = .ok (rest, t) ∧ pas = pa :: rest := by
  unfold State.translateRange at h
  split at h
  · cases h
  · rename_i pa s1 h1
    split at h
    · cases h
    · rename_i rest s2 h2
      cases h
      exact ⟨pa, s1, rest, h1, h2, rfl⟩

theorem State.translateRange_agrees {s t : State} {la : Dword} {access : Access} {rights : Rights} {n : Nat}
    {pas : List Dword} (h : s.translateRange la access rights n = .ok (pas, t)) : AgreeButAccess s t := by
  induction n generalizing s la pas with
  | zero => cases h; rfl
  | succ n ih =>
    obtain ⟨pa, s1, rest, h1, h2, -⟩ := State.translateRange_cons h
    exact (State.translate_agrees h1).trans (ih h2)

theorem State.translateRange_wf {s t : State} {la : Dword} {access : Access} {rights : Rights} {n : Nat}
    {pas : List Dword} (h : s.translateRange la access rights n = .ok (pas, t)) (hm : Memory.wf s.mem = true) :
    Memory.wf t.mem = true := by
  induction n generalizing s la pas with
  | zero => cases h; exact hm
  | succ n ih =>
    obtain ⟨pa, s1, rest, h1, h2, -⟩ := State.translateRange_cons h
    exact ih h2 (State.translate_wf h1 hm)

theorem State.translateRange_unpaged {s : State} (hu : s.unpaged = true) (la : Dword) (access : Access)
    (rights : Rights) (n : Nat) : s.translateRange la access rights n = .ok (consecutive la n, s) := by
  induction n generalizing la with
  | zero => rfl
  | succ n ih => simp only [State.translateRange, State.translate_unpaged hu, ih, consecutive]

theorem State.translateRange_fault {s : State} {la : Dword} {access : Access} {rights : Rights} {n : Nat}
    {f : Fault} (h : s.translateRange la access rights n = .error f) :
    s.mode ≠ .real ∧ ∃ code la', f = Machine.takeException s (.pf code la') := by
  induction n generalizing s la with
  | zero => cases h
  | succ n ih =>
    unfold State.translateRange at h
    split at h
    · rename_i f' h1
      cases h
      obtain ⟨hm, code, hc⟩ := State.translate_fault h1
      exact ⟨hm, code, la, hc⟩
    · rename_i pa s1 h1
      have hag := State.translate_agrees h1
      split at h
      · rename_i f' h2
        cases h
        obtain ⟨hm, code, la', hc⟩ := ih h2
        exact ⟨by rwa [hag.mode] at hm, code, la', by rw [hc, hag.takeException]⟩
      · cases h

/-! ## Linear access -/

theorem State.linRead_ok {s t : State} {la : Dword} {n : Nat} {access : Access} {rights : Rights} {v : Nat}
    (h : s.linRead la n access rights = .ok (v, t)) :
    ∃ pas s1, s.translateRange la access rights n = .ok (pas, s1) ∧ s1.busRead pas = (v, t) := by
  unfold State.linRead at h
  split at h
  · cases h
  · rename_i pas s1 h1
    exact ⟨pas, s1, h1, Except.ok.inj h⟩

/-- Without other agents a linear read changes what its translation changes, and answers the bytes there. -/
theorem State.linRead_ok_absent {s t : State} {la : Dword} {n : Nat} {access : Access} {rights : Rights} {v : Nat}
    (hx : s.cfg.externalAgents = .absent) (h : s.linRead la n access rights = .ok (v, t)) :
    ∃ pas, s.translateRange la access rights n = .ok (pas, t) ∧ v = Memory.number t.mem pas := by
  obtain ⟨pas, s1, h1, h2⟩ := State.linRead_ok h
  rw [State.busRead_absent (by rw [(State.translateRange_agrees h1).cfg]; exact hx), Prod.mk.injEq] at h2
  obtain ⟨rfl, rfl⟩ := h2
  exact ⟨pas, h1, rfl⟩

theorem State.linRead_agrees {s t : State} {la : Dword} {n : Nat} {access : Access} {rights : Rights} {v : Nat}
    (h : s.linRead la n access rights = .ok (v, t)) : AgreeButAccess s t := by
  obtain ⟨pas, s1, h1, h2⟩ := State.linRead_ok h
  have h3 := s1.busRead_agrees pas
  rw [h2] at h3
  exact (State.translateRange_agrees h1).trans h3

theorem State.linRead_wf {s t : State} {la : Dword} {n : Nat} {access : Access} {rights : Rights} {v : Nat}
    (h : s.linRead la n access rights = .ok (v, t)) (hm : Memory.wf s.mem = true) : Memory.wf t.mem = true := by
  obtain ⟨pas, s1, h1, h2⟩ := State.linRead_ok h
  have h3 := State.busRead_wf (State.translateRange_wf h1 hm) pas
  rw [h2] at h3
  exact h3

theorem State.linRead_unpaged {s : State} (hu : s.unpaged = true) (la : Dword) (n : Nat) (access : Access)
    (rights : Rights) : s.linRead la n access rights = .ok (s.busRead (consecutive la n)) := by
  simp only [State.linRead, State.translateRange_unpaged hu]

theorem State.linRead_quiet {s : State} (hq : s.quiet = true) (la : Dword) (n : Nat) (access : Access)
    (rights : Rights) : s.linRead la n access rights = .ok (Memory.item s.mem la n, s) := by
  rw [State.linRead_unpaged (State.quiet_unpaged hq), State.busRead_absent (State.quiet_agents hq),
    number_consecutive]

theorem State.linRead_fault {s : State} {la : Dword} {n : Nat} {access : Access} {rights : Rights} {f : Fault}
    (h : s.linRead la n access rights = .error f) :
    s.mode ≠ .real ∧ ∃ code la', f = Machine.takeException s (.pf code la') := by
  unfold State.linRead at h
  split at h
  · rename_i f' h1
    cases h
    exact State.translateRange_fault h1
  · cases h

theorem State.linWrite_ok {s t : State} {la : Dword} {n v : Nat} {rights : Rights}
    (h : s.linWrite la n v rights = .ok t) :
    ∃ pas s1, s.translateRange la .write rights n = .ok (pas, s1) ∧ t = s1.busWrite pas v := by
  unfold State.linWrite at h
  split at h
  · cases h
  · rename_i pas s1 h1
    cases h
    exact ⟨pas, s1, h1, rfl⟩

theorem State.linWrite_agrees {s t : State} {la : Dword} {n v : Nat} {rights : Rights}
    (h : s.linWrite la n v rights = .ok t) : AgreeButAccess s t := by
  obtain ⟨pas, s1, h1, rfl⟩ := State.linWrite_ok h
  exact (State.translateRange_agrees h1).trans (s1.busWrite_agrees pas v)

theorem State.linWrite_wf {s t : State} {la : Dword} {n v : Nat} {rights : Rights}
    (h : s.linWrite la n v rights = .ok t) (hm : Memory.wf s.mem = true) : Memory.wf t.mem = true := by
  obtain ⟨pas, s1, h1, rfl⟩ := State.linWrite_ok h
  exact State.busWrite_wf (State.translateRange_wf h1 hm) pas v

theorem State.linWrite_unpaged {s : State} (hu : s.unpaged = true) (la : Dword) (n v : Nat) (rights : Rights) :
    s.linWrite la n v rights = .ok (s.busWrite (consecutive la n) v) := by
  simp only [State.linWrite, State.translateRange_unpaged hu]

theorem State.linWrite_quiet {s : State} (hq : s.quiet = true) (la : Dword) (n v : Nat) (rights : Rights) :
    s.linWrite la n v rights = .ok { s with mem := Memory.setNumber s.mem (consecutive la n) v } := by
  rw [State.linWrite_unpaged (State.quiet_unpaged hq), State.busWrite_absent (State.quiet_agents hq)]

theorem State.linWrite_fault {s : State} {la : Dword} {n v : Nat} {rights : Rights} {f : Fault}
    (h : s.linWrite la n v rights = .error f) :
    s.mode ≠ .real ∧ ∃ code la', f = Machine.takeException s (.pf code la') := by
  unfold State.linWrite at h
  split at h
  · rename_i f' h1
    cases h
    exact State.translateRange_fault h1
  · cases h

/-! ## Segment-relative access -/

theorem State.segRead_ok {s t : State} {k : SegReg} {off : Dword} {n v : Nat}
    (h : s.segRead k off n = .ok (v, t)) :
    s.segOk k off n = true ∧ s.linRead ((s.seg.get k).base + off) n .read s.programRights = .ok (v, t) := by
  unfold State.segRead at h
  split at h
  · rename_i hok; exact ⟨hok, h⟩
  · simp [raise] at h

theorem State.segRead_agrees {s t : State} {k : SegReg} {off : Dword} {n v : Nat}
    (h : s.segRead k off n = .ok (v, t)) : AgreeButAccess s t :=
  State.linRead_agrees (State.segRead_ok h).2

theorem State.segRead_wf {s t : State} {k : SegReg} {off : Dword} {n v : Nat}
    (h : s.segRead k off n = .ok (v, t)) (hm : Memory.wf s.mem = true) : Memory.wf t.mem = true :=
  State.linRead_wf (State.segRead_ok h).2 hm

theorem State.segRead_quiet {s : State} (hq : s.quiet = true) (k : SegReg) (off : Dword) (n : Nat)
    (hok : s.segOk k off n = true) :
    s.segRead k off n = .ok (Memory.item s.mem ((s.seg.get k).base + off) n, s) := by
  simp only [State.segRead, hok, if_true, State.linRead_quiet hq]

/-- An exception of a segment-relative read: that of the segment, or #PF outside Real Address Mode. -/
theorem State.segRead_fault {s : State} {k : SegReg} {off : Dword} {n : Nat} {f : Fault}
    (h : s.segRead k off n = .error f) :
    f = Machine.takeException s (s.segFault k) ∨
      (s.mode ≠ .real ∧ ∃ code la, f = Machine.takeException s (.pf code la)) := by
  unfold State.segRead at h
  split at h
  · exact .inr (State.linRead_fault h)
  · simp only [raise, Except.error.injEq] at h; exact .inl h.symm

/-- What a read answers that may not pass offset FFFFh of a 16-bit address. -/
theorem State.segReadTo_ok {s t : State} {k : SegReg} {a : Size} {off : Dword} {n v : Nat}
    (h : s.segReadTo k a off n = .ok (v, t)) : passesFFFF a off n = false ∧ s.segRead k off n = .ok (v, t) := by
  unfold State.segReadTo at h
  split at h
  · simp [raise] at h
  · rename_i hp; exact ⟨by simpa using hp, h⟩

/-- Its exceptions are those of the segment-relative read. -/
theorem State.segReadTo_fault {s : State} {k : SegReg} {a : Size} {off : Dword} {n : Nat} {f : Fault}
    (h : s.segReadTo k a off n = .error f) :
    f = Machine.takeException s (s.segFault k) ∨ s.segRead k off n = .error f := by
  unfold State.segReadTo at h
  split at h
  · simp only [raise, Except.error.injEq] at h; exact .inl h.symm
  · exact .inr h

/-- What reading a 16-bit source can answer. -/
theorem State.readSelector_agrees {s t : State} {p : Prefixes} {rm : RegMem} {sel : Word}
    (h : s.readSelector p rm = .ok (sel, t)) : AgreeButAccess s t := by
  unfold State.readSelector at h
  split at h
  · cases h; rfl
  · split at h
    · cases h
    · rename_i v s1 h1
      cases h
      exact State.segRead_agrees h1

theorem State.readSelector_wf {s t : State} {p : Prefixes} {rm : RegMem} {sel : Word}
    (h : s.readSelector p rm = .ok (sel, t)) (hm : Memory.wf s.mem = true) : Memory.wf t.mem = true := by
  unfold State.readSelector at h
  split at h
  · cases h; exact hm
  · split at h
    · cases h
    · rename_i v s1 h1
      cases h
      exact State.segRead_wf h1 hm

/-! ## Descriptors -/

/-- What reading a descriptor can answer: nothing where the selector is out of its table, else the two
doublewords at its linear address. -/
theorem State.readDesc_ok {s t : State} {sel : Word} {r : Option Desc} (h : s.readDesc sel = .ok (r, t)) :
    (s.descAddress sel = none ∧ r = none ∧ t = s) ∨
    (∃ la d, s.descAddress sel = some la ∧ r = some d ∧ d.la = la ∧ AgreeButAccess s t ∧
      (Memory.wf s.mem = true → Memory.wf t.mem = true)) := by
  unfold State.readDesc at h
  split at h
  · rename_i hn
    cases h
    exact .inl ⟨hn, rfl, rfl⟩
  · rename_i la hla
    split at h
    · cases h
    · rename_i lo s1 h1
      split at h
      · cases h
      · rename_i hi s2 h2
        cases h
        exact .inr ⟨la, _, hla, rfl, rfl, (State.linRead_agrees h1).trans (State.linRead_agrees h2),
          fun hm => State.linRead_wf h2 (State.linRead_wf h1 hm)⟩

theorem State.readDesc_agrees {s t : State} {sel : Word} {r : Option Desc} (h : s.readDesc sel = .ok (r, t)) :
    AgreeButAccess s t := by
  rcases State.readDesc_ok h with ⟨-, -, rfl⟩ | ⟨la, d, -, -, -, ha, -⟩
  · rfl
  · exact ha

theorem State.readDesc_wf {s t : State} {sel : Word} {r : Option Desc} (h : s.readDesc sel = .ok (r, t))
    (hm : Memory.wf s.mem = true) : Memory.wf t.mem = true := by
  rcases State.readDesc_ok h with ⟨-, -, rfl⟩ | ⟨la, d, -, -, -, -, hw⟩
  · exact hm
  · exact hw hm

theorem State.readDesc_fault {s : State} {sel : Word} {f : Fault} (h : s.readDesc sel = .error f) :
    s.mode ≠ .real ∧ ∃ code la, f = Machine.takeException s (.pf code la) := by
  unfold State.readDesc at h
  split at h
  · cases h
  · split at h
    · rename_i f' h1
      cases h
      exact State.linRead_fault h1
    · rename_i lo s1 h1
      have hag := State.linRead_agrees h1
      split at h
      · rename_i f' h2
        cases h
        obtain ⟨hm, code, la', hc⟩ := State.linRead_fault h2
        exact ⟨by rwa [hag.mode] at hm, code, la', by rw [hc, hag.takeException]⟩
      · cases h

/-- The descriptor that a selector names in a state that is quiet. -/
def State.descAt (s : State) (la : Dword) : Desc where
  lo := BitVec.ofNat 32 (Memory.item s.mem la 4)
  hi := BitVec.ofNat 32 (Memory.item s.mem (la + 4#32) 4)
  la := la

theorem State.readDesc_quiet {s : State} (hq : s.quiet = true) (sel : Word) :
    s.readDesc sel = .ok ((s.descAddress sel).map s.descAt, s) := by
  unfold State.readDesc
  split
  · rename_i h; rw [h]; rfl
  · rename_i la h
    simp only [h, State.linRead_quiet hq, Option.map, State.descAt]

/-- What the selector test can answer. -/
theorem State.query_agrees {s t : State} {sel : Word} {valid : Bool → BitVec 4 → Bool} {r : Option Desc}
    (h : s.query sel valid = .ok (r, t)) : AgreeButAccess s t := by
  unfold State.query at h
  split at h
  · cases h; rfl
  · split at h
    · cases h
    · rename_i s1 h1; cases h; exact State.readDesc_agrees h1
    · rename_i d s1 h1
      split at h <;> (cases h; exact State.readDesc_agrees h1)

theorem State.query_wf {s t : State} {sel : Word} {valid : Bool → BitVec 4 → Bool} {r : Option Desc}
    (h : s.query sel valid = .ok (r, t)) (hm : Memory.wf s.mem = true) : Memory.wf t.mem = true := by
  unfold State.query at h
  split at h
  · cases h; exact hm
  · split at h
    · cases h
    · rename_i s1 h1; cases h; exact State.readDesc_wf h1 hm
    · rename_i d s1 h1
      split at h <;> (cases h; exact State.readDesc_wf h1 hm)

/-- The selector test raises nothing but #PF (R211). -/
theorem State.query_fault {s : State} {sel : Word} {valid : Bool → BitVec 4 → Bool} {f : Fault}
    (h : s.query sel valid = .error f) :
    s.mode ≠ .real ∧ ∃ code la, f = Machine.takeException s (.pf code la) := by
  unfold State.query at h
  split at h
  · cases h
  · split at h
    · rename_i f' h1; cases h; exact State.readDesc_fault h1
    · cases h
    · split at h <;> cases h

/-- What fetching a descriptor with its checks can answer: a descriptor in its table that passes them. -/
theorem State.fetchDesc_ok {s t : State} {sel : Word} {refusal : Desc → Option Exc} {d : Desc}
    (h : s.fetchDesc sel refusal = .ok (d, t)) : s.readDesc sel = .ok (some d, t) ∧ refusal d = none := by
  unfold State.fetchDesc at h
  split at h
  · cases h
  · simp [raise] at h
  · rename_i d' s1 h1
    split at h
    · simp [raise] at h
    · rename_i hn; cases h; exact ⟨h1, hn⟩

/-- The exceptions of fetching a descriptor: #PF, #GP(selector) outside the table, or the failing check's. -/
theorem State.fetchDesc_fault {s : State} {sel : Word} {refusal : Desc → Option Exc} {f : Fault}
    (h : s.fetchDesc sel refusal = .error f) :
    (s.mode ≠ .real ∧ ∃ code la, f = Machine.takeException s (.pf code la)) ∨
      f = Machine.takeException s (.gp (selectorCode sel)) ∨
      ∃ d e, refusal d = some e ∧ f = Machine.takeException s e := by
  unfold State.fetchDesc at h
  split at h
  · rename_i f' h1; cases h; exact .inl (State.readDesc_fault h1)
  · simp only [raise, Except.error.injEq] at h; exact .inr (.inl h.symm)
  · rename_i d' s1 h1
    split at h
    · rename_i e he
      simp only [raise, Except.error.injEq] at h; exact .inr (.inr ⟨d', e, he, h.symm⟩)
    · cases h

/-! ## Loading a segment register -/

theorem State.setAccessed_agrees {s t : State} {d : Desc} (h : s.setAccessed d = .ok t) : AgreeButAccess s t := by
  unfold State.setAccessed at h
  split at h
  · exact State.linWrite_agrees h
  · cases h; rfl

theorem State.setAccessed_wf {s t : State} {d : Desc} (h : s.setAccessed d = .ok t)
    (hm : Memory.wf s.mem = true) : Memory.wf t.mem = true := by
  unfold State.setAccessed at h
  split at h
  · exact State.linWrite_wf h hm
  · cases h; exact hm

theorem State.setAccessed_fault {s : State} {d : Desc} {f : Fault} (h : s.setAccessed d = .error f) :
    s.mode ≠ .real ∧ ∃ code la, f = Machine.takeException s (.pf code la) := by
  unfold State.setAccessed at h
  split at h
  · exact State.linWrite_fault h
  · cases h

/-- What the checks of a segment load can answer: no descriptor for a null selector (not into SS), or one that
passes the checks of R272 or R273. -/
theorem State.checkSegment_ok {s t : State} {k : SegReg} {sel : Word} {r : Option Desc}
    (h : s.checkSegment k sel = .ok (r, t)) :
    (isNull sel = true ∧ k ≠ .ss ∧ r = none ∧ t = s) ∨
    (isNull sel = false ∧ ∃ d, r = some d ∧ s.readDesc sel = .ok (some d, t) ∧
      (if k = .ss then ssRefusal s.cpl sel d else dataRefusal s.cpl sel d) = none) := by
  unfold State.checkSegment at h
  split at h
  · rename_i hnull
    split at h
    · simp [raise] at h
    · rename_i hk; cases h; exact .inl ⟨hnull, hk, rfl, rfl⟩
  · rename_i hnull
    split at h
    · cases h
    · rename_i d s1 h1
      cases h
      obtain ⟨h2, h3⟩ := State.fetchDesc_ok h1
      refine .inr ⟨by simpa using hnull, d, rfl, h2, ?_⟩
      split at h3
      · rename_i hk; simpa [hk] using h3
      · rename_i hk; simpa [hk] using h3

/-- What loading a segment register can answer: outside Protected Mode the real-mode form; in it a null selector
(not into SS), or a descriptor that passes its checks, with its Accessed bit set. -/
theorem State.loadSegment_ok {s t : State} {k : SegReg} {sel : Word} (h : s.loadSegment k sel = .ok t) :
    (s.mode ≠ .prot ∧ t = s.setSeg k ((s.seg.get k).loadReal (s.mode = .v86) sel)) ∨
    (s.mode = .prot ∧ isNull sel = true ∧ k ≠ .ss ∧ t = s.setSeg k ((s.seg.get k).loadNull sel)) ∨
    (s.mode = .prot ∧ isNull sel = false ∧ ∃ d s1 s2, s.readDesc sel = .ok (some d, s1) ∧
      (if k = .ss then ssRefusal s.cpl sel d else dataRefusal s.cpl sel d) = none ∧
      s1.setAccessed d = .ok s2 ∧ t = s2.setSeg k (SegCache.ofDesc sel d)) := by
  unfold State.loadSegment at h
  split at h
  · rename_i hmode
    split at h
    · cases h
    · rename_i s1 h1
      cases h
      rcases State.checkSegment_ok h1 with ⟨hn, hk, -, rfl⟩ | ⟨-, d, hd, -, -⟩
      · exact .inr (.inl ⟨hmode, hn, hk, rfl⟩)
      · cases hd
    · rename_i d s1 h1
      split at h
      · cases h
      · rename_i s2 h2
        cases h
        rcases State.checkSegment_ok h1 with ⟨-, -, hd, -⟩ | ⟨hn, d', hd, hr, hc⟩
        · cases hd
        · cases hd
          exact .inr (.inr ⟨hmode, hn, d, s1, s2, hr, hc, h2, rfl⟩)
  · rename_i hmode
    cases h
    exact .inl ⟨hmode, rfl⟩

/-- A segment load changes nothing but what an access can, and the one segment register. -/
theorem State.loadSegment_frame {s t : State} {k : SegReg} {sel : Word} (h : s.loadSegment k sel = .ok t) :
    t = { s with mem := t.mem, tlb := t.tlb, draws := t.draws, seg := s.seg.set k (t.seg.get k) } := by
  rcases State.loadSegment_ok h with ⟨-, rfl⟩ | ⟨-, -, -, rfl⟩ | ⟨-, -, d, s1, s2, hr, -, ha, rfl⟩
  · simp [State.setSeg]
  · simp [State.setSeg]
  · have h2 : AgreeButAccess s s2 := (State.readDesc_agrees hr).trans (State.setAccessed_agrees ha)
    rw [h2]
    simp [State.setSeg]

theorem State.loadSegment_wf {s t : State} {k : SegReg} {sel : Word} (h : s.loadSegment k sel = .ok t)
    (hm : Memory.wf s.mem = true) : Memory.wf t.mem = true := by
  rcases State.loadSegment_ok h with ⟨-, rfl⟩ | ⟨-, -, -, rfl⟩ | ⟨-, -, d, s1, s2, hr, -, ha, rfl⟩
  · exact hm
  · exact hm
  · show Memory.wf s2.mem = true
    exact State.setAccessed_wf ha (State.readDesc_wf hr hm)

end Sys2Proof.Machine
end

