-- ==== Sys2Proof/Laws/Decode.lean ====
section
/-!
SUPPORT. The parts of the encoding: fields joined and taken apart, prefix bytes read back, operands read back; and
that a parse depends only on the bytes it reads.
-/
namespace Sys2Proof

/-! ## Fields -/

@[simp] theorem Gpr.ofBits_toBits (r : Gpr) : Gpr.ofBits r.toBits = r := by cases r <;> rfl
@[simp] theorem Base16.ofBits_toBits (b : Base16) : Base16.ofBits b.toBits = b := by cases b <;> rfl
@[simp] theorem Scale.ofBits_toBits (f : Scale) : Scale.ofBits f.toBits = f := by cases f <;> rfl

theorem joinFields_fields : ∀ (hi : BitVec 2) (mid lo : BitVec 3),
    field76 (joinFields hi mid lo) = hi ∧ field53 (joinFields hi mid lo) = mid ∧
      field20 (joinFields hi mid lo) = lo := by decide

@[simp] theorem field76_joinFields (hi : BitVec 2) (mid lo : BitVec 3) : field76 (joinFields hi mid lo) = hi :=
  (joinFields_fields hi mid lo).1
@[simp] theorem field53_joinFields (hi : BitVec 2) (mid lo : BitVec 3) : field53 (joinFields hi mid lo) = mid :=
  (joinFields_fields hi mid lo).2.1
@[simp] theorem field20_joinFields (hi : BitVec 2) (mid lo : BitVec 3) : field20 (joinFields hi mid lo) = lo :=
  (joinFields_fields hi mid lo).2.2

@[simp] theorem takeByte_cons (b : Byte) (rest : List Byte) : takeByte (b :: rest) = .ok b rest := rfl

theorem word_of_bytes (w : Word) : (w.extractLsb' 8 8 ++ w.extractLsb' 0 8 : Word) = w := by
  apply BitVec.eq_of_getLsbD_eq
  intro j hj
  have h := BitVec.getLsbD_append (x := w.extractLsb' 8 8) (y := w.extractLsb' 0 8) (i := j)
  refine h.trans ?_
  by_cases h8 : j < 8
  · simp [h8]
  · simp [h8, show j - 8 < 8 by omega, show 8 + (j - 8) = j by omega]

theorem dword_of_bytes (d : Dword) :
    ((d.extractLsb' 24 8 ++ d.extractLsb' 16 8) ++ (d.extractLsb' 8 8 ++ d.extractLsb' 0 8) : Dword) = d := by
  apply BitVec.eq_of_getLsbD_eq
  intro j hj
  have h := BitVec.getLsbD_append (x := d.extractLsb' 24 8 ++ d.extractLsb' 16 8)
    (y := d.extractLsb' 8 8 ++ d.extractLsb' 0 8) (i := j)
  have hl := BitVec.getLsbD_append (x := d.extractLsb' 8 8) (y := d.extractLsb' 0 8) (i := j)
  have hh := BitVec.getLsbD_append (x := d.extractLsb' 24 8) (y := d.extractLsb' 16 8) (i := j - 16)
  refine h.trans ?_
  rw [hl, hh]
  by_cases h16 : j < 16
  · by_cases h8 : j < 8
    · simp [h16, h8]
    · simp [h16, h8, show j - 8 < 8 by omega, show 8 + (j - 8) = j by omega]
  · by_cases h24 : j - 16 < 8
    · simp [h16, h24, show 16 + (j - 16) = j by omega]
    · simp [h16, h24, show j - 16 - 8 < 8 by omega, show 24 + (j - 16 - 8) = j by omega]

@[simp] theorem takeWord_wordBytes (w : Word) (rest : List Byte) :
    takeWord (wordBytes w ++ rest) = .ok w rest := by
  simp only [wordBytes, List.cons_append, List.nil_append, takeWord, word_of_bytes]

@[simp] theorem takeDword_dwordBytes (d : Dword) (rest : List Byte) :
    takeDword (dwordBytes d ++ rest) = .ok d rest := by
  simp only [dwordBytes, List.cons_append, List.nil_append, takeDword, dword_of_bytes]

@[simp] theorem parseDisp16_bytes (d : Disp16) (rest : List Byte) :
    parseDisp16 d.mod (d.bytes ++ rest) = .ok d rest := by
  cases d
  · rfl
  · rfl
  · rename_i w
    exact congrArg (fun x => Parse.andThen x fun d r => Parse.ok (Disp16.disp16 d) r) (takeWord_wordBytes w rest)

@[simp] theorem parseDisp32_bytes (d : Disp32) (rest : List Byte) :
    parseDisp32 d.mod (d.bytes ++ rest) = .ok d rest := by
  cases d
  · rfl
  · rfl
  · rename_i w
    exact congrArg (fun x => Parse.andThen x fun d r => Parse.ok (Disp32.disp32 d) r) (takeDword_dwordBytes w rest)

theorem Disp16.mod_eq_zero (d : Disp16) : d.mod = 0#2 ↔ d = .zero := by cases d <;> simp [Disp16.mod]
theorem Disp32.mod_eq_zero (d : Disp32) : d.mod = 0#2 ↔ d = .zero := by cases d <;> simp [Disp32.mod]
theorem Disp16.mod_ne_three (d : Disp16) : d.mod ≠ 3#2 := by cases d <;> simp [Disp16.mod]
theorem Disp32.mod_ne_three (d : Disp32) : d.mod ≠ 3#2 := by cases d <;> simp [Disp32.mod]
theorem Base16.toBits_eq_six (b : Base16) : b.toBits = 6#3 ↔ b = .bp := by cases b <;> simp [Base16.toBits]
theorem Gpr.toBits_eq_four (r : Gpr) : r.toBits = 4#3 ↔ r = .esp := by cases r <;> simp [Gpr.toBits]
theorem Gpr.toBits_eq_five (r : Gpr) : r.toBits = 5#3 ↔ r = .ebp := by cases r <;> simp [Gpr.toBits]

/-! ## Operands -/

theorem parseMem16_bytes (m : MemOp) (rest : List Byte) (h : m.wf .w16 = true) :
    parseMem16 m.mod m.rm (m.tail ++ rest) = .ok m rest := by
  simp only [MemOp.wf, Bool.and_eq_true, beq_iff_eq] at h
  obtain ⟨hs, hsh⟩ := h
  cases m <;> simp only [MemOp.size, reduceCtorEq] at hs
  · rename_i b d
    have hn : ¬ (d.mod = 0#2 ∧ b.toBits = 6#3) := by
      rw [Disp16.mod_eq_zero, Base16.toBits_eq_six]
      simp only [MemOp.shapeOk, Bool.not_eq_true', Bool.and_eq_false_iff, beq_eq_false_iff_ne] at hsh
      rintro ⟨rfl, rfl⟩
      simp at hsh
    simp only [parseMem16, MemOp.mod, MemOp.rm, MemOp.tail, hn, if_false, parseDisp16_bytes, Parse.andThen,
      Base16.ofBits_toBits]
  · simp only [parseMem16, MemOp.mod, MemOp.rm, MemOp.tail, and_self, if_true, takeWord_wordBytes, Parse.andThen]

theorem withIndex_sibByte (base : BitVec 3) (x : Option (Gpr × Scale)) (make : Option (Gpr × Scale) → MemOp)
    (rest : List Byte) (h : indexOk x = true) : withIndex (sibByte base x) make rest = .ok (make x) rest := by
  cases x with
  | none => simp [withIndex, sibByte]
  | some rf =>
    obtain ⟨r, f⟩ := rf
    have hr : r.toBits ≠ 4#3 := by
      rw [Ne, Gpr.toBits_eq_four]; simpa [indexOk] using h
    simp [withIndex, sibByte, hr]

theorem field20_sibByte (base : BitVec 3) (x : Option (Gpr × Scale)) : field20 (sibByte base x) = base := by
  cases x <;> simp [sibByte]

theorem parseMem32_bytes (m : MemOp) (rest : List Byte) (h : m.wf .w32 = true) :
    parseMem32 m.mod m.rm (m.tail ++ rest) = .ok m rest := by
  simp only [MemOp.wf, Bool.and_eq_true, beq_iff_eq] at h
  obtain ⟨hs, hsh⟩ := h
  cases m <;> simp only [MemOp.size, reduceCtorEq] at hs
  · rename_i b d
    simp only [MemOp.shapeOk, Bool.and_eq_true, bne_iff_ne, ne_eq, Bool.not_eq_true', Bool.and_eq_false_iff,
      beq_eq_false_iff_ne] at hsh
    have h4 : b.toBits ≠ 4#3 := by rw [Ne, Gpr.toBits_eq_four]; exact hsh.1
    have h5 : ¬ (d.mod = 0#2 ∧ b.toBits = 5#3) := by
      rw [Disp32.mod_eq_zero, Gpr.toBits_eq_five]; rintro ⟨rfl, rfl⟩; simp at hsh
    simp only [parseMem32, MemOp.mod, MemOp.rm, MemOp.tail, h4, h5, if_false, parseDisp32_bytes, Parse.andThen,
      Gpr.ofBits_toBits]
  · simp only [parseMem32, MemOp.mod, MemOp.rm, MemOp.tail]
    simp only [show (5#3 : BitVec 3) ≠ 4#3 by decide, and_self, if_true, if_false, takeDword_dwordBytes, Parse.andThen]
  · rename_i b x d
    simp only [MemOp.shapeOk, Bool.and_eq_true, Bool.not_eq_true', Bool.and_eq_false_iff,
      beq_eq_false_iff_ne] at hsh
    have h5 : ¬ (b.toBits = 5#3 ∧ d.mod = 0#2) := by
      rw [Disp32.mod_eq_zero, Gpr.toBits_eq_five]; rintro ⟨rfl, rfl⟩; simp at hsh
    simp only [parseMem32, MemOp.mod, MemOp.rm, MemOp.tail, if_true, List.cons_append, takeByte_cons,
      Parse.andThen, parseSib, field20_sibByte, h5, if_false, parseDisp32_bytes, Gpr.ofBits_toBits]
    exact withIndex_sibByte b.toBits x _ rest hsh.1
  · rename_i x d
    simp only [parseMem32, MemOp.mod, MemOp.rm, MemOp.tail, if_true, List.cons_append, takeByte_cons,
      Parse.andThen, parseSib, field20_sibByte, and_self, takeDword_dwordBytes]
    exact withIndex_sibByte 5#3 x _ rest hsh

theorem MemOp.mod_ne_three (m : MemOp) : m.mod ≠ 3#2 := by
  cases m <;> simp [MemOp.mod, Disp16.mod_ne_three, Disp32.mod_ne_three]

/-- The bytes of an operand are read back: the ModR/M byte first, with the `reg` field it was given. -/
theorem parseRegMem_bytes (asz : Size) (rm : RegMem) (reg : BitVec 3) (rest : List Byte)
    (h : rm.wf asz = true) :
    ∃ modrm tail, rm.bytes reg = modrm :: tail ∧ field53 modrm = reg ∧
      parseRegMem asz modrm (tail ++ rest) = .ok rm rest := by
  cases rm with
  | reg r =>
    exact ⟨joinFields 3#2 reg r.toBits, [], rfl, by simp, by simp [parseRegMem]⟩
  | mem m =>
    refine ⟨joinFields m.mod reg m.rm, m.tail, rfl, by simp, ?_⟩
    simp only [parseRegMem, field76_joinFields, field20_joinFields, m.mod_ne_three, if_false]
    cases asz
    · simp only [parseMem16_bytes m rest h, Parse.andThen]
    · simp only [parseMem32_bytes m rest h, Parse.andThen]

/-! ## Prefix bytes -/

theorem prefixByte_overrideByte (k : SegReg) : prefixByte k.overrideByte = some (.seg k) := by cases k <;> rfl

/-- The prefix bytes of a set of prefixes are read back, up to the first byte that is none. -/
theorem parsePrefixes_bytes (g : Option Group1) (p : Prefixes) (b : Byte) (rest : List Byte)
    (hb : prefixByte b = none) :
    parsePrefixes { group1 := g, p := .empty, repeated := false } (p.bytes ++ b :: rest) =
      .ok ({ group1 := g, p := p, repeated := false }, b) rest := by
  have h66 : prefixByte 0x66#8 = some .opSize := rfl
  have h67 : prefixByte 0x67#8 = some .addrSize := rfl
  obtain ⟨o, a, k⟩ := p
  cases o <;> cases a <;> cases k <;>
    simp [Prefixes.bytes, parsePrefixes, hb, h66, h67, prefixByte_overrideByte, PrefixState.add, Prefixes.empty]

/-! ## A parse depends only on the bytes it reads -/

/-- More bytes after those a parse was given change nothing but what it leaves. -/
def Extends {α : Type} (f : List Byte → Parse α) : Prop :=
  (∀ bs more a rest, f bs = .ok a rest → f (bs ++ more) = .ok a (rest ++ more)) ∧
    ∀ bs more r, f bs = .refuse r → f (bs ++ more) = .refuse r

theorem Extends.andThen {α β : Type} {f : List Byte → Parse α} {g : α → List Byte → Parse β} (hf : Extends f)
    (hg : ∀ a, Extends (g a)) : Extends fun bs => (f bs).andThen g := by
  constructor
  · intro bs more a rest h
    cases hfb : f bs with
    | more => simp [hfb, Parse.andThen] at h
    | refuse r => simp [hfb, Parse.andThen] at h
    | ok a' rest' =>
      simp only [hfb, Parse.andThen] at h
      simp only [hf.1 bs more a' rest' hfb, Parse.andThen]
      exact (hg a').1 rest' more a rest h
  · intro bs more r h
    cases hfb : f bs with
    | more => simp [hfb, Parse.andThen] at h
    | refuse r' =>
      simp only [hfb, Parse.andThen, Parse.refuse.injEq] at h
      simp only [hf.2 bs more r' hfb, Parse.andThen, h]
    | ok a' rest' =>
      simp only [hfb, Parse.andThen] at h
      simp only [hf.1 bs more a' rest' hfb, Parse.andThen]
      exact (hg a').2 rest' more r h

theorem Extends.ok {α : Type} (a : α) : Extends fun bs => Parse.ok a bs := by
  constructor
  · intro bs more a' rest h; cases h; rfl
  · intro bs more r h; cases h

theorem Extends.refuse {α : Type} (r : DecodeRefusal) : Extends fun _ => (Parse.refuse r : Parse α) := by
  constructor
  · intro bs more a rest h; cases h
  · intro bs more r' h; cases h; rfl

theorem Extends.ite {α : Type} {c : Prop} [Decidable c] {f g : List Byte → Parse α} (hf : Extends f)
    (hg : Extends g) : Extends fun bs => if c then f bs else g bs := by
  by_cases h : c <;> simpa [h]

theorem takeByte_extends : Extends takeByte := by
  constructor
  · intro bs more a rest h; cases bs <;> cases h; rfl
  · intro bs more r h; cases bs <;> cases h

theorem takeWord_extends : Extends takeWord := by
  constructor
  · intro bs more a rest h
    match bs, h with
    | _ :: _ :: _, h => cases h; rfl
  · intro bs more r h
    match bs, h with
    | _ :: _ :: _, h => cases h

theorem takeDword_extends : Extends takeDword := by
  constructor
  · intro bs more a rest h
    match bs, h with
    | _ :: _ :: _ :: _ :: _, h => cases h; rfl
  · intro bs more r h
    match bs, h with
    | _ :: _ :: _ :: _ :: _, h => cases h

theorem parseDisp16_extends (mod : BitVec 2) : Extends (parseDisp16 mod) := by
  unfold parseDisp16
  split
  · exact Extends.ok _
  · exact takeByte_extends.andThen fun d => Extends.ok _
  · exact takeWord_extends.andThen fun d => Extends.ok _

theorem parseDisp32_extends (mod : BitVec 2) : Extends (parseDisp32 mod) := by
  unfold parseDisp32
  split
  · exact Extends.ok _
  · exact takeByte_extends.andThen fun d => Extends.ok _
  · exact takeDword_extends.andThen fun d => Extends.ok _

theorem withIndex_extends (sib : Byte) (make : Option (Gpr × Scale) → MemOp) : Extends (withIndex sib make) := by
  unfold withIndex
  exact Extends.ite (Extends.ite (Extends.ok _) (Extends.refuse _)) (Extends.ok _)

theorem parseRegMem_extends (asz : Size) (modrm : Byte) : Extends (parseRegMem asz modrm) := by
  have h16 : ∀ mod rm, Extends (parseMem16 mod rm) := by
    intro mod rm
    unfold parseMem16
    exact Extends.ite (takeWord_extends.andThen fun d => Extends.ok _)
      ((parseDisp16_extends mod).andThen fun d => Extends.ok _)
  have hsib : ∀ mod sib, Extends (parseSib mod sib) := by
    intro mod sib
    unfold parseSib
    exact Extends.ite (takeDword_extends.andThen fun d => withIndex_extends _ _)
      ((parseDisp32_extends mod).andThen fun d => withIndex_extends _ _)
  have h32 : ∀ mod rm, Extends (parseMem32 mod rm) := by
    intro mod rm
    unfold parseMem32
    exact Extends.ite (takeByte_extends.andThen fun sib => hsib mod sib)
      (Extends.ite (takeDword_extends.andThen fun d => Extends.ok _)
        ((parseDisp32_extends mod).andThen fun d => Extends.ok _))
  unfold parseRegMem
  refine Extends.ite (Extends.ok _) ?_
  cases asz
  · exact (h16 _ _).andThen fun m => Extends.ok _
  · exact (h32 _ _).andThen fun m => Extends.ok _

theorem parseFormat_extends (asz : Size) (f : Option Format) : Extends (parseFormat asz f) := by
  match f with
  | none => exact Extends.refuse _
  | some (.op i) => exact Extends.ok _
  | some (.opCb make) => exact takeByte_extends.andThen fun d => Extends.ok _
  | some (.modRm make) =>
    exact takeByte_extends.andThen fun modrm => (parseRegMem_extends asz modrm).andThen fun rm => Extends.ok _
  | some (.digit make) =>
    refine takeByte_extends.andThen fun modrm => ?_
    cases make (field53 modrm) with
    | none => exact Extends.refuse _
    | some make' => exact (parseRegMem_extends asz modrm).andThen fun rm => Extends.ok _

theorem parseBody_extends (dflt : Size) (p : Prefixes) (opcode : Byte) : Extends (parseBody dflt p opcode) := by
  unfold parseBody
  exact Extends.ite (takeByte_extends.andThen fun b => parseFormat_extends _ _) (parseFormat_extends _ _)

theorem parsePrefixes_extends (s : PrefixState) : Extends (parsePrefixes s) := by
  constructor
  · intro bs
    induction bs generalizing s with
    | nil => intro more a rest h; cases h
    | cons b bs ih =>
      intro more a rest h
      rw [List.cons_append]
      unfold parsePrefixes at h ⊢
      split
      · rename_i hb; simp only [hb] at h; cases h; rfl
      · rename_i x hb
        simp only [hb] at h
        exact ih (s.add x) more a rest h
  · intro bs
    induction bs generalizing s with
    | nil => intro more r h; cases h
    | cons b bs ih =>
      intro more r h
      rw [List.cons_append]
      unfold parsePrefixes at h ⊢
      split
      · rename_i hb; simp only [hb] at h; cases h
      · rename_i x hb
        simp only [hb] at h
        exact ih (s.add x) more r h

theorem joinGroup1_extends (s : PrefixState) (i : Instr) : Extends (joinGroup1 s i) := by
  unfold joinGroup1
  refine Extends.ite (Extends.refuse _) ?_
  split
  · exact Extends.ok _
  · exact Extends.ok _
  · exact Extends.refuse _
  · cases repeated i with
    | none => exact Extends.refuse _
    | some i' => exact Extends.ok _

/-- The decoder reads no byte after the instruction: more bytes are left over as they are. -/
theorem decode_extends (dflt : Size) : Extends (decode dflt) := by
  unfold decode
  refine (parsePrefixes_extends .empty).andThen fun so => ?_
  obtain ⟨s, opcode⟩ := so
  exact (parseBody_extends dflt s.p opcode).andThen fun i => joinGroup1_extends _ _

/-- Bytes that make one instruction do not make it, or a refusal, any sooner. -/
theorem decode_take_more (dflt : Size) (bs more : List Byte) (i : Instr) (hm : more ≠ [])
    (h : decode dflt (bs ++ more) = .ok i []) : decode dflt bs = .more := by
  cases hb : decode dflt bs with
  | more => rfl
  | refuse r =>
    rw [(decode_extends dflt).2 bs more r hb] at h; cases h
  | ok i' rest =>
    rw [(decode_extends dflt).1 bs more i' rest hb] at h
    injection h with _ h2
    exact absurd (List.append_eq_nil_iff.1 h2).2 hm

/-! ## A parse needs no byte after those it takes -/

/-- What a parse leaves is the end of what it was given, and without that end it answers the same. -/
def Consumes {α : Type} (f : List Byte → Parse α) : Prop :=
  (∀ bs a rest, f bs = .ok a rest → ∃ used, bs = used ++ rest) ∧
    ∀ bs more a rest, f (bs ++ more) = .ok a (rest ++ more) → f bs = .ok a rest

theorem Consumes.andThen {α β : Type} {f : List Byte → Parse α} {g : α → List Byte → Parse β} (hf : Consumes f)
    (hg : ∀ a, Consumes (g a)) : Consumes fun bs => (f bs).andThen g := by
  constructor
  · intro bs a rest h
    cases hfb : f bs with
    | more => simp [hfb, Parse.andThen] at h
    | refuse r => simp [hfb, Parse.andThen] at h
    | ok a' rest' =>
      simp only [hfb, Parse.andThen] at h
      obtain ⟨u, rfl⟩ := hf.1 bs a' rest' hfb
      obtain ⟨v, rfl⟩ := (hg a').1 rest' a rest h
      exact ⟨u ++ v, by simp⟩
  · intro bs more a rest h
    cases hfb : f (bs ++ more) with
    | more => simp [hfb, Parse.andThen] at h
    | refuse r => simp [hfb, Parse.andThen] at h
    | ok a' rest' =>
      simp only [hfb, Parse.andThen] at h
      obtain ⟨v, rfl⟩ := (hg a').1 rest' a _ h
      rw [← List.append_assoc] at h hfb
      simp only [hf.2 bs more a' _ hfb, Parse.andThen, (hg a').2 _ more a rest h]

theorem Consumes.ok {α : Type} (a : α) : Consumes fun bs => Parse.ok a bs := by
  constructor
  · intro bs a' rest h; cases h; exact ⟨[], rfl⟩
  · intro bs more a' rest h
    simp only [Parse.ok.injEq, List.append_cancel_right_eq] at h
    rw [h.1, h.2]

theorem Consumes.refuse {α : Type} (r : DecodeRefusal) : Consumes fun _ => (Parse.refuse r : Parse α) := by
  constructor
  · intro bs a rest h; cases h
  · intro bs more a rest h; cases h

theorem Consumes.ite {α : Type} {c : Prop} [Decidable c] {f g : List Byte → Parse α} (hf : Consumes f)
    (hg : Consumes g) : Consumes fun bs => if c then f bs else g bs := by
  by_cases h : c <;> simpa [h]

theorem takeByte_consumes : Consumes takeByte := by
  constructor
  · intro bs a rest h; cases bs <;> cases h; exact ⟨[_], rfl⟩
  · intro bs more a rest h
    cases bs with
    | nil =>
      cases more with
      | nil => cases h
      | cons b more =>
        injection h with _ h2
        have := congrArg List.length h2
        simp only [List.length_append, List.length_cons] at this
        omega
    | cons b bs =>
      simp only [List.cons_append, takeByte, Parse.ok.injEq, List.append_cancel_right_eq] at h
      simp only [takeByte, h.1, h.2]

theorem takeWord_consumes : Consumes takeWord := by
  constructor
  · intro bs a rest h
    match bs, h with
    | _ :: _ :: _, h => cases h; exact ⟨[_, _], rfl⟩
  · intro bs more a rest h
    match bs, h with
    | [], h =>
      match more, h with
      | _ :: _ :: more, h =>
        injection h with _ h2
        have := congrArg List.length h2
        simp only [List.length_append, List.length_cons] at this
        omega
    | [_], h =>
      match more, h with
      | _ :: more, h =>
        injection h with _ h2
        have := congrArg List.length h2
        simp only [List.length_append, List.length_cons] at this
        omega
    | _ :: _ :: bs, h =>
      simp only [List.cons_append, takeWord, Parse.ok.injEq, List.append_cancel_right_eq] at h
      simp only [takeWord, h.1, h.2]

theorem takeDword_consumes : Consumes takeDword := by
  constructor
  · intro bs a rest h
    match bs, h with
    | _ :: _ :: _ :: _ :: _, h => cases h; exact ⟨[_, _, _, _], rfl⟩
  · intro bs more a rest h
    by_cases h4 : 4 ≤ bs.length
    · match bs, h4, h with
      | _ :: _ :: _ :: _ :: bs, _, h =>
        simp only [List.cons_append, takeDword, Parse.ok.injEq, List.append_cancel_right_eq] at h
        simp only [takeDword, h.1, h.2]
    · have hl : ∀ {l : List Byte} {d r}, takeDword l = .ok d r → l.length = r.length + 4 := by
        intro l d r h
        match l, h with
        | _ :: _ :: _ :: _ :: _, h => cases h; rfl
      have := hl h
      simp only [List.length_append] at this
      omega

theorem parseDisp16_consumes (mod : BitVec 2) : Consumes (parseDisp16 mod) := by
  unfold parseDisp16
  split
  · exact Consumes.ok _
  · exact takeByte_consumes.andThen fun d => Consumes.ok _
  · exact takeWord_consumes.andThen fun d => Consumes.ok _

theorem parseDisp32_consumes (mod : BitVec 2) : Consumes (parseDisp32 mod) := by
  unfold parseDisp32
  split
  · exact Consumes.ok _
  · exact takeByte_consumes.andThen fun d => Consumes.ok _
  · exact takeDword_consumes.andThen fun d => Consumes.ok _

theorem withIndex_consumes (sib : Byte) (make : Option (Gpr × Scale) → MemOp) : Consumes (withIndex sib make) := by
  unfold withIndex
  exact Consumes.ite (Consumes.ite (Consumes.ok _) (Consumes.refuse _)) (Consumes.ok _)

theorem parseRegMem_consumes (asz : Size) (modrm : Byte) : Consumes (parseRegMem asz modrm) := by
  have h16 : ∀ mod rm, Consumes (parseMem16 mod rm) := by
    intro mod rm
    unfold parseMem16
    exact Consumes.ite (takeWord_consumes.andThen fun d => Consumes.ok _)
      ((parseDisp16_consumes mod).andThen fun d => Consumes.ok _)
  have hsib : ∀ mod sib, Consumes (parseSib mod sib) := by
    intro mod sib
    unfold parseSib
    exact Consumes.ite (takeDword_consumes.andThen fun d => withIndex_consumes _ _)
      ((parseDisp32_consumes mod).andThen fun d => withIndex_consumes _ _)
  have h32 : ∀ mod rm, Consumes (parseMem32 mod rm) := by
    intro mod rm
    unfold parseMem32
    exact Consumes.ite (takeByte_consumes.andThen fun sib => hsib mod sib)
      (Consumes.ite (takeDword_consumes.andThen fun d => Consumes.ok _)
        ((parseDisp32_consumes mod).andThen fun d => Consumes.ok _))
  unfold parseRegMem
  refine Consumes.ite (Consumes.ok _) ?_
  cases asz
  · exact (h16 _ _).andThen fun m => Consumes.ok _
  · exact (h32 _ _).andThen fun m => Consumes.ok _

theorem parseFormat_consumes (asz : Size) (f : Option Format) : Consumes (parseFormat asz f) := by
  match f with
  | none => exact Consumes.refuse _
  | some (.op i) => exact Consumes.ok _
  | some (.opCb make) => exact takeByte_consumes.andThen fun d => Consumes.ok _
  | some (.modRm make) =>
    exact takeByte_consumes.andThen fun modrm => (parseRegMem_consumes asz modrm).andThen fun rm => Consumes.ok _
  | some (.digit make) =>
    refine takeByte_consumes.andThen fun modrm => ?_
    cases make (field53 modrm) with
    | none => exact Consumes.refuse _
    | some make' => exact (parseRegMem_consumes asz modrm).andThen fun rm => Consumes.ok _

theorem parseBody_consumes (dflt : Size) (p : Prefixes) (opcode : Byte) : Consumes (parseBody dflt p opcode) := by
  unfold parseBody
  exact Consumes.ite (takeByte_consumes.andThen fun b => parseFormat_consumes _ _) (parseFormat_consumes _ _)

theorem parsePrefixes_consumes (s : PrefixState) : Consumes (parsePrefixes s) := by
  have suffix : ∀ bs (s : PrefixState) a rest, parsePrefixes s bs = .ok a rest →
      ∃ b used, bs = (b :: used) ++ rest := by
    intro bs
    induction bs with
    | nil => intro s a rest h; cases h
    | cons b bs ih =>
      intro s a rest h
      unfold parsePrefixes at h
      split at h
      · cases h; exact ⟨b, [], rfl⟩
      · obtain ⟨b', used, rfl⟩ := ih _ a rest h; exact ⟨b, b' :: used, rfl⟩
  constructor
  · intro bs a rest h
    obtain ⟨b, used, hu⟩ := suffix bs s a rest h
    exact ⟨b :: used, hu⟩
  · intro bs
    induction bs generalizing s with
    | nil =>
      intro more a rest h
      obtain ⟨b, used, hu⟩ := suffix _ s a _ h
      have := congrArg List.length hu
      simp only [List.length_append, List.length_cons, List.nil_append] at this
      omega
    | cons b bs ih =>
      intro more a rest h
      rw [List.cons_append] at h
      unfold parsePrefixes at h ⊢
      split at h
      · simp only [Parse.ok.injEq, List.append_cancel_right_eq] at h
        rw [h.1, h.2]
      · exact ih _ more a rest h

theorem joinGroup1_consumes (s : PrefixState) (i : Instr) : Consumes (joinGroup1 s i) := by
  unfold joinGroup1
  refine Consumes.ite (Consumes.refuse _) ?_
  split
  · exact Consumes.ok _
  · exact Consumes.ok _
  · exact Consumes.refuse _
  · cases repeated i with
    | none => exact Consumes.refuse _
    | some i' => exact Consumes.ok _

/-- The decoder needs no byte after the instruction: the bytes it takes decode alone. -/
theorem decode_consumes (dflt : Size) : Consumes (decode dflt) := by
  unfold decode
  refine (parsePrefixes_consumes .empty).andThen fun so => ?_
  obtain ⟨s, opcode⟩ := so
  exact (parseBody_consumes dflt s.p opcode).andThen fun i => joinGroup1_consumes _ _

/-- One byte more than bytes that make no instruction yet: an instruction takes it, so that nothing is left over. -/
theorem decode_snoc_ok {dflt : Size} {bs : List Byte} {b : Byte} {i : Instr} {rest : List Byte}
    (hm : decode dflt bs = .more) (h : decode dflt (bs ++ [b]) = .ok i rest) : rest = [] := by
  obtain ⟨used, hu⟩ := (decode_consumes dflt).1 _ _ _ h
  rcases List.eq_nil_or_concat rest with rfl | ⟨rest', c, rfl⟩
  · rfl
  · rw [List.concat_eq_append] at hu h
    rw [← List.append_assoc] at hu
    obtain ⟨-, hc⟩ := List.append_inj' hu rfl
    rw [List.cons.injEq] at hc
    rw [← hc.1] at h
    rw [(decode_consumes dflt).2 bs [b] i rest' h] at hm
    cases hm

end Sys2Proof
end

