-- ==== Sys2Proof/Laws/Exec.lean ====
section
/-!
SUPPORT. The bodies that the meanings share, each with what it can answer: the next state it makes, and the
exceptions it can raise.
-/
namespace Sys2Proof.Machine

/-! ## Settling -/

theorem settle_next {r : Except Fault State} {t : State} : settle r = .next t ↔ r = .ok t := by
  cases r <;> simp [settle]

theorem settle_fault {r : Except Fault State} {f : Fault} : settle r = .fault f ↔ r = .error f := by
  cases r <;> simp [settle]

theorem settle_not_refused {r : Except Fault State} {x : Refusal} : settle r ≠ .refused x := by
  cases r <;> simp [settle]

@[simp] theorem settle_ok (t : State) : settle (.ok t) = .next t := rfl
@[simp] theorem settle_error (f : Fault) : settle (.error f) = .fault f := rfl

/-- A page fault, from the state the instruction started in; never in Real Address Mode. -/
def PageFault (s : State) (f : Fault) : Prop := s.mode ≠ .real ∧ ∃ code la, f = takeException s (.pf code la)

/-- An exception of a read through a segment, from the state the instruction started in: the segment's, or #PF. -/
def AccessFault (s : State) (k : SegReg) (f : Fault) : Prop :=
  f = takeException s (s.segFault k) ∨ PageFault s f

/-- An exception of reading an operand: none where it is a register. -/
def OperandFault (s : State) (p : Prefixes) (rm : RegMem) (f : Fault) : Prop :=
  ∃ m, rm = .mem m ∧ AccessFault s (operandSegment p m) f

theorem AgreeButAccess.segFault {s t : State} (h : AgreeButAccess s t) (k : SegReg) : t.segFault k = s.segFault k := by
  rw [h]; rfl

theorem PageFault.of_agrees {s t : State} {f : Fault} (h : AgreeButAccess s t) (hf : PageFault t f) : PageFault s f := by
  obtain ⟨hm, code, la, hc⟩ := hf
  exact ⟨by rwa [h.mode] at hm, code, la, by rw [hc, h.takeException]⟩

theorem State.segRead_accessFault {s : State} {k : SegReg} {off : Dword} {n : Nat} {f : Fault}
    (h : s.segRead k off n = .error f) : AccessFault s k f := State.segRead_fault h

theorem State.segReadTo_accessFault {s : State} {k : SegReg} {a : Size} {off : Dword} {n : Nat} {f : Fault}
    (h : s.segReadTo k a off n = .error f) : AccessFault s k f :=
  (State.segReadTo_fault h).elim .inl State.segRead_accessFault

theorem State.readSelector_operandFault {s : State} {p : Prefixes} {rm : RegMem} {f : Fault}
    (h : s.readSelector p rm = .error f) : OperandFault s p rm f := by
  cases rm with
  | reg r => cases h
  | mem m =>
    refine ⟨m, rfl, ?_⟩
    simp only [State.readSelector] at h
    split at h
    · rename_i f' h1; cases h; exact State.segRead_accessFault h1
    · cases h

theorem segFault_vector (s : State) (k : SegReg) : (takeException s (s.segFault k)).vector = s.segVector k := by
  unfold State.segFault State.segVector
  cases s.mode <;> cases s.cfg.realStackFaultVector <;> by_cases hk : k = .ss <;>
    simp [hk, takeException, Fault.vector]

/-- A read through a segment raises only what R426 means by "mem". -/
theorem AccessFault.vector {s : State} {k : SegReg} {f : Fault} (h : AccessFault s k f) : f.vector ∈ s.readVectors k := by
  unfold State.readVectors
  rcases h with rfl | ⟨hm, code, la, rfl⟩
  · rw [segFault_vector]; split <;> simp
  · simp [hm, takeException, Fault.vector]

theorem OperandFault.vector {s : State} {p : Prefixes} {rm : RegMem} {f : Fault} (h : OperandFault s p rm f) :
    f.vector ∈ s.operandVectors p rm := by
  obtain ⟨m, rfl, h⟩ := h
  exact h.vector

/-! ## LEA and LEAVE -/

theorem loadEffectiveAddress_ok {i : Instr} {n : Size} {dst : Gpr} {rm : RegMem} {s t : State}
    (h : loadEffectiveAddress i n dst rm s = .ok t) :
    ∃ m, rm = .mem m ∧ t = (s.setRegN n dst (effectiveAddress s m)).retire i := by
  cases rm with
  | reg r => simp [loadEffectiveAddress, raise] at h
  | mem m => exact ⟨m, rfl, (Except.ok.inj h).symm⟩

theorem leaveFrame_ok {i : Instr} {n : Size} {s t : State} (h : leaveFrame i n s = .ok t) :
    passesFFFF s.stackAddrSize (s.regN s.stackAddrSize .ebp) n.bytes = false ∧
    ∃ v s1, s.segRead .ss (s.regN s.stackAddrSize .ebp) n.bytes = .ok (v, s1) ∧
      t = ((s1.setRegN s.stackAddrSize .esp (s.regN s.stackAddrSize .ebp + BitVec.ofNat 32 n.bytes)).setRegN n .ebp
        (BitVec.ofNat 32 v)).retire i := by
  unfold leaveFrame State.popAt at h
  cases h1 : s.segReadTo .ss s.stackAddrSize (s.regN s.stackAddrSize .ebp) n.bytes with
  | error f => simp [h1] at h
  | ok r =>
    obtain ⟨hp, h2⟩ := State.segReadTo_ok h1
    exact ⟨hp, r.1, r.2, h2, by simpa [h1] using h.symm⟩

theorem leaveFrame_fault {i : Instr} {n : Size} {s : State} {f : Fault} (h : leaveFrame i n s = .error f) :
    AccessFault s .ss f := by
  unfold leaveFrame State.popAt at h
  cases h1 : s.segReadTo .ss s.stackAddrSize (s.regN s.stackAddrSize .ebp) n.bytes with
  | error f' => simp only [h1, Except.error.injEq] at h; exact h ▸ State.segReadTo_accessFault h1
  | ok r => simp [h1] at h

/-! ## LAR and LSL -/

theorem querySegment_ok {i : Instr} {p : Prefixes} {rm : RegMem} {valid : Bool → BitVec 4 → Bool}
    {store : Desc → State → State} {s t : State} (h : querySegment i p rm valid store s = .ok t) :
    s.mode = .prot ∧ ∃ sel s1 r s2, s.readSelector p rm = .ok (sel, s1) ∧ s1.query sel valid = .ok (r, s2) ∧
      t = (match r with
        | none => (s2.setZf false).retire i
        | some d => ((store d s2).setZf true).retire i) := by
  unfold querySegment at h
  split at h
  · simp [raise] at h
  · rename_i hm
    split at h
    · cases h
    · rename_i sel s1 h1
      split at h
      · cases h
      · rename_i s2 h2; cases h; exact ⟨by simpa using hm, sel, s1, _, s2, h1, h2, rfl⟩
      · rename_i d s2 h2; cases h; exact ⟨by simpa using hm, sel, s1, _, s2, h1, h2, rfl⟩

theorem querySegment_fault {i : Instr} {p : Prefixes} {rm : RegMem} {valid : Bool → BitVec 4 → Bool}
    {store : Desc → State → State} {s : State} {f : Fault} (h : querySegment i p rm valid store s = .error f) :
    (s.mode ≠ .prot ∧ f = takeException s .ud) ∨ (s.mode = .prot ∧ (OperandFault s p rm f ∨ PageFault s f)) := by
  unfold querySegment at h
  split at h
  · rename_i hm; simp only [raise, Except.error.injEq] at h; exact .inl ⟨hm, h.symm⟩
  · rename_i hm
    refine .inr ⟨by simpa using hm, ?_⟩
    split at h
    · rename_i f' h1; cases h; exact .inl (State.readSelector_operandFault h1)
    · rename_i sel s1 h1
      split at h
      · rename_i f' h2; cases h
        exact .inr (PageFault.of_agrees (State.readSelector_agrees h1) (State.query_fault h2))
      · cases h
      · cases h

/-! ## The full-pointer loads -/

theorem loadFullPointer_ok {i : Instr} {k : SegReg} {n : Size} {p : Prefixes} {dst : Gpr} {rm : RegMem}
    {s t : State} (h : loadFullPointer i k n p dst rm s = .ok t) :
    ∃ m v s1 s2, rm = .mem m ∧ s.readMem p m (n.bytes + 2) = .ok (v, s1) ∧
      s1.loadSegment k (BitVec.ofNat 16 (v / 2 ^ (8 * n.bytes))) = .ok s2 ∧
      t = (s2.setRegN n dst (BitVec.ofNat 32 v)).retire i := by
  cases rm with
  | reg r => simp [loadFullPointer, raise] at h
  | mem m =>
    unfold loadFullPointer at h
    dsimp only at h
    split at h
    · cases h
    · rename_i v s1 h1
      split at h
      · cases h
      · rename_i s2 h2; cases h; exact ⟨m, v, s1, s2, rfl, h1, h2, rfl⟩

theorem ssRefusal_some {cpl : BitVec 2} {sel : Word} {d : Desc} {e : Exc} (h : ssRefusal cpl sel d = some e) :
    e = .gp (selectorCode sel) ∨ e = .ss (selectorCode sel) := by
  unfold ssRefusal at h
  repeat' split at h
  all_goals cases h
  all_goals first | exact .inl rfl | exact .inr rfl

theorem dataRefusal_some {cpl : BitVec 2} {sel : Word} {d : Desc} {e : Exc} (h : dataRefusal cpl sel d = some e) :
    e = .gp (selectorCode sel) ∨ e = .np (selectorCode sel) := by
  unfold dataRefusal at h
  repeat' split at h
  all_goals cases h
  all_goals first | exact .inl rfl | exact .inr rfl

/-- The exceptions of a segment load: #PF, #GP, or for an absent segment #SS into SS and #NP into the others; none
outside Protected Mode. -/
theorem State.loadSegment_fault {s : State} {k : SegReg} {sel : Word} {f : Fault}
    (h : s.loadSegment k sel = .error f) :
    s.mode = .prot ∧ ((∃ code la, f = Machine.takeException s (.pf code la)) ∨
      (∃ code, f = Machine.takeException s (.gp code)) ∨ (k = .ss ∧ ∃ code, f = Machine.takeException s (.ss code)) ∨
      (k ≠ .ss ∧ ∃ code, f = Machine.takeException s (.np code))) := by
  unfold State.loadSegment at h
  split at h
  · rename_i hm
    refine ⟨hm, ?_⟩
    split at h
    · rename_i f' h1
      cases h
      unfold State.checkSegment at h1
      split at h1
      · split at h1
        · simp only [raise, Except.error.injEq] at h1; exact .inr (.inl ⟨_, h1.symm⟩)
        · cases h1
      · split at h1
        · rename_i f'' h2
          cases h1
          rcases State.fetchDesc_fault h2 with ⟨-, code, la, hc⟩ | hc | ⟨d, e, he, hc⟩
          · exact .inl ⟨code, la, hc⟩
          · exact .inr (.inl ⟨_, hc⟩)
          · by_cases hk : k = .ss
            · rw [if_pos hk] at he
              rcases ssRefusal_some he with rfl | rfl
              · exact .inr (.inl ⟨_, hc⟩)
              · exact .inr (.inr (.inl ⟨hk, _, hc⟩))
            · rw [if_neg hk] at he
              rcases dataRefusal_some he with rfl | rfl
              · exact .inr (.inl ⟨_, hc⟩)
              · exact .inr (.inr (.inr ⟨hk, _, hc⟩))
        · cases h1
    · cases h
    · rename_i d s1 h1
      split at h
      · rename_i f' h2
        cases h
        obtain ⟨-, code, la, hc⟩ := State.setAccessed_fault h2
        have hag : AgreeButAccess s s1 := by
          rcases State.checkSegment_ok h1 with ⟨-, -, hd, -⟩ | ⟨-, d', -, hr, -⟩
          · cases hd
          · exact State.readDesc_agrees hr
        exact .inl ⟨code, la, by rw [hc, hag.takeException]⟩
      · cases h
  · cases h

theorem loadFullPointer_fault {i : Instr} {k : SegReg} {n : Size} {p : Prefixes} {dst : Gpr} {rm : RegMem}
    {s : State} {f : Fault} (h : loadFullPointer i k n p dst rm s = .error f) :
    ((∃ r, rm = .reg r) ∧ f = takeException s .ud) ∨ OperandFault s p rm f ∨
      ((∃ m, rm = .mem m) ∧ s.mode = .prot ∧ (PageFault s f ∨ (∃ code, f = takeException s (.gp code)) ∨
        (k = .ss ∧ ∃ code, f = takeException s (.ss code)) ∨ (k ≠ .ss ∧ ∃ code, f = takeException s (.np code)))) := by
  cases rm with
  | reg r => simp only [loadFullPointer, raise, Except.error.injEq] at h; exact .inl ⟨⟨r, rfl⟩, h.symm⟩
  | mem m =>
    unfold loadFullPointer at h
    dsimp only at h
    split at h
    · rename_i f' h1; cases h; exact .inr (.inl ⟨m, rfl, State.segRead_accessFault h1⟩)
    · rename_i v s1 h1
      have hag : AgreeButAccess s s1 := State.segRead_agrees h1
      split at h
      · rename_i f' h2
        cases h
        obtain ⟨hm, hc⟩ := State.loadSegment_fault h2
        rw [hag.mode] at hm
        simp only [hag.takeException] at hc
        refine .inr (.inr ⟨⟨m, rfl⟩, hm, hc.imp_left ?_⟩)
        rintro ⟨code, la, hc⟩
        exact ⟨by simp [hm], code, la, hc⟩
      · cases h

/-! ## LGDT, LIDT, LLDT, LMSW, LTR -/

theorem loadTableRegister_ok {i : Instr} {p : Prefixes} {rm : RegMem} {store : TableReg → State → State}
    {s t : State} (h : loadTableRegister i p rm store s = .ok t) :
    s.deniesSystem = false ∧ ∃ m v s1, rm = .mem m ∧ passesFFFF m.size (effectiveAddress s m) 6 = false ∧
      s.readMem p m 6 = .ok (v, s1) ∧
      t = (store (tableOfOperand (p.operandSize s.dflt) v) s1).retire i := by
  cases rm with
  | reg r => simp [loadTableRegister, raise] at h
  | mem m =>
    unfold loadTableRegister at h
    dsimp only at h
    split at h
    · simp [raise] at h
    · rename_i hd
      split at h
      · cases h
      · rename_i v s1 h1
        cases h
        obtain ⟨hp, h2⟩ := State.segReadTo_ok h1
        exact ⟨by simpa using hd, m, v, s1, rfl, hp, h2, rfl⟩

theorem loadTableRegister_fault {i : Instr} {p : Prefixes} {rm : RegMem} {store : TableReg → State → State}
    {s : State} {f : Fault} (h : loadTableRegister i p rm store s = .error f) :
    ((∃ r, rm = .reg r) ∧ f = takeException s .ud) ∨ ((∃ m, rm = .mem m) ∧ s.deniesSystem = true ∧
      f = takeException s (.gp 0#32)) ∨ (s.deniesSystem = false ∧ OperandFault s p rm f) := by
  cases rm with
  | reg r => simp only [loadTableRegister, raise, Except.error.injEq] at h; exact .inl ⟨⟨r, rfl⟩, h.symm⟩
  | mem m =>
    unfold loadTableRegister at h
    dsimp only at h
    split at h
    · rename_i hd; simp only [raise, Except.error.injEq] at h; exact .inr (.inl ⟨⟨m, rfl⟩, hd, h.symm⟩)
    · rename_i hd
      split at h
      · rename_i f' h1; cases h; exact .inr (.inr ⟨by simpa using hd, m, rfl, State.segReadTo_accessFault h1⟩)
      · cases h

theorem loadLdtr_ok {i : Instr} {p : Prefixes} {rm : RegMem} {s t : State} (h : loadLdtr i p rm s = .ok t) :
    s.mode = .prot ∧ s.cpl = 0#2 ∧ ∃ sel s1, s.readSelector p rm = .ok (sel, s1) ∧
      ((isNull sel = true ∧ t = { s1 with ldtr := { s1.ldtr with sel := sel, valid := false } }.retire i) ∨
      (isNull sel = false ∧ selTi sel = false ∧ ∃ d s2, s1.readDesc sel = .ok (some d, s2) ∧ lldtRefusal sel d = none ∧
        t = { s2 with ldtr := { sel := sel, base := d.base, limit := d.limit, valid := true } }.retire i)) := by
  unfold loadLdtr at h
  split at h
  · simp [raise] at h
  · rename_i hm
    split at h
    · simp [raise] at h
    · rename_i hc
      split at h
      · cases h
      · rename_i sel s1 h1
        refine ⟨by simpa using hm, by simpa using hc, sel, s1, h1, ?_⟩
        split at h
        · rename_i hn; cases h; exact .inl ⟨hn, rfl⟩
        · rename_i hn
          split at h
          · simp [raise] at h
          · rename_i hti
            split at h
            · cases h
            · rename_i d s2 h2
              cases h
              obtain ⟨h3, h4⟩ := State.fetchDesc_ok h2
              exact .inr ⟨by simpa using hn, by simpa using hti, d, s2, h3, h4, rfl⟩

theorem loadMsw_ok {i : Instr} {p : Prefixes} {rm : RegMem} {s t : State} (h : loadMsw i p rm s = .ok t) :
    s.deniesSystem = false ∧ ∃ src s1, s.readSelector p rm = .ok (src, s1) ∧
      t = (s1.setMsw (mswAfter s1.cfg.lmswMask (lowWord s1.cr0) src)).retire i := by
  unfold loadMsw at h
  split at h
  · simp [raise] at h
  · rename_i hd
    split at h
    · cases h
    · rename_i src s1 h1; cases h; exact ⟨by simpa using hd, src, s1, h1, rfl⟩

theorem loadMsw_fault {i : Instr} {p : Prefixes} {rm : RegMem} {s : State} {f : Fault}
    (h : loadMsw i p rm s = .error f) :
    (s.deniesSystem = true ∧ f = takeException s (.gp 0#32)) ∨
      (s.deniesSystem = false ∧ OperandFault s p rm f) := by
  unfold loadMsw at h
  split at h
  · rename_i hd; simp only [raise, Except.error.injEq] at h; exact .inl ⟨hd, h.symm⟩
  · rename_i hd
    split at h
    · rename_i f' h1; cases h; exact .inr ⟨by simpa using hd, State.readSelector_operandFault h1⟩
    · cases h

theorem loadTaskRegister_ok {i : Instr} {p : Prefixes} {rm : RegMem} {s t : State}
    (h : loadTaskRegister i p rm s = .ok t) :
    s.mode = .prot ∧ s.cpl = 0#2 ∧ ∃ sel s1 d s2 s3, s.readSelector p rm = .ok (sel, s1) ∧ isNull sel = false ∧
      selTi sel = false ∧ s1.readDesc sel = .ok (some d, s2) ∧ ltrRefusal sel d = none ∧
      s2.linWrite (d.la + 5#32) 1 (busyByte d).toNat .supervisor = .ok s3 ∧
      t = { s3 with tr := TaskReg.ofDesc sel d }.retire i := by
  unfold loadTaskRegister at h
  split at h
  · simp [raise] at h
  · rename_i hm
    split at h
    · simp [raise] at h
    · rename_i hc
      split at h
      · cases h
      · rename_i sel s1 h1
        split at h
        · simp [raise] at h
        · rename_i hn
          split at h
          · simp [raise] at h
          · rename_i hti
            split at h
            · cases h
            · rename_i d s2 h2
              split at h
              · cases h
              · rename_i s3 h3
                cases h
                obtain ⟨h4, h5⟩ := State.fetchDesc_ok h2
                exact ⟨by simpa using hm, by simpa using hc, sel, s1, d, s2, s3, h1, by simpa using hn,
                  by simpa using hti, h4, h5, h3, rfl⟩

theorem lldtRefusal_some {sel : Word} {d : Desc} {e : Exc} (h : lldtRefusal sel d = some e) :
    e = .gp (selectorCode sel) ∨ e = .np (selectorCode sel) := by
  unfold lldtRefusal at h
  repeat' split at h
  all_goals cases h
  all_goals first | exact .inl rfl | exact .inr rfl

theorem ltrRefusal_some {sel : Word} {d : Desc} {e : Exc} (h : ltrRefusal sel d = some e) :
    e = .gp (selectorCode sel) ∨ e = .np (selectorCode sel) := by
  unfold ltrRefusal at h
  repeat' split at h
  all_goals cases h
  all_goals first | exact .inl rfl | exact .inr rfl

/-- The exceptions of LLDT and LTR once a selector is read. -/
theorem fetchSystemDesc_fault {s : State} {sel : Word} {refusal : Desc → Option Exc} {f : Fault}
    (hr : ∀ d e, refusal d = some e → e = .gp (selectorCode sel) ∨ e = .np (selectorCode sel))
    (h : s.fetchDesc sel refusal = .error f) :
    (s.mode ≠ .real ∧ ∃ code la, f = takeException s (.pf code la)) ∨ (∃ code, f = takeException s (.gp code)) ∨
      ∃ code, f = takeException s (.np code) := by
  rcases State.fetchDesc_fault h with h | h | ⟨d, e, he, h⟩
  · exact .inl h
  · exact .inr (.inl ⟨_, h⟩)
  · rcases hr d e he with rfl | rfl
    · exact .inr (.inl ⟨_, h⟩)
    · exact .inr (.inr ⟨_, h⟩)

theorem loadLdtr_fault {i : Instr} {p : Prefixes} {rm : RegMem} {s : State} {f : Fault}
    (h : loadLdtr i p rm s = .error f) :
    (s.mode ≠ .prot ∧ f = takeException s .ud) ∨ (s.mode = .prot ∧ s.cpl ≠ 0#2 ∧ f = takeException s (.gp 0#32)) ∨
      (s.mode = .prot ∧ s.cpl = 0#2 ∧ (OperandFault s p rm f ∨ PageFault s f ∨
        (∃ code, f = takeException s (.gp code)) ∨ ∃ code, f = takeException s (.np code))) := by
  unfold loadLdtr at h
  split at h
  · rename_i hm; simp only [raise, Except.error.injEq] at h; exact .inl ⟨hm, h.symm⟩
  · rename_i hm
    split at h
    · rename_i hc
      simp only [raise, Except.error.injEq] at h; exact .inr (.inl ⟨by simpa using hm, hc, h.symm⟩)
    · rename_i hc
      refine .inr (.inr ⟨by simpa using hm, by simpa using hc, ?_⟩)
      split at h
      · rename_i f' h1; cases h; exact .inl (State.readSelector_operandFault h1)
      · rename_i sel s1 h1
        have hag := State.readSelector_agrees h1
        split at h
        · cases h
        · split at h
          · simp only [raise, Except.error.injEq, hag.takeException] at h; exact .inr (.inr (.inl ⟨_, h.symm⟩))
          · split at h
            · rename_i f' h2
              cases h
              have h3 := fetchSystemDesc_fault (fun d e => lldtRefusal_some) h2
              rw [hag.mode] at h3
              simp only [hag.takeException] at h3
              exact .inr h3
            · cases h

theorem loadTaskRegister_fault {i : Instr} {p : Prefixes} {rm : RegMem} {s : State} {f : Fault}
    (h : loadTaskRegister i p rm s = .error f) :
    (s.mode ≠ .prot ∧ f = takeException s .ud) ∨ (s.mode = .prot ∧ s.cpl ≠ 0#2 ∧ f = takeException s (.gp 0#32)) ∨
      (s.mode = .prot ∧ s.cpl = 0#2 ∧ (OperandFault s p rm f ∨ PageFault s f ∨
        (∃ code, f = takeException s (.gp code)) ∨ ∃ code, f = takeException s (.np code))) := by
  unfold loadTaskRegister at h
  split at h
  · rename_i hm; simp only [raise, Except.error.injEq] at h; exact .inl ⟨hm, h.symm⟩
  · rename_i hm
    split at h
    · rename_i hc
      simp only [raise, Except.error.injEq] at h; exact .inr (.inl ⟨by simpa using hm, hc, h.symm⟩)
    · rename_i hc
      refine .inr (.inr ⟨by simpa using hm, by simpa using hc, ?_⟩)
      split at h
      · rename_i f' h1; cases h; exact .inl (State.readSelector_operandFault h1)
      · rename_i sel s1 h1
        have hag := State.readSelector_agrees h1
        split at h
        · simp only [raise, Except.error.injEq, hag.takeException] at h; exact .inr (.inr (.inl ⟨_, h.symm⟩))
        · split at h
          · simp only [raise, Except.error.injEq, hag.takeException] at h; exact .inr (.inr (.inl ⟨_, h.symm⟩))
          · split at h
            · rename_i f' h2
              cases h
              have h3 := fetchSystemDesc_fault (fun d e => ltrRefusal_some) h2
              rw [hag.mode] at h3
              simp only [hag.takeException] at h3
              exact .inr h3
            · rename_i d s2 h2
              split at h
              · rename_i f' h3
                cases h
                exact .inr (.inl (PageFault.of_agrees (hag.trans (State.readDesc_agrees (State.fetchDesc_ok h2).1))
                  (State.linWrite_fault h3)))
              · cases h

/-! ## LODS and LOOP -/

theorem lodsOnce_ok {w : LodsWidth} {p : Prefixes} {s t : State} (h : lodsOnce w p s = .ok t) :
    ∃ v s1, s.segRead (segmentOr p .ds) (s.regN (p.addressSize s.dflt) .esi) w.bytes = .ok (v, s1) ∧
      t = (s1.setAccumulator w v).setRegN (p.addressSize s.dflt) .esi
        (advanceIndex s.df w (s.regN (p.addressSize s.dflt) .esi)) := by
  unfold lodsOnce at h
  split at h
  · cases h
  · rename_i v s1 h1; cases h; exact ⟨v, s1, h1, rfl⟩

theorem lodsOnce_fault {w : LodsWidth} {p : Prefixes} {s : State} {f : Fault} (h : lodsOnce w p s = .error f) :
    AccessFault s (segmentOr p .ds) f := by
  unfold lodsOnce at h
  split at h
  · rename_i f' h1; cases h; exact State.segRead_accessFault h1
  · cases h

theorem loadString_ok {i : Instr} {w : LodsWidth} {p : Prefixes} {rep : Bool} {s t : State}
    (h : loadString i w p rep s = .ok t) :
    (rep = false ∧ ∃ s1, lodsOnce w p s = .ok s1 ∧ t = s1.retire i) ∨
    (rep = true ∧ s.regN (p.addressSize s.dflt) .ecx = 0#32 ∧ t = s.retire i) ∨
    (rep = true ∧ s.regN (p.addressSize s.dflt) .ecx = 1#32 ∧ ∃ s1, lodsOnce w p s = .ok s1 ∧
      t = (s1.setRegN (p.addressSize s.dflt) .ecx 0#32).retire i) ∨
    (rep = true ∧ s.regN (p.addressSize s.dflt) .ecx ≠ 0#32 ∧ s.regN (p.addressSize s.dflt) .ecx ≠ 1#32 ∧
      ∃ s1, lodsOnce w p s = .ok s1 ∧
        t = s1.setRegN (p.addressSize s.dflt) .ecx (s.regN (p.addressSize s.dflt) .ecx - 1#32)) := by
  unfold loadString at h
  split at h
  · rename_i hr
    split at h
    · rename_i h0; cases h; exact .inr (.inl ⟨hr, h0, rfl⟩)
    · rename_i h0
      split at h
      · cases h
      · rename_i s1 h1
        split at h
        · rename_i hc; cases h
          exact .inr (.inr (.inl ⟨hr, by bv_omega, s1, h1, rfl⟩))
        · rename_i hc; cases h
          exact .inr (.inr (.inr ⟨hr, h0, by bv_omega, s1, h1, rfl⟩))
  · rename_i hr
    split at h
    · cases h
    · rename_i s1 h1; cases h; exact .inl ⟨by simpa using hr, s1, h1, rfl⟩

theorem loadString_fault {i : Instr} {w : LodsWidth} {p : Prefixes} {rep : Bool} {s : State} {f : Fault}
    (h : loadString i w p rep s = .error f) : lodsOnce w p s = .error f := by
  unfold loadString at h
  split at h
  · split at h
    · cases h
    · split at h
      · rename_i f' h1; cases h; exact h1
      · split at h <;> cases h
  · split at h
    · rename_i f' h1; cases h; exact h1
    · cases h

theorem loopStep_ok {i : Instr} {p : Prefixes} {rel8 : Byte} {cond : Dword → Bool → Bool} {s t : State}
    (h : loopStep i p rel8 cond s = .ok t) :
    (cond (s.countDown (p.addressSize s.dflt)) s.zf = true ∧
      s.targetRefused (loopTarget (p.operandSize s.dflt) (s.nextPc i) rel8) = false ∧
      t = (s.setRegN (p.addressSize s.dflt) .ecx (s.countDown (p.addressSize s.dflt))).setEip
        (loopTarget (p.operandSize s.dflt) (s.nextPc i) rel8)) ∨
    (cond (s.countDown (p.addressSize s.dflt)) s.zf = false ∧
      t = (s.setRegN (p.addressSize s.dflt) .ecx (s.countDown (p.addressSize s.dflt))).retire i) := by
  unfold loopStep at h
  dsimp only at h
  split at h
  · rename_i hc
    split at h
    · simp [raise] at h
    · rename_i ht; cases h; exact .inl ⟨hc, by simpa using ht, rfl⟩
  · rename_i hc; cases h; exact .inr ⟨by simpa using hc, rfl⟩

theorem loopStep_fault {i : Instr} {p : Prefixes} {rel8 : Byte} {cond : Dword → Bool → Bool} {s : State} {f : Fault}
    (h : loopStep i p rel8 cond s = .error f) : f = takeException s (.gp 0#32) := by
  unfold loopStep at h
  dsimp only at h
  split at h
  · split at h
    · simp only [raise, Except.error.injEq] at h; exact h.symm
    · cases h
  · cases h

end Sys2Proof.Machine
end

