-- ==== Sys2Proof/Laws/Paging.lean ====
section
/-!
SUPPORT. The page walk of R106 and what it leaves in memory: where the page entries stand, what marking them used
changes, and that it changes no translation but for the D bit.
-/
namespace Sys2Proof.Machine

/-! ## Page entries in memory -/

/-- A doubleword with bits of its low byte set. -/
theorem dword_or_low (a b c d bits : Byte) :
    ((a ++ b) ++ (c ++ (d ||| bits)) : Dword) = ((a ++ b) ++ (c ++ d)) ||| bits.setWidth 32 := by
  apply BitVec.eq_of_getLsbD_eq
  intro j hj
  simp only [BitVec.getLsbD_or, BitVec.getLsbD_append, BitVec.getLsbD_setWidth]
  by_cases h8 : j < 8
  · simp [h8, hj, show j < 16 by omega]
  · have hb : bits.getLsbD j = false := BitVec.getLsbD_of_ge bits j (by omega)
    simp [h8, hb]

theorem add_ne_aligned {a pa k : Dword} (ha : a.toNat % 4 = 0) (hp : pa.toNat % 4 = 0) (h0 : 0 < k.toNat)
    (h4 : k.toNat < 4) : a + k ≠ pa := by
  intro h
  have h2 := congrArg BitVec.toNat h
  rw [BitVec.toNat_add] at h2
  omega

theorem Memory.byteAt_setBits (m : Memory) (pa a : Dword) (bits : Byte) (hm : Memory.wf m = true) :
    Memory.byteAt (Memory.setBits m pa bits) a =
      if a = pa then Memory.byteAt m a ||| bits else Memory.byteAt m a := by
  unfold Memory.setBits
  split
  · rename_i h; subst h; exact Memory.byteAt_setByte_same m a _ hm
  · rename_i h; exact Memory.byteAt_setByte_other m pa a _ h

/-- Bits set in the low byte of an aligned doubleword. -/
theorem Memory.dwordAt_setBits (m : Memory) (pa a : Dword) (bits : Byte) (hm : Memory.wf m = true)
    (ha : a.toNat % 4 = 0) (hp : pa.toNat % 4 = 0) :
    Memory.dwordAt (Memory.setBits m pa bits) a =
      if a = pa then Memory.dwordAt m a ||| bits.setWidth 32 else Memory.dwordAt m a := by
  have h1 : a + 1#32 ≠ pa := add_ne_aligned ha hp (by decide) (by decide)
  have h2 : a + 2#32 ≠ pa := add_ne_aligned ha hp (by decide) (by decide)
  have h3 : a + 3#32 ≠ pa := add_ne_aligned ha hp (by decide) (by decide)
  simp only [Memory.dwordAt, Memory.byteAt_setBits _ _ _ _ hm, h1, h2, h3, if_false]
  split
  · exact dword_or_low _ _ _ _ _
  · rfl

/-- The bits that the use of a page entry sets: A, or A and D. -/
def isMark (bits : Byte) : Prop := bits = 0x20#8 ∨ bits = 0x60#8

theorem usedBits_isMark (access : Access) : isMark (usedBits access) := by
  cases access <;> first | exact .inl rfl | exact .inr rfl

theorem frameOf_or_mark (d : Dword) {bits : Byte} (h : isMark bits) : frameOf (d ||| bits.setWidth 32) = frameOf d := by
  have key : bits.setWidth 32 &&& 0xFFFFF000#32 = 0#32 := by rcases h with rfl | rfl <;> decide
  simp only [frameOf, BitVec.and_or_distrib_right, key, BitVec.or_zero]

theorem getLsbD_or_mark (d : Dword) {bits : Byte} (h : isMark bits) (j : Nat) (hj : j < 3) :
    (d ||| bits.setWidth 32).getLsbD j = d.getLsbD j := by
  have key : ∀ j < 3, (bits.setWidth 32 : Dword).getLsbD j = false := by rcases h with rfl | rfl <;> decide
  simp only [BitVec.getLsbD_or, key j hj, Bool.or_false]

/-! ## The walk -/

/-- What a page walk finds but for the table entry's D bit. -/
def PageWalk.place (w : PageWalk) : PageWalk := { w with dirty := false }

@[simp] theorem PageWalk.place_pde (w : PageWalk) : w.place.pde = w.pde := rfl
@[simp] theorem PageWalk.place_pte (w : PageWalk) : w.place.pte = w.pte := rfl
@[simp] theorem PageWalk.place_pa (w : PageWalk) : w.place.pa = w.pa := rfl
@[simp] theorem PageWalk.place_user (w : PageWalk) : w.place.user = w.user := rfl
@[simp] theorem PageWalk.place_writable (w : PageWalk) : w.place.writable = w.writable := rfl

/-- Two memories hold page tables that translate alike: every walk finds the same, but for the D bit. -/
def TranslateAlike (m m' : Memory) (cr3 : Dword) : Prop :=
  ∀ la access rights,
    (pageWalk m' cr3 la access rights).map PageWalk.place = (pageWalk m cr3 la access rights).map PageWalk.place

theorem TranslateAlike.refl (m : Memory) (cr3 : Dword) : TranslateAlike m m cr3 := fun _ _ _ => rfl

theorem TranslateAlike.trans {m m' m'' : Memory} {cr3 : Dword} (h1 : TranslateAlike m m' cr3)
    (h2 : TranslateAlike m' m'' cr3) : TranslateAlike m m'' cr3 :=
  fun la access rights => (h2 la access rights).trans (h1 la access rights)

theorem TranslateAlike.ok {m m' : Memory} {cr3 la : Dword} {access : Access} {rights : Rights} {w : PageWalk}
    (h : TranslateAlike m m' cr3) (hw : pageWalk m cr3 la access rights = .ok w) :
    ∃ w', pageWalk m' cr3 la access rights = .ok w' ∧ w'.place = w.place := by
  have h2 := h la access rights
  rw [hw] at h2
  cases h3 : pageWalk m' cr3 la access rights with
  | error c => rw [h3] at h2; simp [Except.map] at h2
  | ok w' => rw [h3] at h2; simp only [Except.map, Except.ok.injEq] at h2; exact ⟨w', rfl, h2⟩

theorem TranslateAlike.symm {m m' : Memory} {cr3 : Dword} (h : TranslateAlike m m' cr3) : TranslateAlike m' m cr3 :=
  fun la access rights => (h la access rights).symm

theorem frameOf_aligned (d : Dword) : (frameOf d).toNat % 4 = 0 := by
  have h : (frameOf d).extractLsb' 0 2 = 0#2 := by
    apply BitVec.eq_of_getLsbD_eq
    intro j hj
    have key : ∀ j < 2, (0xFFFFF000#32).getLsbD j = false := by decide
    simp [frameOf, hj, key j hj]
  have h2 := congrArg BitVec.toNat h
  simpa [BitVec.extractLsb'_toNat] using h2

theorem entry_aligned (d x : Dword) : (frameOf d + (x <<< 2)).toNat % 4 = 0 := by
  have h := frameOf_aligned d
  simp only [BitVec.toNat_add, BitVec.toNat_shiftLeft, Nat.shiftLeft_eq]
  omega

/-- The page entries of a walk are aligned. -/
theorem pageWalk_aligned {m : Memory} {cr3 la : Dword} {access : Access} {rights : Rights} {w : PageWalk}
    (h : pageWalk m cr3 la access rights = .ok w) : w.pde.toNat % 4 = 0 ∧ w.pte.toNat % 4 = 0 := by
  unfold pageWalk walkOf at h
  dsimp only at h
  split at h
  · cases h
  · split at h
    · cases h
    · split at h
      · cases h
      · cases h; exact ⟨entry_aligned _ _, entry_aligned _ _⟩

theorem ite3_map_place (p q d : Bool) (c c' : Dword) (w w' : PageWalk) (h : w.place = w'.place) :
    (if !p then .error c else if !q then .error c else if d then .error c' else .ok w : Except Dword PageWalk).map
        PageWalk.place =
      (if !p then .error c else if !q then .error c else if d then .error c' else .ok w' :
        Except Dword PageWalk).map PageWalk.place := by
  cases p <;> cases q <;> cases d <;> simp [Except.map, h]

/-- A mark in any aligned doubleword changes no translation. -/
theorem setBits_translateAlike (m : Memory) (cr3 pa : Dword) {bits : Byte} (hm : Memory.wf m = true)
    (hp : pa.toNat % 4 = 0) (hb : isMark bits) : TranslateAlike m (Memory.setBits m pa bits) cr3 := by
  intro la access rights
  have key : ∀ a : Dword, a.toNat % 4 = 0 →
      frameOf (Memory.dwordAt (Memory.setBits m pa bits) a) = frameOf (Memory.dwordAt m a) ∧
      ∀ j < 3, (Memory.dwordAt (Memory.setBits m pa bits) a).getLsbD j = (Memory.dwordAt m a).getLsbD j := by
    intro a ha
    rw [Memory.dwordAt_setBits m pa a bits hm ha hp]
    split
    · exact ⟨frameOf_or_mark _ hb, fun j hj => getLsbD_or_mark _ hb j hj⟩
    · exact ⟨rfl, fun _ _ => rfl⟩
  obtain ⟨f1, b1⟩ := key _ (entry_aligned cr3 (la >>> 22))
  unfold pageWalk walkOf pteAddress pdeAddress
  dsimp only
  rw [f1, b1 0 (by omega), b1 1 (by omega), b1 2 (by omega)]
  obtain ⟨f2, b2⟩ := key _ (entry_aligned (Memory.dwordAt m (frameOf cr3 + ((la >>> 22) <<< 2)))
    ((la >>> 12) &&& 0x3FF#32))
  rw [f2, b2 0 (by omega), b2 1 (by omega), b2 2 (by omega)]
  refine ite3_map_place _ _ _ _ _ _ _ ?_
  simp only [PageWalk.place]

/-- What the use of a walk leaves of memory. -/
theorem PageWalk.byteAt_mark (w : PageWalk) (access : Access) (m : Memory) (hm : Memory.wf m = true) (a : Dword) :
    Memory.byteAt (w.mark access m) a =
      if a = w.pte then Memory.byteAt m a ||| usedBits access
      else if a = w.pde then Memory.byteAt m a ||| 0x20#8 else Memory.byteAt m a := by
  unfold PageWalk.mark
  rw [Memory.byteAt_setBits _ _ _ _ (Memory.setBits_wf m _ _ hm), Memory.byteAt_setBits _ _ _ _ hm]
  have h : 0x20#8 ||| usedBits access = usedBits access := by cases access <;> decide
  split
  · split
    · rw [BitVec.or_assoc, h]
    · rfl
  · rfl

/-- The use of a walk changes no translation. -/
theorem PageWalk.mark_translateAlike {m : Memory} {cr3 la : Dword} {access : Access} {rights : Rights} {w : PageWalk}
    (h : pageWalk m cr3 la access rights = .ok w) (used : Access) (hm : Memory.wf m = true) :
    TranslateAlike m (w.mark used m) cr3 := by
  obtain ⟨h1, h2⟩ := pageWalk_aligned h
  exact (setBits_translateAlike m cr3 w.pde hm h1 (.inl rfl)).trans
    (setBits_translateAlike _ cr3 w.pte (Memory.setBits_wf m _ _ hm) h2 (usedBits_isMark used))

theorem State.usesEntry_alike {s t : State} (h : TranslateAlike s.mem t.mem s.cr3) (hc : t.cr3 = s.cr3) (la : Dword)
    (n : Nat) (access : Access) (rights : Rights) (a : Dword) :
    t.usesEntry la n access rights a ↔ s.usesEntry la n access rights a := by
  have key : ∀ {s t : State}, TranslateAlike s.mem t.mem s.cr3 → t.cr3 = s.cr3 →
      s.usesEntry la n access rights a → t.usesEntry la n access rights a := by
    rintro s t h hc ⟨k, hk, w, hw, ha⟩
    obtain ⟨w', hw', hp⟩ := h.ok hw
    refine ⟨k, hk, w', by rw [hc]; exact hw', ?_⟩
    rw [← w'.place_pde, ← w'.place_pte, hp]
    exact ha
  exact ⟨key (hc ▸ h.symm) hc.symm, key h hc⟩

theorem State.usesTableEntry_alike {s t : State} (h : TranslateAlike s.mem t.mem s.cr3) (hc : t.cr3 = s.cr3)
    (la : Dword) (n : Nat) (access : Access) (rights : Rights) (a : Dword) :
    t.usesTableEntry la n access rights a ↔ s.usesTableEntry la n access rights a := by
  have key : ∀ {s t : State}, TranslateAlike s.mem t.mem s.cr3 → t.cr3 = s.cr3 →
      s.usesTableEntry la n access rights a → t.usesTableEntry la n access rights a := by
    rintro s t h hc ⟨k, hk, w, hw, ha⟩
    obtain ⟨w', hw', hp⟩ := h.ok hw
    refine ⟨k, hk, w', by rw [hc]; exact hw', ?_⟩
    rw [← w'.place_pte, hp]
    exact ha
  exact ⟨key (hc ▸ h.symm) hc.symm, key h hc⟩

theorem ofNat_succ_add (la : Dword) (k : Nat) : la + BitVec.ofNat 32 (k + 1) = la + 1#32 + BitVec.ofNat 32 k := by
  rw [BitVec.add_assoc, Nat.add_comm k 1, BitVec.ofNat_add]

/-- The page entries of `n + 1` bytes: those of the first, and those of the rest. -/
theorem State.usesEntry_succ (s : State) (la : Dword) (n : Nat) (access : Access) (rights : Rights) (a : Dword) :
    s.usesEntry la (n + 1) access rights a ↔
      (∃ w, pageWalk s.mem s.cr3 la access rights = .ok w ∧ (a = w.pde ∨ a = w.pte)) ∨
        s.usesEntry (la + 1#32) n access rights a := by
  constructor
  · rintro ⟨k, hk, w, hw, ha⟩
    cases k with
    | zero => exact .inl ⟨w, by simpa using hw, ha⟩
    | succ k => exact .inr ⟨k, by omega, w, by rw [← ofNat_succ_add]; exact hw, ha⟩
  · rintro (⟨w, hw, ha⟩ | ⟨k, hk, w, hw, ha⟩)
    · exact ⟨0, by omega, w, by simpa using hw, ha⟩
    · exact ⟨k + 1, by omega, w, by rw [ofNat_succ_add]; exact hw, ha⟩

theorem State.usesTableEntry_succ (s : State) (la : Dword) (n : Nat) (access : Access) (rights : Rights) (a : Dword) :
    s.usesTableEntry la (n + 1) access rights a ↔
      (∃ w, pageWalk s.mem s.cr3 la access rights = .ok w ∧ a = w.pte) ∨
        s.usesTableEntry (la + 1#32) n access rights a := by
  constructor
  · rintro ⟨k, hk, w, hw, ha⟩
    cases k with
    | zero => exact .inl ⟨w, by simpa using hw, ha⟩
    | succ k => exact .inr ⟨k, by omega, w, by rw [← ofNat_succ_add]; exact hw, ha⟩
  · rintro (⟨w, hw, ha⟩ | ⟨k, hk, w, hw, ha⟩)
    · exact ⟨0, by omega, w, by simpa using hw, ha⟩
    · exact ⟨k + 1, by omega, w, by rw [ofNat_succ_add]; exact hw, ha⟩

/-! ## What a read leaves of memory -/

/-- Memory after some reads: every translation as before, and every byte, but that the bytes at some page entries may
have got their Accessed bit. -/
def MarksOnly (s t : State) (entries : Dword → Prop) : Prop :=
  TranslateAlike s.mem t.mem s.cr3 ∧
    ∀ a, Memory.byteAt t.mem a = Memory.byteAt s.mem a ∨
      (s.walks = true ∧ entries a ∧ Memory.byteAt t.mem a = Memory.byteAt s.mem a ||| 0x20#8)

theorem AgreeButAccess.walks {s t : State} (h : AgreeButAccess s t) : t.walks = s.walks := by rw [h]; rfl

theorem MarksOnly.refl (s : State) (entries : Dword → Prop) : MarksOnly s s entries :=
  ⟨TranslateAlike.refl _ _, fun _ => .inl rfl⟩

theorem MarksOnly.mono {s t : State} {p q : Dword → Prop} (h : MarksOnly s t p) (hpq : ∀ a, p a → q a) :
    MarksOnly s t q :=
  ⟨h.1, fun a => (h.2 a).imp_right fun ⟨hw, hp, hb⟩ => ⟨hw, hpq a hp, hb⟩⟩

theorem MarksOnly.trans {s t u : State} {p : Dword → Prop} (hag : AgreeButAccess s t) (h1 : MarksOnly s t p)
    (h2 : MarksOnly t u p) : MarksOnly s u p := by
  refine ⟨h1.1.trans (hag.cr3 ▸ h2.1), fun a => ?_⟩
  rcases h2.2 a with h | ⟨hw, hp, h⟩
  · rw [h]; exact h1.2 a
  · rw [h]
    refine .inr ⟨by rw [← hag.walks]; exact hw, hp, ?_⟩
    rcases h1.2 a with h | ⟨-, -, h⟩
    · rw [h]
    · rw [h, BitVec.or_assoc, BitVec.or_self]

theorem usedBits_read {access : Access} (h : access ≠ .write) : usedBits access = 0x20#8 := by
  cases access <;> first | rfl | exact absurd rfl h

/-- A translation for a read marks only the page entries of its walk. -/
theorem State.translate_marksOnly {s t : State} {la pa : Dword} {access : Access} {rights : Rights}
    (ha : access ≠ .write) (hx : s.cfg.externalAgents = .absent) (hm : Memory.wf s.mem = true)
    (h : s.translate la access rights = .ok (pa, t)) : MarksOnly s t (s.usesEntry la 1 access rights) := by
  obtain rfl | ⟨hw, ⟨s0, hs0, h1⟩ | ⟨e, -, -, -, -, rfl⟩⟩ := State.translate_cases h
  · exact .refl _ _
  · have hx0 : s0.cfg.externalAgents = .absent := by rcases hs0 with rfl | rfl <;> exact hx
    obtain ⟨w, hpw, -, rfl⟩ := State.walkPage_ok_absent hx0 h1
    have e1 : s0.mem = s.mem := by rcases hs0 with rfl | rfl <;> rfl
    have e2 : s0.cr3 = s.cr3 := by rcases hs0 with rfl | rfl <;> rfl
    rw [e1, e2] at hpw
    refine ⟨by dsimp only; rw [e1]; exact w.mark_translateAlike hpw access hm, fun a => ?_⟩
    dsimp only
    rw [e1, w.byteAt_mark access _ hm a, usedBits_read ha]
    have hu : a = w.pde ∨ a = w.pte → s.usesEntry la 1 access rights a :=
      fun h => ⟨0, by omega, w, by simpa using hpw, h⟩
    split
    · rename_i h; exact .inr ⟨hw, hu (.inr h), rfl⟩
    · split
      · rename_i h; exact .inr ⟨hw, hu (.inl h), rfl⟩
      · exact .inl rfl
  · exact .refl _ _

theorem State.translateRange_marksOnly {s t : State} {la : Dword} {access : Access} {rights : Rights} {n : Nat}
    {pas : List Dword} (ha : access ≠ .write) (hx : s.cfg.externalAgents = .absent) (hm : Memory.wf s.mem = true)
    (h : s.translateRange la access rights n = .ok (pas, t)) : MarksOnly s t (s.usesEntry la n access rights) := by
  induction n generalizing s la pas with
  | zero => cases h; exact .refl _ _
  | succ n ih =>
    obtain ⟨pa, s1, rest, h1, h2, -⟩ := State.translateRange_cons h
    have hag := State.translate_agrees h1
    have m1 := State.translate_marksOnly ha hx hm h1
    have m2 := ih (by rw [hag.cfg]; exact hx) (State.translate_wf h1 hm) h2
    refine MarksOnly.trans hag (m1.mono fun a hu => ?_) (m2.mono fun a hu => ?_)
    · rw [State.usesEntry_succ] at hu ⊢
      rcases hu with hu | ⟨k, hk, -⟩
      · exact .inl hu
      · omega
    · rw [State.usesEntry_succ]
      exact .inr ((State.usesEntry_alike m1.1 hag.cr3 _ _ _ _ _).1 hu)

/-- A linear read without other agents marks only the page entries of its bytes. -/
theorem State.linRead_marksOnly {s t : State} {la : Dword} {n : Nat} {access : Access} {rights : Rights} {v : Nat}
    (ha : access ≠ .write) (hx : s.cfg.externalAgents = .absent) (hm : Memory.wf s.mem = true)
    (h : s.linRead la n access rights = .ok (v, t)) : MarksOnly s t (s.usesEntry la n access rights) := by
  obtain ⟨pas, h1, -⟩ := State.linRead_ok_absent hx h
  exact State.translateRange_marksOnly ha hx hm h1

/-! ## The translation buffer -/

theorem tlbFind_some {tlb : List TlbEntry} {page : BitVec 20} {e : TlbEntry} (h : tlbFind tlb page = some e) :
    e ∈ tlb ∧ e.page = page := by
  induction tlb with
  | nil => cases h
  | cons x rest ih =>
    unfold tlbFind at h
    split at h
    · rename_i hp; cases h; exact ⟨List.mem_cons_self, hp⟩
    · exact ⟨List.mem_cons_of_mem _ (ih h).1, (ih h).2⟩

theorem TlbEntry.current_alike (e : TlbEntry) {m m' : Memory} {cr3 : Dword} (h : TranslateAlike m m' cr3) :
    e.current m' cr3 = e.current m cr3 := by
  have h2 := h (e.page ++ 0#12) .read .supervisor
  unfold TlbEntry.current
  cases h3 : pageWalk m cr3 (e.page ++ 0#12) .read .supervisor with
  | error c =>
    cases h4 : pageWalk m' cr3 (e.page ++ 0#12) .read .supervisor with
    | error c' => rfl
    | ok w' => rw [h3, h4] at h2; simp [Except.map] at h2
  | ok w =>
    obtain ⟨w', h4, hp⟩ := h.ok h3
    rw [h4]
    dsimp only
    rw [← w'.place_pa, ← w'.place_user, ← w'.place_writable, hp]
    rfl

/-! ### Pages and frames in arithmetic -/

theorem frameOf_shift (d : Dword) : frameOf d = (d >>> 12) <<< 12 := by
  apply BitVec.eq_of_getLsbD_eq
  intro j hj
  have key : ∀ j < 32, (0xFFFFF000#32).getLsbD j = decide (12 ≤ j) := by decide
  simp only [frameOf, BitVec.getLsbD_and, key j hj, BitVec.getLsbD_shiftLeft, BitVec.getLsbD_ushiftRight]
  by_cases h : j < 12
  · simp [h, show ¬ 12 ≤ j by omega]
  · rw [show 12 + (j - 12) = j by omega]; simp [h, hj, show 12 ≤ j by omega]

theorem frameOf_toNat (d : Dword) : (frameOf d).toNat = d.toNat / 4096 * 4096 := by
  have h := d.isLt
  rw [frameOf_shift]
  simp only [BitVec.toNat_shiftLeft, BitVec.toNat_ushiftRight, Nat.shiftLeft_eq, Nat.shiftRight_eq_div_pow]
  omega

theorem offset_toNat (la : Dword) : (la &&& 0xFFF#32).toNat = la.toNat % 4096 := by
  have h : (la &&& 0xFFF#32).toNat = la.toNat &&& 4095 := by simp
  rw [h, show 4095 = 2 ^ 12 - 1 from rfl, Nat.and_two_pow_sub_one_eq_mod]

theorem tableIndex_toNat (la : Dword) : ((la >>> 12) &&& 0x3FF#32).toNat = la.toNat / 4096 % 1024 := by
  have h : ((la >>> 12) &&& 0x3FF#32).toNat = (la >>> 12).toNat &&& 1023 := by simp
  rw [h, show 1023 = 2 ^ 10 - 1 from rfl, Nat.and_two_pow_sub_one_eq_mod, BitVec.toNat_ushiftRight,
    Nat.shiftRight_eq_div_pow]

theorem pageStart_toNat (la : Dword) : (pageOf la ++ 0#12 : Dword).toNat = la.toNat / 4096 * 4096 := by
  refine (BitVec.toNat_append (pageOf la) 0#12).trans ?_
  have h := la.isLt
  simp only [pageOf, BitVec.extractLsb'_toNat, Nat.shiftRight_eq_div_pow, Nat.shiftLeft_eq, BitVec.toNat_ofNat,
    Nat.zero_mod, Nat.or_zero]
  omega

theorem pageOf_frame_offset (f la : Dword) : pageOf (frameOf f + (la &&& 0xFFF#32)) = pageOf f := by
  apply BitVec.eq_of_toNat_eq
  have h := f.isLt
  unfold pageOf
  simp only [BitVec.extractLsb'_toNat, BitVec.toNat_add, frameOf_toNat, offset_toNat, Nat.shiftRight_eq_div_pow]
  omega

/-! ### Entries of the buffer -/

/-- What the buffer keeps of a walk is current. -/
theorem PageWalk.entry_current {m : Memory} {cr3 la : Dword} {access : Access} {rights : Rights} {w : PageWalk}
    (h : pageWalk m cr3 la access rights = .ok w) : (w.entry la access).current m cr3 = true := by
  have e1 : ((pageOf la ++ 0#12 : Dword) >>> 22) = la >>> 22 := by
    apply BitVec.eq_of_toNat_eq
    rw [BitVec.toNat_ushiftRight, BitVec.toNat_ushiftRight, pageStart_toNat]
    simp only [Nat.shiftRight_eq_div_pow]
    omega
  have e2 : ((pageOf la ++ 0#12 : Dword) >>> 12) = la >>> 12 := by
    apply BitVec.eq_of_toNat_eq
    rw [BitVec.toNat_ushiftRight, BitVec.toNat_ushiftRight, pageStart_toNat]
    simp only [Nat.shiftRight_eq_div_pow]
    omega
  unfold TlbEntry.current PageWalk.entry
  dsimp only
  unfold pageWalk walkOf pteAddress pdeAddress at h ⊢
  dsimp only at h ⊢
  rw [e1, e2]
  split at h
  · cases h
  · split at h
    · cases h
    · split at h
      · cases h
      · rename_i h1 h2 h3
        cases h
        have hs : ∀ u w, accessDenied u w .read .supervisor = false := fun _ _ => rfl
        rw [if_neg h1, if_neg h2, hs]
        simp [pageOf_frame_offset]

/-- A walk's entry put in a buffer that is current leaves it current, with the entries marked in memory. -/
theorem tlbInsert_current {m m' : Memory} {cr3 la : Dword} {access : Access} {rights : Rights} {w : PageWalk}
    {tlb : List TlbEntry} (h : pageWalk m cr3 la access rights = .ok w) (ha : TranslateAlike m m' cr3)
    (hc : tlb.all (fun e => e.current m cr3) = true) :
    (tlbInsert (w.entry la access) tlb).all (fun e => e.current m' cr3) = true := by
  rw [List.all_eq_true] at hc ⊢
  intro e he
  rw [TlbEntry.current_alike e ha]
  rcases List.mem_cons.1 he with rfl | he
  · exact PageWalk.entry_current h
  · exact hc e (List.mem_filter.1 he).1

/-- In force, and where the walk gives what the buffer holds, `Translate` is the walk. -/
theorem State.translate_current {s : State} (hw : s.walks = true) {la : Dword}
    (hc : ∀ e, tlbFind s.tlb (pageOf la) = some e → s.agreesWith e = true) (access : Access) (rights : Rights) :
    s.translate la access rights = s.walkPage la access rights := by
  simp only [State.walks, Bool.and_eq_true, beq_iff_eq] at hw
  have hreal : s.mode ≠ .real := by
    have hpe : s.pe = true := by have h := hw.2; simp only [State.pagingOn, Bool.and_eq_true] at h; exact h.1
    unfold State.mode
    rw [hpe]
    cases s.vm <;> simp
  unfold State.translate
  rw [if_neg hreal, hw.1]
  simp only [hw.2, if_true]
  unfold State.pagedTranslate
  split
  · rfl
  · rename_i e he
    rw [if_pos (hc e he)]

theorem State.tlbCurrent_find {s : State} (hx : s.cfg.externalAgents = .absent) (hc : s.tlbCurrent = true)
    {page : BitVec 20} {e : TlbEntry} (h : tlbFind s.tlb page = some e) : s.agreesWith e = true := by
  have h1 := List.all_eq_true.1 hc e (tlbFind_some h).1
  simp [State.agreesWith, h1, hx]

/-- Without other agents a walk keeps the buffer current. -/
theorem State.walkPage_current {s t : State} {la pa : Dword} {access : Access} {rights : Rights}
    (hx : s.cfg.externalAgents = .absent) (hm : Memory.wf s.mem = true) (hc : s.tlbCurrent = true)
    (h : s.walkPage la access rights = .ok (pa, t)) : t.tlbCurrent = true := by
  obtain ⟨w, hw, -, rfl⟩ := State.walkPage_ok_absent hx h
  exact tlbInsert_current hw (w.mark_translateAlike hw access hm) hc

end Sys2Proof.Machine
end

