-- ==== Sys2Proof/Laws/Values.lean ====
section
/-!
SUPPORT. The values of the register operations as numbers, and the bound of what a read of memory answers.
-/
namespace Sys2Proof.Machine

theorem withLowWord_toNat (d : Dword) (v : Word) : (withLowWord d v).toNat = d.toNat / 65536 * 65536 + v.toNat := by
  refine (BitVec.toNat_append (d.extractLsb' 16 16) v).trans ?_
  have hd := d.isLt
  rw [← Nat.shiftLeft_add_eq_or_of_lt v.isLt]
  simp only [BitVec.extractLsb'_toNat, Nat.shiftLeft_eq, Nat.shiftRight_eq_div_pow]
  omega

theorem withByte0_toNat (d : Dword) (v : Byte) : (withByte0 d v).toNat = d.toNat / 256 * 256 + v.toNat := by
  refine (BitVec.toNat_append (d.extractLsb' 8 24) v).trans ?_
  have hd := d.isLt
  rw [← Nat.shiftLeft_add_eq_or_of_lt v.isLt]
  simp only [BitVec.extractLsb'_toNat, Nat.shiftLeft_eq, Nat.shiftRight_eq_div_pow]
  omega

theorem lowWord_toNat (d : Dword) : (lowWord d).toNat = d.toNat % 65536 := by
  simp [lowWord, BitVec.extractLsb'_toNat]

/-- The number of values of a size: 2^16 or 2^32. -/
def sizeModulus (n : Size) : Nat := if n = .w16 then 65536 else 4294967296

/-- A register's 16 or 32 low bits. -/
theorem State.regN_toNat (s : State) (n : Size) (r : Gpr) :
    (s.regN n r).toNat = (s.reg32 r).toNat % sizeModulus n := by
  have h := (s.reg32 r).isLt
  cases n
  · simp [State.regN, State.reg16, lowWord_toNat, sizeModulus]; omega
  · simp [State.regN, sizeModulus]; omega

/-- A write of 16 or 32 low bits keeps the bits above. -/
theorem State.setRegN_toNat (s : State) (n : Size) (r : Gpr) (v : Dword) :
    ((s.setRegN n r v).reg32 r).toNat =
      (s.reg32 r).toNat / sizeModulus n * sizeModulus n + v.toNat % sizeModulus n := by
  have h1 := (s.reg32 r).isLt
  have h2 := v.isLt
  cases n
  · simp [State.setRegN, State.setReg16, withLowWord_toNat, lowWord_toNat, sizeModulus]
  · simp [State.setRegN, sizeModulus]; omega

/-- A write of a register changes nothing but the general registers. -/
theorem State.setRegN_only_gpr (s : State) (n : Size) (r : Gpr) (v : Dword) :
    s.setRegN n r v = { s with gpr := (s.setRegN n r v).gpr } := by
  cases n <;> rfl

theorem State.setAccumulator_only_gpr (s : State) (w : LodsWidth) (v : Nat) :
    s.setAccumulator w v = { s with gpr := (s.setAccumulator w v).gpr } := by
  cases w <;> rfl

theorem State.reg32_setAccumulator_other (s : State) (w : LodsWidth) (v : Nat) (r : Gpr) (h : r ≠ .eax) :
    (s.setAccumulator w v).reg32 r = s.reg32 r := by
  cases w
  · exact s.reg32_setReg8_other _ .al r h
  · exact s.reg32_setReg16_other _ .eax r h
  · exact s.reg32_setReg32_other _ .eax r h

/-- AL, AX or EAX written, the bits above kept. -/
theorem State.setAccumulator_toNat (s : State) (w : LodsWidth) (v : Nat) (h : v < 256 ^ w.bytes) :
    ((s.setAccumulator w v).reg32 .eax).toNat =
      (s.reg32 .eax).toNat / 2 ^ (8 * w.bytes) * 2 ^ (8 * w.bytes) + v := by
  cases w
  · simp [LodsWidth.bytes] at h ⊢
    simp [State.setAccumulator, State.setReg8, Reg8.home, Reg8.high, withByte0_toNat]; omega
  · simp [LodsWidth.bytes] at h ⊢
    simp [State.setAccumulator, State.setReg16, withLowWord_toNat]; omega
  · simp [LodsWidth.bytes] at h ⊢
    have := (s.reg32 .eax).isLt
    simp [State.setAccumulator]; omega

/-- The bits of the byte that LAHF delivers: five flags and three free values (R200). -/
theorem State.flagsByte_bits (s : State) :
    s.flagsByte.getLsbD 7 = s.sf ∧ s.flagsByte.getLsbD 6 = s.zf ∧ s.flagsByte.getLsbD 4 = s.af ∧
    s.flagsByte.getLsbD 2 = s.pf ∧ s.flagsByte.getLsbD 0 = s.cf ∧
    s.flagsByte.getLsbD 5 = (Config.draw 1 s.draws).getLsbD 0 ∧
    s.flagsByte.getLsbD 3 = (Config.draw 1 (s.draws + 1)).getLsbD 0 ∧
    s.flagsByte.getLsbD 1 = (Config.draw 1 (s.draws + 2)).getLsbD 0 := by
  unfold State.flagsByte
  generalize s.sf = a
  generalize s.zf = b
  generalize s.af = c
  generalize s.pf = d
  generalize s.cf = e
  generalize Config.draw 1 s.draws = x
  generalize Config.draw 1 (s.draws + 1) = y
  generalize Config.draw 1 (s.draws + 2) = z
  revert a b c d e x y z
  decide

/-! ## The bound of a read -/

theorem State.busRead_lt (s : State) (pas : List Dword) : (s.busRead pas).1 < 256 ^ pas.length := by
  induction pas generalizing s with
  | nil => simp [State.busRead]
  | cons pa rest ih =>
    have h1 := (s.busByte pa).1.isLt
    have h2 := ih (s.busByte pa).2
    simp only [State.busRead, List.length_cons, Nat.pow_succ]
    omega

theorem State.translateRange_length {s t : State} {la : Dword} {access : Access} {rights : Rights} {n : Nat}
    {pas : List Dword} (h : s.translateRange la access rights n = .ok (pas, t)) : pas.length = n := by
  induction n generalizing s la pas with
  | zero => cases h; rfl
  | succ n ih =>
    obtain ⟨pa, s1, rest, -, h2, rfl⟩ := State.translateRange_cons h
    simp [ih h2]

/-- A read of `n` bytes answers a number of `n` bytes. -/
theorem State.linRead_lt {s t : State} {la : Dword} {n : Nat} {access : Access} {rights : Rights} {v : Nat}
    (h : s.linRead la n access rights = .ok (v, t)) : v < 256 ^ n := by
  obtain ⟨pas, s1, h1, h2⟩ := State.linRead_ok h
  have h3 := s1.busRead_lt pas
  rwa [h2, State.translateRange_length h1] at h3

theorem State.segRead_lt {s t : State} {k : SegReg} {off : Dword} {n v : Nat}
    (h : s.segRead k off n = .ok (v, t)) : v < 256 ^ n :=
  State.linRead_lt (State.segRead_ok h).2

/-! ## The attributes loaded from a descriptor -/

/-- The low eight bits of the attributes are the access-rights byte. -/
theorem Desc.attributes_bit (d : Desc) (b : Byte) (j : Nat) (h : j < 8) :
    (d.attributes b).getLsbD j = b.getLsbD j :=
  (BitVec.getLsbD_append (x := d.hi.extractLsb' 20 4) (y := b) (i := j)).trans (by simp [h])

end Sys2Proof.Machine
end

