-- ==== Sys2Proof/Laws/Fetch.lean ====
section
/-!
SUPPORT. Fetching an instruction: what `fetchMore` can answer, in terms of the bytes that execute accesses read.
-/
namespace Sys2Proof.Machine

theorem fetchByte_ok {s t : State} {k : Nat} {b : Byte} :
    s.fetchByte k = .ok (b, t) ↔
      s.linRead (s.seg.cs.base + s.eip + BitVec.ofNat 32 k) 1 .execute s.programRights = .ok (b.toNat, t) := by
  unfold State.fetchByte
  cases h : s.linRead (s.seg.cs.base + s.eip + BitVec.ofNat 32 k) 1 .execute s.programRights with
  | error f => simp
  | ok r =>
    obtain ⟨v, u⟩ := r
    have hv : v < 256 := State.linRead_lt h
    simp only [Except.ok.injEq, Prod.mk.injEq]
    constructor
    · rintro ⟨rfl, rfl⟩; exact ⟨by simp [Nat.mod_eq_of_lt hv], rfl⟩
    · rintro ⟨rfl, rfl⟩; exact ⟨by simp, rfl⟩

theorem State.readsBytes_agrees {s t : State} {k : Nat} {bs : List Byte} (h : s.readsBytes k bs t) :
    AgreeButAccess s t := by
  induction bs generalizing s k with
  | nil => cases h; rfl
  | cons b rest ih =>
    obtain ⟨s1, h1, h2⟩ := h
    exact (State.linRead_agrees h1).trans (ih h2)

theorem State.readsBytes_wf {s t : State} {k : Nat} {bs : List Byte} (h : s.readsBytes k bs t)
    (hm : Memory.wf s.mem = true) : Memory.wf t.mem = true := by
  induction bs generalizing s k with
  | nil => cases h; exact hm
  | cons b rest ih =>
    obtain ⟨s1, h1, h2⟩ := h
    exact ih h2 (State.linRead_wf h1 hm)

/-- What fetching leaves of memory without other agents: marks at the page entries of the bytes it reads. -/
theorem State.readsBytes_marksOnly {s t : State} {k : Nat} {bs : List Byte} (hx : s.cfg.externalAgents = .absent)
    (hm : Memory.wf s.mem = true) (h : s.readsBytes k bs t) :
    MarksOnly s t
      (s.usesEntry (s.seg.cs.base + s.eip + BitVec.ofNat 32 k) bs.length .execute s.programRights) := by
  induction bs generalizing s k with
  | nil => cases h; exact .refl _ _
  | cons b rest ih =>
    obtain ⟨s1, h1, h2⟩ := h
    have hag := State.linRead_agrees h1
    have m1 := State.linRead_marksOnly (by simp) hx hm h1
    have m2 := ih (by rw [hag.cfg]; exact hx) (State.linRead_wf h1 hm) h2
    refine MarksOnly.trans hag (m1.mono fun a hu => ?_) (m2.mono fun a hu => ?_)
    · rw [List.length_cons, State.usesEntry_succ]
      rw [State.usesEntry_succ] at hu
      rcases hu with hu | ⟨j, hj, -⟩
      · exact .inl hu
      · omega
    · rw [State.usesEntry_alike m1.1 hag.cr3, hag.seg, hag.eip, hag.programRights, ofNat_succ_add] at hu
      rw [List.length_cons, State.usesEntry_succ]
      refine .inr ?_
      rw [BitVec.add_assoc, BitVec.add_comm _ 1#32, ← BitVec.add_assoc]
      exact hu

/-- Without other agents, and without the page walk, fetching changes nothing. -/
theorem State.readsBytes_unwalked {s t : State} {k : Nat} {bs : List Byte} (hx : s.cfg.externalAgents = .absent)
    (hw : s.walks = false) (h : s.readsBytes k bs t) : t = s := by
  have range : ∀ (n : Nat) (la : Dword) (access : Access) (rights : Rights) (pas : List Dword) (u : State),
      s.translateRange la access rights n = .ok (pas, u) → u = s := by
    intro n
    induction n with
    | zero => intro la access rights pas u h; cases h; rfl
    | succ n ih =>
      intro la access rights pas u h
      obtain ⟨pa, s1, rest, h1, h2, -⟩ := State.translateRange_cons h
      rw [State.translate_unwalked hw h1] at h2
      exact ih _ _ _ _ _ h2
  induction bs generalizing k with
  | nil => exact h
  | cons b rest ih =>
    obtain ⟨s1, h1, h2⟩ := h
    obtain ⟨pas, h3, -⟩ := State.linRead_ok_absent hx h1
    rw [range _ _ _ _ _ _ h3] at h2
    exact ih h2

/-- In a quiet state the bytes that stand there are the bytes read, and reading changes nothing. -/
theorem State.readsBytes_quiet {s : State} (hq : s.quiet = true) (k : Nat) (bs : List Byte) (t : State) :
    s.readsBytes k bs t ↔ Memory.holds s.mem (s.seg.cs.base + s.eip + BitVec.ofNat 32 k) bs ∧ t = s := by
  induction bs generalizing k with
  | nil => exact ⟨fun h => ⟨trivial, h⟩, fun h => h.2⟩
  | cons b rest ih =>
    have hstep : s.seg.cs.base + s.eip + BitVec.ofNat 32 (k + 1) = s.seg.cs.base + s.eip + BitVec.ofNat 32 k + 1#32 := by
      rw [BitVec.ofNat_add, BitVec.add_assoc, BitVec.add_assoc, BitVec.add_assoc]
    constructor
    · rintro ⟨s1, h1, h2⟩
      rw [State.linRead_quiet hq] at h1
      simp only [Except.ok.injEq, Prod.mk.injEq] at h1
      obtain ⟨h1, rfl⟩ := h1
      obtain ⟨h3, rfl⟩ := (ih (k + 1)).1 h2
      refine ⟨⟨?_, hstep ▸ h3⟩, rfl⟩
      simp only [Memory.item] at h1
      exact BitVec.eq_of_toNat_eq (by omega)
    · rintro ⟨⟨h1, h2⟩, rfl⟩
      refine ⟨t, ?_, (ih (k + 1)).2 ⟨hstep ▸ h2, rfl⟩⟩
      rw [State.linRead_quiet hq]
      simp [Memory.item, h1]

/-- What fetching answers where it makes an instruction: the bytes it read, of which no fewer make one. -/
theorem State.fetchMore_ok {dflt : Size} {room : Nat} {s t : State} {bs : List Byte} {i : Instr}
    (h : s.fetchMore dflt room bs = .ok i t) (hbs : decode dflt bs = .more) :
    ∃ new, new.length ≤ room ∧ s.readsBytes bs.length new t ∧ decode dflt (bs ++ new) = .ok i [] := by
  induction room generalizing s bs with
  | zero => cases h
  | succ room ih =>
    unfold State.fetchMore at h
    split at h
    · cases h
    · rename_i b s1 h1
      split at h
      · rename_i j rest hd
        cases h
        refine ⟨[b], by simp, ⟨t, fetchByte_ok.1 h1, rfl⟩, ?_⟩
        rw [hd, decode_snoc_ok hbs hd]
      · cases h
      · rename_i hd
        obtain ⟨new, hl, hr, hdec⟩ := ih h hd
        refine ⟨b :: new, by simp; omega, ⟨s1, fetchByte_ok.1 h1, ?_⟩, by simpa using hdec⟩
        simpa using hr

/-- Fetching bytes that make an instruction, all within the room. -/
theorem State.fetchMore_reads {dflt : Size} {room : Nat} {s t : State} {bs new : List Byte} {i : Instr}
    (hr : s.readsBytes bs.length new t) (hl : new.length ≤ room) (hn : new ≠ [])
    (hd : decode dflt (bs ++ new) = .ok i []) : s.fetchMore dflt room bs = .ok i t := by
  induction new generalizing s bs room with
  | nil => exact absurd rfl hn
  | cons b new ih =>
    obtain ⟨s1, h1, h2⟩ := hr
    cases room with
    | zero => simp at hl
    | succ room =>
      unfold State.fetchMore
      rw [fetchByte_ok.2 h1]
      dsimp only
      by_cases hnew : new = []
      · subst hnew; cases h2; rw [hd]
      · have hd' : decode dflt ((bs ++ [b]) ++ new) = .ok i [] := by simpa using hd
        rw [decode_take_more dflt (bs ++ [b]) new i hnew hd']
        exact ih (by simpa using h2) (by simpa using hl) hnew hd'

/-- Fetching bytes that make nothing yet goes on with what is left of the room. -/
theorem State.fetchMore_append {dflt : Size} {room : Nat} {s t : State} {bs new : List Byte}
    (hr : s.readsBytes bs.length new t) (hd : decode dflt (bs ++ new) = .more) :
    s.fetchMore dflt (new.length + room) bs = t.fetchMore dflt room (bs ++ new) := by
  induction new generalizing s bs with
  | nil => cases hr; simp
  | cons b new ih =>
    obtain ⟨s1, h1, h2⟩ := hr
    have hd' : decode dflt ((bs ++ [b]) ++ new) = .more := by simpa using hd
    have hmore : decode dflt (bs ++ [b]) = .more := by
      cases hb : decode dflt (bs ++ [b]) with
      | more => rfl
      | refuse r => rw [(decode_extends dflt).2 _ new r hb] at hd'; cases hd'
      | ok j rest => rw [(decode_extends dflt).1 _ new j rest hb] at hd'; cases hd'
    rw [List.length_cons, Nat.succ_add, State.fetchMore, fetchByte_ok.2 h1]
    dsimp only
    rw [hmore]
    dsimp only
    rw [ih (by simpa using h2) hd', List.append_assoc]
    rfl

/-- Fetching bytes that make nothing yet and fill the room: the byte after them is beyond the limit. -/
theorem State.fetchMore_beyond {dflt : Size} {s t : State} {bs new : List Byte}
    (hr : s.readsBytes bs.length new t) (hd : decode dflt (bs ++ new) = .more) :
    s.fetchMore dflt new.length bs = .fault (takeException s (.gp 0#32)) := by
  rw [← Nat.add_zero new.length, State.fetchMore_append hr hd, State.fetchMore, (readsBytes_agrees hr).takeException]

/-- Fetching bytes that make nothing yet, and then one whose read raises. -/
theorem State.fetchMore_raises {dflt : Size} {room : Nat} {s t : State} {bs new : List Byte} {f : Fault}
    (hr : s.readsBytes bs.length new t) (hd : decode dflt (bs ++ new) = .more) (hl : new.length < room)
    (hf : t.linRead (t.seg.cs.base + t.eip + BitVec.ofNat 32 (bs ++ new).length) 1 .execute t.programRights =
      .error f) : s.fetchMore dflt room bs = .fault f := by
  obtain ⟨k, rfl⟩ : ∃ k, room = new.length + (k + 1) := ⟨room - new.length - 1, by omega⟩
  rw [State.fetchMore_append hr hd, State.fetchMore, State.fetchByte, hf]

/-- Fetching bytes that the decoder refuses, all within the room. -/
theorem State.fetchMore_refuses {dflt : Size} {room : Nat} {s t : State} {bs new : List Byte} {r : DecodeRefusal}
    (hr : s.readsBytes bs.length new t) (hl : new.length ≤ room) (hbs : decode dflt bs = .more)
    (hd : decode dflt (bs ++ new) = .refuse r) : s.fetchMore dflt room bs = .refused (.undecoded r) := by
  induction new generalizing s bs room with
  | nil => rw [List.append_nil, hbs] at hd; cases hd
  | cons b new ih =>
    obtain ⟨s1, h1, h2⟩ := hr
    obtain ⟨k, rfl⟩ : ∃ k, room = k + 1 := ⟨room - 1, by simp at hl; omega⟩
    have hd' : decode dflt ((bs ++ [b]) ++ new) = .refuse r := by simpa using hd
    rw [State.fetchMore, fetchByte_ok.2 h1]
    dsimp only
    cases hb : decode dflt (bs ++ [b]) with
    | more => exact ih (by simpa using h2) (by simpa using hl) hb hd'
    | refuse r' => rw [(decode_extends dflt).2 _ new r' hb] at hd'; cases hd'; rfl
    | ok j rest => rw [(decode_extends dflt).1 _ new j rest hb] at hd'; cases hd'

theorem decode_nil (dflt : Size) : decode dflt [] = .more := rfl

theorem State.bytesWithinLimit_le {s : State} {n : Nat} (h : s.eip.toNat + n ≤ s.seg.cs.limit.toNat + 1) :
    n ≤ s.bytesWithinLimit := by
  unfold State.bytesWithinLimit; omega

/-- The fetch of bytes within the limit that make an instruction. -/
theorem State.fetch_reads {s t : State} {bs : List Byte} {i : Instr} (hr : s.readsBytes 0 bs t)
    (hl : s.eip.toNat + bs.length ≤ s.seg.cs.limit.toNat + 1) (hd : decode s.dflt bs = .ok i []) :
    s.fetch = .ok i t := by
  have hn : bs ≠ [] := by rintro rfl; rw [decode_nil] at hd; cases hd
  exact State.fetchMore_reads (bs := []) hr (State.bytesWithinLimit_le hl) hn hd

/-- What a step that answers a next state has done. -/
theorem step_next {s t : State} (h : step s = .next t) :
    ∃ i bs s1, decode s.dflt bs = .ok i [] ∧ bs.length ≤ s.bytesWithinLimit ∧ s.readsBytes 0 bs s1 ∧
      s.peJustSet = false ∧ exec i s1 = .next t := by
  unfold step at h
  split at h
  · cases h
  · cases h
  · rename_i i s1 h1
    obtain ⟨bs, hl, hr, hd⟩ := State.fetchMore_ok h1 (decode_nil _)
    have hag := State.readsBytes_agrees hr
    split at h
    · cases h
    · rename_i hp
      exact ⟨i, bs, s1, by simpa using hd, hl, hr, by rw [← hag.peJustSet]; simpa using hp, h⟩

end Sys2Proof.Machine
end

