-- ==== Sys2Proof/Laws/PerInstr.lean ====
section
/-!
SUPPORT. Statements about every instruction as syntax, one lemma a constructor.

`EncodeFits`: the encoding of a well-formed instruction has a byte and at most `maxLength` bytes, so that a fetch
of `maxLength` bytes always reaches its end (spec/30_encoding.md R140, R142).
-/
namespace Sys2Proof.Laws

open Sys2Proof

theorem prefixes_bytes_length (p : Prefixes) : p.bytes.length ≤ 3 := by
  obtain ⟨o, a, k⟩ := p
  cases o <;> cases a <;> cases k <;> simp [Prefixes.bytes]

theorem memOp_tail_length (m : MemOp) : m.tail.length ≤ 5 := by
  have h16 : ∀ d : Disp16, d.bytes.length ≤ 2 := fun d => by cases d <;> simp [Disp16.bytes, wordBytes]
  have h32 : ∀ d : Disp32, d.bytes.length ≤ 4 := fun d => by cases d <;> simp [Disp32.bytes, dwordBytes]
  cases m with
  | based16 b d => have := h16 d; simp only [MemOp.tail]; omega
  | direct16 d => simp [MemOp.tail, wordBytes]
  | based32 b d => have := h32 d; simp only [MemOp.tail]; omega
  | direct32 d => simp [MemOp.tail, dwordBytes]
  | sib b x d => have := h32 d; simp only [MemOp.tail, List.length_cons]; omega
  | sibDirect x d => simp [MemOp.tail, dwordBytes]

theorem regMem_bytes_length (reg : BitVec 3) (rm : RegMem) : (rm.bytes reg).length ≤ 6 := by
  cases rm with
  | reg r => simp [RegMem.bytes]
  | mem m => have := memOp_tail_length m; simp only [RegMem.bytes, List.length_cons]; omega

/-- Without F0 an encoding has at most eleven bytes. -/
theorem encode_length_of_takesLock (i : Instr) (h : i.takesLock = true) :
    0 < (encode i).length ∧ (encode i).length ≤ 11 := by
  cases i
  case lock body => simp [Instr.takesLock] at h
  case lodsb p rep | lodsw p rep | lodsd p rep =>
    simp only [Instr.takesLock, Bool.not_eq_true'] at h
    subst h
    have := prefixes_bytes_length p
    simp [encode, repBytes]; omega
  case lahf p | leave16 p | leave32 p | loop p _ | loope p _ | loopne p _ =>
    have := prefixes_bytes_length p
    simp [encode]; omega
  case lgdt p rm | lidt p rm | lldt p rm | lmsw p rm | ltr p rm =>
    have := prefixes_bytes_length p
    have h1 := regMem_bytes_length 2#3 rm
    have h2 := regMem_bytes_length 3#3 rm
    have h3 := regMem_bytes_length 6#3 rm
    simp only [encode, List.length_append, List.length_cons]; omega
  all_goals
    rename_i p r rm
    have := prefixes_bytes_length p
    have h1 := regMem_bytes_length r.toBits rm
    simp only [encode, List.length_append, List.length_cons]; omega

def EncodeFits.Statement (i : Instr) : Prop :=
  ∀ dflt, i.wf dflt = true → 0 < (encode i).length ∧ (encode i).length ≤ maxLength

theorem EncodeFits.of_takesLock {i : Instr} (h : i.takesLock = true) : EncodeFits.Statement i := fun _ _ =>
  ⟨(encode_length_of_takesLock i h).1, Nat.le_trans (encode_length_of_takesLock i h).2 (by decide)⟩

theorem EncodeFits.lahf (p : Prefixes) : EncodeFits.Statement (.lahf p) :=
  EncodeFits.of_takesLock rfl
theorem EncodeFits.lar16 (p : Prefixes) (dst : Gpr) (rm : RegMem) : EncodeFits.Statement (.lar16 p dst rm) :=
  EncodeFits.of_takesLock rfl
theorem EncodeFits.lar32 (p : Prefixes) (dst : Gpr) (rm : RegMem) : EncodeFits.Statement (.lar32 p dst rm) :=
  EncodeFits.of_takesLock rfl
theorem EncodeFits.lea16 (p : Prefixes) (dst : Gpr) (rm : RegMem) : EncodeFits.Statement (.lea16 p dst rm) :=
  EncodeFits.of_takesLock rfl
theorem EncodeFits.lea32 (p : Prefixes) (dst : Gpr) (rm : RegMem) : EncodeFits.Statement (.lea32 p dst rm) :=
  EncodeFits.of_takesLock rfl
theorem EncodeFits.leave16 (p : Prefixes) : EncodeFits.Statement (.leave16 p) :=
  EncodeFits.of_takesLock rfl
theorem EncodeFits.leave32 (p : Prefixes) : EncodeFits.Statement (.leave32 p) :=
  EncodeFits.of_takesLock rfl
theorem EncodeFits.lgdt (p : Prefixes) (rm : RegMem) : EncodeFits.Statement (.lgdt p rm) :=
  EncodeFits.of_takesLock rfl
theorem EncodeFits.lidt (p : Prefixes) (rm : RegMem) : EncodeFits.Statement (.lidt p rm) :=
  EncodeFits.of_takesLock rfl
theorem EncodeFits.lds16 (p : Prefixes) (dst : Gpr) (rm : RegMem) : EncodeFits.Statement (.lds16 p dst rm) :=
  EncodeFits.of_takesLock rfl
theorem EncodeFits.lds32 (p : Prefixes) (dst : Gpr) (rm : RegMem) : EncodeFits.Statement (.lds32 p dst rm) :=
  EncodeFits.of_takesLock rfl
theorem EncodeFits.lss16 (p : Prefixes) (dst : Gpr) (rm : RegMem) : EncodeFits.Statement (.lss16 p dst rm) :=
  EncodeFits.of_takesLock rfl
theorem EncodeFits.lss32 (p : Prefixes) (dst : Gpr) (rm : RegMem) : EncodeFits.Statement (.lss32 p dst rm) :=
  EncodeFits.of_takesLock rfl
theorem EncodeFits.les16 (p : Prefixes) (dst : Gpr) (rm : RegMem) : EncodeFits.Statement (.les16 p dst rm) :=
  EncodeFits.of_takesLock rfl
theorem EncodeFits.les32 (p : Prefixes) (dst : Gpr) (rm : RegMem) : EncodeFits.Statement (.les32 p dst rm) :=
  EncodeFits.of_takesLock rfl
theorem EncodeFits.lfs16 (p : Prefixes) (dst : Gpr) (rm : RegMem) : EncodeFits.Statement (.lfs16 p dst rm) :=
  EncodeFits.of_takesLock rfl
theorem EncodeFits.lfs32 (p : Prefixes) (dst : Gpr) (rm : RegMem) : EncodeFits.Statement (.lfs32 p dst rm) :=
  EncodeFits.of_takesLock rfl
theorem EncodeFits.lgs16 (p : Prefixes) (dst : Gpr) (rm : RegMem) : EncodeFits.Statement (.lgs16 p dst rm) :=
  EncodeFits.of_takesLock rfl
theorem EncodeFits.lgs32 (p : Prefixes) (dst : Gpr) (rm : RegMem) : EncodeFits.Statement (.lgs32 p dst rm) :=
  EncodeFits.of_takesLock rfl
theorem EncodeFits.lldt (p : Prefixes) (rm : RegMem) : EncodeFits.Statement (.lldt p rm) :=
  EncodeFits.of_takesLock rfl
theorem EncodeFits.lmsw (p : Prefixes) (rm : RegMem) : EncodeFits.Statement (.lmsw p rm) :=
  EncodeFits.of_takesLock rfl
theorem EncodeFits.lock (body : Instr) : EncodeFits.Statement (.lock body) := by
  intro dflt h
  simp only [Instr.wf, Bool.and_eq_true] at h
  have := encode_length_of_takesLock body h.1
  simp only [encode, List.length_cons, maxLength]
  omega
theorem EncodeFits.lodsb (p : Prefixes) (rep : Bool) : EncodeFits.Statement (.lodsb p rep) := by
  intro dflt _
  have := prefixes_bytes_length p
  cases rep <;> simp [encode, repBytes, maxLength] <;> omega
theorem EncodeFits.lodsw (p : Prefixes) (rep : Bool) : EncodeFits.Statement (.lodsw p rep) := by
  intro dflt _
  have := prefixes_bytes_length p
  cases rep <;> simp [encode, repBytes, maxLength] <;> omega
theorem EncodeFits.lodsd (p : Prefixes) (rep : Bool) : EncodeFits.Statement (.lodsd p rep) := by
  intro dflt _
  have := prefixes_bytes_length p
  cases rep <;> simp [encode, repBytes, maxLength] <;> omega
theorem EncodeFits.loop (p : Prefixes) (rel8 : Byte) : EncodeFits.Statement (.loop p rel8) :=
  EncodeFits.of_takesLock rfl
theorem EncodeFits.loope (p : Prefixes) (rel8 : Byte) : EncodeFits.Statement (.loope p rel8) :=
  EncodeFits.of_takesLock rfl
theorem EncodeFits.loopne (p : Prefixes) (rel8 : Byte) : EncodeFits.Statement (.loopne p rel8) :=
  EncodeFits.of_takesLock rfl
theorem EncodeFits.lsl16 (p : Prefixes) (dst : Gpr) (rm : RegMem) : EncodeFits.Statement (.lsl16 p dst rm) :=
  EncodeFits.of_takesLock rfl
theorem EncodeFits.lsl32 (p : Prefixes) (dst : Gpr) (rm : RegMem) : EncodeFits.Statement (.lsl32 p dst rm) :=
  EncodeFits.of_takesLock rfl
theorem EncodeFits.ltr (p : Prefixes) (rm : RegMem) : EncodeFits.Statement (.ltr p rm) :=
  EncodeFits.of_takesLock rfl

end Sys2Proof.Laws
end

