-- ==== Sys2Proof/Tests/Slice0.lean ====
section
/-!
SUPPORT. The model's own tests. Encodings and expected results are those of spec/95_test_vectors.md (E, L, V, GD, S,
LL, W, O, LP, Q, TR, M, X and T items, named in each docstring), which follow from the rules; a test that names no
item is computed by hand from the rule it names. The last part shows for every statement with hypotheses a state and
operands that meet them.
-/
namespace Sys2Proof.Tests

open Sys2Proof.Machine

/-! ## Well-formed terms: an ill-formed term for each check -/

def addr32 : Prefixes := { Prefixes.empty with addrSize := true }
def data32 : Prefixes := { Prefixes.empty with opSize := true }

/-- ESP as an index (R147). -/
theorem test_wf_esp_index : (MemOp.sib .eax (some (.esp, .x2)) .zero).wf .w32 = false := by decide
/-- [BP] without a displacement (R146). -/
theorem test_wf_bp_zero : (MemOp.based16 .bp .zero).wf .w16 = false := by decide
/-- A base of ESP without a SIB byte (R147). -/
theorem test_wf_esp_base : (MemOp.based32 .esp .zero).wf .w32 = false := by decide
/-- [EBP] without a displacement, without and with a SIB byte (R147). -/
theorem test_wf_ebp_zero : (MemOp.based32 .ebp .zero).wf .w32 = false ∧
    (MemOp.sib .ebp none .zero).wf .w32 = false := by decide
/-- ESP as the index of a form without a base (R147). -/
theorem test_wf_esp_index_direct : (MemOp.sibDirect (some (.esp, .x1)) 0#32).wf .w32 = false := by decide
/-- A form of the other address size (R146, R147). -/
theorem test_wf_address_size : (Instr.lgdt .empty (.mem (.direct32 0#32))).wf .w16 = false ∧
    (Instr.lgdt addr32 (.mem (.direct16 0#16))).wf .w16 = false := by decide
/-- A row of the other operand size (R148, R154). -/
theorem test_wf_operand_size : (Instr.lar32 .empty .eax (.reg .ecx)).wf .w16 = false ∧
    (Instr.lar16 data32 .eax (.reg .ecx)).wf .w16 = false ∧ (Instr.leave32 .empty).wf .w16 = false ∧
    (Instr.leave16 .empty).wf .w32 = false ∧ (Instr.lodsd .empty false).wf .w16 = false ∧
    (Instr.lodsw .empty false).wf .w32 = false := by decide
/-- F0 before F0, before F3, and before an ill-formed instruction (R142). -/
theorem test_wf_lock : (Instr.lock (.lock (.lahf .empty))).wf .w16 = false ∧
    (Instr.lock (.lodsb .empty true)).wf .w16 = false ∧ (Instr.lock (.leave32 .empty)).wf .w16 = false := by decide

/-! ## Decoding: a word of every instruction, from the spec's encoding -/

/-- Bytes written as numbers. -/
def bytes (bs : List Nat) : List Byte := bs.map fun b => BitVec.ofNat 8 b

/-- E1: 9F. -/
theorem test_decode_lahf : decode .w16 (bytes [0x9F]) = .ok (.lahf .empty) [] := by decide
/-- E21: 0F 02, ModR/M 11 000 001, with 66h in 32-bit code. -/
theorem test_decode_lar16 : decode .w32 (bytes [0x66, 0x0F, 0x02, 0b11000001]) =
    .ok (.lar16 data32 .eax (.reg .ecx)) [] := by decide
/-- E21: 0F 02, ModR/M 11 000 001 and 00 000 011. -/
theorem test_decode_lar32 : decode .w32 (bytes [0x0F, 0x02, 0b11000001]) = .ok (.lar32 .empty .eax (.reg .ecx)) [] ∧
    decode .w32 (bytes [0x0F, 0x02, 0b00000011]) = .ok (.lar32 .empty .eax (.mem (.based32 .ebx .zero))) [] := by decide
/-- E2: 8D, ModR/M 01 110 111, disp8 04; E3 with disp16; E4 with disp16 alone. -/
theorem test_decode_lea16 :
    decode .w16 (bytes [0x8D, 0b01110111, 0x04]) = .ok (.lea16 .empty .esi (.mem (.based16 .bx (.disp8 4#8)))) [] ∧
    decode .w16 (bytes [0x8D, 0b10011011, 0x34, 0x12]) =
      .ok (.lea16 .empty .ebx (.mem (.based16 .bpDi (.disp16 0x1234#16)))) [] ∧
    decode .w16 (bytes [0x8D, 0b00001110, 0x34, 0x12]) = .ok (.lea16 .empty .ecx (.mem (.direct16 0x1234#16))) [] := by
  decide
/-- E8: SIB 00 100 100; E9: SIB 11 001 101; E10: disp32 alone; E11: SIB 10 110 101 without a base. -/
theorem test_decode_lea32 :
    decode .w32 (bytes [0x8D, 0b01000100, 0b00100100, 0x04]) =
      .ok (.lea32 .empty .eax (.mem (.sib .esp none (.disp8 4#8)))) [] ∧
    decode .w32 (bytes [0x8D, 0b01000100, 0b11001101, 0x00]) =
      .ok (.lea32 .empty .eax (.mem (.sib .ebp (some (.ecx, .x8)) (.disp8 0#8)))) [] ∧
    decode .w32 (bytes [0x8D, 0b00011101, 0x78, 0x56, 0x34, 0x12]) =
      .ok (.lea32 .empty .ebx (.mem (.direct32 0x12345678#32))) [] ∧
    decode .w32 (bytes [0x8D, 0b00000100, 0b10110101, 0x10, 0x00, 0x00, 0x00]) =
      .ok (.lea32 .empty .eax (.mem (.sibDirect (some (.esi, .x4)) 0x10#32))) [] := by decide
/-- E31: C9 and 66 C9. -/
theorem test_decode_leave : decode .w16 (bytes [0xC9]) = .ok (.leave16 .empty) [] ∧
    decode .w16 (bytes [0x66, 0xC9]) = .ok (.leave32 data32) [] := by decide
/-- E25: 0F 01, ModR/M 00 010 110 and 00 011 111. -/
theorem test_decode_lgdt_lidt :
    decode .w16 (bytes [0x0F, 0x01, 0b00010110, 0x00, 0x05]) = .ok (.lgdt .empty (.mem (.direct16 0x0500#16))) [] ∧
    decode .w16 (bytes [0x0F, 0x01, 0b00011111]) = .ok (.lidt .empty (.mem (.based16 .bx .zero))) [] := by decide
/-- E14 to E18: one word of every full-pointer load with a 16-bit operand. -/
theorem test_decode_full_pointer16 :
    decode .w16 (bytes [0xC5, 0b00110111]) = .ok (.lds16 .empty .esi (.mem (.based16 .bx .zero))) [] ∧
    decode .w16 (bytes [0xC4, 0b01111000, 0x10]) = .ok (.les16 .empty .edi (.mem (.based16 .bxSi (.disp8 0x10#8)))) [] ∧
    decode .w16 (bytes [0x0F, 0xB2, 0b00100110, 0x34, 0x12]) =
      .ok (.lss16 .empty .esp (.mem (.direct16 0x1234#16))) [] ∧
    decode .w16 (bytes [0x0F, 0xB4, 0b01000110, 0x00]) =
      .ok (.lfs16 .empty .eax (.mem (.based16 .bp (.disp8 0#8)))) [] ∧
    decode .w16 (bytes [0x0F, 0xB5, 0b01001101, 0xFE]) =
      .ok (.lgs16 .empty .ecx (.mem (.based16 .di (.disp8 0xFE#8)))) [] := by decide
/-- E19: one word of every full-pointer load with a 32-bit operand. -/
theorem test_decode_full_pointer32 :
    decode .w32 (bytes [0xC5, 0b00110011]) = .ok (.lds32 .empty .esi (.mem (.based32 .ebx .zero))) [] ∧
    decode .w32 (bytes [0xC4, 0b01111110, 0x08]) = .ok (.les32 .empty .edi (.mem (.based32 .esi (.disp8 8#8)))) [] ∧
    decode .w32 (bytes [0x0F, 0xB2, 0b00100011]) = .ok (.lss32 .empty .esp (.mem (.based32 .ebx .zero))) [] ∧
    decode .w32 (bytes [0x0F, 0xB4, 0b00011001]) = .ok (.lfs32 .empty .ebx (.mem (.based32 .ecx .zero))) [] ∧
    decode .w32 (bytes [0x0F, 0xB5, 0b01010101, 0xFC]) =
      .ok (.lgs32 .empty .edx (.mem (.based32 .ebp (.disp8 0xFC#8)))) [] := by decide
/-- E23, E24, E27: ModR/M 11 010 000, 11 011 110, 11 110 000. -/
theorem test_decode_lldt_ltr_lmsw :
    decode .w32 (bytes [0x0F, 0x00, 0b11010000]) = .ok (.lldt .empty (.reg .eax)) [] ∧
    decode .w32 (bytes [0x0F, 0x00, 0b11011110]) = .ok (.ltr .empty (.reg .esi)) [] ∧
    decode .w16 (bytes [0x0F, 0x01, 0b11110000]) = .ok (.lmsw .empty (.reg .eax)) [] := by decide
/-- E35: F0 9F; an F0 after another prefix byte (R330). -/
theorem test_decode_lock : decode .w16 (bytes [0xF0, 0x9F]) = .ok (.lock (.lahf .empty)) [] ∧
    decode .w16 (bytes [0x66, 0xF0, 0xC9]) = .ok (.lock (.leave32 data32)) [] := by decide
/-- E28: AC, AD, 67 66 AD, 26 AD, F3 AC. -/
theorem test_decode_lods :
    decode .w16 (bytes [0xAC]) = .ok (.lodsb .empty false) [] ∧ decode .w16 (bytes [0xAD]) = .ok (.lodsw .empty false) [] ∧
    decode .w16 (bytes [0x67, 0x66, 0xAD]) = .ok (.lodsd { data32 with addrSize := true } false) [] ∧
    decode .w16 (bytes [0x26, 0xAD]) = .ok (.lodsw { Prefixes.empty with seg := some .es } false) [] ∧
    decode .w16 (bytes [0xF3, 0xAC]) = .ok (.lodsb .empty true) [] := by decide
/-- E30: E2 FD, E1 EE, E0 10. -/
theorem test_decode_loop : decode .w16 (bytes [0xE2, 0xFD]) = .ok (.loop .empty 0xFD#8) [] ∧
    decode .w16 (bytes [0xE1, 0xEE]) = .ok (.loope .empty 0xEE#8) [] ∧
    decode .w16 (bytes [0xE0, 0x10]) = .ok (.loopne .empty 0x10#8) [] := by decide
/-- E22: 0F 03, ModR/M 01 010 110 with 66h, and 11 010 000. -/
theorem test_decode_lsl :
    decode .w32 (bytes [0x66, 0x0F, 0x03, 0b01010110, 0x08]) =
      .ok (.lsl16 data32 .edx (.mem (.based32 .esi (.disp8 8#8)))) [] ∧
    decode .w32 (bytes [0x0F, 0x03, 0b11010000]) = .ok (.lsl32 .empty .edx (.reg .eax)) [] := by decide
/-- E36 to E38, E40: what the decoder refuses, by name. -/
theorem test_decode_refused :
    decode .w16 (bytes [0x66, 0x66, 0xAD]) = .refuse .repeatedPrefix ∧
    decode .w16 (bytes [0x26, 0x3E, 0xAC]) = .refuse .repeatedPrefix ∧
    decode .w16 (bytes [0xF0, 0xF3, 0xAC]) = .refuse .repeatedPrefix ∧
    decode .w16 (bytes [0xF3, 0x9F]) = .refuse .repBeforeNonLods ∧
    decode .w16 (bytes [0xF2, 0xAC]) = .refuse .repneUnsupported ∧
    decode .w16 (bytes [0x90]) = .refuse .opcodeNotInScope ∧
    decode .w16 (bytes [0x0F, 0x00, 0xC0]) = .refuse .opcodeNotInScope ∧
    decode .w16 (bytes [0x0F, 0x01, 0xE0]) = .refuse .opcodeNotInScope ∧
    decode .w16 (bytes [0x0F, 0xB3, 0x00]) = .refuse .opcodeNotInScope ∧
    decode .w32 (bytes [0x8D, 0x04, 0b01100000]) = .refuse .scaledMissingIndex := by decide
/-- R430: what comes twice is refused when the instruction's bytes are all read, and other refusals stay theirs. -/
theorem test_decode_repeated_prefix :
    decode .w16 (bytes [0x66, 0x66, 0x8D]) = .more ∧
    decode .w16 (bytes [0x66, 0x66, 0x8D, 0x06, 0x34]) = .more ∧
    decode .w16 (bytes [0x66, 0x66, 0x8D, 0x06, 0x34, 0x12]) = .refuse .repeatedPrefix ∧
    decode .w16 (bytes [0x67, 0x67, 0x8D, 0x05, 1, 2, 3, 4]) = .refuse .repeatedPrefix ∧
    decode .w16 (bytes [0x66, 0x66, 0x90]) = .refuse .opcodeNotInScope := by decide
/-- A word of the opcode table, byte 0 of the instruction in its low bits: LES, C4 with ModR/M 01 111 000. -/
theorem test_table_word : decodeTableWord 24 0x1078C4 =
    some (.les16 .empty .edi (.mem (.based16 .bxSi (.disp8 0x10#8)))) := by decide

/-! ## One step on a small state -/

/-- Bytes at consecutive addresses. -/
def fill (m : Memory) (a : Nat) : List Nat → Memory
  | [] => m
  | b :: rest => fill (Memory.write m a (BitVec.ofNat 8 b)) (a + 1) rest

/-- A state with bytes stored, and the bytes of an instruction at CS:EIP. -/
def with_ (s : State) (a : Nat) (bs : List Nat) : State := { s with mem := fill s.mem a bs }
def code (s : State) (bs : List Nat) : State := with_ s (s.seg.cs.base + s.eip).toNat bs

/-- A general register given. -/
def reg (r : Gpr) (v : Nat) (s : State) : State := s.setReg32 r (BitVec.ofNat 32 v)

/-- Fixture RM16: Real Address Mode; CS.sel 0100h, EIP 0100h, DS, ES, FS, GS at 0 and SS at 2000h. -/
def real : State :=
  { State.reset with
    eip := 0x100#32
    cr0 := 0x10#32
    seg :=
      { State.reset.seg with
        cs := { sel := 0x100#16, base := 0x1000#32, limit := 0xFFFF#32, ar := 0x09B#12, valid := true }
        ss := { SegCache.afterReset with sel := 0x2000#16, base := 0x20000#32 } } }

/-- Flat segments of fixture PM32. -/
def flat (sel : Word) (ar : BitVec 12) : SegCache :=
  { sel := sel, base := 0#32, limit := 0xFFFFFFFF#32, ar := ar, valid := true }

/-- Fixture PM32: flat 32-bit Protected Mode at CPL 0, the GDT at 1000h with entries stored as needed. -/
def prot : State :=
  { State.reset with
    eip := 0x10000#32
    cr0 := 0x11#32
    gdtr := { base := 0x1000#32, limit := 0x6F#16 }
    seg :=
      { cs := flat 8#16 0xC9B#12
        ss := flat 0x10#16 0xC93#12
        ds := flat 0x10#16 0xC93#12
        es := flat 0x10#16 0xC93#12
        fs := { SegCache.afterReset with valid := false }
        gs := { SegCache.afterReset with valid := false } } }

/-- Fixture PM32-U: the same at CPL 3. -/
def user : State :=
  { prot with
    seg :=
      { prot.seg with
        cs := flat 0x4B#16 0xCFB#12, ss := flat 0x53#16 0xCF3#12, ds := flat 0x53#16 0xCF3#12
        es := flat 0x53#16 0xCF3#12 } }

/-- Virtual 8086 Mode with the segments of `real`. -/
def v86 : State := { real with cr0 := 0x11#32, eflags := 0x20002#32 }

/-- Entries of table G1 at the GDT of `prot`: their bytes, low address first. -/
def codeEntry (s : State) : State := with_ s 0x1008 [0xFF, 0xFF, 0x00, 0x00, 0x00, 0x9A, 0xCF, 0x00]
def dataEntry (s : State) : State := with_ s 0x1010 [0xFF, 0xFF, 0x00, 0x00, 0x00, 0x92, 0xCF, 0x00]
def tssEntry (s : State) : State := with_ s 0x1020 [0x67, 0x00, 0x00, 0x50, 0x00, 0x89, 0x00, 0x00]
def ldtEntry (s : State) : State := with_ s 0x1028 [0x3F, 0x00, 0x00, 0x20, 0x01, 0x82, 0x00, 0x00]
def gateEntry (s : State) : State := with_ s 0x1030 [0x34, 0x12, 0x08, 0x00, 0x00, 0xEC, 0x01, 0x00]
def absentEntry (s : State) : State := with_ s 0x1040 [0xFF, 0x00, 0x00, 0x00, 0x00, 0x12, 0xC0, 0x00]
def downEntry (s : State) : State := with_ s 0x1068 [0xFF, 0x0F, 0x00, 0x00, 0x03, 0x96, 0x40, 0x00]

/-- A step answers a next state of which a test holds. -/
def steps (s : State) (f : State → Bool) : Bool :=
  match step s with
  | .next t => f t
  | _ => false

/-- A step ends in an exception: vector, error code and address. -/
def faults (s : State) : Option (Nat × Option Dword × Dword) :=
  match step s with
  | .fault f => some (f.vector, f.code, f.pc)
  | _ => none

/-! ### LAHF, LEA, LEAVE -/

/-- A3: SF, AF, CF set; AH's defined bits are 91h. -/
theorem test_lahf : ∃ t, exec (.lahf .empty) (reg .eax 0x12345678 { real with eflags := 0x93#32 }) = .next t ∧
    t.eip = 0x101#32 ∧ (t.reg32 .eax).getLsbD 15 = true ∧ (t.reg32 .eax).getLsbD 14 = false ∧
    (t.reg32 .eax).getLsbD 12 = true ∧ (t.reg32 .eax).getLsbD 10 = false ∧ (t.reg32 .eax).getLsbD 8 = true := by
  obtain ⟨h7, h6, h4, h2, h0, -⟩ := State.flagsByte_bits (reg .eax 0x12345678 { real with eflags := 0x93#32 })
  have h := withByte1_bit (0x12345678#32) (reg .eax 0x12345678 { real with eflags := 0x93#32 }).flagsByte
  exact ⟨_, rfl, rfl, (h 15).trans h7, (h 14).trans h6, (h 12).trans h4, (h 10).trans h2, (h 8).trans h0⟩

/-- L2: the 16-bit sum wraps, EAX's upper half stays. -/
theorem test_lea16 : steps (code (reg .ebx 0xFFFF (reg .esi 2 (reg .eax 0x12340000 real))) [0x8D, 0x00])
    (fun t => t.reg32 .eax == 0x12340001#32 && t.eip == 0x102#32) = true := by decide
/-- L7: a 32-bit address truncated in a 16-bit register. -/
theorem test_lea16_addr32 : steps (code (reg .eax 0x12345 (reg .ebx 0x10000 real)) [0x67, 0x8D, 0x44, 0x58, 0x08])
    (fun t => t.reg32 .eax == 0x1234D#32) = true := by decide
/-- L13: 4 * ESI wraps. -/
theorem test_lea32 : steps (code (reg .esi 0x40000001 prot) [0x8D, 0x04, 0xB5, 0x10, 0x00, 0x00, 0x00])
    (fun t => t.reg32 .eax == 0x14#32) = true := by decide
/-- L16: FFFFh + 0 + 1 wraps to 0000h, zero-extended. -/
theorem test_lea32_addr16 : steps (code (reg .ebp 0x1234FFFF (reg .ebx 7 prot)) [0x67, 0x8D, 0x5B, 0x01])
    (fun t => t.reg32 .ebx == 0#32) = true := by decide
/-- V1: BP popped through SS:BP, SP raised by 2. -/
theorem test_leave16 :
    steps (code (reg .ebp 0xFF0 (reg .esp 0xFE0 (with_ real 0x20FF0 [0x34, 0x12]))) [0xC9])
      (fun t => t.reg32 .ebp == 0x1234#32 && t.reg32 .esp == 0xFF2#32) = true := by decide
/-- V3: BP = FFFFh is Interrupt 13 by default. -/
theorem test_leave16_fault : faults (code (reg .ebp 0xFFFF real) [0xC9]) = some (13, none, 0x100#32) := by decide
/-- V9: with SS's B bit clear only SP is raised; EBP takes all 32 bits. -/
theorem test_leave32 :
    steps (code (reg .ebp 0xAAAA0FF0 (reg .esp 0xBBBB0000 (with_
      { prot with seg := { prot.seg with ss := flat 0x10#16 0x893#12 } } 0xFF0 [0x44, 0x33, 0x22, 0x11]))) [0xC9])
      (fun t => t.reg32 .ebp == 0x11223344#32 && t.reg32 .esp == 0xBBBB0FF4#32) = true := by decide

/-- Corner cases of R241 and R242: with 16 bits of stack address a pop that passes FFFFh faults under any limit. -/
theorem test_leave_passes :
    let s := { prot with seg := { prot.seg with ss := flat 0x10#16 0x893#12 } };
    faults (code (reg .ebp 0xFFFD s) [0xC9]) = some (12, some 0#32, 0x10000#32) ∧
    faults (code (reg .ebp 0xFFFF s) [0x66, 0xC9]) = some (12, some 0#32, 0x10000#32) ∧
    steps (code (reg .ebp 0xFFFC s) [0xC9]) (fun t => t.reg16 .esp == 0#16) = true := by decide

/-- D35: SS's B bit does not count in Real Address Mode; with the model's parameter it does (log 13). -/
theorem test_leave16_big :
    let s := code (reg .ebp 0x10FF0 (reg .esp 0xFE0 (with_ { real with seg := { real.seg with ss :=
      { real.seg.ss with limit := 0xFFFFFFFF#32, ar := 0x493#12 } } } 0x20FF0 [0x34, 0x12]))) [0xC9]
    steps s (fun t => t.reg32 .ebp == 0x11234#32 && t.reg32 .esp == 0xFF2#32) = true ∧
    steps { s with cfg := { s.cfg with realStackByB := true } }
      (fun t => t.reg32 .ebp == 0x10000#32 && t.reg32 .esp == 0x10FF2#32) = true := by decide

/-! ### Fetch and exceptions -/

/-- R430, step 1 before step 2: two 66h bytes at the end of the segment are #GP, and whole they are refused. -/
theorem test_fetch_repeated_prefix :
    faults (code { real with eip := 0xFFFE#32 } [0x66, 0x66]) = some (13, none, 0xFFFE#32) ∧
    step (code real [0x66, 0x66, 0xAD]) = .refused (.undecoded .repeatedPrefix) := ⟨by decide, rfl⟩
/-- R436: by default no state follows an exception. -/
theorem test_deliver_default : ∀ (s : State) (f : Fault), s.cfg.deliverFault = .stop → s.deliverFault f = none := by
  intro s f h
  simp [State.deliverFault, h]

/-! ### LODS and LOOP -/

/-- O1. -/
theorem test_lodsb : steps (code (reg .esi 0x20 (reg .eax 0x11223344 (with_ real 0x20 [0x7F]))) [0xAC])
    (fun t => t.reg32 .eax == 0x1122337F#32 && t.reg32 .esi == 0x21#32 && t.eip == 0x101#32) = true := by decide
/-- O16: one iteration of REP LODSB, the program counter stays. -/
theorem test_rep_lodsb : steps (code (reg .ecx 3 (reg .esi 0x200 (with_ real 0x200 [0x11, 0x22, 0x33]))) [0xF3, 0xAC])
    (fun t => t.reg32 .eax == 0x11#32 && t.reg32 .esi == 0x201#32 && t.reg32 .ecx == 2#32 && t.eip == 0x100#32) =
      true := by decide
/-- O3: DF = 1, SI moves down by 2. -/
theorem test_lodsw : steps (code (reg .esi 0x500 (with_ { real with eflags := 0x402#32 } 0x500 [0xCD, 0xAB])) [0xAD])
    (fun t => t.reg32 .eax == 0xABCD#32 && t.reg32 .esi == 0x4FE#32) = true := by decide
/-- O6: the word at FFFFh passes the limit. -/
theorem test_lodsw_fault : faults (code (reg .esi 0xFFFF real) [0xAD]) = some (13, none, 0x100#32) := by decide
/-- O8: SI moves, ESI's upper half stays. -/
theorem test_lodsd : steps (code (reg .esi 0x77770300 (with_ real 0x300 [0x78, 0x56, 0x34, 0x12])) [0x66, 0xAD])
    (fun t => t.reg32 .eax == 0x12345678#32 && t.reg32 .esi == 0x77770304#32) = true := by decide
/-- O14: a segment marked invalid. -/
theorem test_lodsb_invalid_segment : faults (code prot [0x65, 0xAC]) = some (13, some 0#32, 0x10000#32) := by decide
/-- LP1: taken. -/
theorem test_loop : steps (code (reg .ecx 3 { real with eip := 0x105#32 }) [0xE2, 0xF9])
    (fun t => t.reg32 .ecx == 2#32 && t.eip == 0x100#32) = true := by decide
/-- LP14: a target beyond the limit. -/
theorem test_loop_fault :
    faults (code (reg .ecx 2 { prot with
      eip := 0xFFF0#32, seg := { prot.seg with cs := { flat 8#16 0xC9B#12 with limit := 0xFFFF#32 } } }) [0xE2, 0x10]) =
      some (13, some 0#32, 0xFFF0#32) := by decide
/-- LP6: ZF = 0, the count is still decremented. -/
theorem test_loope : steps (code (reg .ecx 2 { prot with eip := 0x1010#32 }) [0xE1, 0xEE])
    (fun t => t.reg32 .ecx == 1#32 && t.eip == 0x1012#32) = true := by decide
/-- LP8: forward. -/
theorem test_loopne : steps (code (reg .ecx 0x10 { real with eip := 0x200#32 }) [0xE0, 0x10])
    (fun t => t.reg32 .ecx == 0xF#32 && t.eip == 0x212#32) = true := by decide
/-- LP9: ZF = 1, not taken. -/
theorem test_loopne_zf : steps (code (reg .ecx 0x10 { real with eip := 0x200#32, eflags := 0x42#32 }) [0xE0, 0x10])
    (fun t => t.reg32 .ecx == 0xF#32 && t.eip == 0x202#32) = true := by decide

/-! ### LAR and LSL -/

/-- B1, the 16-bit form. -/
theorem test_lar16 :
    steps (code (reg .ecx 0xFFFF0008 (reg .eax 0x11111111 (codeEntry prot))) [0x66, 0x0F, 0x02, 0xC1])
      (fun t => t.reg32 .eax == 0x11119A00#32 && t.zf) = true := by decide
/-- B2: code at DPL 0 is invisible at CPL 3. -/
theorem test_lar16_invisible :
    steps (code (reg .ecx 8 (reg .eax 0x11111111 (codeEntry { user with eflags := 0x42#32 }))) [0x66, 0x0F, 0x02, 0xC1])
      (fun t => t.reg32 .eax == 0x11111111#32 && !t.zf) = true := by decide
/-- B7: a gate; the descriptor's bits 19:16 are not delivered, whatever stands in their place. -/
theorem test_lar32_value : ∀ x : BitVec 4,
    larDword { lo := 0x00081234#32, hi := 0x0001EC00#32, la := 0x1030#32 } x &&& 0xFFF0FFFF#32 = 0x0000EC00#32 := by decide
/-- B15, B16: a null selector and one outside the table. -/
theorem test_lar32_fails :
    steps (code (reg .ecx 3 (reg .eax 1 prot)) [0x0F, 0x02, 0xC1]) (fun t => t.reg32 .eax == 1#32 && !t.zf) = true ∧
    steps (code (reg .ecx 0x70 (reg .eax 1 prot)) [0x0F, 0x02, 0xC1]) (fun t => t.reg32 .eax == 1#32 && !t.zf) = true := by
  decide
/-- The memory source of 49_lsl_ltr.md: the word 0028h at DS:[ESI+8]. -/
theorem test_lsl16 :
    steps (code (reg .esi 0x2000 (ldtEntry (with_ prot 0x2008 [0x28]))) [0x66, 0x0F, 0x03, 0x56, 0x08])
      (fun t => t.reg32 .edx == 0x3F#32 && t.zf) = true := by decide
/-- Q1: page granular. -/
theorem test_lsl32 : steps (code (reg .eax 8 (codeEntry prot)) [0x0F, 0x03, 0xD0])
    (fun t => t.reg32 .edx == 0xFFFFFFFF#32 && t.zf) = true := by decide
/-- Q8: a gate has no limit. -/
theorem test_lsl32_gate : steps (code (reg .eax 0x33 (reg .edx 5 (gateEntry prot))) [0x0F, 0x03, 0xD0])
    (fun t => t.reg32 .edx == 5#32 && !t.zf) = true := by decide

/-! ### The system registers -/

/-- GD1a and GD1b: 24 and 32 bits of base. -/
theorem test_lgdt :
    steps (code (with_ real 0x100 [0x17, 0x00, 0x00, 0x10, 0x00, 0xFF]) [0x0F, 0x01, 0x16, 0x00, 0x01])
      (fun t => t.gdtr == { base := 0x1000#32, limit := 0x17#16 }) = true ∧
    steps (code (with_ real 0x100 [0x17, 0x00, 0x00, 0x10, 0x00, 0xFF]) [0x66, 0x0F, 0x01, 0x16, 0x00, 0x01])
      (fun t => t.gdtr == { base := 0xFF001000#32, limit := 0x17#16 }) = true := by decide
/-- GD4 and GD5: at CPL 3 a memory operand is #GP(0), a register operand #UD. -/
theorem test_lgdt_fault : faults (code user [0x0F, 0x01, 0x10]) = some (13, some 0#32, 0x10000#32) ∧
    faults (code user [0x0F, 0x01, 0xD0]) = some (6, none, 0x10000#32) := by decide
/-- Corner case of R252: with `AddressSize` 16 an operand that passes FFFFh faults under any limit. -/
theorem test_lgdt_passes :
    faults (code prot [0x67, 0x0F, 0x01, 0x16, 0xFB, 0xFF]) = some (13, some 0#32, 0x10000#32) ∧
    faults (code prot [0x67, 0x0F, 0x01, 0x1E, 0xFF, 0xFF]) = some (13, some 0#32, 0x10000#32) ∧
    steps (code prot [0x67, 0x0F, 0x01, 0x16, 0xFA, 0xFF]) (fun t => t.gdtr.limit == 0#16) = true ∧
    steps (code prot [0x0F, 0x01, 0x15, 0xFB, 0xFF, 0x00, 0x00]) (fun t => t.gdtr.limit == 0#16) = true := by decide
/-- GD2. -/
theorem test_lidt :
    steps (code (with_ prot 0x1000 [0xFF, 0x07, 0x00, 0x20, 0x00, 0x00]) [0x0F, 0x01, 0x1D, 0x00, 0x10, 0x00, 0x00])
      (fun t => t.idtr == { base := 0x2000#32, limit := 0x7FF#16 } && t.gdtr == prot.gdtr) = true := by decide
/-- LL1. -/
theorem test_lldt : steps (code (reg .eax 0x28 (ldtEntry prot)) [0x0F, 0x00, 0xD0])
    (fun t => t.ldtr == { sel := 0x28#16, base := 0x12000#32, limit := 0x3F#32, valid := true }) = true := by decide
/-- LL4 and LL6: TI = 1, and a descriptor that is no LDT. -/
theorem test_lldt_fault :
    faults (code (reg .eax 0x2F prot) [0x0F, 0x00, 0xD0]) = some (13, some 0x2C#32, 0x10000#32) ∧
    faults (code (reg .eax 0x20 (tssEntry prot)) [0x0F, 0x00, 0xD0]) = some (13, some 0x20#32, 0x10000#32) := by decide
/-- W1: PE set, and the step after it is refused. -/
theorem test_lmsw_mode_switch : steps (code (reg .eax 1 real) [0x0F, 0x01, 0xF0])
    (fun t => t.cr0 == 0x11#32 && t.mode == .prot && t.cpl == 0#2 && t.eip == 0x103#32 && t.peJustSet) = true := by decide
/-- W3: MP, EM, TS set, bits 15:4 untouched; W2: PE sticky. -/
theorem test_lmsw :
    steps (code (reg .eax 0xFFFF prot) [0x0F, 0x01, 0xF0]) (fun t => t.cr0 == 0x1F#32 && !t.peJustSet) = true ∧
    steps (code prot [0x0F, 0x01, 0xF0]) (fun t => t.cr0 == 0x11#32) = true := by decide
/-- TR1: the busy mark in memory and in TR. -/
theorem test_ltr : steps (code (reg .eax 0x20 (tssEntry prot)) [0x0F, 0x00, 0xD8])
    (fun t => t.tr == { sel := 0x20#16, base := 0x5000#32, limit := 0x67#32, ar := 0x08B#12 } &&
      Memory.byteAt t.mem 0x1025#32 == 0x8B#8) = true := by decide
/-- TR4 and X9: a null selector, and the privilege check first. -/
theorem test_ltr_fault : faults (code prot [0x0F, 0x00, 0xD8]) = some (13, some 0#32, 0x10000#32) ∧
    faults (code (reg .eax 0x20 (tssEntry user)) [0x0F, 0x00, 0xD8]) = some (13, some 0#32, 0x10000#32) := by decide
/-- K3: LOCK LLDT AX at CPL 3 is #UD, not #GP(0). -/
theorem test_lock : faults (code user [0xF0, 0x0F, 0x00, 0xD0]) = some (6, none, 0x10000#32) := by decide

/-! ### The full-pointer loads -/

/-- A segment register's selector and base, and a general register. -/
def loaded (k : SegReg) (sel : Word) (base : Dword) (r : Gpr) (v : Dword) (t : State) : Bool :=
  (t.seg.get k).sel == sel && (t.seg.get k).base == base && t.reg32 r == v

/-- S1. -/
theorem test_lds16 :
    steps (code (reg .ebx 0x20 (with_ { real with seg := { real.seg with ds := { SegCache.afterReset with
      sel := 0x100#16, base := 0x1000#32 } } } 0x1020 [0x34, 0x12, 0x00, 0x20])) [0xC5, 0x37])
      (loaded .ds 0x2000#16 0x20000#32 .esi 0x1234#32) = true := by decide
/-- S6. -/
theorem test_lds32 :
    steps (code (reg .ebx 0x400 (with_ real 0x400 [0x78, 0x56, 0x34, 0x12, 0x00, 0x50])) [0x66, 0xC5, 0x37])
      (loaded .ds 0x5000#16 0x50000#32 .esi 0x12345678#32) = true := by decide
/-- S2; S7: four bytes from FFFDh pass the limit. -/
theorem test_lss16 :
    steps (code (with_ real 0x1234 [0x00, 0x10, 0x00, 0x30]) [0x0F, 0xB2, 0x26, 0x34, 0x12])
      (loaded .ss 0x3000#16 0x30000#32 .esp 0x1000#32) = true ∧
    faults (code (reg .ebx 0xFFFD real) [0x0F, 0xB2, 0x27]) = some (13, none, 0x100#32) := by decide
/-- Step 1 of program 6: an expand-down stack, with its Accessed bit set in memory. -/
theorem test_lss32 :
    steps (code (reg .ebx 0x3000 (downEntry (with_ prot 0x3000 [0xF0, 0xFF, 0x00, 0x00, 0x68, 0x00]))) [0x0F, 0xB2, 0x23])
      (fun t => loaded .ss 0x68#16 0x30000#32 .esp 0xFFF0#32 t && t.seg.ss.limit == 0xFFF#32 &&
        t.seg.ss.ar == 0x497#12 && Memory.byteAt t.mem 0x106D#32 == 0x97#8) = true := by decide
/-- X3 and X4: RPL before the present bit, and an absent stack segment. -/
theorem test_lss32_fault :
    faults (code (reg .ebx 0x3000 (absentEntry (with_ prot 0x3004 [0x43]))) [0x0F, 0xB2, 0x23]) =
      some (13, some 0x40#32, 0x10000#32) ∧
    faults (code (reg .ebx 0x3000 (absentEntry (with_ prot 0x3004 [0x40]))) [0x0F, 0xB2, 0x23]) =
      some (12, some 0x40#32, 0x10000#32) := by decide
/-- S3. -/
theorem test_les16 :
    steps (code (reg .ebx 0x100 (reg .esi 2 (with_ real 0x112 [0xFF, 0xFF, 0x00, 0xB8]))) [0xC4, 0x78, 0x10])
      (loaded .es 0xB800#16 0xB8000#32 .edi 0xFFFF#32) = true := by decide
/-- Step 1 of program 5: a null selector; X5: an absent segment. -/
theorem test_les32 :
    steps (code (reg .ebx 0x3000 (with_ prot 0x3000 [0x78, 0x56, 0x34, 0x12])) [0xC4, 0x3B])
      (fun t => loaded .es 0#16 0#32 .edi 0x12345678#32 t && !t.seg.es.valid) = true ∧
    faults (code (reg .ebx 0x3000 (absentEntry (with_ prot 0x3004 [0x40]))) [0xC4, 0x3B]) =
      some (11, some 0x40#32, 0x10000#32) := by decide
/-- S4, with SS at 2000h. -/
theorem test_lfs16 :
    steps (code (reg .ebp 0x10 (with_ real 0x20010 [0x02, 0x00, 0x00, 0x40])) [0x0F, 0xB4, 0x46, 0x00])
      (loaded .fs 0x4000#16 0x40000#32 .eax 2#32) = true := by decide
/-- S10: writable data into FS, its Accessed bit set in memory. -/
theorem test_lfs32 :
    steps (code (reg .ebx 0x3000 (dataEntry (with_ prot 0x3000 [0x01, 0x00, 0x00, 0x00, 0x10]))) [0x0F, 0xB4, 0x0B])
      (fun t => loaded .fs 0x10#16 0#32 .ecx 1#32 t && t.seg.fs.limit == 0xFFFFFFFF#32 && t.seg.fs.valid &&
        Memory.byteAt t.mem 0x1015#32 == 0x93#8) = true := by decide
/-- S5. -/
theorem test_lgs16 :
    steps (code (reg .edi 0x102 (with_ real 0x100 [0xAA, 0x55, 0x34, 0x12])) [0x0F, 0xB5, 0x4D, 0xFE])
      (fun t => loaded .gs 0x1234#16 0x12340#32 .ecx 0x55AA#32 t && t.seg.ds == real.seg.ds) = true := by decide
/-- S11: RPL 3 exceeds DPL 0. -/
theorem test_lgs32_fault :
    faults (code (reg .ebx 0x3000 (dataEntry (with_ prot 0x3004 [0x13]))) [0x0F, 0xB5, 0x0B]) =
      some (13, some 0x10#32, 0x10000#32) := by decide

/-! ## For every statement with hypotheses, a state and operands that meet them

`paged` runs with the page walk on: the directory at 2000h, the table at 3000h, and of the first 17 pages only 5
(operands) and 16 (code) present; `paged1` has page 1 (the GDT of `prot`) too. -/

def paged : State :=
  with_ (with_ (with_ { prot with
    cr0 := 0x80000011#32, cr3 := 0x2000#32, cfg := { Config.recommended with translation := .pageTables } }
    0x2000 [0x07, 0x30]) 0x3014 [0x07, 0x50]) 0x3040 [0x07, 0x00, 0x01]
def paged1 : State := with_ paged 0x3004 [0x07, 0x10]

/-- `paged` with a translation of page 5 in the buffer, the one that its page entries give and another. -/
def buffered : State := { paged with tlb := [{ page := 5#20, frame := 5#20, user := true, writable := true, dirty := false }] }
def stale : State := { paged with tlb := [{ page := 5#20, frame := 9#20, user := false, writable := true, dirty := false }] }

/-- R106: a read sets the Accessed bits of its directory and table entries and fills the buffer, which a load of CR3
empties. -/
theorem test_paged_read : steps (code (reg .esi 0x5000 (with_ paged 0x5000 [0x7F])) [0xAC])
    (fun t => t.reg32 .eax == 0x7F#32 && Memory.byteAt t.mem 0x2000#32 == 0x27#8 &&
      Memory.byteAt t.mem 0x3014#32 == 0x27#8 && Memory.byteAt t.mem 0x3040#32 == 0x27#8 &&
      t.tlb.map (·.page) == [5#20, 16#20] && (t.loadCr3 0#32).tlb == []) = true := by decide
/-- R106: the write of a descriptor's Accessed bit sets the Dirty bit of its page's table entry. -/
theorem test_paged_write : steps (code (reg .ebx 0x5000 (dataEntry (with_ paged1 0x5004 [0x10]))) [0xC4, 0x3B])
    (fun t => t.reg32 .edi == 0#32 && t.seg.es.valid && Memory.byteAt t.mem 0x3004#32 == 0x67#8 &&
      Memory.byteAt t.mem 0x3014#32 == 0x27#8) = true := by decide

/-- A memory operand at 5000h, and one beyond the limit of every segment in `real`. -/
def at5000 : MemOp := .direct32 0x5000#32
def wordAtEnd : MemOp := .direct16 0xFFFF#16

theorem witness_DecodeOfEncode : (Instr.lock (.lea16 addr32 .ebx
    (.mem (.sib .esp (some (.edi, .x8)) (.disp32 5#32))))).wf .w16 = true := by decide

theorem witness_DecodedIsWellFormedOfItsLength :
    decode .w16 (bytes [0x8D, 0x77, 0x04, 0x90]) = .ok (.lea16 .empty .esi (.mem (.based16 .bx (.disp8 4#8)))) [0x90#8] := by
  decide

/-- Twelve bytes that make no instruction: two prefix bytes of one group. -/
theorem witness_DecodeNeedsAtMostMaxLength :
    let bs := bytes [0x67, 0x67, 0x66, 0xF0, 0x26, 0x0F, 0x02, 0x84, 0x00, 1, 2, 3]
    maxLength ≤ bs.length ∧ decode .w16 bs = .more := by decide

theorem witness_PrefixOrderIsIrrelevant :
    (∀ b ∈ ([0x66#8, 0x26#8] : List Byte), prefixGroup b ≠ none) ∧
      ([0x66#8, 0x26#8] : List Byte).Perm [0x26#8, 0x66#8] ∧ prefixGroup 0xAD#8 = none :=
  ⟨by decide, List.Perm.swap _ _ _, by decide⟩

/-- F0 and F3 among other prefixes, before LODSB and before nothing. -/
theorem witness_RepeatedPrefixGroupRefused :
    let pre := ([0x66#8, 0xF0#8, 0x26#8, 0xF3#8, 0x67#8] : List Byte)
    (∀ b ∈ pre, prefixGroup b ≠ none) ∧ firstOfGroups [] pre ≠ pre ∧
      decode .w16 (firstOfGroups [] pre ++ [0xAC#8]) =
        .ok (.lock (.lodsb { opSize := true, addrSize := true, seg := some .es } false)) [] ∧
      decode .w16 (firstOfGroups [] pre ++ []) = .more := by decide

/-- One byte for each clause, next to a listed one: 90h, 0F 04, 0F 00 /4, 0F 01 /1. -/
theorem witness_OpcodeOutsideTheTableRefused :
    ([0xF3#8] : List Byte) ∈ ([[], [0xF0#8], [0xF3#8], [0xF2#8]] : List (List Byte)) ∧ prefixGroup 0x90#8 = none ∧
      (0x90#8 : Byte) ∉ [0x9F#8, 0x8D#8, 0xC9#8, 0xC5#8, 0xC4#8, 0xAC#8, 0xAD#8, 0xE2#8, 0xE1#8, 0xE0#8, 0x0F#8] ∧
      (0x04#8 : Byte) ∉ [0x00#8, 0x01#8, 0x02#8, 0x03#8, 0xB2#8, 0xB4#8, 0xB5#8] ∧
      field53 0b11100000#8 ∉ [2#3, 3#3] ∧ field53 0b11001000#8 ∉ [2#3, 3#3, 6#3] := by decide

theorem witness_RepeatPrefixOnlyBeforeLods :
    (Instr.lahf .empty).wf .w16 = true ∧ (Instr.lahf .empty).takesLock = true ∧
      (∀ p rep, Instr.lahf .empty ≠ .lodsb p rep ∧ Instr.lahf .empty ≠ .lodsw p rep ∧ Instr.lahf .empty ≠ .lodsd p rep) ∧
      (Instr.lodsb .empty false).wf .w16 = true ∧ (Instr.lodsb .empty false).takesLock = true :=
  ⟨by decide, by decide, fun _ _ => ⟨by simp, by simp, by simp⟩, by decide, by decide⟩

/-- `mod` = 01, `r/m` = 110, and `mod` = 00, `r/m` = 110. -/
theorem witness_AddressingForms16 :
    field76 0b01000110#8 ≠ 3#2 ∧ [0xFE#8].length = dispBytes16 (field76 0b01000110#8) (field20 0b01000110#8) ∧
      field76 0b00000110#8 ≠ 3#2 ∧
      [0x34#8, 0x12#8].length = dispBytes16 (field76 0b00000110#8) (field20 0b00000110#8) := by decide

/-- `mod` = 10, `r/m` = 101, and `mod` = 00, `r/m` = 101. -/
theorem witness_AddressingForms32 :
    field76 0b10000101#8 ≠ 3#2 ∧ field20 0b10000101#8 ≠ 4#3 ∧
      [1#8, 2#8, 3#8, 4#8].length = dispBytes32 (field76 0b10000101#8) (field20 0b10000101#8) ∧
      field76 0b00000101#8 ≠ 3#2 ∧ field20 0b00000101#8 ≠ 4#3 ∧
      [1#8, 2#8, 3#8, 4#8].length = dispBytes32 (field76 0b00000101#8) (field20 0b00000101#8) := by decide

/-- SIB bytes 01 100 000 (refused), 00 100 000 (no index) and, without a base, 11 111 101. -/
theorem witness_AddressingFormsSib :
    field76 0b00000100#8 ≠ 3#2 ∧ field20 0b00000100#8 = 4#3 ∧
      ([] : List Byte).length = dispBytes32 (field76 0b00000100#8) (field20 0b01100000#8) ∧
      (field53 0b01100000#8 = 4#3 ∧ field76 0b01100000#8 ≠ 0#2) ∧
      ([] : List Byte).length = dispBytes32 (field76 0b00000100#8) (field20 0b00100000#8) ∧
      ¬ (field53 0b00100000#8 = 4#3 ∧ field76 0b00100000#8 ≠ 0#2) ∧
      [1#8, 2#8, 3#8, 4#8].length = dispBytes32 (field76 0b00000100#8) (field20 0b11111101#8) ∧
      ¬ (field53 0b11111101#8 = 4#3 ∧ field76 0b11111101#8 ≠ 0#2) := by decide

/-- LODSB at the last byte of the code segment; LEAVE read through the page walk; 90h, which is refused, on both. -/
theorem witness_StepRunsTheDecodedInstruction :
    (let s := code { real with eip := 0xFFFF#32 } [0xAC];
      s.quiet = true ∧ s.peJustSet = false ∧ Memory.holds s.mem (s.seg.cs.base + s.eip) [0xAC#8] ∧
        s.eip.toNat + [0xAC#8].length ≤ s.seg.cs.limit.toNat + 1 ∧
        decode s.dflt [0xAC#8] = .ok (.lodsb .empty false) []) ∧
    (let s := code paged [0xC9];
      s.peJustSet = false ∧ s.eip.toNat + [0xC9#8].length ≤ s.seg.cs.limit.toNat + 1 ∧
        decode s.dflt [0xC9#8] = .ok (.leave32 .empty) [] ∧ ∃ s1, s.readsBytes 0 [0xC9#8] s1) ∧
    (let s := code { real with eip := 0xFFFF#32 } [0x90];
      s.quiet = true ∧ Memory.holds s.mem (s.seg.cs.base + s.eip) [0x90#8] ∧
        s.eip.toNat + [0x90#8].length ≤ s.seg.cs.limit.toNat + 1 ∧
        decode s.dflt [0x90#8] = .refuse .opcodeNotInScope) ∧
    ∃ s1, (code paged [0x90]).readsBytes 0 [0x90#8] s1 :=
  ⟨⟨by decide, by decide, ⟨by decide, trivial⟩, by decide, by decide⟩,
    ⟨by decide, by decide, by decide, _, _, rfl, rfl⟩,
    ⟨by decide, ⟨by decide, trivial⟩, by decide, by decide⟩, _, _, rfl, rfl⟩

/-- Without and with the page walk: LODSB, and LEAVE of a frame at 5000h. -/
theorem witness_StepIsAFetchedInstruction :
    (let s := code real [0xAC];
      (∃ t, step s = .next t) ∧ s.cfg.externalAgents = .absent ∧ s.walks = false ∧ s.quiet = true) ∧
    (let s := code (reg .ebp 0x5000 paged) [0xC9];
      (∃ t, step s = .next t) ∧ s.cfg.externalAgents = .absent ∧ Memory.wf s.mem = true) :=
  ⟨⟨⟨_, rfl⟩, by decide, by decide, by decide⟩, ⟨_, rfl⟩, by decide, by decide⟩

/-- A 66h byte at the last offset of the code segment; an offset beyond it, where no byte is read; a 66h byte at the end
of a page, after which an absent one begins. -/
theorem witness_FetchFaultsEndTheStep :
    (let s := code { real with eip := 0xFFFF#32 } [0x66];
      s.readsBytes 0 [0x66#8] s ∧ decode s.dflt [0x66#8] = .more ∧
        (∀ k < [0x66#8].length, s.eip.toNat + k ≤ s.seg.cs.limit.toNat) ∧
        s.seg.cs.limit.toNat < s.eip.toNat + [0x66#8].length) ∧
    (let s := { real with eip := 0x10000#32 };
      s.readsBytes 0 [] s ∧ decode s.dflt [] = .more ∧ s.seg.cs.limit.toNat < s.eip.toNat + 0) ∧
    (let s := code { paged with eip := 0x10FFF#32 } [0x66];
      decode s.dflt [0x66#8] = .more ∧ s.eip.toNat + [0x66#8].length ≤ s.seg.cs.limit.toNat ∧
        ∃ s1, s.readsBytes 0 [0x66#8] s1 ∧
          ∃ f, s1.linRead (s.seg.cs.base + s.eip + 1#32) 1 .execute s.programRights = .error f) :=
  ⟨⟨⟨_, rfl, rfl⟩, by decide, by decide, by decide⟩, ⟨rfl, by decide, by decide⟩, by decide, by decide, _, ⟨_, rfl, rfl⟩,
    _, rfl⟩

theorem witness_StepAfterModeSwitchRefused :
    let s := { code { real with cr0 := 0x11#32 } [0x9F] with peJustSet := true }
    s.peJustSet = true ∧ s.readsBytes 0 [0x9F#8] s ∧
      s.eip.toNat + [0x9F#8].length ≤ s.seg.cs.limit.toNat + 1 ∧ decode s.dflt [0x9F#8] = .ok (.lahf .empty) [] :=
  ⟨by decide, ⟨_, rfl, rfl⟩, by decide, by decide⟩

/-- `real` with other agents. -/
def shared : State := { real with cfg := { Config.recommended with externalAgents := .present } }

/-- A quiet state, and one whose other agents store before each byte. -/
theorem witness_MemoryItemsAreLittleEndian :
    (real.unpaged = true ∧ real.quiet = true ∧ Memory.wf real.mem = true ∧ 8 ≤ 8) ∧ shared.unpaged = true ∧
      ∃ w t, shared.agentsAct.linRead 1#32 1 .read .supervisor = .ok (w, t) ∧ t.draws = 2 :=
  ⟨by decide, by decide, _, _, rfl, rfl⟩

/-- Two bytes up to FFFFh and past it; a segment marked invalid; an expand-down stack at its limit and above it. -/
theorem witness_SegmentReadChecks :
    (real.quiet = true ∧ 0xFFFE + 2 - 1 ≤ (real.seg.get .ds).limit.toNat ∧ ¬ 0xFFFF + 2 - 1 ≤ (real.seg.get .ss).limit.toNat ∧
      (real.seg.get .ds).ar.getLsbD 2 = false) ∧
    (prot.quiet = true ∧ prot.mode = .prot ∧ (prot.seg.get .gs).valid = false) ∧
    (let c := { flat 0x68#16 0x497#12 with limit := 0xFFF#32 };
      c.ar.getLsbD 4 = true ∧ c.ar.getLsbD 3 = false ∧ c.ar.getLsbD 2 = true ∧ c.ar.getLsbD 10 = true ∧
        (c.limit.toNat < 0x1000 ∧ 0x1000 + 1 - 1 ≤ 0xFFFFFFFF) ∧ ¬ c.limit.toNat < 0xFFF) := by decide

/-- A read and a write at 5000h: the table entry at 3014h, the directory entry at 2000h, and a byte that is neither. -/
theorem witness_PagedAccessMarksOnlyUsedEntries :
    (Memory.wf buffered.mem = true ∧ buffered.walks = true ∧ buffered.tlbCurrent = true ∧
      buffered.cfg.externalAgents = .absent) ∧
    (∃ pas t, buffered.translateRange 0x5000#32 .read .supervisor 4 = .ok (pas, t)) ∧
    (∃ pas t, buffered.translateRange 0x5000#32 .write .supervisor 1 = .ok (pas, t)) ∧
    buffered.usesTableEntry 0x5000#32 1 .write .supervisor 0x3014#32 ∧
    buffered.usesEntry 0x5000#32 4 .read .supervisor 0x2000#32 ∧
    ¬ buffered.usesEntry 0x5000#32 1 .write .supervisor 0x5000#32 := by
  refine ⟨by decide, ⟨_, _, rfl⟩, ⟨_, _, rfl⟩, ⟨0, by decide, _, rfl, by decide⟩, ⟨0, by decide, _, rfl, .inl (by decide)⟩, ?_⟩
  rintro ⟨k, hk, w, hw, h⟩
  obtain rfl : k = 0 := by omega
  cases hw
  revert h
  decide

/-- Page 5 is present, page 6 is not, and made read-only it refuses a user's write; the directory entry at 2000h, the
table entries at 3014h and 3018h; a buffer whose entry is current, one whose entry is stale, and one whose entry other
agents may make so. -/
theorem witness_PageWalkTranslates :
    paged.cfg.translation = .pageTables ∧ paged.pe = true ∧ paged.cr0.getLsbD 31 = true ∧
      (Memory.item paged.mem 0x2000#32 4 % 2 = 1 ∧ Memory.item paged.mem 0x3014#32 4 % 2 = 1) ∧
      ¬ Memory.item paged.mem 0x3018#32 4 % 2 = 1 ∧
      (let s := with_ paged 0x3018 [0x05, 0x60];
        Memory.item s.mem 0x3018#32 4 % 2 = 1 ∧ Memory.item s.mem 0x3018#32 4 / 2 % 2 = 0) ∧
      (Memory.wf paged.mem = true ∧ paged.cfg.externalAgents = .absent ∧
        (paged.busRead (consecutive 0x2000#32 4)).1 = Memory.item paged.mem 0x2000#32 4) ∧
      (∃ e, tlbFind buffered.tlb (pageOf 0x5000#32) = some e ∧ buffered.agreesWith e = true) ∧
      (∃ e, tlbFind stale.tlb (pageOf 0x5000#32) = some e ∧ stale.agreesWith e = false) ∧
      ∃ e, tlbFind buffered.tlb (pageOf 0x5000#32) = some e ∧
        { buffered with cfg := { buffered.cfg with externalAgents := .present } }.agreesWith e = false :=
  ⟨by decide, by decide, by decide, by decide, by decide, by decide, by decide, ⟨_, rfl, by decide⟩,
    ⟨_, rfl, by decide⟩, _, rfl, by decide⟩

/-- `prot` with an LDT of eight entries. -/
def withLdt : State := { prot with ldtr := { sel := 0x28#16, base := 0x12000#32, limit := 0x3F#32, valid := true } }

/-- `paged` with its GDT in page 5, so that entry 1 ends in page 6, which is absent. -/
def splitEntry : State := { paged with gdtr := { base := 0x5FF4#32, limit := 0x6F#16 } }

/-- The last entry of each table and the first outside it; an invalid LDTR; a page absent for the first doubleword, and
for the second only. -/
theorem witness_DescriptorFetch :
    prot.quiet = true ∧ (¬ 0x68 / 4 % 2 = 1 ∧ 0x68 / 8 * 8 + 7 ≤ prot.gdtr.limit.toNat) ∧
      ¬ 0x70 / 8 * 8 + 7 ≤ prot.gdtr.limit.toNat ∧ (0x0C / 4 % 2 = 1 ∧ prot.ldtr.valid = false) ∧
      withLdt.quiet = true ∧ (0x3C / 4 % 2 = 1 ∧ withLdt.ldtr.valid = true ∧ 0x3C / 8 * 8 + 7 ≤ withLdt.ldtr.limit.toNat) ∧
      (0x44 / 4 % 2 = 1 ∧ ¬ 0x44 / 8 * 8 + 7 ≤ withLdt.ldtr.limit.toNat) ∧
      (∃ f, paged.linRead 0x1008#32 4 .read .supervisor = .error f) ∧
      ∃ lo s1, splitEntry.linRead 0x5FFC#32 4 .read .supervisor = .ok (lo, s1) ∧
        ∃ f, s1.linRead 0x6000#32 4 .read .supervisor = .error f :=
  ⟨by decide, by decide, by decide, by decide, by decide, by decide, by decide, ⟨_, rfl⟩, _, _, rfl, _, rfl⟩

/-- An entry, one outside the table, one read through the page walk and one on an absent page; selectors 3 and 8. -/
theorem witness_QueryDeliversVisibleDescriptors :
    (codeEntry prot).quiet = true ∧ (∃ d, (codeEntry prot).readDesc 8#16 = .ok (some d, codeEntry prot)) ∧
      (codeEntry prot).readDesc 0x70#16 = .ok (none, codeEntry prot) ∧
      (∃ d s1, paged1.readDesc 8#16 = .ok (some d, s1)) ∧ (∃ f, paged.readDesc 8#16 = .error f) ∧
      (3#16).toNat < 4 ∧ 4 ≤ (8#16).toNat :=
  ⟨by decide, ⟨_, rfl⟩, rfl, ⟨_, _, rfl⟩, ⟨_, rfl⟩, by decide, by decide⟩

/-- Frames of both widths, BP = FFFEh and FFFFh; one beyond a smaller limit. -/
theorem witness_LeaveReleasesTheFrame :
    (real.seg.ss.ar.getLsbD 10 = false ∧ ¬ 65536 < 0xFFFE + 2 ∧ 65536 < 0xFFFF + 2) ∧
    (∃ v s1, real.segRead .ss (BitVec.ofNat 32 0xFFFE) 2 = .ok (v, s1)) ∧
    (∃ v s1, prot.segRead .ss (BitVec.ofNat 32 0x1000) 4 = .ok (v, s1)) ∧
    ∃ f, { real with seg := { real.seg with ss := { real.seg.ss with limit := 0xFFF#32 } } }.segRead .ss
      (BitVec.ofNat 32 0x1000) 2 = .error f :=
  ⟨by decide, ⟨_, _, rfl⟩, ⟨_, _, rfl⟩, ⟨_, rfl⟩⟩

/-- The word at FFFEh, and at FFFFh, where it passes the limit. -/
theorem witness_LodsLoadsAndSteps :
    (∃ v s1, real.segRead (Prefixes.empty.seg.getD .ds) (BitVec.ofNat 32 0xFFFE) 2 = .ok (v, s1)) ∧
    ∃ f, real.segRead (Prefixes.empty.seg.getD .ds) (BitVec.ofNat 32 0xFFFF) 2 = .error f :=
  ⟨⟨_, _, rfl⟩, ⟨_, rfl⟩⟩

/-- A count of 0; a count of 1 with a readable word, and with one that is not. -/
theorem witness_RepLodsIteratesOnce :
    (real.reg32 .ecx).toNat % 65536 = 0 ∧ 0 < ((reg .ecx 1 real).reg32 .ecx).toNat % 65536 ∧
    (∃ v s1, (reg .ecx 1 real).segRead .ds (BitVec.ofNat 32 0xFFFE) 2 = .ok (v, s1)) ∧
    ∃ f, (reg .ecx 1 real).segRead .ds (BitVec.ofNat 32 0xFFFF) 2 = .error f :=
  ⟨by decide, by decide, ⟨_, _, rfl⟩, ⟨_, rfl⟩⟩

/-- O16. -/
theorem witness_RepLodsbNetEffect :
    let s := reg .ecx 3 (reg .esi 0x200 real)
    s.quiet = true ∧ Prefixes.empty.addressSize s.dflt = .w16 ∧ 0 < 3 ∧ (s.reg32 .ecx).toNat % 65536 = 3 ∧
      ∀ j : Nat, j < 3 → ∃ v, s.segRead .ds (BitVec.ofInt 32 (((s.reg32 .esi).toNat +
        (if s.eflags.getLsbD 10 then -(j : Int) else j)) % 65536)) 1 = .ok (v, s) := by
  refine ⟨by decide, by decide, by decide, by decide, ?_⟩
  intro j hj
  match j, hj with
  | 0, _ => exact ⟨_, rfl⟩
  | 1, _ => exact ⟨_, rfl⟩
  | 2, _ => exact ⟨_, rfl⟩

/-- LP14: taken beyond the limit; LP1: taken within it; LP2: not taken. -/
theorem witness_LoopCountsAndBranches :
    (Instr.loop .empty 0x10#8, true) ∈ [(Instr.loop .empty 0x10#8, true), (Instr.loope .empty 0x10#8, prot.eflags.getLsbD 6),
      (Instr.loopne .empty 0x10#8, !prot.eflags.getLsbD 6)] ∧
    ((((2 : Nat) - 1 : Int) % (4294967296 : Nat) ≠ 0 ∧ true = true) ∧
      ((0xFFFF : Nat) : Int) < ((0xFFF2 : Nat) + (0x10#8).toInt) % 4294967296) ∧
    ¬ ((0xFFFF : Nat) : Int) < ((0x107 : Nat) + (0xF9#8).toInt) % 65536 ∧ ((1 : Nat) - 1 : Int) % (65536 : Nat) = 0 := by
  decide

/-- The types that LAR and LSL accept, as their statements write them. -/
def larTypes (sys : Bool) (type : BitVec 4) : Bool :=
  sys || decide (type.toNat ∈ [1, 2, 3, 4, 5, 6, 7, 9, 11, 12, 14, 15])
def lslTypes (s : State) (sys : Bool) (type : BitVec 4) : Bool :=
  sys || decide (type.toNat ∈ [1, 2, 3, 9, 11]) || (s.cfg.lslType8Valid && decide (type.toNat = 8))

/-- GS of `prot` is invalid. -/
def throughGs : Prefixes := { Prefixes.empty with seg := some .gs }

/-- A source that is not readable; a descriptor on an absent page; a null selector; a code segment. -/
theorem witness_LarStoresAccessRights :
    prot.mode = .prot ∧ (∃ f, prot.readSelector throughGs (.mem at5000) = .error f) ∧
    (paged.mode = .prot ∧ (reg .ecx 8 paged).readSelector .empty (.reg .ecx) = .ok (8#16, reg .ecx 8 paged) ∧
      ∃ f, (reg .ecx 8 paged).query 8#16 larTypes = .error f) ∧
    (prot.readSelector .empty (.reg .ebx) = .ok (0#16, prot) ∧ prot.query 0#16 larTypes = .ok (none, prot)) ∧
    ((codeEntry (reg .ecx 8 prot)).readSelector .empty (.reg .ecx) = .ok (8#16, codeEntry (reg .ecx 8 prot)) ∧
      ∃ d s2, (codeEntry (reg .ecx 8 prot)).query 8#16 larTypes = .ok (some d, s2)) :=
  ⟨by decide, ⟨_, rfl⟩, ⟨by decide, rfl, ⟨_, rfl⟩⟩, ⟨rfl, rfl⟩, rfl, _, _, rfl⟩

theorem witness_LslStoresTheLimit :
    prot.mode = .prot ∧ (∃ f, prot.readSelector throughGs (.mem at5000) = .error f) ∧
    (paged.mode = .prot ∧ (reg .ecx 8 paged).readSelector .empty (.reg .ecx) = .ok (8#16, reg .ecx 8 paged) ∧
      ∃ f, (reg .ecx 8 paged).query 8#16 (lslTypes paged) = .error f) ∧
    (prot.readSelector .empty (.reg .ebx) = .ok (0#16, prot) ∧ prot.query 0#16 (lslTypes prot) = .ok (none, prot)) ∧
    ((codeEntry (reg .ecx 8 prot)).readSelector .empty (.reg .ecx) = .ok (8#16, codeEntry (reg .ecx 8 prot)) ∧
      ∃ d s2, (codeEntry (reg .ecx 8 prot)).query 8#16 (lslTypes prot) = .ok (some d, s2)) :=
  ⟨by decide, ⟨_, rfl⟩, ⟨by decide, rfl, ⟨_, rfl⟩⟩, ⟨rfl, rfl⟩, rfl, _, _, rfl⟩

/-- Writable data into DS and into SS; an expand-up segment. -/
theorem witness_LslAgreesWithTheLoadedLimit :
    let s := dataEntry (reg .eax 0x10 prot)
    s.quiet = true ∧ s.mode = .prot ∧ 4 ≤ (s.reg16 .eax).toNat ∧
      (∃ u, s.loadSegment .ds (s.reg16 .eax) = .ok u ∧ arExpandDown (u.seg.get .ds).ar = false) ∧
      (∃ u, s.loadSegment .ss (s.reg16 .eax) = .ok u) ∧ ∃ d, s.readDesc (s.reg16 .eax) = .ok (some d, s) :=
  ⟨by decide, by decide, by decide, ⟨_, rfl, by decide⟩, ⟨_, rfl⟩, ⟨_, rfl⟩⟩

/-- The three ways to pass the privilege check; six bytes up to FFFFh, and past it; an invalid segment. -/
theorem witness_LgdtLidtLoadTheTable :
    real.mayLoadSystem ∧ prot.mayLoadSystem ∧
      { v86 with cfg := { Config.recommended with v86PrivFault := false } }.mayLoadSystem ∧
      (∃ v s1, real.readMem .empty (.direct16 0xFFFA#16) 6 = .ok (v, s1)) ∧
      ¬ 65536 < (effectiveAddress real (.direct16 0xFFFA#16)).toNat + 6 ∧
      65536 < (effectiveAddress prot (.direct16 0xFFFB#16)).toNat + 6 ∧
      ∃ f, prot.readMem { Prefixes.empty with seg := some .gs } (.direct32 0#32) 6 = .error f :=
  ⟨.inl (by decide), .inr (.inl (by decide)), .inr (.inr (by decide)), ⟨_, _, rfl⟩, by decide, by decide, ⟨_, rfl⟩⟩

/-- LL3, LL4, a descriptor on an absent page, LL5, LL6, LL7 and LL1; a source that is not readable. -/
theorem witness_LldtLoadsLdtr :
    (prot.mode = .prot ∧ prot.cpl = 0#2 ∧ prot.walks = false ∧ prot.cfg.externalAgents = .absent) ∧
    (∃ t, exec (.lldt .empty (.reg .ebx)) prot = .next t) ∧
    (∃ f, prot.readSelector throughGs (.mem at5000) = .error f) ∧
    (∃ s1, (reg .eax 3 prot).readSelector .empty (.reg .eax) = .ok (3#16, s1)) ∧
    (4 ≤ (0x2C#16).toNat ∧ (0x2C#16).getLsbD 2 = true ∧
      ∃ s1, (reg .eax 0x2C prot).readSelector .empty (.reg .eax) = .ok (0x2C#16, s1)) ∧
    (paged.mode = .prot ∧ paged.cpl = 0#2 ∧ (0x28#16).getLsbD 2 = false ∧ ∃ f, paged.readDesc 0x28#16 = .error f) ∧
    (∃ s2, prot.readDesc 0x70#16 = .ok (none, s2)) ∧
    (∃ d s2, (tssEntry prot).readDesc 0x20#16 = .ok (some d, s2) ∧ ¬ d.hi.toNat / 256 % 16 = 2) ∧
    (∃ d s2, (with_ (ldtEntry prot) 0x102D [0x02]).readDesc 0x28#16 = .ok (some d, s2) ∧ d.hi.getLsbD 12 = false ∧
      d.hi.toNat / 256 % 16 = 2 ∧ d.hi.getLsbD 15 = false) ∧
    ∃ d s2, (ldtEntry prot).readDesc 0x28#16 = .ok (some d, s2) ∧ d.hi.getLsbD 12 = false ∧ d.hi.toNat / 256 % 16 = 2 ∧
      d.hi.getLsbD 15 = true :=
  ⟨by decide, ⟨_, rfl⟩, ⟨_, rfl⟩, ⟨_, rfl⟩, ⟨by decide, by decide, _, rfl⟩, ⟨by decide, by decide, by decide, _, rfl⟩,
    ⟨_, rfl⟩, ⟨_, _, rfl, by decide⟩, ⟨_, _, rfl, by decide, by decide, by decide⟩,
    ⟨_, _, rfl, by decide, by decide, by decide⟩⟩

/-- TR4, TR5, a descriptor on an absent page, TR6, TR7, TR8 and TR1; a source that is not readable. -/
theorem witness_LtrLoadsTaskRegister :
    (prot.mode = .prot ∧ prot.cpl = 0#2) ∧ (∃ f, prot.readSelector throughGs (.mem at5000) = .error f) ∧
    (∃ s1, (reg .eax 3 prot).readSelector .empty (.reg .eax) = .ok (3#16, s1)) ∧
    (4 ≤ (0x24#16).toNat ∧ (0x24#16).getLsbD 2 = true ∧
      ∃ s1, (reg .eax 0x24 prot).readSelector .empty (.reg .eax) = .ok (0x24#16, s1)) ∧
    (paged.mode = .prot ∧ paged.cpl = 0#2 ∧ (0x20#16).getLsbD 2 = false ∧ ∃ f, paged.readDesc 0x20#16 = .error f) ∧
    (∃ s2, prot.readDesc 0x70#16 = .ok (none, s2)) ∧
    (∃ d s2, (ldtEntry prot).readDesc 0x28#16 = .ok (some d, s2) ∧ ¬ (d.hi.toNat / 256 % 16 = 1 ∨ d.hi.toNat / 256 % 16 = 9)) ∧
    (∃ d s2, (with_ (tssEntry prot) 0x1025 [0x09]).readDesc 0x20#16 = .ok (some d, s2) ∧ d.hi.getLsbD 12 = false ∧
      d.hi.toNat / 256 % 16 = 9 ∧ d.hi.getLsbD 15 = false) ∧
    ∃ d s2, (tssEntry prot).readDesc 0x20#16 = .ok (some d, s2) ∧ d.hi.getLsbD 12 = false ∧ d.hi.toNat / 256 % 16 = 9 ∧
      d.hi.getLsbD 15 = true ∧ Memory.wf s2.mem = true ∧
      ∃ pa s3, s2.translate (d.la + 5#32) .write .supervisor = .ok (pa, s3) :=
  ⟨by decide, ⟨_, rfl⟩, ⟨_, rfl⟩, ⟨by decide, by decide, _, rfl⟩, ⟨by decide, by decide, by decide, _, rfl⟩, ⟨_, rfl⟩,
    ⟨_, _, rfl, by decide⟩, ⟨_, _, rfl, by decide, by decide, by decide⟩,
    ⟨_, _, rfl, by decide, by decide, by decide, by decide, _, _, rfl⟩⟩

/-- TR1. -/
theorem witness_SecondLtrFaults :
    let s := tssEntry (reg .eax 0x20 prot)
    s.quiet = true ∧ Memory.wf s.mem = true ∧ ∃ t, exec (.ltr .empty (.reg .eax)) s = .next t :=
  ⟨by decide, by decide, _, rfl⟩

/-- W3, and W9, where the word passes the limit. -/
theorem witness_LmswLoadsTheStatusWord :
    prot.mayLoadSystem ∧ (∃ s1, (reg .eax 0xFFFF prot).readSelector .empty (.reg .eax) = .ok (0xFFFF#16, s1)) ∧
      real.mayLoadSystem ∧ ∃ f, real.readSelector .empty (.mem wordAtEnd) = .error f :=
  ⟨.inr (.inl (by decide)), ⟨_, rfl⟩, .inl (by decide), ⟨_, rfl⟩⟩

/-- W1. -/
theorem witness_LmswEntersProtectedMode :
    real.mode = .real ∧ real.vm = false ∧ (reg .eax 1 real).readSelector .empty (.reg .eax) = .ok (1#16, reg .eax 1 real) ∧
      (1#16).getLsbD 0 = true ∧ real.cfg.lmswMask.getLsbD 0 = true :=
  ⟨by decide, by decide, rfl, by decide, by decide⟩

/-- S2 in Real Address Mode, the same in Virtual 8086 Mode; an operand past the limit. -/
theorem witness_FullPointerOutsideProtectedMode :
    fullPointer (.lss16 .empty .esp (.mem (.direct16 0xFFFC#16))) =
        some ⟨.ss, .w16, .empty, .esp, .mem (.direct16 0xFFFC#16)⟩ ∧
      real.mode ≠ .prot ∧ v86.mode = .v86 ∧ (∃ v s1, real.readMem .empty (.direct16 0xFFFC#16) 4 = .ok (v, s1)) ∧
      (∃ v s1, v86.readMem .empty (.direct16 0xFFFC#16) 4 = .ok (v, s1)) ∧
      ∃ f, real.readMem .empty (.direct16 0xFFFD#16) 4 = .error f :=
  ⟨rfl, by decide, by decide, ⟨_, _, rfl⟩, ⟨_, _, rfl⟩, ⟨_, rfl⟩⟩

/-- S24: the selector 0003h into ES and into SS. -/
theorem witness_FullPointerOfNullSelector :
    fullPointer (.les32 .empty .edi (.mem at5000)) = some ⟨.es, .w32, .empty, .edi, .mem at5000⟩ ∧
      fullPointer (.lss32 .empty .esp (.mem at5000)) = some ⟨.ss, .w32, .empty, .esp, .mem at5000⟩ ∧ prot.mode = .prot ∧
      ∃ v s1, (with_ prot 0x5000 [1, 2, 3, 4, 3]).readMem .empty at5000 6 = .ok (v, s1) ∧ v / 2 ^ (8 * 4) < 4 :=
  ⟨rfl, rfl, by decide, _, _, rfl, by decide⟩

/-- A read that raises; the selector 0004h at the operand; a descriptor on an absent page; S21; then S13's writable data at CPL 0, whose DPL
is not CPL, S19 into SS, S20 and S19 into ES. -/
theorem witness_FullPointerDescriptorChecks :
    fullPointer (.les32 .empty .edi (.mem at5000)) = some ⟨.es, .w32, .empty, .edi, .mem at5000⟩ ∧
      fullPointer (.lss32 .empty .esp (.mem at5000)) = some ⟨.ss, .w32, .empty, .esp, .mem at5000⟩ ∧ prot.mode = .prot ∧
      (fullPointer (.les32 throughGs .edi (.mem at5000)) = some ⟨.es, .w32, throughGs, .edi, .mem at5000⟩ ∧
        ∃ f, prot.readMem throughGs at5000 6 = .error f) ∧
      (∃ v s1, (with_ prot 0x5004 [4]).readMem .empty at5000 6 = .ok (v, s1) ∧ 4 ≤ v / 2 ^ (8 * 4)) ∧
      (∃ v s1 f, (with_ paged 0x5004 [8]).readMem .empty at5000 6 = .ok (v, s1) ∧ 4 ≤ v / 2 ^ (8 * 4) ∧
        s1.readDesc 8#16 = .error f) ∧
      (∃ s2, prot.readDesc 0x70#16 = .ok (none, s2)) ∧
      (∃ d s2, (with_ prot 0x1018 [0xFF, 0x1F, 0x00, 0x00, 0x02, 0xF2, 0x40, 0x00]).readDesc 0x18#16 = .ok (some d, s2) ∧
        ¬ d.hi.toNat / 8192 % 4 = prot.cpl.toNat) ∧
      (∃ d s2, (absentEntry prot).readDesc 0x40#16 = .ok (some d, s2) ∧ (d.hi.getLsbD 12 = true ∧ d.hi.getLsbD 11 = false) ∧
        d.hi.getLsbD 9 = true ∧ d.hi.toNat / 8192 % 4 = prot.cpl.toNat ∧ d.hi.getLsbD 15 = false) ∧
      ∃ d s2, (tssEntry prot).readDesc 0x20#16 = .ok (some d, s2) ∧ d.hi.getLsbD 12 = false :=
  ⟨rfl, rfl, by decide, ⟨rfl, _, rfl⟩, ⟨_, _, rfl, by decide⟩, ⟨_, _, _, rfl, by decide, rfl⟩, ⟨_, rfl⟩,
    ⟨_, _, rfl, by decide⟩, ⟨_, _, rfl, by decide, by decide, by decide, by decide⟩, ⟨_, _, rfl, by decide⟩⟩

/-- S10 into SS and into ES, and the same with the Accessed bit set before. -/
theorem witness_FullPointerLoadsTheDescriptor :
    let s := dataEntry (with_ prot 0x5004 [0x10])
    let s' := with_ s 0x1015 [0x93]
    fullPointer (.lss32 .empty .esp (.mem at5000)) = some ⟨.ss, .w32, .empty, .esp, .mem at5000⟩ ∧ s.mode = .prot ∧
      (∃ v, s.readMem .empty at5000 6 = .ok (v, s) ∧ 4 ≤ v / 2 ^ (8 * 4) ∧ BitVec.ofNat 16 (v / 2 ^ (8 * 4)) = 0x10#16) ∧
      (∃ d, s.readDesc 0x10#16 = .ok (some d, s) ∧ ssRefusal s.cpl 0x10#16 d = none ∧ dataRefusal s.cpl 0x10#16 d = none ∧
        (d.hi.getLsbD 8 = false ∧ s.cfg.segLoadSetsAccessed = true) ∧ Memory.wf s.mem = true ∧
        ∃ pa s3, s.translate (d.la + 5#32) .write .supervisor = .ok (pa, s3)) ∧
      (∃ v, s'.readMem .empty at5000 6 = .ok (v, s')) ∧
      ∃ d, s'.readDesc 0x10#16 = .ok (some d, s') ∧ ssRefusal s.cpl 0x10#16 d = none ∧ d.hi.getLsbD 8 = true :=
  ⟨rfl, by decide, ⟨_, rfl, by decide, by decide⟩,
    ⟨_, rfl, by decide, by decide, by decide, by decide, _, _, rfl⟩, ⟨_, rfl⟩, ⟨_, rfl, by decide, by decide⟩⟩

theorem witness_RegisterOperandUndefined :
    fullPointer (.lds16 .empty .eax (.reg .ebx)) = some ⟨.ds, .w16, .empty, .eax, .reg .ebx⟩ := rfl

theorem witness_NotRecognizedOutsideProtectedMode :
    isProtectedOnly (.ltr .empty (.reg .eax)) = true ∧ real.mode ≠ .prot ∧ v86.mode ≠ .prot := by decide

theorem witness_PrivilegedFaultsBelowLevelZero :
    isPrivileged (.lgdt .empty (.mem at5000)) = true ∧
      (∀ p r, Instr.lgdt .empty (.mem at5000) ≠ .lgdt p (.reg r) ∧ Instr.lgdt .empty (.mem at5000) ≠ .lidt p (.reg r)) ∧
      (user.mode = .prot ∧ user.cpl ≠ 0#2) ∧
      (v86.mode = .v86 ∧ v86.cfg.v86PrivFault = true ∧ isProtectedOnly (.lgdt .empty (.mem at5000)) = false) :=
  ⟨by decide, fun _ _ => ⟨by simp, by simp⟩, by decide, by decide⟩

theorem witness_OnlyLarAndLslWriteAFlag : ∃ t, exec (.lsl32 .empty .edx (.reg .eax)) (codeEntry (reg .eax 8 prot)) = .next t :=
  ⟨_, rfl⟩

theorem witness_GeneralRegisterFrame :
    Gpr.ebx ∉ writesGpr (.lodsb .empty true) ∧ ∃ t, exec (.lodsb .empty true) (reg .ecx 1 real) = .next t :=
  ⟨by decide, _, rfl⟩

theorem witness_SegmentRegisterFrame :
    loadsSegment (.les16 .empty .edi (.mem (.direct16 0#16))) ≠ some .ds ∧
      ∃ t, exec (.les16 .empty .edi (.mem (.direct16 0#16))) real = .next t :=
  ⟨by decide, _, rfl⟩

theorem witness_SystemRegisterFrame :
    (∀ p rm, Instr.lmsw .empty (.reg .eax) ≠ .lgdt p rm ∧ Instr.lmsw .empty (.reg .eax) ≠ .lidt p rm ∧
      Instr.lmsw .empty (.reg .eax) ≠ .lldt p rm ∧ Instr.lmsw .empty (.reg .eax) ≠ .ltr p rm ∧
      Instr.lahf .empty ≠ .lmsw p rm) ∧
      (∃ t, exec (.lmsw .empty (.reg .eax)) prot = .next t) ∧ ∃ t, exec (.lahf .empty) prot = .next t :=
  ⟨fun _ _ => ⟨by simp, by simp, by simp, by simp, by simp⟩, ⟨_, rfl⟩, ⟨_, rfl⟩⟩

/-- An instruction that stores nothing, LTR, and a full-pointer load, with an address that is not the byte stored. -/
theorem witness_MemoryFrame :
    (real.quiet = true ∧ storesMemory (.lahf .empty) = false ∧ ∃ t, exec (.lahf .empty) real = .next t) ∧
    (let s := tssEntry (reg .eax 0x20 prot);
      s.quiet = true ∧ (∃ t, exec (.ltr .empty (.reg .eax)) s = .next t) ∧
        s.readSelector .empty (.reg .eax) = .ok (0x20#16, s) ∧ s.descAddress 0x20#16 = some 0x1020#32 ∧
        (0x1024#32 : Dword) ≠ 0x1020#32 + 5#32) ∧
    (let s := dataEntry (with_ prot 0x5004 [0x10]);
      s.quiet = true ∧ (∃ t, exec (.les32 .empty .edi (.mem at5000)) s = .next t) ∧
        (∃ v, s.readMem .empty at5000 6 = .ok (v, s)) ∧ s.descAddress 0x10#16 = some 0x1010#32) :=
  ⟨⟨by decide, by decide, _, rfl⟩, ⟨by decide, ⟨_, rfl⟩, rfl, by decide, by decide⟩, by decide, ⟨_, rfl⟩, ⟨_, rfl⟩, by decide⟩

theorem witness_PagedMemoryFrame :
    Memory.wf paged.mem = true ∧ paged.cfg.externalAgents = .absent ∧ storesMemory (.leave32 .empty) = false ∧
      ∃ t, exec (.leave32 .empty) (reg .ebp 0x5000 paged) = .next t :=
  ⟨by decide, by decide, by decide, _, rfl⟩

theorem witness_ProtectionEnableIsSticky :
    (∃ t, step (code prot [0x0F, 0x01, 0xF0]) = .next t) ∧ prot.cr0.getLsbD 0 = true :=
  ⟨⟨_, rfl⟩, by decide⟩

/-- The LMSW that switches the mode, from Real Address Mode. -/
theorem witness_PrivilegeLevelIsConstant :
    (code (reg .eax 1 real) [0x0F, 0x01, 0xF0]).Inv ∧ ∃ t, step (code (reg .eax 1 real) [0x0F, 0x01, 0xF0]) = .next t :=
  ⟨by unfold State.Inv; decide, _, rfl⟩

theorem witness_UnprivilegedStepsKeepSystemRegisters :
    (user.mode = .prot ∧ user.cpl ≠ 0#2) ∧ (∃ t, step (code user [0x9F]) = .next t) ∧
      (v86.mode = .v86 ∧ v86.cfg.v86PrivFault = true) ∧ ∃ t, step (code v86 [0x9F]) = .next t :=
  ⟨by decide, ⟨_, rfl⟩, by decide, _, rfl⟩

/-- A segment load in Protected Mode. -/
theorem witness_InvariantIsKept :
    let s := code (reg .ebx 0x3000 (dataEntry (with_ prot 0x3004 [0x10]))) [0x0F, 0xB2, 0x23]
    s.Inv ∧ ∃ t, step s = .next t :=
  ⟨by unfold State.Inv; decide, _, rfl⟩

/-- The memory of the reset state has the canonical form. -/
theorem test_reset_memory : Memory.wf State.reset.mem = true := by decide

end Sys2Proof.Tests
end

section

/-! Null selectors (R97): the two readings of the model's test, one on the selector's bits and one on its number. -/

namespace Sys2Proof.Machine

theorem isNull_iff_extractLsb' (sel : Word) : isNull sel = true ↔ sel.extractLsb' 2 14 = 0#14 :=
  beq_iff_eq

/-- Bits 15:2 are the quotient by 4: a word's quotient fits their 14 bits, so nothing is cut off. -/
theorem extractLsb'_two_fourteen_toNat (sel : Word) : (sel.extractLsb' 2 14).toNat = sel.toNat / 4 := by
  have hfits : sel.toNat / 4 < 2 ^ 14 := by have := sel.isLt; omega
  calc (sel.extractLsb' 2 14).toNat
      = sel.toNat / 4 % 2 ^ 14 := by rw [BitVec.extractLsb'_toNat, Nat.shiftRight_eq_div_pow]
    _ = sel.toNat / 4 := Nat.mod_eq_of_lt hfits

theorem isNull_iff_toNat_le_three (sel : Word) : isNull sel = true ↔ sel.toNat ≤ 3 := by
  calc isNull sel = true
      ↔ (sel.extractLsb' 2 14).toNat = 0 := (isNull_iff_extractLsb' sel).trans BitVec.toNat_inj.symm
    _ ↔ sel.toNat / 4 = 0 := by rw [extractLsb'_two_fourteen_toNat]
    _ ↔ sel.toNat ≤ 3 := by omega

/-- Settles O20: the bit test is the model's own, and the range follows from it by the quotient by 4. -/
theorem nullSelectorsAreZeroToThree : Obligations.NullSelectorsAreZeroToThree :=
  fun sel => ⟨isNull_iff_extractLsb' sel, isNull_iff_toNat_le_three sel⟩

end Sys2Proof.Machine
end

section

/-! The encoder's bytes read back by the decoder behind a byte of group 1 (R141 to R144, R153, R154), and what the
decoder then makes of F3 and F2 (R160). -/

namespace Sys2Proof

/-! ## The formats of R153 read the encoder's bytes back -/

theorem parseFormat_modRm_bytes {asz : Size} {rm : RegMem} (make : Gpr → RegMem → Instr) (r : Gpr)
    (hrm : rm.wf asz = true) (rest : List Byte) :
    parseFormat asz (some (.modRm make)) (rm.bytes r.toBits ++ rest) = .ok (make r rm) rest := by
  obtain ⟨modrm, tail, hbytes, hreg, hread⟩ := parseRegMem_bytes asz rm r.toBits rest hrm
  simp [hbytes, parseFormat, Parse.andThen, hread, hreg]

theorem parseFormat_digit_bytes {asz : Size} {rm : RegMem} {make : BitVec 3 → Option (RegMem → Instr)}
    {reg : BitVec 3} {make' : RegMem → Instr} (hmake : make reg = some make') (hrm : rm.wf asz = true)
    (rest : List Byte) :
    parseFormat asz (some (.digit make)) (rm.bytes reg ++ rest) = .ok (make' rm) rest := by
  obtain ⟨modrm, tail, hbytes, hreg, hread⟩ := parseRegMem_bytes asz rm reg rest hrm
  simp [hbytes, parseFormat, Parse.andThen, hread, hreg, hmake]

/-! ## An instruction's encoding behind its prefix bytes -/

/-- Where the default size is `dflt`, the bytes of `i` are those of its prefixes `p`, the opcode byte `opcode` and
bytes after it that `parseBody` reads back. -/
def ReadsBackAfter (dflt : Size) (i : Instr) (p : Prefixes) (opcode : Byte) : Prop :=
  prefixByte opcode = none ∧ ∃ tail, encode i = p.bytes ++ opcode :: tail ∧
    ∀ rest, parseBody dflt p opcode (tail ++ rest) = .ok i rest

theorem ReadsBackAfter.of_oneByte {dflt : Size} {i : Instr} {p : Prefixes} {opcode : Byte} {tail : List Byte}
    (hopcode : prefixByte opcode = none ∧ opcode ≠ 0x0F#8) (hbytes : encode i = p.bytes ++ opcode :: tail)
    (hread : ∀ rest, parseFormat (p.addressSize dflt) (oneByteOpcode p (p.operandSize dflt) opcode) (tail ++ rest) =
      .ok i rest) : ReadsBackAfter dflt i p opcode :=
  ⟨hopcode.1, tail, hbytes, fun rest => by rw [parseBody, if_neg hopcode.2, hread]⟩

theorem ReadsBackAfter.of_twoByte {dflt : Size} {i : Instr} {p : Prefixes} {opcode : Byte} {tail : List Byte}
    (hbytes : encode i = p.bytes ++ 0x0F#8 :: opcode :: tail)
    (hread : ∀ rest, parseFormat (p.addressSize dflt) (twoByteOpcode p (p.operandSize dflt) opcode) (tail ++ rest) =
      .ok i rest) : ReadsBackAfter dflt i p 0x0F#8 :=
  ⟨rfl, opcode :: tail, hbytes, hread⟩

/-- Every instruction's encoding without F0 and F3, row by row of R154: the format its opcode selects reads it back. -/
theorem readsBackAfter_of_wf {dflt : Size} {i : Instr} (hwf : i.wf dflt = true) (hlock : i.takesLock = true) :
    ∃ p opcode, ReadsBackAfter dflt i p opcode := by
  cases i
  case lock => cases hlock
  case lahf p => exact ⟨p, _, .of_oneByte (by decide) rfl fun _ => rfl⟩
  case leave16 p | leave32 p =>
    have hsize := eq_of_beq hwf
    exact ⟨p, _, .of_oneByte (by decide) rfl fun _ => by rw [hsize]; rfl⟩
  case lodsb p rep =>
    cases rep
    · exact ⟨p, _, .of_oneByte (by decide) rfl fun _ => rfl⟩
    · cases hlock
  case lodsw p rep | lodsd p rep =>
    have hsize := eq_of_beq hwf
    cases rep
    · exact ⟨p, _, .of_oneByte (by decide) rfl fun _ => by rw [hsize]; rfl⟩
    · cases hlock
  case loop p _ | loope p _ | loopne p _ => exact ⟨p, _, .of_oneByte (by decide) rfl fun _ => rfl⟩
  case lgdt p rm | lidt p rm | lldt p rm | lmsw p rm | ltr p rm =>
    exact ⟨p, _, .of_twoByte rfl (parseFormat_digit_bytes rfl hwf)⟩
  case lea16 p r rm | lea32 p r rm | lds16 p r rm | lds32 p r rm | les16 p r rm | les32 p r rm =>
    obtain ⟨hsize, hrm⟩ := Bool.and_eq_true_iff.1 hwf
    exact ⟨p, _, .of_oneByte (by decide) rfl (by rw [eq_of_beq hsize]; exact parseFormat_modRm_bytes _ r hrm)⟩
  all_goals
    rename_i p r rm
    obtain ⟨hsize, hrm⟩ := Bool.and_eq_true_iff.1 hwf
    exact ⟨p, _, .of_twoByte rfl (by rw [eq_of_beq hsize]; exact parseFormat_modRm_bytes _ r hrm)⟩

/-! ## A byte of group 1 before an instruction -/

/-- The decoder reads the instruction behind a byte of group 1 whole, and only then joins that byte to it (R142). -/
theorem decode_group1_encode {dflt : Size} {i : Instr} {b : Byte} {g : Group1} (hb : prefixByte b = some (.group1 g))
    (hwf : i.wf dflt = true) (hlock : i.takesLock = true) (rest : List Byte) :
    ∃ p, decode dflt (b :: (encode i ++ rest)) =
      joinGroup1 { group1 := some g, p := p, repeated := false } i rest := by
  obtain ⟨p, opcode, hopcode, tail, hbytes, hread⟩ := readsBackAfter_of_wf hwf hlock
  have hprefixes : parsePrefixes .empty (b :: (encode i ++ rest)) =
      .ok ({ group1 := some g, p := p, repeated := false }, opcode) (tail ++ rest) := by
    rw [parsePrefixes, hb, hbytes, List.append_assoc]
    exact parsePrefixes_bytes (some g) p opcode (tail ++ rest) hopcode
  exact ⟨p, by simp only [decode, hprefixes, hread, Parse.andThen]⟩

theorem repeated_eq_none {i : Instr}
    (hlods : ∀ p rep, i ≠ .lodsb p rep ∧ i ≠ .lodsw p rep ∧ i ≠ .lodsd p rep) : repeated i = none := by
  cases i
  case lodsb p rep => exact absurd rfl (hlods p rep).1
  case lodsw p rep => exact absurd rfl (hlods p rep).2.1
  case lodsd p rep => exact absurd rfl (hlods p rep).2.2
  all_goals rfl

/-- Settles O7: the instruction behind F3 or F2 is read back, and joining the byte to it is what is refused. -/
theorem repeatPrefixOnlyBeforeLods : Obligations.RepeatPrefixOnlyBeforeLods := by
  intro dflt i rest hwf hlock
  constructor
  · intro hlods
    obtain ⟨p, hdecode⟩ := decode_group1_encode (b := 0xF3#8) (g := .rep) rfl hwf hlock rest
    simp [hdecode, joinGroup1, repeated_eq_none hlods]
  · obtain ⟨p, hdecode⟩ := decode_group1_encode (b := 0xF2#8) (g := .repne) rfl hwf hlock rest
    simp [hdecode, joinGroup1]

end Sys2Proof
end

section

/-! LAHF (R200, R201): the doubleword that holds AH after a byte is written to it, and the state LAHF leaves. -/

namespace Sys2Proof.Machine

/-- A write to AH, CH, DH or BH takes bits 15:8 of its register from the byte and keeps the others (R32). -/
theorem State.reg32_setReg8_high_bit {r : Reg8} (hr : r.high = true) (s : State) (v : Byte) (j : Nat) :
    ((s.setReg8 r v).reg32 r.home).getLsbD j =
      if 8 ≤ j ∧ j < 16 then v.getLsbD (j - 8) else (s.reg32 r.home).getLsbD j := by
  rw [State.setReg8, State.reg32_setReg32_same, if_pos hr, withByte1_bit]

/-- `AH[k] <- v[k]`. -/
theorem State.reg32_setReg8_ah_written_bit (s : State) (v : Byte) {k : Nat} (hk : k < 8) :
    ((s.setReg8 .ah v).reg32 .eax).getLsbD (8 + k) = v.getLsbD k := by
  have hbit := State.reg32_setReg8_high_bit (r := .ah) rfl s v (8 + k)
  rwa [if_pos (by omega), Nat.add_sub_cancel_left] at hbit

theorem State.reg32_setReg8_ah_kept_bit (s : State) (v : Byte) {k : Nat} (hk : k < 8 ∨ 16 ≤ k) :
    ((s.setReg8 .ah v).reg32 .eax).getLsbD k = (s.reg32 .eax).getLsbD k :=
  (State.reg32_setReg8_high_bit (r := .ah) rfl s v k).trans (if_neg (by omega))

/-- The flags keep their places in the byte that LAHF delivers (R200). -/
theorem State.flagsByte_flag_bit (s : State) : ∀ k ∈ [7, 6, 4, 2, 0], s.flagsByte.getLsbD k = s.eflags.getLsbD k := by
  obtain ⟨hsf, hzf, haf, hpf, hcf, -⟩ := s.flagsByte_bits
  simp only [List.forall_mem_cons]
  exact ⟨hsf, hzf, haf, hpf, hcf, nofun⟩

/-- LAHF completes in every state: AH written, three free values drawn, the program counter moved on. -/
theorem exec_lahf (p : Prefixes) (s : State) :
    exec (.lahf p) s = .next (((s.setReg8 .ah s.flagsByte).drawn 3).retire (.lahf p)) := rfl

/-- Drawing and moving the program counter on leave every register as the write to AH left it. -/
theorem State.reg32_retire_drawn (s : State) (n : Nat) (i : Instr) (r : Gpr) :
    ((s.drawn n).retire i).reg32 r = s.reg32 r := rfl

/-- Settles O24: LAHF's state by `exec_lahf`, then bits 15:8 of EAX from the byte's bits and all others kept. -/
theorem lahfLoadsFlags : Obligations.LahfLoadsFlags := by
  intro p s
  obtain ⟨-, -, -, -, -, hfree5, hfree3, hfree1⟩ := s.flagsByte_bits
  have hwritten {k : Nat} (hk : k < 8) := s.reg32_setReg8_ah_written_bit s.flagsByte hk
  refine ⟨_, exec_lahf p s, rfl, ?_⟩
  simp only [State.reg32_retire_drawn]
  refine ⟨fun r hr => ?_, fun k hk => ?_, fun k hk => ?_, ?_, ?_, ?_⟩
  · exact s.reg32_setReg8_other s.flagsByte .ah r hr
  · exact s.reg32_setReg8_ah_kept_bit s.flagsByte hk
  · have hlow : k < 8 := (by decide : ∀ k ∈ [7, 6, 4, 2, 0], k < 8) k hk
    exact (hwritten hlow).trans (s.flagsByte_flag_bit k hk)
  · exact (hwritten (k := 5) (by decide)).trans hfree5
  · exact (hwritten (k := 3) (by decide)).trans hfree3
  · exact (hwritten (k := 1) (by decide)).trans hfree1

end Sys2Proof.Machine
end

section

/-! LEA (R230 to R233): the state it leaves for a memory operand, and the bound of an address of a 16-bit form. -/

namespace Sys2Proof.Machine

/-! ## What LEA answers, by the form of its operand -/

theorem exec_lea16_mem (p : Prefixes) (dst : Gpr) (m : MemOp) (s : State) :
    exec (.lea16 p dst (.mem m)) s =
      .next ((s.setRegN .w16 dst (effectiveAddress s m)).retire (.lea16 p dst (.mem m))) := rfl

theorem exec_lea32_mem (p : Prefixes) (dst : Gpr) (m : MemOp) (s : State) :
    exec (.lea32 p dst (.mem m)) s =
      .next ((s.setRegN .w32 dst (effectiveAddress s m)).retire (.lea32 p dst (.mem m))) := rfl

theorem exec_lea16_reg (p : Prefixes) (dst r : Gpr) (s : State) :
    exec (.lea16 p dst (.reg r)) s = .fault (.invalidOpcode s.eip) := rfl

theorem exec_lea32_reg (p : Prefixes) (dst r : Gpr) (s : State) :
    exec (.lea32 p dst (.reg r)) s = .fault (.invalidOpcode s.eip) := rfl

/-! ## A register written, then the program counter moved on -/

theorem State.reg32_retire (s : State) (i : Instr) (r : Gpr) : (s.retire i).reg32 r = s.reg32 r := rfl

/-- Beside the general registers only the program counter differs. -/
theorem State.setRegN_retire_frame (s : State) (n : Size) (r : Gpr) (v : Dword) (i : Instr) :
    (s.setRegN n r v).retire i =
      { s with gpr := ((s.setRegN n r v).retire i).gpr, eip := s.eip + BitVec.ofNat 32 i.length } :=
  congrArg (State.retire · i) (s.setRegN_only_gpr n r v)

theorem State.reg32_setRegN_retire_other (s : State) (v : Dword) (n : Size) (i : Instr) (r q : Gpr) (h : q ≠ r) :
    ((s.setRegN n r v).retire i).reg32 q = s.reg32 q :=
  (State.reg32_retire _ i q).trans (s.reg32_setRegN_other v n r q h)

/-! ## The address -/

/-- The address of a 16-bit form is a 16-bit sum, zero-extended (R146). -/
theorem effectiveAddress_lt_of_size_w16 (s : State) {m : MemOp} (h : m.size = .w16) :
    (effectiveAddress s m).toNat < 65536 := by
  have zeroExtended_lt (w : Word) : (w.setWidth 32).toNat < 65536 :=
    (BitVec.toNat_setWidth 32 w).trans_lt ((Nat.mod_le _ _).trans_lt w.isLt)
  cases m with
  | based16 b d => exact zeroExtended_lt (baseSum s b + disp16Value d)
  | direct16 d => exact zeroExtended_lt d
  | based32 | direct32 | sib | sibDirect => cases h

/-- Settles O25: LEA writes the address at its operand size and retires; the value stored is then that of
`State.setRegN_toNat` with 16 bits, and the whole address with 32. -/
theorem leaStoresTheAddress : Obligations.LeaStoresTheAddress := by
  intro p dst r m s
  have hstored : (s.setRegN .w32 dst (effectiveAddress s m)).reg32 dst = effectiveAddress s m :=
    s.reg32_setReg32_same dst _
  refine ⟨⟨_, exec_lea16_mem p dst m s, ?frame16, ?others16, ?stored16⟩,
    ⟨_, exec_lea32_mem p dst m s, ?frame32, ?others32, ?stored32, ?zeroExtended⟩,
    exec_lea16_reg p dst r s, exec_lea32_reg p dst r s⟩
  case frame16 | frame32 => exact s.setRegN_retire_frame _ dst _ _
  case others16 | others32 => exact fun q hq => s.reg32_setRegN_retire_other _ _ _ dst q hq
  case stored16 => exact s.setRegN_toNat .w16 dst (effectiveAddress s m)
  case stored32 => exact hstored
  case zeroExtended =>
    intro hsize
    rw [State.reg32_retire, hstored]
    exact effectiveAddress_lt_of_size_w16 s hsize

end Sys2Proof.Machine
end

section

/-! The full-pointer loads (R270 to R275): how the ten of them run, and the load of a null selector (R272, R274). -/

namespace Sys2Proof.Machine

/-! ## One meaning for the ten loads -/

/-- The ten full-pointer loads differ only in their segment register and operand size (R276 to R285). -/
theorem exec_eq_loadFullPointer {i : Instr} {fp : FullPointer} (hfp : fullPointer i = some fp) (s : State) :
    exec i s = settle (loadFullPointer i fp.k fp.n fp.p fp.dst fp.rm s) := by
  cases i
  case lds16 | lds32 | lss16 | lss32 | les16 | les32 | lfs16 | lfs32 | lgs16 | lgs32 => cases hfp; rfl
  all_goals cases hfp

section MemoryOperand

variable {i : Instr} {fp : FullPointer} {m : MemOp} {s s1 : State} {v : Nat}

/-- A segment load that raises ends the instruction. -/
theorem exec_fullPointer_fault {f : Fault} (hfp : fullPointer i = some fp) (hrm : fp.rm = .mem m)
    (hread : s.readMem fp.p m (fp.n.bytes + 2) = .ok (v, s1))
    (hload : s1.loadSegment fp.k (BitVec.ofNat 16 (v / 2 ^ (8 * fp.n.bytes))) = .error f) :
    exec i s = .fault f := by
  simp only [exec_eq_loadFullPointer hfp, hrm, loadFullPointer, hread, hload, settle_error]

/-- After a segment load that answers, the offset is written and the program counter moves on. -/
theorem exec_fullPointer_next {s2 : State} (hfp : fullPointer i = some fp) (hrm : fp.rm = .mem m)
    (hread : s.readMem fp.p m (fp.n.bytes + 2) = .ok (v, s1))
    (hload : s1.loadSegment fp.k (BitVec.ofNat 16 (v / 2 ^ (8 * fp.n.bytes))) = .ok s2) :
    exec i s = .next ((s2.setRegN fp.n fp.dst (BitVec.ofNat 32 v)).retire i) := by
  simp only [exec_eq_loadFullPointer hfp, hrm, loadFullPointer, hread, hload, settle_ok]

end MemoryOperand

theorem State.readMem_agrees {s t : State} {p : Prefixes} {m : MemOp} {n v : Nat}
    (h : s.readMem p m n = .ok (v, t)) : AgreeButAccess s t :=
  State.segRead_agrees h

/-! ## The parts of the pointer -/

/-- The offset is the low part of the pointer as read; one of 16 bits keeps the register's upper half (R275). -/
theorem State.reg32_setRegN_offset (s : State) (n : Size) (r : Gpr) (v : Nat) :
    ((s.setRegN n r (BitVec.ofNat 32 v)).reg32 r).toNat =
      (if n = .w16 then (s.reg32 r).toNat / 65536 * 65536 else 0) + v % 2 ^ (8 * n.bytes) := by
  rw [State.setRegN_toNat, BitVec.toNat_ofNat]
  have hreg := (s.reg32 r).isLt
  cases n <;> simp only [sizeModulus, Size.bytes, reduceCtorEq, if_true, if_false] <;> omega

/-- The selector of a pointer whose upper part is 0 to 3 is null. -/
theorem isNull_ofNat_of_lt_four {x : Nat} (hx : x < 4) : isNull (BitVec.ofNat 16 x) = true := by
  rw [isNull_iff_toNat_le_three, BitVec.toNat_ofNat]
  omega

/-! ## A null selector in Protected Mode -/

/-- Into SS the null test is the first check of all, before any descriptor (R272). -/
theorem State.loadSegment_null_ss {s : State} {sel : Word} (hmode : s.mode = .prot) (hnull : isNull sel = true) :
    s.loadSegment .ss sel = raise s (.gp 0#32) := by
  simp only [State.loadSegment, State.checkSegment, hmode, hnull, if_true, raise]

/-- No descriptor is read: the state is the one before but for the segment register (R274). -/
theorem State.loadSegment_null_data {s : State} {k : SegReg} {sel : Word} (hmode : s.mode = .prot)
    (hnull : isNull sel = true) (hk : k ≠ .ss) :
    s.loadSegment k sel = .ok (s.setSeg k ((s.seg.get k).loadNull sel)) := by
  simp only [State.loadSegment, State.checkSegment, hmode, hnull, hk, if_true, if_false]

theorem takeException_gp_prot {s : State} (hmode : s.mode = .prot) (code : Dword) :
    takeException s (.gp code) = .generalProtection (some code) s.eip := by
  simp [takeException, State.errorCode, hmode]

/-- The valid bit decides, so offset and size do not matter (R89). -/
theorem State.segRead_invalid {s : State} {k : SegReg} (hmode : s.mode = .prot)
    (hvalid : (s.seg.get k).valid = false) (hk : k ≠ .ss) (off : Dword) (n : Nat) :
    s.segRead k off n = .error (.generalProtection (some 0#32) s.eip) := by
  have hok : s.segOk k off n = false := by simp [State.segOk, hmode, hvalid]
  have hfault : s.segFault k = .gp 0#32 := by simp [State.segFault, hmode, hk]
  simp [State.segRead, hok, raise, hfault, takeException_gp_prot hmode]

/-! ## A segment register loaded, the offset written, the program counter moved on -/

theorem State.seg_setRegN_retire (s : State) (n : Size) (r : Gpr) (v : Dword) (i : Instr) :
    ((s.setRegN n r v).retire i).seg = s.seg := by
  rw [State.retire_seg, State.setRegN_seg]

/-- Beside the general registers and the segment registers only the program counter differs. -/
theorem State.setSeg_setRegN_retire_frame (s : State) (k : SegReg) (c : SegCache) (n : Size) (r : Gpr) (v : Dword)
    (i : Instr) :
    ((s.setSeg k c).setRegN n r v).retire i =
      { s with
        gpr := (((s.setSeg k c).setRegN n r v).retire i).gpr
        seg := (((s.setSeg k c).setRegN n r v).retire i).seg
        eip := s.eip + BitVec.ofNat 32 i.length } := by
  rw [State.seg_setRegN_retire]
  exact State.setRegN_retire_frame _ n r v i

theorem State.mode_setSeg_setRegN_retire (s : State) (k : SegReg) (c : SegCache) (n : Size) (r : Gpr) (v : Dword)
    (i : Instr) : (((s.setSeg k c).setRegN n r v).retire i).mode = s.mode :=
  State.mode_congr _ _ (by simp) (by simp)

/-- Settles O41: a null selector reaches no descriptor, so the segment load is #GP(0) or one write to the segment
registers; the valid bit which that write clears is what every later read tests first. -/
theorem fullPointerOfNullSelector : Obligations.FullPointerOfNullSelector := by
  intro i fp m s s1 v hfp hrm hprot hread hlt
  have hagree : AgreeButAccess s s1 := State.readMem_agrees hread
  have hprot1 : s1.mode = .prot := hagree.mode.trans hprot
  have hnull := isNull_ofNat_of_lt_four hlt
  constructor
  · intro hss
    have hload := State.loadSegment_null_ss hprot1 hnull
    rw [raise, takeException_gp_prot hprot1, hagree.eip, ← hss] at hload
    exact exec_fullPointer_fault hfp hrm hread hload
  · intro hk
    have hexec := exec_fullPointer_next hfp hrm hread (State.loadSegment_null_data hprot1 hnull hk)
    have hreg (r : Gpr) : s1.reg32 r = s.reg32 r := congrArg (Gprs.get · r) hagree.gpr
    generalize hc : (s1.seg.get fp.k).loadNull (BitVec.ofNat 16 (v / 2 ^ (8 * fp.n.bytes))) = c at hexec
    generalize ht : ((s1.setSeg fp.k c).setRegN fp.n fp.dst (BitVec.ofNat 32 v)).retire i = t at hexec
    have hseg : t.seg = s1.seg.set fp.k c := by rw [← ht, State.seg_setRegN_retire, State.setSeg_seg]
    have hloaded : t.seg.get fp.k = c := by rw [hseg, SegRegs.get_set_same]
    have hinvalid : (t.seg.get fp.k).valid = false := by rw [hloaded, ← hc]; rfl
    have hprot2 : t.mode = .prot := by rw [← ht, State.mode_setSeg_setRegN_retire, hprot1]
    refine ⟨t, hexec, ?frame, ?selector, hinvalid, ?otherSegs, ?otherRegs, ?offset, ?laterReads⟩
    case frame =>
      rw [← hagree.eip, ← ht]
      exact State.setSeg_setRegN_retire_frame s1 fp.k c fp.n fp.dst _ i
    case selector =>
      rw [hloaded, ← hc]
      exact (BitVec.toNat_ofNat _ _).trans (Nat.mod_eq_of_lt (by omega))
    case otherSegs =>
      intro k hne
      rw [hseg, SegRegs.get_set_other _ _ _ _ hne, hagree.seg]
    case otherRegs =>
      intro r hne
      rw [← ht, State.reg32_setRegN_retire_other _ _ _ _ _ _ hne]
      exact hreg r
    case offset =>
      rw [← ht, ← hreg]
      exact State.reg32_setRegN_offset (s1.setSeg fp.k c) fp.n fp.dst v
    case laterReads => exact State.segRead_invalid hprot2 hinvalid hk

end Sys2Proof.Machine
end

section

/-! LLDT (R300 to R303): what it answers after each of its checks, and what its reads leave as it was. -/

namespace Sys2Proof.Machine

/-! ## Reads without the page walk and without other agents -/

theorem State.translateRange_unwalked {s t : State} {la : Dword} {access : Access} {rights : Rights} {n : Nat}
    {pas : List Dword} (hwalks : s.walks = false) (h : s.translateRange la access rights n = .ok (pas, t)) : t = s := by
  induction n generalizing la pas with
  | zero => cases h; rfl
  | succ n ih =>
    obtain ⟨pa, u, rest, hfirst, hrest, -⟩ := State.translateRange_cons h
    rw [State.translate_unwalked hwalks hfirst] at hrest
    exact ih hrest

theorem State.linRead_unwalked {s t : State} {la : Dword} {n v : Nat} {access : Access} {rights : Rights}
    (hwalks : s.walks = false) (habsent : s.cfg.externalAgents = .absent)
    (h : s.linRead la n access rights = .ok (v, t)) : t = s := by
  obtain ⟨pas, hrange, -⟩ := State.linRead_ok_absent habsent h
  exact State.translateRange_unwalked hwalks hrange

theorem State.readSelector_unwalked {s t : State} {p : Prefixes} {rm : RegMem} {sel : Word}
    (hwalks : s.walks = false) (habsent : s.cfg.externalAgents = .absent)
    (h : s.readSelector p rm = .ok (sel, t)) : t = s := by
  cases rm with
  | reg r => cases h; rfl
  | mem m =>
    simp only [State.readSelector] at h
    split at h
    · cases h
    · rename_i v u hmem
      cases h
      exact State.linRead_unwalked hwalks habsent (State.segRead_ok hmem).2

theorem State.readDesc_unwalked {s t : State} {sel : Word} {r : Option Desc}
    (hwalks : s.walks = false) (habsent : s.cfg.externalAgents = .absent)
    (h : s.readDesc sel = .ok (r, t)) : t = s := by
  unfold State.readDesc at h
  split at h
  · cases h; rfl
  · split at h
    · cases h
    · rename_i lo u hlo
      obtain rfl := State.linRead_unwalked hwalks habsent hlo
      split at h
      · cases h
      · rename_i hi u hhi
        cases h
        exact State.linRead_unwalked hwalks habsent hhi

/-! ## Selectors and their error codes in Protected Mode -/

theorem isNull_eq_false_of_four_le {sel : Word} (h : 4 ≤ sel.toNat) : isNull sel = false := by
  rw [Bool.eq_false_iff, ne_eq, isNull_iff_toNat_le_three]
  omega

/-- Masking the RPL bits off a selector rounds it down to a multiple of 4. -/
theorem and_fffc_toNat (sel : Word) : (sel &&& 0xFFFC#16).toNat = sel.toNat / 4 * 4 := by
  have hbits : sel &&& 0xFFFC#16 = sel.extractLsb' 2 14 ++ 0#2 := by
    refine BitVec.eq_of_getLsbD_eq fun j hj => ?_
    rw [BitVec.getLsbD_append, BitVec.getLsbD_and, BitVec.getLsbD_extractLsb']
    interval_cases j <;> simp
  rw [hbits, BitVec.toNat_append, extractLsb'_two_fourteen_toNat]
  simp [Nat.shiftLeft_eq]

theorem selectorCode_eq_ofNat (sel : Word) : selectorCode sel = BitVec.ofNat 32 (sel.toNat / 4 * 4) := by
  rw [selectorCode, ← and_fffc_toNat, BitVec.ofNat_toNat]

theorem takeException_gp_selector {s : State} (hmode : s.mode = .prot) (sel : Word) :
    takeException s (.gp (selectorCode sel)) =
      .generalProtection (some (BitVec.ofNat 32 (sel.toNat / 4 * 4))) s.eip := by
  rw [takeException_gp_prot hmode, selectorCode_eq_ofNat]

theorem takeException_np_selector {s : State} (hmode : s.mode = .prot) (sel : Word) :
    takeException s (.np (selectorCode sel)) =
      .segmentNotPresent (some (BitVec.ofNat 32 (sel.toNat / 4 * 4))) s.eip := by
  simp [takeException, State.errorCode, hmode, selectorCode_eq_ofNat]

/-! ## Fetching a descriptor, case by case -/

theorem State.fetchDesc_of_readDesc_error {s : State} {sel : Word} {f : Fault} (h : s.readDesc sel = .error f)
    (refusal : Desc → Option Exc) : s.fetchDesc sel refusal = .error f := by
  simp only [State.fetchDesc, h]

theorem State.fetchDesc_of_outside {s t : State} {sel : Word} (h : s.readDesc sel = .ok (none, t))
    (refusal : Desc → Option Exc) :
    s.fetchDesc sel refusal = .error (Machine.takeException s (.gp (selectorCode sel))) := by
  simp only [State.fetchDesc, h, raise]

theorem State.fetchDesc_of_refused {s t : State} {sel : Word} {d : Desc} {refusal : Desc → Option Exc} {e : Exc}
    (h : s.readDesc sel = .ok (some d, t)) (hrefused : refusal d = some e) :
    s.fetchDesc sel refusal = .error (Machine.takeException s e) := by
  simp only [State.fetchDesc, h, hrefused, raise]

theorem State.fetchDesc_of_passed {s t : State} {sel : Word} {d : Desc} {refusal : Desc → Option Exc}
    (h : s.readDesc sel = .ok (some d, t)) (hpassed : refusal d = none) :
    s.fetchDesc sel refusal = .ok (d, t) := by
  simp only [State.fetchDesc, h, hpassed]

/-! ## What LLDT asks of a descriptor (R301) -/

/-- An LDT's descriptor: S is 0 and the type is 2. -/
def Desc.isLdt (d : Desc) : Prop := d.hi.getLsbD 12 = false ∧ d.hi.toNat / 256 % 16 = 2

theorem Desc.type_toNat (d : Desc) : d.type.toNat = d.hi.toNat / 256 % 16 := by
  rw [Desc.type, BitVec.extractLsb'_toNat, Nat.shiftRight_eq_div_pow]

theorem Desc.isLdt_iff (d : Desc) : d.isLdt ↔ (!d.s && d.type == 2#4) = true := by
  rw [Bool.and_eq_true, Bool.not_eq_true', beq_iff_eq, ← BitVec.toNat_inj, Desc.type_toNat]
  exact Iff.rfl

theorem lldtRefusal_of_not_isLdt {d : Desc} (h : ¬ d.isLdt) (sel : Word) :
    lldtRefusal sel d = some (.gp (selectorCode sel)) := by
  rw [Desc.isLdt_iff, Bool.not_eq_true] at h
  exact if_pos h

theorem lldtRefusal_of_isLdt {d : Desc} (h : d.isLdt) (sel : Word) :
    lldtRefusal sel d = if d.present = false then some (.np (selectorCode sel)) else none := by
  rw [Desc.isLdt_iff] at h
  exact if_neg (by rw [h]; exact Bool.noConfusion)

/-! ## LDTR written, then the program counter moved on -/

/-- The next instruction's address is counted from the state before the reads. -/
theorem State.withLdtr_retire {s u : State} (h : AgreeButAccess s u) (l : LdtReg) (i : Instr) :
    ({ u with ldtr := l } : State).retire i = { u with ldtr := l, eip := s.eip + BitVec.ofNat 32 i.length } := by
  rw [← h.eip]
  rfl

/-! ## What LLDT answers at CPL 0 in Protected Mode -/

section AtLevelZero

variable {p : Prefixes} {rm : RegMem} {s s1 : State} {sel : Word} {f : Fault}

theorem exec_lldt_readSelector_error (hmode : s.mode = .prot) (hcpl : s.cpl = 0#2)
    (hread : s.readSelector p rm = .error f) : exec (.lldt p rm) s = .fault f := by
  simp [exec, execLldt, loadLdtr, hmode, hcpl, hread]

theorem exec_lldt_null (hmode : s.mode = .prot) (hcpl : s.cpl = 0#2)
    (hread : s.readSelector p rm = .ok (sel, s1)) (hnull : isNull sel = true) :
    exec (.lldt p rm) s =
      .next ({ s1 with ldtr := { s1.ldtr with sel := sel, valid := false } }.retire (.lldt p rm)) := by
  simp [exec, execLldt, loadLdtr, hmode, hcpl, hread, hnull]

theorem exec_lldt_selTi (hmode : s.mode = .prot) (hcpl : s.cpl = 0#2)
    (hread : s.readSelector p rm = .ok (sel, s1)) (hnull : isNull sel = false) (hti : selTi sel = true) :
    exec (.lldt p rm) s = .fault (takeException s1 (.gp (selectorCode sel))) := by
  simp [exec, execLldt, loadLdtr, hmode, hcpl, hread, hnull, hti, raise]

theorem exec_lldt_fetchDesc_error (hmode : s.mode = .prot) (hcpl : s.cpl = 0#2)
    (hread : s.readSelector p rm = .ok (sel, s1)) (hnull : isNull sel = false) (hti : selTi sel = false)
    (hfetch : s1.fetchDesc sel (lldtRefusal sel) = .error f) : exec (.lldt p rm) s = .fault f := by
  simp [exec, execLldt, loadLdtr, hmode, hcpl, hread, hnull, hti, hfetch]

theorem exec_lldt_fetchDesc_ok {s2 : State} {d : Desc} (hmode : s.mode = .prot) (hcpl : s.cpl = 0#2)
    (hread : s.readSelector p rm = .ok (sel, s1)) (hnull : isNull sel = false) (hti : selTi sel = false)
    (hfetch : s1.fetchDesc sel (lldtRefusal sel) = .ok (d, s2)) :
    exec (.lldt p rm) s =
      .next ({ s2 with ldtr := { sel := sel, base := d.base, limit := d.limit, valid := true } }.retire
        (.lldt p rm)) := by
  simp [exec, execLldt, loadLdtr, hmode, hcpl, hread, hnull, hti, hfetch]

end AtLevelZero

/-- LLDT writes LDTR and the program counter of the state that its reads leave (R302); without the page walk and
without other agents that is the state before. -/
theorem exec_lldt_frame {p : Prefixes} {rm : RegMem} {s t : State} (h : exec (.lldt p rm) s = .next t) :
    ∃ u, AgreeButAccess s u ∧ (s.walks = false → s.cfg.externalAgents = .absent → u = s) ∧
      t = { u with ldtr := t.ldtr, eip := t.eip } := by
  obtain ⟨-, -, sel, s1, hread, ⟨-, rfl⟩ | ⟨-, -, d, s2, hdesc, -, rfl⟩⟩ := loadLdtr_ok (settle_next.1 h)
  · exact ⟨s1, State.readSelector_agrees hread,
      fun hwalks habsent => State.readSelector_unwalked hwalks habsent hread, rfl⟩
  · refine ⟨s2, (State.readSelector_agrees hread).trans (State.readDesc_agrees hdesc), fun hwalks habsent => ?_, rfl⟩
    obtain rfl := State.readSelector_unwalked hwalks habsent hread
    exact State.readDesc_unwalked hwalks habsent hdesc

/-- Settles O35: LLDT's checks in R301's order, each answered by its own equation; its reads agree with the state before
but for what an access changes, so that a fault is that of the state before. -/
theorem lldtLoadsLdtr : Obligations.LldtLoadsLdtr := by
  intro p rm s hmode hcpl
  refine ⟨?frame, fun f hread => exec_lldt_readSelector_error hmode hcpl hread, ?checks⟩
  case frame =>
    intro t ht
    obtain ⟨u, hagree, hunwalked, hframe⟩ := exec_lldt_frame ht
    refine ⟨?_, fun hwalks habsent => ?_⟩
    · rw [hframe, hagree]
    · rw [hunwalked hwalks habsent] at hframe
      exact hframe
  case checks =>
    intro sel s1 hread code next
    have hagree : AgreeButAccess s s1 := State.readSelector_agrees hread
    have hgp : takeException s1 (.gp (selectorCode sel)) = .generalProtection code s.eip :=
      (hagree.takeException _).trans (takeException_gp_selector hmode sel)
    have hnp : takeException s1 (.np (selectorCode sel)) = .segmentNotPresent code s.eip :=
      (hagree.takeException _).trans (takeException_np_selector hmode sel)
    refine ⟨fun hlt => ?null, fun hge hti => ?ldtSelector, fun hge hti => ?gdtSelector⟩
    case null =>
      have hnull : isNull sel = true := (isNull_iff_toNat_le_three sel).2 (by omega)
      exact ⟨_, exec_lldt_null hmode hcpl hread hnull, State.withLdtr_retire hagree _ _, rfl, rfl⟩
    case ldtSelector =>
      rw [exec_lldt_selTi hmode hcpl hread (isNull_eq_false_of_four_le hge) hti, hgp]
    case gdtSelector =>
      have hnull := isNull_eq_false_of_four_le hge
      have hfault {f : Fault} (hfetch : s1.fetchDesc sel (lldtRefusal sel) = .error f) :
          exec (.lldt p rm) s = .fault f :=
        exec_lldt_fetchDesc_error hmode hcpl hread hnull hti hfetch
      refine ⟨fun f hdesc => hfault (State.fetchDesc_of_readDesc_error hdesc _),
        fun s2 hdesc => hgp ▸ hfault (State.fetchDesc_of_outside hdesc _), fun d s2 hdesc => ?_⟩
      refine ⟨fun hnot => ?notLdt, fun hldt hpresent => ?absent, fun hldt hpresent => ?present⟩
      case notLdt =>
        exact hgp ▸ hfault (State.fetchDesc_of_refused hdesc (lldtRefusal_of_not_isLdt hnot sel))
      case absent =>
        have hrefused := (lldtRefusal_of_isLdt hldt sel).trans (if_pos hpresent)
        exact hnp ▸ hfault (State.fetchDesc_of_refused hdesc hrefused)
      case present =>
        have hpassed := (lldtRefusal_of_isLdt hldt sel).trans (if_neg (by simp [Desc.present, hpresent]))
        rw [exec_lldt_fetchDesc_ok hmode hcpl hread hnull hti (State.fetchDesc_of_passed hdesc hpassed),
          State.withLdtr_retire (hagree.trans (State.readDesc_agrees hdesc))]

end Sys2Proof.Machine
end

section

/-! LOCK (R330, R335): no instruction in scope takes the prefix, so the instruction after it is never executed. -/

namespace Sys2Proof.Machine

/-- The dispatch on LOCK raises #UD at once: the instruction after it adds no check of its own. -/
theorem exec_lock (body : Instr) (s : State) : exec (.lock body) s = settle (raise s .ud) := rfl

/-- Settles O44: the dispatch to #UD, which every mode delivers alike, with the program counter still at the
instruction's first byte. -/
theorem lockIsUndefined : Obligations.LockIsUndefined := by
  intro body s
  calc exec (.lock body) s
      = settle (raise s .ud) := exec_lock body s
    _ = .fault (takeException s .ud) := settle_error _
    _ = .fault (.invalidOpcode s.eip) := rfl

end Sys2Proof.Machine
end

section

/-! The decoder reads back the encoder's bytes (R140 to R148, R154): without a byte of group 1, behind F0 and F3. -/

namespace Sys2Proof

/-- Without F0 and F3 the instruction's own prefix bytes stand first. -/
theorem decode_encode_of_takesLock {dflt : Size} {i : Instr} (hwf : i.wf dflt = true) (hlock : i.takesLock = true)
    (rest : List Byte) : decode dflt (encode i ++ rest) = .ok i rest := by
  obtain ⟨p, opcode, hopcode, tail, hbytes, hread⟩ := readsBackAfter_of_wf hwf hlock
  have hprefixes : parsePrefixes .empty (encode i ++ rest) =
      .ok ({ group1 := none, p := p, repeated := false }, opcode) (tail ++ rest) := by
    rw [hbytes, List.append_assoc]
    exact parsePrefixes_bytes none p opcode (tail ++ rest) hopcode
  simp [decode, hprefixes, hread, Parse.andThen, joinGroup1]

theorem decode_encode_lock {dflt : Size} {body : Instr} (hwf : (Instr.lock body).wf dflt = true) (rest : List Byte) :
    decode dflt (encode (.lock body) ++ rest) = .ok (.lock body) rest := by
  obtain ⟨hlock, hbody⟩ := Bool.and_eq_true_iff.1 hwf
  obtain ⟨p, hdecode⟩ := decode_group1_encode (b := 0xF0#8) (g := .lock) rfl hbody hlock rest
  exact hdecode

/-- F3 joined to a LODS gives its repeated form, whose bytes are F3 and those of the LODS (R355). -/
theorem decode_encode_rep {dflt : Size} {i i' : Instr} (hwf : i.wf dflt = true) (hlock : i.takesLock = true)
    (hrep : repeated i = some i') (hbytes : encode i' = 0xF3#8 :: encode i) (rest : List Byte) :
    decode dflt (encode i' ++ rest) = .ok i' rest := by
  obtain ⟨p, hdecode⟩ := decode_group1_encode (b := 0xF3#8) (g := .rep) rfl hwf hlock rest
  rw [hbytes, List.cons_append, hdecode]
  simp [joinGroup1, hrep]

/-- Settles O1: an instruction that F0 can be joined to stands behind its own prefix bytes; the others are LOCK, whose
body is such a one, and the repeated forms of LODS. -/
theorem decodeOfEncode : Obligations.DecodeOfEncode := by
  intro dflt i rest hwf
  cases i
  case lock body => exact decode_encode_lock hwf rest
  case lodsb p rep =>
    cases rep
    · exact decode_encode_of_takesLock hwf rfl rest
    · exact decode_encode_rep (i := .lodsb p false) hwf rfl rfl rfl rest
  case lodsw p rep =>
    cases rep
    · exact decode_encode_of_takesLock hwf rfl rest
    · exact decode_encode_rep (i := .lodsw p false) hwf rfl rfl rfl rest
  case lodsd p rep =>
    cases rep
    · exact decode_encode_of_takesLock hwf rfl rest
    · exact decode_encode_rep (i := .lodsd p false) hwf rfl rfl rfl rest
  all_goals exact decode_encode_of_takesLock hwf rfl rest

end Sys2Proof
end

section

/-! What every instruction keeps (R33, R38, R46 to R51): each operation on the state leaves all but its own part as it
was, and an instruction is a chain of such operations. -/

namespace Sys2Proof.Machine

/-- What `i` keeps of `s` in `t`: all that the spec does not let it write, and memory's canonical form. -/
structure Keeps (i : Instr) (s t : State) : Prop where
  flags : ∀ k, (k = 6 ∧ writesZf i = true) ∨ t.eflags.getLsbD k = s.eflags.getLsbD k
  registers : ∀ r, r ∉ writesGpr i → t.reg32 r = s.reg32 r
  segments : ∀ k, loadsSegment i ≠ some k → t.seg.get k = s.seg.get k
  gdtr : (∀ p rm, i ≠ .lgdt p rm) → t.gdtr = s.gdtr
  idtr : (∀ p rm, i ≠ .lidt p rm) → t.idtr = s.idtr
  ldtr : (∀ p rm, i ≠ .lldt p rm) → t.ldtr = s.ldtr
  tr : (∀ p rm, i ≠ .ltr p rm) → t.tr = s.tr
  status : (∀ p rm, i ≠ .lmsw p rm) → t.cr0 = s.cr0 ∧ t.peJustSet = s.peJustSet
  pagingBit : t.cr0.getLsbD 31 = s.cr0.getLsbD 31
  idle : t.cr2 = s.cr2 ∧ t.cr3 = s.cr3 ∧ t.dr0 = s.dr0 ∧ t.dr1 = s.dr1 ∧ t.dr2 = s.dr2 ∧ t.dr3 = s.dr3 ∧
    t.dr6 = s.dr6 ∧ t.dr7 = s.dr7 ∧ t.tr6 = s.tr6 ∧ t.tr7 = s.tr7 ∧ t.cfg = s.cfg
  canonical : Memory.wf s.mem = true → Memory.wf t.mem = true

namespace Keeps

variable {i : Instr} {s t u : State}

theorem trans (h1 : Keeps i s t) (h2 : Keeps i t u) : Keeps i s u where
  flags k := by
    rcases h2.flags k with h | h
    · exact .inl h
    · exact (h1.flags k).imp_right h.trans
  registers r hr := (h2.registers r hr).trans (h1.registers r hr)
  segments k hk := (h2.segments k hk).trans (h1.segments k hk)
  gdtr hi := (h2.gdtr hi).trans (h1.gdtr hi)
  idtr hi := (h2.idtr hi).trans (h1.idtr hi)
  ldtr hi := (h2.ldtr hi).trans (h1.ldtr hi)
  tr hi := (h2.tr hi).trans (h1.tr hi)
  status hi := ⟨(h2.status hi).1.trans (h1.status hi).1, (h2.status hi).2.trans (h1.status hi).2⟩
  pagingBit := h2.pagingBit.trans h1.pagingBit
  idle := by
    have h := h2.idle
    simp only [h1.idle] at h
    exact h
  canonical hm := h2.canonical (h1.canonical hm)

/-! ## Operations on the state -/

theorem of_access (h : AgreeButAccess s t) (hm : Memory.wf s.mem = true → Memory.wf t.mem = true) : Keeps i s t := by
  obtain ⟨m, b, n, rfl⟩ : ∃ m b n, t = { s with mem := m, tlb := b, draws := n } := ⟨_, _, _, h⟩
  constructor <;> simp_all [State.reg32]

theorem setEip (e : Dword) : Keeps i s (s.setEip e) := by
  constructor <;> simp [State.reg32]

theorem retire : Keeps i s (s.retire i) := setEip _

theorem drawn (n : Nat) : Keeps i s (s.drawn n) :=
  of_access rfl id

/-- A change of the general registers alone. -/
theorem withGpr (g : Gprs) (hg : ∀ r, r ∉ writesGpr i → g.get r = s.gpr.get r) : Keeps i s { s with gpr := g } := by
  constructor <;> simp_all [State.reg32]

theorem setReg32 {r : Gpr} (hr : r ∈ writesGpr i) (v : Dword) : Keeps i s (s.setReg32 r v) :=
  withGpr _ fun q hq => Gprs.get_set_other s.gpr v r q (ne_of_mem_of_not_mem hr hq).symm

theorem setRegN {r : Gpr} (hr : r ∈ writesGpr i) (n : Size) (v : Dword) : Keeps i s (s.setRegN n r v) := by
  cases n <;> exact setReg32 hr _

theorem setAccumulator (hr : .eax ∈ writesGpr i) (w : LodsWidth) (v : Nat) : Keeps i s (s.setAccumulator w v) := by
  cases w <;> exact setReg32 hr _

theorem setZf (hi : writesZf i = true) (z : Bool) : Keeps i s (s.setZf z) where
  flags k := by
    by_cases hk : k = 6
    · exact .inl ⟨hk, hi⟩
    · refine .inr ?_
      by_cases h32 : k < 32
      · rw [State.setZf_eflags, withZf_bit _ _ _ h32, if_neg hk]
      · rw [BitVec.getLsbD_of_ge _ _ (by omega), BitVec.getLsbD_of_ge _ _ (by omega)]
  registers _ _ := rfl
  segments _ _ := rfl
  gdtr _ := rfl
  idtr _ := rfl
  ldtr _ := rfl
  tr _ := rfl
  status _ := ⟨rfl, rfl⟩
  pagingBit := rfl
  idle := by simp
  canonical := id

/-- A change of the one segment register that the instruction loads. -/
theorem withSeg {k : SegReg} (hk : loadsSegment i = some k) (c : SegCache) :
    Keeps i s { s with seg := s.seg.set k c } := by
  constructor <;> simp_all [State.reg32]
  exact fun j hj => SegRegs.get_set_other s.seg c k j (Ne.symm hj)

theorem loadSegment {k : SegReg} {sel : Word} (hk : loadsSegment i = some k) (h : s.loadSegment k sel = .ok t) :
    Keeps i s t := by
  have hcanonical := State.loadSegment_wf h
  have hreads : Keeps i s { s with mem := t.mem, tlb := t.tlb, draws := t.draws } := of_access rfl hcanonical
  rw [State.loadSegment_frame h]
  exact hreads.trans (withSeg hk (t.seg.get k))

theorem setMsw {p : Prefixes} {rm : RegMem} (w : Word) : Keeps (.lmsw p rm) s (s.setMsw w) := by
  constructor
  case pagingBit => simp [State.setMsw_cr0, withLowWord_bit, -BitVec.getLsbD_eq_getElem]
  all_goals simp [State.reg32]

/-! ## The bodies that the meanings share -/

theorem querySegment {p : Prefixes} {rm : RegMem} {valid : Bool → BitVec 4 → Bool} {store : Desc → State → State}
    (hi : writesZf i = true) (hstore : ∀ d v, Keeps i v (store d v))
    (h : Machine.querySegment i p rm valid store s = .ok t) : Keeps i s t := by
  obtain ⟨-, sel, s1, r, s2, hread, hquery, rfl⟩ := querySegment_ok h
  have hreads : Keeps i s s2 := of_access ((State.readSelector_agrees hread).trans (State.query_agrees hquery))
    fun hm => State.query_wf hquery (State.readSelector_wf hread hm)
  cases r with
  | none => exact hreads.trans ((setZf hi _).trans retire)
  | some d => exact (hreads.trans (hstore d s2)).trans ((setZf hi _).trans retire)

theorem loadEffectiveAddress {n : Size} {dst : Gpr} {rm : RegMem} (hdst : dst ∈ writesGpr i)
    (h : Machine.loadEffectiveAddress i n dst rm s = .ok t) : Keeps i s t := by
  obtain ⟨m, -, rfl⟩ := loadEffectiveAddress_ok h
  exact (setRegN hdst _ _).trans retire

theorem leaveFrame {n : Size} (hesp : .esp ∈ writesGpr i) (hebp : .ebp ∈ writesGpr i)
    (h : Machine.leaveFrame i n s = .ok t) : Keeps i s t := by
  obtain ⟨-, v, s1, hread, rfl⟩ := leaveFrame_ok h
  have hreads : Keeps i s s1 := of_access (State.segRead_agrees hread) (State.segRead_wf hread)
  exact ((hreads.trans (setRegN hesp _ _)).trans (setRegN hebp _ _)).trans retire

theorem loadFullPointer {fp : FullPointer} (hfp : fullPointer i = some fp)
    (h : Machine.loadFullPointer i fp.k fp.n fp.p fp.dst fp.rm s = .ok t) : Keeps i s t := by
  obtain ⟨m, v, s1, s2, -, hread, hload, rfl⟩ := loadFullPointer_ok h
  have hparts : loadsSegment i = some fp.k ∧ fp.dst ∈ writesGpr i := by
    cases i <;> cases hfp <;> exact ⟨rfl, List.mem_singleton_self _⟩
  have hreads : Keeps i s s1 := of_access (State.readMem_agrees hread) (State.segRead_wf hread)
  exact ((hreads.trans (loadSegment hparts.1 hload)).trans (setRegN hparts.2 _ _)).trans retire

theorem loadTableRegister {p : Prefixes} {rm : RegMem} {store : TableReg → State → State}
    (hstore : ∀ r v, Keeps i v (store r v)) (h : Machine.loadTableRegister i p rm store s = .ok t) : Keeps i s t := by
  obtain ⟨-, m, v, s1, -, -, hread, rfl⟩ := loadTableRegister_ok h
  have hreads : Keeps i s s1 := of_access (State.readMem_agrees hread) (State.segRead_wf hread)
  exact (hreads.trans (hstore _ s1)).trans retire

theorem lodsOnce {w : LodsWidth} {p : Prefixes} (heax : .eax ∈ writesGpr i) (hesi : .esi ∈ writesGpr i)
    (h : Machine.lodsOnce w p s = .ok t) : Keeps i s t := by
  obtain ⟨v, s1, hread, rfl⟩ := lodsOnce_ok h
  have hreads : Keeps i s s1 := of_access (State.segRead_agrees hread) (State.segRead_wf hread)
  exact (hreads.trans (setAccumulator heax w v)).trans (setRegN hesi _ _)

theorem loadString {w : LodsWidth} {p : Prefixes} {rep : Bool} (heax : .eax ∈ writesGpr i) (hesi : .esi ∈ writesGpr i)
    (hecx : rep = true → .ecx ∈ writesGpr i) (h : Machine.loadString i w p rep s = .ok t) : Keeps i s t := by
  obtain ⟨-, s1, hload, rfl⟩ | ⟨-, -, rfl⟩ | ⟨hrep, -, s1, hload, rfl⟩ | ⟨hrep, -, -, s1, hload, rfl⟩ := loadString_ok h
  · exact (lodsOnce heax hesi hload).trans retire
  · exact retire
  · exact ((lodsOnce heax hesi hload).trans (setRegN (hecx hrep) _ _)).trans retire
  · exact (lodsOnce heax hesi hload).trans (setRegN (hecx hrep) _ _)

theorem loopStep {p : Prefixes} {rel8 : Byte} {cond : Dword → Bool → Bool} (hecx : .ecx ∈ writesGpr i)
    (h : Machine.loopStep i p rel8 cond s = .ok t) : Keeps i s t := by
  obtain ⟨-, -, rfl⟩ | ⟨-, rfl⟩ := loopStep_ok h
  · exact (setRegN hecx _ _).trans (setEip _)
  · exact (setRegN hecx _ _).trans retire

theorem loadMsw {p p' : Prefixes} {rm rm' : RegMem} (h : Machine.loadMsw (.lmsw p rm) p' rm' s = .ok t) :
    Keeps (.lmsw p rm) s t := by
  obtain ⟨-, src, s1, hread, rfl⟩ := loadMsw_ok h
  have hreads : Keeps (.lmsw p rm) s s1 := of_access (State.readSelector_agrees hread) (State.readSelector_wf hread)
  exact (hreads.trans (setMsw _)).trans retire

theorem withLdtr {p : Prefixes} {rm : RegMem} (l : LdtReg) : Keeps (.lldt p rm) s { s with ldtr := l } := by
  constructor <;> simp [State.reg32]

theorem withTr {p : Prefixes} {rm : RegMem} (r : TaskReg) : Keeps (.ltr p rm) s { s with tr := r } := by
  constructor <;> simp [State.reg32]

theorem withGdtr {p : Prefixes} {rm : RegMem} (r : TableReg) : Keeps (.lgdt p rm) s { s with gdtr := r } := by
  constructor <;> simp [State.reg32]

theorem withIdtr {p : Prefixes} {rm : RegMem} (r : TableReg) : Keeps (.lidt p rm) s { s with idtr := r } := by
  constructor <;> simp [State.reg32]

theorem loadLdtr {p p' : Prefixes} {rm rm' : RegMem} (h : Machine.loadLdtr (.lldt p rm) p' rm' s = .ok t) :
    Keeps (.lldt p rm) s t := by
  obtain ⟨-, -, sel, s1, hread, ⟨-, rfl⟩ | ⟨-, -, d, s2, hdesc, -, rfl⟩⟩ := loadLdtr_ok h
  all_goals have hreads : Keeps (.lldt p rm) s s1 :=
    of_access (State.readSelector_agrees hread) (State.readSelector_wf hread)
  · exact (hreads.trans (withLdtr _)).trans retire
  · have hdescReads : Keeps (.lldt p rm) s1 s2 := of_access (State.readDesc_agrees hdesc) (State.readDesc_wf hdesc)
    exact ((hreads.trans hdescReads).trans (withLdtr _)).trans retire

theorem loadTaskRegister {p p' : Prefixes} {rm rm' : RegMem}
    (h : Machine.loadTaskRegister (.ltr p rm) p' rm' s = .ok t) : Keeps (.ltr p rm) s t := by
  obtain ⟨-, -, sel, s1, d, s2, s3, hread, -, -, hdesc, -, hwrite, rfl⟩ := loadTaskRegister_ok h
  have haccesses : Keeps (.ltr p rm) s s3 :=
    of_access (((State.readSelector_agrees hread).trans (State.readDesc_agrees hdesc)).trans
      (State.linWrite_agrees hwrite)) fun hm =>
        State.linWrite_wf hwrite (State.readDesc_wf hdesc (State.readSelector_wf hread hm))
  exact (haccesses.trans (withTr _)).trans retire

end Keeps

/-- Each row of R154 runs one of the shared bodies, with the registers that R33 and R46 to R50 list for it. -/
theorem exec_keeps {i : Instr} {s t : State} (h : exec i s = .next t) : Keeps i s t := by
  cases i
  case lahf p =>
    obtain rfl := Except.ok.inj (settle_next.1 h)
    exact ((Keeps.setReg32 (by simp [writesGpr, Reg8.home]) _).trans (Keeps.drawn 3)).trans Keeps.retire
  case lar16 p dst rm | lsl16 p dst rm =>
    exact .querySegment rfl (fun d u => .setReg32 (by simp [writesGpr]) _) (settle_next.1 h)
  case lar32 p dst rm =>
    exact .querySegment rfl (fun d u => (Keeps.setReg32 (by simp [writesGpr]) _).trans (.drawn 1)) (settle_next.1 h)
  case lsl32 p dst rm =>
    exact .querySegment rfl (fun d u => .setReg32 (by simp [writesGpr]) _) (settle_next.1 h)
  case lea16 p dst rm | lea32 p dst rm =>
    exact .loadEffectiveAddress (by simp [writesGpr]) (settle_next.1 h)
  case leave16 p | leave32 p =>
    exact .leaveFrame (by simp [writesGpr]) (by simp [writesGpr]) (settle_next.1 h)
  case lgdt p rm => exact .loadTableRegister (fun r u => .withGdtr r) (settle_next.1 h)
  case lidt p rm => exact .loadTableRegister (fun r u => .withIdtr r) (settle_next.1 h)
  case lldt p rm => exact .loadLdtr (settle_next.1 h)
  case lmsw p rm => exact .loadMsw (settle_next.1 h)
  case ltr p rm => exact .loadTaskRegister (settle_next.1 h)
  case lock body => cases h
  case lodsb p rep | lodsw p rep | lodsd p rep =>
    refine .loadString ?_ ?_ ?_ (settle_next.1 h) <;> cases rep <;> simp [writesGpr]
  case loop p rel8 | loope p rel8 | loopne p rel8 => exact .loopStep (by simp [writesGpr]) (settle_next.1 h)
  all_goals exact .loadFullPointer rfl (settle_next.1 h)

/-- Settles O48. -/
theorem onlyLarAndLslWriteAFlag : Obligations.OnlyLarAndLslWriteAFlag := fun _ _ _ h => (exec_keeps h).flags

/-- Settles O49. -/
theorem generalRegisterFrame : Obligations.GeneralRegisterFrame := fun _ _ _ h => (exec_keeps h).registers

theorem loadsSegment_ne_cs (i : Instr) : loadsSegment i ≠ some .cs := by
  cases i <;> exact nofun

/-- Settles O50: CS is the segment register of no full-pointer load. -/
theorem segmentRegisterFrame : Obligations.SegmentRegisterFrame := fun i _ _ h =>
  ⟨(exec_keeps h).segments .cs (loadsSegment_ne_cs i), (exec_keeps h).segments⟩

/-- Settles O51. -/
theorem systemRegisterFrame : Obligations.SystemRegisterFrame := fun _ _ _ h =>
  have hkeeps := exec_keeps h
  ⟨hkeeps.gdtr, hkeeps.idtr, hkeeps.ldtr, hkeeps.tr, hkeeps.status, hkeeps.pagingBit, hkeeps.idle⟩

end Sys2Proof.Machine
end

section

/-! Privilege and mode (R52, R53, R305, R306, R437, R438): what changes them, who may load the system registers, and the
instructions refused outright. -/

namespace Sys2Proof.Machine

/-! ## The machine status word after LMSW (R305) -/

/-- The mask chooses each bit's source; bit 0 stays 1 where it was 1. -/
theorem mswAfter_bit (mask msw src : Word) {k : Nat} (hk : k < 16) :
    (mswAfter mask msw src).getLsbD k =
      ((if mask.getLsbD k then src.getLsbD k else msw.getLsbD k) || (decide (k = 0) && msw.getLsbD 0)) := by
  have hone : (1#16).getLsbD k = decide (k = 0) := by interval_cases k <;> rfl
  have hlow : (msw.getLsbD k && decide (k = 0)) = (decide (k = 0) && msw.getLsbD 0) := by
    by_cases h0 : k = 0 <;> simp [h0]
  rw [mswAfter, BitVec.getLsbD_or, BitVec.getLsbD_and, hone, hlow]
  cases hm : mask.getLsbD k <;> simp [hm, hk, -BitVec.getLsbD_eq_getElem]

theorem lowWord_bit (d : Dword) {k : Nat} (hk : k < 16) : (lowWord d).getLsbD k = d.getLsbD k := by
  simp [lowWord, hk, -BitVec.getLsbD_eq_getElem]

theorem mswAfter_bit_zero (mask src : Word) (cr0 : Dword) :
    (mswAfter mask (lowWord cr0) src).getLsbD 0 = (cr0.getLsbD 0 || (mask.getLsbD 0 && src.getLsbD 0)) := by
  rw [mswAfter_bit _ _ _ (by decide), lowWord_bit _ (by decide)]
  cases mask.getLsbD 0 <;> cases cr0.getLsbD 0 <;> simp

/-- PE after LMSW. -/
theorem State.pe_setMsw (s : State) (w : Word) : (s.setMsw w).pe = w.getLsbD 0 := by
  rw [State.pe, State.setMsw_cr0, withLowWord_bit, if_pos (by decide)]

/-! ## What an instruction makes of PE and of the mode -/

/-- An instruction keeps PE and the obligation of R306, or it is the LMSW that sets them. -/
theorem exec_pe {i : Instr} {s t : State} (h : exec i s = .next t) :
    (t.pe = s.pe ∧ t.peJustSet = s.peJustSet) ∨ (s.pe = false ∧ t.pe = true ∧ t.peJustSet = true) := by
  by_cases hi : ∃ p rm, i = .lmsw p rm
  · obtain ⟨p, rm, rfl⟩ := hi
    obtain ⟨-, src, s1, hread, rfl⟩ := loadMsw_ok (settle_next.1 h)
    have hagree := State.readSelector_agrees hread
    have hpe : s1.pe = s.pe := by rw [State.pe, State.pe, hagree.cr0]
    have hafter : ∀ w, ((s1.setMsw w).retire (.lmsw p rm)).pe = w.getLsbD 0 := s1.pe_setMsw
    rw [hafter, State.retire_peJustSet, State.setMsw_peJustSet, mswAfter_bit_zero, ← State.pe, hpe, hagree.peJustSet]
    cases hpe0 : s.pe
    · cases s1.cfg.lmswMask.getLsbD 0 && src.getLsbD 0 <;> simp
    · simp
  · have hstatus := (exec_keeps h).status fun p rm e => hi ⟨p, rm, e⟩
    exact .inl ⟨by rw [State.pe, State.pe, hstatus.1], hstatus.2⟩

theorem exec_vm {i : Instr} {s t : State} (h : exec i s = .next t) : t.vm = s.vm :=
  ((exec_keeps h).flags 17).resolve_left fun h17 => absurd h17.1 (by decide)

theorem exec_cs {i : Instr} {s t : State} (h : exec i s = .next t) : t.seg.cs = s.seg.cs :=
  (exec_keeps h).segments .cs (loadsSegment_ne_cs i)

theorem State.mode_of_pe_vm {s t : State} (hpe : t.pe = s.pe) (hvm : t.vm = s.vm) : t.mode = s.mode := by
  rw [State.mode, State.mode, hpe, hvm]

theorem State.mode_eq_real_iff (s : State) : s.mode = .real ↔ s.pe = false := by
  unfold State.mode
  cases s.pe <;> cases s.vm <;> simp

theorem State.cpl_of_mode {s t : State} (hmode : t.mode = s.mode) (hpending : t.peJustSet = s.peJustSet)
    (hcs : t.seg.cs = s.seg.cs) : t.cpl = s.cpl := by
  rw [State.cpl, State.cpl, hmode, hpending, hcs]

/-- An instruction keeps mode and CPL; or it is the LMSW that leaves Real Address Mode, for Protected Mode at CPL 0
where VM is clear. -/
theorem exec_mode {i : Instr} {s t : State} (h : exec i s = .next t) :
    (t.mode = s.mode ∧ t.cpl = s.cpl ∧ t.peJustSet = s.peJustSet) ∨
      (s.mode = .real ∧ t.peJustSet = true ∧ (s.vm = false → t.mode = .prot ∧ t.cpl = 0#2)) := by
  rcases exec_pe h with ⟨hpe, hpending⟩ | ⟨hpe, hpe', hpending⟩
  · have hmode := State.mode_of_pe_vm hpe (exec_vm h)
    exact .inl ⟨hmode, State.cpl_of_mode hmode hpending (exec_cs h), hpending⟩
  · refine .inr ⟨s.mode_eq_real_iff.2 hpe, hpending, fun hvm => ?_⟩
    have hmode : t.mode = .prot := by rw [State.mode, hpe', exec_vm h, hvm]; rfl
    exact ⟨hmode, by rw [State.cpl, hmode, hpending]; rfl⟩

/-! ## Steps -/

/-- A step is an instruction's meaning in a state that the fetch leaves as it was but for what an access changes. -/
theorem step_next_exec {s t : State} (h : step s = .next t) :
    ∃ i s1, AgreeButAccess s s1 ∧ (Memory.wf s.mem = true → Memory.wf s1.mem = true) ∧ s.peJustSet = false ∧
      exec i s1 = .next t := by
  obtain ⟨i, bs, s1, -, -, hreads, hpending, hexec⟩ := step_next h
  exact ⟨i, s1, State.readsBytes_agrees hreads, State.readsBytes_wf hreads, hpending, hexec⟩

/-- Settles O55: PE is kept or set. -/
theorem protectionEnableIsSticky : Obligations.ProtectionEnableIsSticky := by
  intro s t hstep hpe
  obtain ⟨i, s1, hagree, -, -, hexec⟩ := step_next_exec hstep
  have hpe1 : s1.pe = true := by rw [State.pe, hagree.cr0]; exact hpe
  rcases exec_pe hexec with ⟨hkept, -⟩ | ⟨-, hset, -⟩
  · exact hkept.trans hpe1
  · exact hset

theorem AgreeButAccess.vm {s t : State} (h : AgreeButAccess s t) : t.vm = s.vm := by rw [State.vm, State.vm, h.eflags]

/-- Settles O56: the one instruction that changes the mode leaves CPL 0, which is that of Real Address Mode. -/
theorem privilegeLevelIsConstant : Obligations.PrivilegeLevelIsConstant := by
  intro s t hinv hstep
  obtain ⟨i, s1, hagree, -, -, hexec⟩ := step_next_exec hstep
  obtain ⟨-, -, -, -, -, -, -, hvmReal, -⟩ := hinv
  rw [← hagree.cpl, ← hagree.mode]
  rcases exec_mode hexec with ⟨hmode, hcpl, -⟩ | ⟨hreal, hpending, hswitch⟩
  · exact ⟨hcpl, .inl hmode⟩
  · obtain ⟨hprot, hcpl⟩ := hswitch (hagree.vm.trans (hvmReal (hagree.mode.symm.trans hreal)))
    have hcpl1 : s1.cpl = 0#2 := by rw [State.cpl, hreal]
    exact ⟨hcpl.trans hcpl1.symm, .inr ⟨hreal, hprot, hpending⟩⟩

/-! ## The privilege check (R438) -/

/-- The states in which the privilege check of LGDT, LIDT and LMSW fails. -/
theorem State.deniesSystem_eq_true_iff (s : State) :
    s.deniesSystem = true ↔ (s.mode = .prot ∧ s.cpl ≠ 0#2) ∨ (s.mode = .v86 ∧ s.cfg.v86PrivFault = true) := by
  unfold State.deniesSystem
  cases s.mode <;> simp

theorem State.deniesSystem_eq_false_of_level_zero {s : State} (hmode : s.mode = .prot) (hcpl : s.cpl = 0#2) :
    s.deniesSystem = false := by
  rw [Bool.eq_false_iff, ne_eq, State.deniesSystem_eq_true_iff]
  simp [hmode, hcpl]

/-- A privileged instruction that completes has passed the check. -/
theorem exec_privileged_next {i : Instr} {s t : State} (hi : isPrivileged i = true) (h : exec i s = .next t) :
    s.deniesSystem = false := by
  cases i
  case lgdt | lidt => exact (loadTableRegister_ok (settle_next.1 h)).1
  case lmsw => exact (loadMsw_ok (settle_next.1 h)).1
  case lldt =>
    obtain ⟨hmode, hcpl, -⟩ := loadLdtr_ok (settle_next.1 h)
    exact State.deniesSystem_eq_false_of_level_zero hmode hcpl
  case ltr =>
    obtain ⟨hmode, hcpl, -⟩ := loadTaskRegister_ok (settle_next.1 h)
    exact State.deniesSystem_eq_false_of_level_zero hmode hcpl
  all_goals cases hi

/-- Settles O57: where the check fails only unprivileged instructions complete, which write no system register. -/
theorem unprivilegedStepsKeepSystemRegisters : Obligations.UnprivilegedStepsKeepSystemRegisters := by
  intro s t hlevel hstep
  obtain ⟨i, s1, hagree, -, -, hexec⟩ := step_next_exec hstep
  have hdenies : s1.deniesSystem = true := by
    rw [State.deniesSystem_eq_true_iff, hagree.mode, hagree.cpl, hagree.cfg]
    exact hlevel
  have hplain : isPrivileged i = false := by
    rw [Bool.eq_false_iff]
    intro hi
    simp [exec_privileged_next hi hexec] at hdenies
  have hkeeps := exec_keeps hexec
  have hmode : t.mode = s1.mode ∧ t.cpl = s1.cpl := by
    rcases exec_mode hexec with ⟨hmode, hcpl, -⟩ | ⟨hreal, -⟩
    · exact ⟨hmode, hcpl⟩
    · rw [State.deniesSystem_eq_true_iff, hreal] at hdenies
      simp at hdenies
  rw [← hagree.gdtr, ← hagree.ldtr, ← hagree.cr0, ← hagree.mode, ← hagree.cpl,
    show s.idtr = s1.idtr by rw [hagree], show s.tr = s1.tr by rw [hagree]]
  refine ⟨hkeeps.gdtr ?_, hkeeps.idtr ?_, hkeeps.ldtr ?_, hkeeps.tr ?_, (hkeeps.status ?_).1, hmode.1, hmode.2⟩
  all_goals
    rintro p rm rfl
    cases hplain

/-! ## The invariant -/

/-- What the invariant asks of a segment register other than CS. -/
def segmentOk (k : SegReg) (c : SegCache) : Prop :=
  if k = .ss then stackSegmentOk c = true else dataSegmentOk c = true

theorem State.inv_iff (s : State) :
    s.Inv ↔ Memory.wf s.mem = true ∧ s.seg.cs.valid = true ∧ (∀ k, k ≠ .cs → segmentOk k (s.seg.get k)) ∧
      (s.mode = .real → s.vm = false) ∧ (s.peJustSet = true → s.mode = .prot) := by
  unfold State.Inv
  constructor
  · rintro ⟨hmem, hss, hcs, hds, hes, hfs, hgs, hvm, hpending⟩
    refine ⟨hmem, hcs, fun k hk => ?_, hvm, hpending⟩
    cases k
    case cs => exact absurd rfl hk
    all_goals assumption
  · rintro ⟨hmem, hcs, hseg, hvm, hpending⟩
    exact ⟨hmem, hseg .ss nofun, hcs, hseg .ds nofun, hseg .es nofun, hseg .fs nofun, hseg .gs nofun, hvm, hpending⟩

theorem ssRefusal_eq_none_iff (cpl : BitVec 2) (sel : Word) (d : Desc) :
    ssRefusal cpl sel d = none ↔
      selRpl sel = cpl ∧ d.isWritableData = true ∧ d.dpl = cpl ∧ d.present = true := by
  unfold ssRefusal
  split_ifs <;> simp_all

theorem dataRefusal_eq_none_iff (cpl : BitVec 2) (sel : Word) (d : Desc) :
    dataRefusal cpl sel d = none ↔
      (d.isData || d.isReadableCode) = true ∧
      ¬ (d.isConforming = false ∧ (d.dpl.toNat < (selRpl sel).toNat ∨ d.dpl.toNat < cpl.toNat)) ∧
      d.present = true := by
  unfold dataRefusal
  generalize (d.isData || d.isReadableCode) = allowed
  split_ifs <;> simp_all

/-- Bits 1 to 7 of a loaded register's attributes are those of the descriptor's access-rights byte. -/
theorem SegCache.ofDesc_ar_bit (sel : Word) (d : Desc) {j : Nat} (h1 : 1 ≤ j) (h8 : j < 8) :
    (SegCache.ofDesc sel d).ar.getLsbD j = d.hi.getLsbD (8 + j) := by
  have hone : (0x01#8).getLsbD j = false := by interval_cases j <;> rfl
  rw [SegCache.ofDesc, Desc.attributes_bit _ _ _ h8, BitVec.getLsbD_or, hone, Bool.or_false, Desc.arByte,
    BitVec.getLsbD_extractLsb', decide_eq_true h8, Bool.true_and]

/-- The checks of a segment load let only such descriptors through as the register may hold. -/
theorem SegCache.ofDesc_segmentOk {k : SegReg} {cpl : BitVec 2} {sel : Word} {d : Desc}
    (h : (if k = .ss then ssRefusal cpl sel d else dataRefusal cpl sel d) = none) :
    segmentOk k (SegCache.ofDesc sel d) := by
  have hs : arS (SegCache.ofDesc sel d).ar = d.s := SegCache.ofDesc_ar_bit sel d (by decide) (by decide)
  have htype {j : Nat} (h1 : 1 ≤ j) (h4 : j < 4) : (SegCache.ofDesc sel d).ar.getLsbD j = d.type.getLsbD j := by
    rw [SegCache.ofDesc_ar_bit sel d h1 (by omega), Desc.type, BitVec.getLsbD_extractLsb', decide_eq_true h4,
      Bool.true_and]
  have h1 := htype (j := 1) (by decide) (by decide)
  have h3 := htype (j := 3) (by decide) (by decide)
  unfold segmentOk
  split at h
  · rename_i hk
    obtain ⟨-, hwritable, -, -⟩ := (ssRefusal_eq_none_iff _ _ _).1 h
    rw [if_pos hk, stackSegmentOk, arData, arRW, hs, h1, h3]
    exact hwritable
  · rename_i hk
    obtain ⟨hdata, -, -⟩ := (dataRefusal_eq_none_iff _ _ _).1 h
    rw [if_neg hk]
    revert hdata
    simp only [dataSegmentOk, readable, arCode, arRW, hs, h1, h3, Desc.isData, Desc.isReadableCode]
    cases d.s <;> cases d.type.getLsbD 3 <;> cases d.type.getLsbD 1 <;> decide

theorem State.loadSegment_segmentOk {s t : State} {k : SegReg} {sel : Word} (h : s.loadSegment k sel = .ok t)
    (hk : segmentOk k (s.seg.get k)) : segmentOk k (t.seg.get k) := by
  rcases State.loadSegment_ok h with ⟨-, rfl⟩ | ⟨-, -, hss, rfl⟩ | ⟨-, -, d, s1, s2, -, hpassed, -, rfl⟩
  · rw [State.setSeg_seg, SegRegs.get_set_same]
    unfold segmentOk at hk ⊢
    split
    · rename_i hss
      rw [if_pos hss] at hk
      simp_all [stackSegmentOk, SegCache.loadReal]
    · rename_i hss
      rwa [if_neg hss] at hk
  · rw [State.setSeg_seg, SegRegs.get_set_same]
    rw [segmentOk, if_neg hss] at hk ⊢
    exact hk
  · rw [State.setSeg_seg, SegRegs.get_set_same]
    exact SegCache.ofDesc_segmentOk hpassed

theorem fullPointer_of_loadsSegment {i : Instr} {k : SegReg} (h : loadsSegment i = some k) :
    ∃ fp, fullPointer i = some fp ∧ fp.k = k := by
  cases i <;> cases h <;> exact ⟨_, rfl, rfl⟩

/-- An instruction leaves in each segment register what the invariant asks of it. -/
theorem exec_segmentOk {i : Instr} {s t : State} (h : exec i s = .next t) {k : SegReg}
    (hk : segmentOk k (s.seg.get k)) : segmentOk k (t.seg.get k) := by
  by_cases hload : loadsSegment i = some k
  · obtain ⟨fp, hfp, rfl⟩ := fullPointer_of_loadsSegment hload
    rw [exec_eq_loadFullPointer hfp] at h
    obtain ⟨m, v, s1, s2, -, hread, hsegment, rfl⟩ := loadFullPointer_ok (settle_next.1 h)
    rw [State.seg_setRegN_retire]
    refine State.loadSegment_segmentOk hsegment ?_
    rwa [(State.readMem_agrees hread).seg]
  · rwa [(exec_keeps h).segments k hload]

/-- Settles O59: each part of the invariant is kept by the fetch, which changes no register, and by the instruction. -/
theorem invariantIsKept : Obligations.InvariantIsKept := by
  intro s t hinv hstep
  rw [State.inv_iff] at hinv ⊢
  obtain ⟨hmem, hcs, hsegments, hvm, -⟩ := hinv
  obtain ⟨i, s1, hagree, hcanonical, hpending, hexec⟩ := step_next_exec hstep
  rw [← hagree.seg] at hcs hsegments
  rw [← hagree.mode, ← hagree.vm] at hvm
  rw [← hagree.peJustSet] at hpending
  refine ⟨(exec_keeps hexec).canonical (hcanonical hmem), ?cs, ?segments, ?vm, ?pending⟩
  case cs => rwa [exec_cs hexec]
  case segments => exact fun k hk => exec_segmentOk hexec (hsegments k hk)
  case vm =>
    intro hreal
    rw [exec_vm hexec]
    rcases exec_mode hexec with ⟨hmode, -⟩ | ⟨hreal1, -⟩
    · exact hvm (hmode.symm.trans hreal)
    · exact hvm hreal1
  case pending =>
    intro hset
    rcases exec_mode hexec with ⟨-, -, hkept⟩ | ⟨hreal, -, hswitch⟩
    · rw [hkept, hpending] at hset
      cases hset
    · exact (hswitch (hvm hreal)).1

/-- Settles O58: each part of the invariant, evaluated at reset. -/
theorem invariantHoldsAtReset : Obligations.InvariantHoldsAtReset := by
  rw [Obligations.InvariantHoldsAtReset, State.Inv]
  decide

/-- Settles O60. -/
theorem resetValues : Obligations.ResetValues := by
  refine ⟨rfl, rfl, rfl, rfl, rfl, rfl, rfl, fun k hk => ?_, rfl, rfl, rfl⟩
  cases k
  case cs => exact absurd rfl hk
  all_goals exact ⟨rfl, rfl, rfl, rfl⟩

/-! ## Forms that are refused by the machine itself -/

/-- Settles O45: the form of the operand is tested before anything else. -/
theorem registerOperandUndefined : Obligations.RegisterOperandUndefined := by
  intro p r i fp s
  refine ⟨rfl, rfl, fun hfp hrm => ?_⟩
  rw [exec_eq_loadFullPointer hfp, hrm]
  rfl

theorem querySegment_unrecognized {i : Instr} {p : Prefixes} {rm : RegMem} {valid : Bool → BitVec 4 → Bool}
    {store : Desc → State → State} {s : State} (hmode : s.mode ≠ .prot) :
    querySegment i p rm valid store s = raise s .ud :=
  if_pos hmode

/-- Settles O46: the mode is tested before anything else. -/
theorem notRecognizedOutsideProtectedMode : Obligations.NotRecognizedOutsideProtectedMode := by
  intro i s hi hmode
  cases i
  case lar16 | lar32 | lsl16 | lsl32 => exact settle_fault.2 (querySegment_unrecognized hmode)
  case lldt | ltr => exact settle_fault.2 (if_pos hmode)
  all_goals cases hi

theorem takeException_gp_of_deniesSystem {s : State} (h : s.deniesSystem = true) :
    takeException s (.gp 0#32) = .generalProtection (some 0#32) s.eip := by
  have hmode : s.mode ≠ .real := by
    rintro hreal
    simp [State.deniesSystem, hreal] at h
  simp [takeException, State.errorCode, hmode]

/-- Settles O47: the privilege check stands before the operand's read; before it LLDT and LTR test the mode, and LGDT
and LIDT the form of the operand. -/
theorem privilegedFaultsBelowLevelZero : Obligations.PrivilegedFaultsBelowLevelZero := by
  intro i s hi hform hlevel
  have hdenies : s.deniesSystem = true := by
    rw [State.deniesSystem_eq_true_iff]
    exact hlevel.imp_right fun hv => ⟨hv.1, hv.2.1⟩
  rw [← takeException_gp_of_deniesSystem hdenies]
  cases i
  case lgdt p rm | lidt p rm =>
    cases rm with
    | reg r => simp_all
    | mem m => exact settle_fault.2 (if_pos hdenies)
  case lmsw p rm => exact settle_fault.2 (if_pos hdenies)
  case lldt p rm | ltr p rm =>
    obtain ⟨hmode, hcpl⟩ := hlevel.resolve_right fun hv => by cases hv.2.2
    exact settle_fault.2 ((if_neg (not_not.2 hmode)).trans (if_pos hcpl))
  all_goals cases hi

end Sys2Proof.Machine
end

section

/-! The exceptions of each instruction (R425, R426, R431): every one is taken in the state before the instruction, with a
vector that the table lists for the mode. -/

namespace Sys2Proof.Machine

variable {s : State} {f : Fault}

/-! ## Exceptions taken in the state before the instruction -/

/-- What every exception taken in `s` bears. -/
theorem takeException_bears (s : State) (e : Exc) :
    (takeException s e).pc = s.eip ∧ (s.mode = .real → (takeException s e).code = none) ∧
      ((takeException s e).la ≠ none → (takeException s e).vector = 14) := by
  cases e <;> simp_all [takeException, Fault.pc, Fault.code, Fault.la, Fault.vector, State.errorCode]

/-- An exception taken in `s`, with one of the given vectors. -/
def RaisedOf (s : State) (vectors : List Nat) (f : Fault) : Prop :=
  f.vector ∈ vectors ∧ ∃ e, f = takeException s e

theorem RaisedOf.mono {v w : List Nat} (h : RaisedOf s v f) (hvw : v ⊆ w) : RaisedOf s w f :=
  ⟨hvw h.1, h.2⟩

theorem RaisedOf.ud : RaisedOf s [6] (takeException s .ud) := ⟨List.mem_singleton_self 6, _, rfl⟩

theorem RaisedOf.gp (code : Dword) : RaisedOf s [13] (takeException s (.gp code)) := ⟨List.mem_singleton_self 13, _, rfl⟩

theorem RaisedOf.np (code : Dword) : RaisedOf s [11] (takeException s (.np code)) := ⟨List.mem_singleton_self 11, _, rfl⟩

theorem RaisedOf.ss (code : Dword) : RaisedOf s [12] (takeException s (.ss code)) := ⟨List.mem_singleton_self 12, _, rfl⟩

theorem PageFault.raised (h : PageFault s f) : RaisedOf s [14] f := by
  obtain ⟨-, code, la, rfl⟩ := h
  exact ⟨List.mem_singleton_self 14, _, rfl⟩

theorem AccessFault.raised {k : SegReg} (h : AccessFault s k f) : RaisedOf s (s.readVectors k) f := by
  refine ⟨h.vector, ?_⟩
  rcases h with rfl | ⟨-, code, la, rfl⟩ <;> exact ⟨_, rfl⟩

theorem OperandFault.raised {p : Prefixes} {rm : RegMem} (h : OperandFault s p rm f) :
    RaisedOf s (s.operandVectors p rm) f := by
  refine ⟨h.vector, ?_⟩
  obtain ⟨m, -, h⟩ := h
  exact h.raised.2

/-! ## The bodies that the meanings share -/

theorem State.mayLoadSystem_iff (s : State) : s.mayLoadSystem ↔ s.deniesSystem = false := by
  rw [Bool.eq_false_iff, ne_eq, State.deniesSystem_eq_true_iff]
  unfold State.mayLoadSystem
  cases s.mode <;> simp

theorem loadTableRegister_raised {i : Instr} {p : Prefixes} {rm : RegMem} {store : TableReg → State → State}
    (h : loadTableRegister i p rm store s = .error f) : RaisedOf s (mayRaise s (.lgdt p rm)) f := by
  rcases loadTableRegister_fault h with ⟨⟨r, rfl⟩, rfl⟩ | ⟨⟨m, rfl⟩, hdenies, rfl⟩ | ⟨hpasses, hoperand⟩
  · exact .ud
  · simp only [mayRaise, State.mayLoadSystem_iff, hdenies, reduceCtorEq, if_false]
    exact .gp _
  · obtain ⟨m, rfl, haccess⟩ := hoperand
    simp only [mayRaise, State.mayLoadSystem_iff, hpasses, if_true]
    exact haccess.raised

theorem querySegment_raised {i : Instr} {p : Prefixes} {dst : Gpr} {rm : RegMem} {valid : Bool → BitVec 4 → Bool}
    {store : Desc → State → State} (h : querySegment i p rm valid store s = .error f) :
    RaisedOf s (mayRaise s (.lar16 p dst rm)) f := by
  rcases querySegment_fault h with ⟨hmode, rfl⟩ | ⟨hmode, hoperand | hpage⟩
  · simp only [mayRaise, hmode, if_false]
    exact .ud
  · simp only [mayRaise, hmode, if_true]
    exact hoperand.raised.mono (List.subset_cons_self _ _)
  · simp only [mayRaise, hmode, if_true]
    exact hpage.raised.mono (by simp)

/-- LLDT and LTR raise alike. -/
theorem systemLoad_raised {p : Prefixes} {rm : RegMem}
    (h : (s.mode ≠ .prot ∧ f = takeException s .ud) ∨
      (s.mode = .prot ∧ s.cpl ≠ 0#2 ∧ f = takeException s (.gp 0#32)) ∨
      (s.mode = .prot ∧ s.cpl = 0#2 ∧ (OperandFault s p rm f ∨ PageFault s f ∨
        (∃ code, f = takeException s (.gp code)) ∨ ∃ code, f = takeException s (.np code)))) :
    RaisedOf s (mayRaise s (.lldt p rm)) f := by
  rcases h with ⟨hmode, rfl⟩ | ⟨hmode, hcpl, rfl⟩ | ⟨hmode, hcpl, hfault⟩
  · simp only [mayRaise, hmode, if_false]
    exact .ud
  · simp only [mayRaise, hmode, hcpl, if_true, if_false]
    exact .gp _
  · simp only [mayRaise, hmode, hcpl, if_true]
    rcases hfault with hoperand | hpage | ⟨code, rfl⟩ | ⟨code, rfl⟩
    · exact hoperand.raised.mono fun v hv => by simp [hv]
    · exact hpage.raised.mono (by simp)
    · exact (RaisedOf.gp code).mono (by simp)
    · exact (RaisedOf.np code).mono (by simp)

theorem loadMsw_raised {i : Instr} {p : Prefixes} {rm : RegMem} (h : loadMsw i p rm s = .error f) :
    RaisedOf s (mayRaise s (.lmsw p rm)) f := by
  rcases loadMsw_fault h with ⟨hdenies, rfl⟩ | ⟨hpasses, hoperand⟩
  · simp only [mayRaise, State.mayLoadSystem_iff, hdenies, reduceCtorEq, if_false]
    exact .gp _
  · simp only [mayRaise, State.mayLoadSystem_iff, hpasses, if_true]
    exact hoperand.raised

/-- LOOP raises only where the mode checks its target. -/
theorem loopStep_raised {i : Instr} {p : Prefixes} {rel8 : Byte} {cond : Dword → Bool → Bool}
    (h : loopStep i p rel8 cond s = .error f) : RaisedOf s (mayRaise s (.loop p rel8)) f := by
  have hchecks : s.mode = .prot ∨ s.cfg.loopLimitCheckReal = true := by
    unfold loopStep at h
    dsimp only at h
    split at h
    · split at h
      · rename_i hrefused
        simp only [State.targetRefused, Bool.and_eq_true, Bool.or_eq_true, beq_iff_eq] at hrefused
        exact hrefused.2
      · cases h
    · cases h
  rw [loopStep_fault h]
  simp only [mayRaise, hchecks, if_true]
  exact .gp _

theorem mayRaise_fullPointer_mem {i : Instr} {fp : FullPointer} {m : MemOp} (hfp : fullPointer i = some fp)
    (hrm : fp.rm = .mem m) (s : State) :
    mayRaise s i =
      if s.mode = .prot then (if fp.k = .ss then 12 else 11) :: 13 :: 14 :: s.operandVectors fp.p (.mem m)
      else s.operandVectors fp.p (.mem m) := by
  cases i <;> cases hfp <;> cases hrm <;> rfl

theorem mayRaise_fullPointer_reg {i : Instr} {fp : FullPointer} {r : Gpr} (hfp : fullPointer i = some fp)
    (hrm : fp.rm = .reg r) (s : State) : mayRaise s i = [6] := by
  cases i <;> cases hfp <;> cases hrm <;> rfl

theorem loadFullPointer_raised {i : Instr} {fp : FullPointer} (hfp : fullPointer i = some fp)
    (h : loadFullPointer i fp.k fp.n fp.p fp.dst fp.rm s = .error f) : RaisedOf s (mayRaise s i) f := by
  rcases loadFullPointer_fault h with ⟨⟨r, hrm⟩, rfl⟩ | hoperand | ⟨⟨m, hrm⟩, hmode, hfault⟩
  · rw [mayRaise_fullPointer_reg hfp hrm]
    exact .ud
  · have hraised := hoperand.raised
    obtain ⟨m, hrm, -⟩ := hoperand
    rw [mayRaise_fullPointer_mem hfp hrm]
    rw [hrm] at hraised
    split
    · exact hraised.mono fun v hv => by simp [hv]
    · exact hraised
  · rw [mayRaise_fullPointer_mem hfp hrm, if_pos hmode]
    rcases hfault with hpage | ⟨code, rfl⟩ | ⟨hk, code, rfl⟩ | ⟨hk, code, rfl⟩
    · exact hpage.raised.mono (by simp)
    · exact (RaisedOf.gp code).mono (by simp)
    · exact (RaisedOf.ss code).mono (by simp [hk])
    · exact (RaisedOf.np code).mono (by simp [hk])

/-! ## Every instruction -/

theorem exec_fault {i : Instr} (h : exec i s = .fault f) : RaisedOf s (mayRaise s i) f := by
  cases i
  case lahf => cases h
  case lock => cases h; exact .ud
  case lea16 p dst rm | lea32 p dst rm =>
    cases rm with
    | reg r => cases h; exact .ud
    | mem m => cases h
  case leave16 | leave32 => exact (leaveFrame_fault (settle_fault.1 h)).raised
  case lgdt | lidt => exact loadTableRegister_raised (settle_fault.1 h)
  case lar16 p dst rm | lar32 p dst rm | lsl16 p dst rm | lsl32 p dst rm =>
    exact querySegment_raised (dst := dst) (settle_fault.1 h)
  case lldt => exact systemLoad_raised (loadLdtr_fault (settle_fault.1 h))
  case ltr => exact systemLoad_raised (loadTaskRegister_fault (settle_fault.1 h))
  case lmsw => exact loadMsw_raised (settle_fault.1 h)
  case lodsb | lodsw | lodsd => exact (lodsOnce_fault (loadString_fault (settle_fault.1 h))).raised
  case loop p rel8 | loope p rel8 | loopne p rel8 => exact loopStep_raised (rel8 := rel8) (settle_fault.1 h)
  all_goals exact loadFullPointer_raised rfl (settle_fault.1 h)

/-- Every meaning settles an answer of its body. -/
theorem exec_eq_settle (i : Instr) (s : State) : ∃ r, exec i s = settle r := by
  cases i
  case lahf => exact ⟨.ok _, rfl⟩
  case lock => exact ⟨.error _, rfl⟩
  all_goals exact ⟨_, rfl⟩

/-- Settles O54. -/
theorem exceptionsAreListed : Obligations.ExceptionsAreListed := by
  intro i s
  obtain ⟨r, hr⟩ := exec_eq_settle i s
  cases r with
  | ok t => exact .inl ⟨t, hr⟩
  | error f =>
    have hraised := exec_fault hr
    obtain ⟨e, rfl⟩ := hraised.2
    exact .inr ⟨_, hr, hraised.1, takeException_bears s e⟩

end Sys2Proof.Machine
end

section

/-! What an instruction leaves of memory (R82, R106): what it reads, and the marks that its reads leave; the one byte that
LTR and the full-pointer loads store. -/

namespace Sys2Proof.Machine

/-! ## Reads without the page walk -/

/-- In a quiet state the page walk is not in force. -/
theorem State.quiet_unwalked {s : State} (hq : s.quiet = true) : s.walks = false := by
  have hunpaged := State.quiet_unpaged hq
  simp only [State.unpaged, Bool.or_eq_true, beq_iff_eq, State.mode_eq_real_iff, Bool.and_eq_true] at hunpaged
  rcases hunpaged with (hpe | hidentity) | ⟨-, hoff⟩
  · simp [State.walks, State.pagingOn, hpe]
  · simp [State.walks, hidentity]
  · simp_all [State.walks]

theorem State.segRead_unwalked {s t : State} {k : SegReg} {off : Dword} {n v : Nat} (hwalks : s.walks = false)
    (habsent : s.cfg.externalAgents = .absent) (h : s.segRead k off n = .ok (v, t)) : t = s :=
  State.linRead_unwalked hwalks habsent (State.segRead_ok h).2

/-! ## The marks of a read -/

theorem State.usesEntry_mono {s : State} {la : Dword} {n n' : Nat} {access : Access} {rights : Rights} {a : Dword}
    (hn : n ≤ n') (h : s.usesEntry la n access rights a) : s.usesEntry la n' access rights a := by
  obtain ⟨k, hk, hentry⟩ := h
  exact ⟨k, Nat.lt_of_lt_of_le hk hn, hentry⟩

/-- The page entries of bytes that stand behind `j` others. -/
theorem State.usesEntry_behind {s : State} {la : Dword} (j : Nat) {n : Nat} {access : Access} {rights : Rights}
    {a : Dword} (h : s.usesEntry (la + BitVec.ofNat 32 j) n access rights a) :
    s.usesEntry la (j + n) access rights a := by
  obtain ⟨k, hk, w, hw, ha⟩ := h
  refine ⟨j + k, by omega, w, ?_, ha⟩
  rwa [BitVec.ofNat_add, ← BitVec.add_assoc]

section Marks

variable {s t : State} (habsent : s.cfg.externalAgents = .absent) (hm : Memory.wf s.mem = true)

include habsent hm

theorem State.segRead_marksOnly {k : SegReg} {off : Dword} {n v : Nat} (h : s.segRead k off n = .ok (v, t)) :
    MarksOnly s t (s.usesEntry ((s.seg.get k).base + off) n .read s.programRights) :=
  State.linRead_marksOnly nofun habsent hm (State.segRead_ok h).2

theorem State.readDesc_marksOnly {sel : Word} {r : Option Desc} (h : s.readDesc sel = .ok (r, t)) :
    MarksOnly s t fun a => ∃ la, s.descAddress sel = some la ∧ s.usesEntry la 8 .read .supervisor a := by
  unfold State.readDesc at h
  split at h
  · cases h
    exact .refl _ _
  · rename_i la hla
    split at h
    · cases h
    · rename_i lo s1 hlo
      split at h
      · cases h
      · rename_i hi s2 hhi
        cases h
        have hagree := State.linRead_agrees hlo
        have hfirst := State.linRead_marksOnly (access := .read) nofun habsent hm hlo
        have hsecond :=
          State.linRead_marksOnly (access := .read) nofun (hagree.cfg ▸ habsent) (State.linRead_wf hlo hm) hhi
        refine MarksOnly.trans hagree (hfirst.mono fun a ha => ?_) (hsecond.mono fun a ha => ?_)
        · exact ⟨la, hla, State.usesEntry_mono (by decide) ha⟩
        · rw [State.usesEntry_alike hfirst.1 hagree.cr3] at ha
          exact ⟨la, hla, State.usesEntry_behind 4 ha⟩

end Marks

/-! ## What an instruction has read -/

/-- `u` is left of `s` by what `i` reads: nothing, its operand, or its operand and the descriptor that it names. -/
inductive ReadsOf (s : State) (i : Instr) : State → Prop where
  | nothing : ReadsOf s i s
  | operand {k : SegReg} {off : Dword} {n v : Nat} {u : State} (hoperand : s.operandRead i = some (k, off, n))
      (hread : s.segRead k off n = .ok (v, u)) : ReadsOf s i u
  | descriptor {p : Prefixes} {rm : RegMem} {sel : Word} {s1 u : State} {r : Option Desc}
      (hoperand : selectorOperand i = some (p, rm)) (hread : s.readSelector p rm = .ok (sel, s1))
      (hdesc : s1.readDesc sel = .ok (r, u)) : ReadsOf s i u

theorem State.readSelector_mem_ok {s u : State} {p : Prefixes} {m : MemOp} {sel : Word}
    (h : s.readSelector p (.mem m) = .ok (sel, u)) : ∃ v, s.readMem p m 2 = .ok (v, u) := by
  simp only [State.readSelector] at h
  split at h
  · cases h
  · rename_i v u' hmem
    cases h
    exact ⟨v, hmem⟩

theorem ReadsOf.selector {s u : State} {i : Instr} {p : Prefixes} {rm : RegMem} {sel : Word}
    (hoperand : ∀ m, rm = .mem m → s.operandRead i = some (operandSegment p m, effectiveAddress s m, 2))
    (hread : s.readSelector p rm = .ok (sel, u)) : ReadsOf s i u := by
  cases rm with
  | reg r => cases hread; exact .nothing
  | mem m =>
    obtain ⟨v, hmem⟩ := State.readSelector_mem_ok hread
    exact .operand (hoperand m rfl) hmem

theorem ReadsOf.query {s s1 u : State} {i : Instr} {p : Prefixes} {rm : RegMem} {sel : Word}
    {valid : Bool → BitVec 4 → Bool} {r : Option Desc}
    (hmem : ∀ m, rm = .mem m → s.operandRead i = some (operandSegment p m, effectiveAddress s m, 2))
    (hselector : selectorOperand i = some (p, rm)) (hread : s.readSelector p rm = .ok (sel, s1))
    (hquery : s1.query sel valid = .ok (r, u)) : ReadsOf s i u := by
  unfold State.query at hquery
  split at hquery
  · cases hquery
    exact .selector hmem hread
  · split at hquery
    · cases hquery
    · rename_i s2 hdesc
      cases hquery
      exact .descriptor hselector hread hdesc
    · rename_i d s2 hdesc
      split at hquery <;> (cases hquery; exact .descriptor hselector hread hdesc)

theorem querySegment_reads {s t : State} {i : Instr} {p : Prefixes} {rm : RegMem} {valid : Bool → BitVec 4 → Bool}
    {store : Desc → State → State}
    (hmem : ∀ m, rm = .mem m → s.operandRead i = some (operandSegment p m, effectiveAddress s m, 2))
    (hselector : selectorOperand i = some (p, rm)) (hstore : ∀ d v, (store d v).mem = v.mem)
    (h : querySegment i p rm valid store s = .ok t) : ∃ u, ReadsOf s i u ∧ t.mem = u.mem := by
  obtain ⟨-, sel, s1, r, u, hread, hquery, rfl⟩ := querySegment_ok h
  refine ⟨u, .query hmem hselector hread hquery, ?_⟩
  cases r with
  | none => rfl
  | some d => exact hstore d u

theorem loadTableRegister_reads {s t : State} {i : Instr} {p : Prefixes} {rm : RegMem}
    {store : TableReg → State → State}
    (hmem : ∀ m, rm = .mem m → s.operandRead i = some (operandSegment p m, effectiveAddress s m, 6))
    (hstore : ∀ r v, (store r v).mem = v.mem) (h : loadTableRegister i p rm store s = .ok t) :
    ∃ u, ReadsOf s i u ∧ t.mem = u.mem := by
  obtain ⟨-, m, v, u, hrm, -, hread, rfl⟩ := loadTableRegister_ok h
  exact ⟨u, .operand (hmem m hrm) hread, hstore _ u⟩

theorem leaveFrame_reads {s t : State} {i : Instr} {n : Size}
    (hoperand : s.operandRead i = some (.ss, s.regN s.stackAddrSize .ebp, n.bytes)) (h : leaveFrame i n s = .ok t) :
    ∃ u, ReadsOf s i u ∧ t.mem = u.mem := by
  obtain ⟨-, v, u, hread, rfl⟩ := leaveFrame_ok h
  exact ⟨u, .operand hoperand hread, by simp⟩

theorem lodsOnce_reads {s t : State} {i : Instr} {w : LodsWidth} {p : Prefixes}
    (hoperand : s.operandRead i = some (p.seg.getD .ds, s.regN (p.addressSize s.dflt) .esi, w.bytes))
    (h : lodsOnce w p s = .ok t) : ∃ u, ReadsOf s i u ∧ t.mem = u.mem := by
  obtain ⟨v, u, hread, rfl⟩ := lodsOnce_ok h
  exact ⟨u, .operand hoperand hread, by simp⟩

theorem loadString_reads {s t : State} {i : Instr} {w : LodsWidth} {p : Prefixes} {rep : Bool}
    (hoperand : s.operandRead i = some (p.seg.getD .ds, s.regN (p.addressSize s.dflt) .esi, w.bytes))
    (h : loadString i w p rep s = .ok t) : ∃ u, ReadsOf s i u ∧ t.mem = u.mem := by
  obtain ⟨-, s1, hload, rfl⟩ | ⟨-, -, rfl⟩ | ⟨-, -, s1, hload, rfl⟩ | ⟨-, -, -, s1, hload, rfl⟩ := loadString_ok h
  · simpa using lodsOnce_reads hoperand hload
  · exact ⟨s, .nothing, rfl⟩
  · simpa using lodsOnce_reads hoperand hload
  · simpa using lodsOnce_reads hoperand hload

theorem loopStep_mem {s t : State} {i : Instr} {p : Prefixes} {rel8 : Byte} {cond : Dword → Bool → Bool}
    (h : loopStep i p rel8 cond s = .ok t) : t.mem = s.mem := by
  obtain ⟨-, -, rfl⟩ | ⟨-, rfl⟩ := loopStep_ok h <;> simp

theorem loadLdtr_reads {s t : State} {p : Prefixes} {rm : RegMem} (h : loadLdtr (.lldt p rm) p rm s = .ok t) :
    ∃ u, ReadsOf s (.lldt p rm) u ∧ t.mem = u.mem := by
  obtain ⟨-, -, sel, s1, hread, ⟨-, rfl⟩ | ⟨-, -, d, u, hdesc, -, rfl⟩⟩ := loadLdtr_ok h
  · refine ⟨s1, .selector ?_ hread, rfl⟩
    rintro m rfl
    rfl
  · exact ⟨u, .descriptor rfl hread hdesc, rfl⟩

/-- An instruction that stores nothing leaves memory as its reads leave it. -/
theorem exec_reads {i : Instr} {s t : State} (hstores : storesMemory i = false) (h : exec i s = .next t) :
    ∃ u, ReadsOf s i u ∧ t.mem = u.mem := by
  cases i
  case lahf =>
    obtain rfl := Except.ok.inj (settle_next.1 h)
    exact ⟨s, .nothing, rfl⟩
  case lar16 | lar32 | lsl16 | lsl32 =>
    refine querySegment_reads ?_ rfl ?_ (settle_next.1 h)
    · rintro m rfl
      rfl
    · exact fun d u => rfl
  case lea16 | lea32 =>
    obtain ⟨m, -, rfl⟩ := loadEffectiveAddress_ok (settle_next.1 h)
    exact ⟨s, .nothing, rfl⟩
  case leave16 | leave32 => exact leaveFrame_reads rfl (settle_next.1 h)
  case lgdt | lidt =>
    refine loadTableRegister_reads ?_ ?_ (settle_next.1 h)
    · rintro m rfl
      rfl
    · exact fun r u => rfl
  case lldt => exact loadLdtr_reads (settle_next.1 h)
  case lmsw =>
    obtain ⟨-, src, s1, hread, rfl⟩ := loadMsw_ok (settle_next.1 h)
    refine ⟨s1, .selector ?_ hread, rfl⟩
    rintro m rfl
    rfl
  case lock => cases h
  case lodsb | lodsw | lodsd => exact loadString_reads rfl (settle_next.1 h)
  case loop | loope | loopne => exact ⟨s, .nothing, loopStep_mem (settle_next.1 h)⟩
  all_goals cases hstores

/-! ## Memory under every translation (R106) -/

theorem AgreeButAccess.descAddress {s t : State} (h : AgreeButAccess s t) (sel : Word) :
    t.descAddress sel = s.descAddress sel := by
  rw [h]
  rfl

/-- The page entries that the walks of the bytes read by `i` use. -/
def State.readsEntry (s : State) (i : Instr) (a : Dword) : Prop :=
  ∃ la n rights, s.readsAt i la n rights ∧ s.usesEntry la n .read rights a

theorem State.readSelector_marksOnly {s u : State} {p : Prefixes} {rm : RegMem} {sel : Word}
    (habsent : s.cfg.externalAgents = .absent) (hm : Memory.wf s.mem = true)
    (h : s.readSelector p rm = .ok (sel, u)) :
    MarksOnly s u fun a => ∃ m, rm = .mem m ∧
      s.usesEntry ((s.seg.get (operandSegment p m)).base + effectiveAddress s m) 2 .read s.programRights a := by
  cases rm with
  | reg r => cases h; exact .refl _ _
  | mem m =>
    obtain ⟨v, hmem⟩ := State.readSelector_mem_ok h
    exact (State.segRead_marksOnly habsent hm hmem).mono fun a ha => ⟨m, rfl, ha⟩

theorem operandRead_of_selectorOperand {i : Instr} {p : Prefixes} {m : MemOp} (s : State)
    (h : selectorOperand i = some (p, .mem m)) :
    s.operandRead i = some (operandSegment p m, effectiveAddress s m, 2) := by
  cases i <;> cases h <;> rfl

theorem ReadsOf.marksOnly {s u : State} {i : Instr} (h : ReadsOf s i u) (habsent : s.cfg.externalAgents = .absent)
    (hm : Memory.wf s.mem = true) : MarksOnly s u (s.readsEntry i) := by
  cases h with
  | nothing => exact .refl _ _
  | operand hoperand hread =>
    exact (State.segRead_marksOnly habsent hm hread).mono fun a ha => ⟨_, _, _, .inl ⟨_, _, hoperand, rfl, rfl⟩, ha⟩
  | @descriptor p rm sel s1 u r hoperand hread hdesc =>
    have hagree := State.readSelector_agrees hread
    have hfirst := State.readSelector_marksOnly habsent hm hread
    have hsecond := State.readDesc_marksOnly (hagree.cfg ▸ habsent) (State.readSelector_wf hread hm) hdesc
    refine MarksOnly.trans hagree (hfirst.mono fun a ha => ?_) (hsecond.mono fun a ha => ?_)
    · obtain ⟨m, rfl, ha⟩ := ha
      exact ⟨_, _, _, .inl ⟨_, _, operandRead_of_selectorOperand s hoperand, rfl, rfl⟩, ha⟩
    · obtain ⟨la, hla, ha⟩ := ha
      rw [hagree.descAddress] at hla
      rw [State.usesEntry_alike hfirst.1 hagree.cr3] at ha
      exact ⟨la, 8, .supervisor, .inr ⟨p, rm, sel, s1, hoperand, hread, hla, rfl, rfl⟩, ha⟩

/-- Settles O53: an instruction that stores nothing leaves what its reads leave, which are marks. -/
theorem pagedMemoryFrame : Obligations.PagedMemoryFrame := by
  intro i s t hm habsent hstores hexec a
  obtain ⟨u, hreads, hmem⟩ := exec_reads hstores hexec
  rw [hmem]
  exact (hreads.marksOnly habsent hm).2 a

/-! ## Memory in a quiet state (R82) -/

theorem ReadsOf.quiet {s u : State} {i : Instr} (h : ReadsOf s i u) (hq : s.quiet = true) : u = s := by
  have hwalks := State.quiet_unwalked hq
  have habsent := State.quiet_agents hq
  cases h with
  | nothing => rfl
  | operand _ hread => exact State.segRead_unwalked hwalks habsent hread
  | descriptor _ hread hdesc =>
    obtain rfl := State.readSelector_unwalked hwalks habsent hread
    exact State.readDesc_unwalked hwalks habsent hdesc

/-- The one byte that a write of the access-rights byte stores. -/
theorem State.linWrite_byte_other {s t : State} {la : Dword} {v : Nat} {rights : Rights} (hq : s.quiet = true)
    (h : s.linWrite la 1 v rights = .ok t) {a : Dword} (ha : a ≠ la) :
    Memory.byteAt t.mem a = Memory.byteAt s.mem a := by
  rw [State.linWrite_quiet hq] at h
  cases h
  exact Memory.byteAt_setNumber_other _ _ _ _ (by simpa [consecutive] using ha)

theorem State.readDesc_some {s t : State} {sel : Word} {d : Desc} (h : s.readDesc sel = .ok (some d, t)) :
    s.descAddress sel = some d.la := by
  rcases State.readDesc_ok h with ⟨-, hnone, -⟩ | ⟨la, d', hla, hd, rfl, -⟩
  · cases hnone
  · cases hd
    exact hla

theorem loadTaskRegister_byte_other {i : Instr} {p : Prefixes} {rm : RegMem} {sel : Word} {s t : State}
    (hq : s.quiet = true) (hread : s.readSelector p rm = .ok (sel, s)) (h : loadTaskRegister i p rm s = .ok t)
    {a : Dword} (ha : ∀ la, s.descAddress sel = some la → a ≠ la + 5#32) :
    Memory.byteAt t.mem a = Memory.byteAt s.mem a := by
  obtain ⟨-, -, sel', s1, d, s2, s3, hread', -, -, hdesc, -, hwrite, rfl⟩ := loadTaskRegister_ok h
  cases hread.symm.trans hread'
  obtain rfl := State.readDesc_unwalked (State.quiet_unwalked hq) (State.quiet_agents hq) hdesc
  exact State.linWrite_byte_other hq hwrite (ha _ (State.readDesc_some hdesc))

theorem State.loadSegment_byte_other {s t : State} {k : SegReg} {sel : Word} (hq : s.quiet = true)
    (h : s.loadSegment k sel = .ok t) {a : Dword} (ha : ∀ la, s.descAddress sel = some la → a ≠ la + 5#32) :
    Memory.byteAt t.mem a = Memory.byteAt s.mem a := by
  rcases State.loadSegment_ok h with ⟨-, rfl⟩ | ⟨-, -, -, rfl⟩ | ⟨-, -, d, s1, s2, hdesc, -, haccessed, rfl⟩
  · rfl
  · rfl
  · obtain rfl := State.readDesc_unwalked (State.quiet_unwalked hq) (State.quiet_agents hq) hdesc
    unfold State.setAccessed at haccessed
    split at haccessed
    · exact State.linWrite_byte_other hq haccessed (ha _ (State.readDesc_some hdesc))
    · cases haccessed
      rfl

/-- Settles O52: in a quiet state every read leaves the state as it is, and the one write is at the descriptor's
linear address + 5. -/
theorem memoryFrame : Obligations.MemoryFrame := by
  intro i s t hq hexec
  refine ⟨fun hstores => ?stores, ?ltr, ?fullPointer⟩
  case stores =>
    obtain ⟨u, hreads, hmem⟩ := exec_reads hstores hexec
    rw [hmem, hreads.quiet hq]
  case ltr =>
    rintro p rm sel rfl hread a ha
    exact loadTaskRegister_byte_other hq hread (settle_next.1 hexec) ha
  case fullPointer =>
    intro fp m v hfp hrm hread a ha
    rw [exec_eq_loadFullPointer hfp, hrm] at hexec
    obtain ⟨m', v', s1, s2, hm, hread', hload, rfl⟩ := loadFullPointer_ok (settle_next.1 hexec)
    cases hm
    cases hread.symm.trans hread'
    simpa using State.loadSegment_byte_other hq hload ha

end Sys2Proof.Machine
end

section

/-! What the decoder accepts is well-formed and of the length that R155 counts; how many bytes it needs at most. -/

namespace Sys2Proof

/-! ## Parses by the bytes they take -/

/-- Where the parse succeeds it takes a number of bytes that `ok` allows for what it answers. -/
def Takes {α : Type} (f : List Byte → Parse α) (ok : α → Nat → Prop) : Prop :=
  ∀ bs a rest, f bs = .ok a rest → ∃ used, bs = used ++ rest ∧ ok a used.length

theorem Takes.andThen {α β : Type} {f : List Byte → Parse α} {g : α → List Byte → Parse β} {p : α → Nat → Prop}
    {q : β → Nat → Prop} (hf : Takes f p) (hg : ∀ a n, p a n → Takes (g a) fun b m => q b (n + m)) :
    Takes (fun bs => (f bs).andThen g) q := by
  intro bs b rest h
  cases hfirst : f bs with
  | more => simp [hfirst, Parse.andThen] at h
  | refuse r => simp [hfirst, Parse.andThen] at h
  | ok a mid =>
    simp only [hfirst, Parse.andThen] at h
    obtain ⟨used, rfl, hp⟩ := hf bs a mid hfirst
    obtain ⟨used', rfl, hq⟩ := hg a _ hp mid b rest h
    exact ⟨used ++ used', by simp, by simpa using hq⟩

theorem Takes.ok {α : Type} {p : α → Nat → Prop} {a : α} (h : p a 0) : Takes (fun bs => .ok a bs) p := by
  intro bs a' rest h'
  cases h'
  exact ⟨[], rfl, h⟩

theorem Takes.refuse {α : Type} {p : α → Nat → Prop} (r : DecodeRefusal) :
    Takes (fun _ => (.refuse r : Parse α)) p :=
  nofun

theorem Takes.ite {α : Type} {c : Prop} [Decidable c] {f g : List Byte → Parse α} {p : α → Nat → Prop}
    (hf : c → Takes f p) (hg : ¬ c → Takes g p) : Takes (fun bs => if c then f bs else g bs) p := by
  by_cases h : c
  · simpa [h] using hf h
  · simpa [h] using hg h

theorem takeByte_takes : Takes takeByte fun _ n => n = 1 := by
  intro bs b rest h
  cases bs <;> cases h
  exact ⟨[b], rfl, rfl⟩

theorem takeWord_takes : Takes takeWord fun _ n => n = 2 := by
  intro bs w rest h
  match bs, h with
  | b0 :: b1 :: _, h => cases h; exact ⟨[b0, b1], rfl, rfl⟩

theorem takeDword_takes : Takes takeDword fun _ n => n = 4 := by
  intro bs d rest h
  match bs, h with
  | b0 :: b1 :: b2 :: b3 :: _, h => cases h; exact ⟨[b0, b1, b2, b3], rfl, rfl⟩

/-! ## Operands -/

theorem parseDisp16_takes (mod : BitVec 2) :
    Takes (parseDisp16 mod) fun d n => n = d.length ∧ (d = .zero → mod = 0#2) := by
  unfold parseDisp16
  split
  · rename_i h0
    exact .ok ⟨rfl, fun _ => BitVec.eq_of_toNat_eq h0⟩
  · exact takeByte_takes.andThen fun d n hn => .ok ⟨hn, nofun⟩
  · exact takeWord_takes.andThen fun d n hn => .ok ⟨hn, nofun⟩

theorem parseDisp32_takes (mod : BitVec 2) :
    Takes (parseDisp32 mod) fun d n => n = d.length ∧ (d = .zero → mod = 0#2) := by
  unfold parseDisp32
  split
  · rename_i h0
    exact .ok ⟨rfl, fun _ => BitVec.eq_of_toNat_eq h0⟩
  · exact takeByte_takes.andThen fun d n hn => .ok ⟨hn, nofun⟩
  · exact takeDword_takes.andThen fun d n hn => .ok ⟨hn, nofun⟩

theorem Gpr.toBits_ofBits : ∀ b : BitVec 3, (Gpr.ofBits b).toBits = b := by decide
theorem Base16.toBits_ofBits : ∀ b : BitVec 3, (Base16.ofBits b).toBits = b := by decide

theorem Gpr.ofBits_eq_iff {b : BitVec 3} {r : Gpr} : Gpr.ofBits b = r ↔ b = r.toBits :=
  ⟨fun h => by rw [← h, Gpr.toBits_ofBits], fun h => by rw [h, Gpr.ofBits_toBits]⟩

theorem Base16.ofBits_eq_iff {b : BitVec 3} {r : Base16} : Base16.ofBits b = r ↔ b = r.toBits :=
  ⟨fun h => by rw [← h, Base16.toBits_ofBits], fun h => by rw [h, Base16.ofBits_toBits]⟩

theorem parseMem16_takes (mod : BitVec 2) (rm : BitVec 3) :
    Takes (parseMem16 mod rm) fun m n => m.wf .w16 = true ∧ n = m.length := by
  unfold parseMem16
  refine .ite (fun _ => takeWord_takes.andThen fun d n hn => .ok ⟨rfl, hn⟩) fun hform =>
    (parseDisp16_takes mod).andThen fun d n ⟨hn, hzero⟩ => .ok ⟨?_, hn⟩
  have hshape : ¬ (Base16.ofBits rm = .bp ∧ d = .zero) := fun ⟨hbp, hd⟩ =>
    hform ⟨hzero hd, Base16.ofBits_eq_iff.1 hbp⟩
  simpa [MemOp.wf, MemOp.size, MemOp.shapeOk, imp_iff_not_or] using hshape

theorem withIndex_takes (sib : Byte) (make : Option (Gpr × Scale) → MemOp) :
    Takes (withIndex sib make) fun m n => n = 0 ∧ ∃ x, indexOk x = true ∧ m = make x := by
  unfold withIndex
  refine .ite (fun _ => .ite (fun _ => .ok ⟨rfl, none, rfl, rfl⟩) fun _ => .refuse _) fun hindex =>
    .ok ⟨rfl, _, ?_, rfl⟩
  have hesp : Gpr.ofBits (field53 sib) ≠ .esp := fun h => hindex (Gpr.ofBits_eq_iff.1 h)
  simpa [indexOk] using hesp

/-- The SIB byte itself stands before the bytes counted here. -/
theorem parseSib_takes (mod : BitVec 2) (sib : Byte) :
    Takes (parseSib mod sib) fun m n => m.wf .w32 = true ∧ 1 + n = m.length := by
  unfold parseSib
  refine .ite (fun _ => takeDword_takes.andThen ?_) fun hform => (parseDisp32_takes mod).andThen ?_
  · rintro d n rfl bs m rest h
    obtain ⟨used, rfl, hlen, x, hx, rfl⟩ := withIndex_takes _ _ bs m rest h
    exact ⟨used, rfl, by simpa [MemOp.wf, MemOp.size, MemOp.shapeOk] using hx, by simp [MemOp.length, hlen]⟩
  · rintro d n ⟨rfl, hzero⟩ bs m rest h
    obtain ⟨used, rfl, hlen, x, hx, rfl⟩ := withIndex_takes _ _ bs m rest h
    have hshape : ¬ (Gpr.ofBits (field20 sib) = .ebp ∧ d = .zero) := fun ⟨hebp, hd⟩ =>
      hform ⟨Gpr.ofBits_eq_iff.1 hebp, hzero hd⟩
    refine ⟨used, rfl, ?_, by simp [MemOp.length, hlen]⟩
    simpa [MemOp.wf, MemOp.size, MemOp.shapeOk, hx, imp_iff_not_or] using hshape

theorem parseMem32_takes (mod : BitVec 2) (rm : BitVec 3) :
    Takes (parseMem32 mod rm) fun m n => m.wf .w32 = true ∧ n = m.length := by
  unfold parseMem32
  refine .ite (fun _ => takeByte_takes.andThen ?_) fun hsib =>
    .ite (fun _ => takeDword_takes.andThen fun d n hn => .ok ⟨rfl, hn⟩) fun hform =>
      (parseDisp32_takes mod).andThen fun d n ⟨hn, hzero⟩ => .ok ⟨?_, hn⟩
  · rintro sib n rfl
    exact parseSib_takes mod sib
  · have hesp : Gpr.ofBits rm ≠ .esp := fun h => hsib (Gpr.ofBits_eq_iff.1 h)
    have hshape : ¬ (Gpr.ofBits rm = .ebp ∧ d = .zero) := fun ⟨hebp, hd⟩ =>
      hform ⟨hzero hd, Gpr.ofBits_eq_iff.1 hebp⟩
    simpa [MemOp.wf, MemOp.size, MemOp.shapeOk, hesp, imp_iff_not_or] using hshape

/-- The ModR/M byte itself stands before the bytes counted here. -/
theorem parseRegMem_takes (asz : Size) (modrm : Byte) :
    Takes (parseRegMem asz modrm) fun rm n => rm.wf asz = true ∧ 1 + n = rm.length := by
  unfold parseRegMem
  refine .ite (fun _ => .ok ⟨rfl, rfl⟩) fun _ => ?_
  cases asz
  · exact (parseMem16_takes _ _).andThen fun m n ⟨hwf, hn⟩ => .ok ⟨hwf, by simp [RegMem.length, hn]⟩
  · exact (parseMem32_takes _ _).andThen fun m n ⟨hwf, hn⟩ => .ok ⟨hwf, by simp [RegMem.length, hn]⟩

/-! ## Opcodes -/

/-- Whatever operands the format reads, the instruction it makes of them and the number of their bytes satisfy `good`. -/
def Format.Makes (asz : Size) (good : Instr → Nat → Prop) : Format → Prop
  | .op i => good i 0
  | .opCb make => ∀ b, good (make b) 1
  | .modRm make => ∀ r rm, rm.wf asz = true → good (make r rm) rm.length
  | .digit make => ∀ reg make', make reg = some make' → ∀ rm, rm.wf asz = true → good (make' rm) rm.length

theorem parseFormat_takes {asz : Size} {good : Instr → Nat → Prop} (f : Option Format)
    (hf : ∀ format, f = some format → format.Makes asz good) : Takes (parseFormat asz f) good := by
  match f with
  | none => exact .refuse _
  | some (.op i) => exact .ok (hf _ rfl)
  | some (.opCb make) =>
    refine takeByte_takes.andThen ?_
    rintro d n rfl
    exact .ok (hf _ rfl d)
  | some (.modRm make) =>
    refine takeByte_takes.andThen ?_
    rintro modrm n rfl
    exact (parseRegMem_takes asz modrm).andThen fun rm n ⟨hwf, hn⟩ => .ok (by simpa [hn] using hf _ rfl _ rm hwf)
  | some (.digit make) =>
    refine takeByte_takes.andThen ?_
    rintro modrm n rfl
    cases hmake : make (field53 modrm) with
    | none => exact .refuse _
    | some make' =>
      exact (parseRegMem_takes asz modrm).andThen fun rm n ⟨hwf, hn⟩ =>
        .ok (by simpa [hn] using hf _ rfl _ _ hmake rm hwf)

/-- An instruction without F0 and F3 that is well-formed, with `opcodes` opcode bytes and `n` bytes after them. -/
def WellMade (dflt : Size) (p : Prefixes) (opcodes : Nat) (i : Instr) (n : Nat) : Prop :=
  i.wf dflt = true ∧ i.takesLock = true ∧ i.length = p.length + opcodes + n

theorem oneByteOpcode_makes {dflt : Size} {p : Prefixes} {b : Byte} {format : Format}
    (h : oneByteOpcode p (p.operandSize dflt) b = some format) :
    format.Makes (p.addressSize dflt) (WellMade dflt p 1) := by
  unfold oneByteOpcode at h
  cases hsize : p.operandSize dflt <;> rw [hsize] at h <;> split at h <;> cases h <;>
    simp +contextual [Format.Makes, WellMade, bySize, Instr.wf, Instr.takesLock, Instr.length, hsize]

theorem group0F00_makes {dflt : Size} {p : Prefixes} :
    (Format.digit (group0F00 p)).Makes (p.addressSize dflt) (WellMade dflt p 2) := by
  intro reg make' h rm hrm
  unfold group0F00 at h
  split at h <;> cases h <;> exact ⟨hrm, rfl, rfl⟩

theorem group0F01_makes {dflt : Size} {p : Prefixes} :
    (Format.digit (group0F01 p)).Makes (p.addressSize dflt) (WellMade dflt p 2) := by
  intro reg make' h rm hrm
  unfold group0F01 at h
  split at h <;> cases h <;> exact ⟨hrm, rfl, rfl⟩

theorem twoByteOpcode_makes {dflt : Size} {p : Prefixes} {b : Byte} {format : Format}
    (h : twoByteOpcode p (p.operandSize dflt) b = some format) :
    format.Makes (p.addressSize dflt) (WellMade dflt p 2) := by
  unfold twoByteOpcode at h
  split at h <;> cases h
  · exact group0F00_makes
  · exact group0F01_makes
  all_goals
    intro r rm hrm
    cases hsize : p.operandSize dflt <;>
      simp [WellMade, bySize, Instr.wf, Instr.takesLock, Instr.length, hsize, hrm]

/-- The opcode's first byte itself stands before the bytes counted here. -/
theorem parseBody_takes (dflt : Size) (p : Prefixes) (opcode : Byte) :
    Takes (parseBody dflt p opcode) (WellMade dflt p 1) := by
  unfold parseBody
  refine .ite (fun _ => takeByte_takes.andThen ?_) fun _ => parseFormat_takes _ fun _ => oneByteOpcode_makes
  rintro b n rfl bs i rest h
  obtain ⟨used, rfl, hwf, hlock, hlen⟩ := parseFormat_takes _ (fun _ => twoByteOpcode_makes) bs i rest h
  exact ⟨used, rfl, hwf, hlock, by omega⟩

end Sys2Proof
end

section

/-! Prefix bytes (R141, R142): the state that they leave, one of a group and repeated ones, in any order; and the decoder
after them. -/

namespace Sys2Proof

open Machine (prefixGroup firstOfGroups)

/-! ## One prefix byte -/

/-- The number of the group of a prefix byte (R142). -/
def PrefixByte.group : PrefixByte → Nat
  | .group1 _ => 0
  | .opSize => 1
  | .addrSize => 2
  | .seg _ => 3

theorem prefixGroup_eq : ∀ b : Byte, prefixGroup b = (prefixByte b).map PrefixByte.group := by decide

theorem prefixGroup_ne_none_iff (b : Byte) : prefixGroup b ≠ none ↔ ∃ x, prefixByte b = some x := by
  rw [prefixGroup_eq, ne_eq, Option.map_eq_none_iff, ← ne_eq, Option.ne_none_iff_exists']

theorem prefixGroup_eq_none_iff (b : Byte) : prefixGroup b = none ↔ prefixByte b = none := by
  rw [prefixGroup_eq, Option.map_eq_none_iff]

/-- The state has a byte of the group of `x`. -/
def PrefixState.holds (s : PrefixState) : PrefixByte → Bool
  | .group1 _ => s.group1.isSome
  | .opSize => s.p.opSize
  | .addrSize => s.p.addrSize
  | .seg _ => s.p.seg.isSome

/-- The first byte of a group. -/
def PrefixState.place (s : PrefixState) : PrefixByte → PrefixState
  | .group1 g => { s with group1 := some g }
  | .opSize => { s with p := { s.p with opSize := true } }
  | .addrSize => { s with p := { s.p with addrSize := true } }
  | .seg k => { s with p := { s.p with seg := some k } }

/-- A further byte of a group that has one. -/
def PrefixState.marked (s : PrefixState) : PrefixState := { s with repeated := true }

theorem PrefixState.add_eq (s : PrefixState) (x : PrefixByte) :
    s.add x = if s.holds x then s.marked else s.place x := by
  cases x <;> rfl

theorem PrefixState.marked_add (s : PrefixState) (x : PrefixByte) : s.marked.add x = (s.add x).marked := by
  have hholds : s.marked.holds x = s.holds x := by cases x <;> rfl
  have hplace : s.marked.place x = (s.place x).marked := by cases x <;> rfl
  rw [PrefixState.add_eq, PrefixState.add_eq, hholds, hplace]
  split <;> rfl

theorem PrefixState.holds_place (s : PrefixState) (x y : PrefixByte) :
    (s.place x).holds y = (decide (y.group = x.group) || s.holds y) := by
  cases x <;> cases y <;> simp [PrefixState.place, PrefixState.holds, PrefixByte.group]

theorem PrefixState.holds_congr (s : PrefixState) {x y : PrefixByte} (h : y.group = x.group) :
    s.holds y = s.holds x := by
  match x, y, h with
  | .group1 _, .group1 _, _ => rfl
  | .opSize, .opSize, _ => rfl
  | .addrSize, .addrSize, _ => rfl
  | .seg _, .seg _, _ => rfl

theorem PrefixState.holds_add (s : PrefixState) (x y : PrefixByte) :
    (s.add x).holds y = (decide (y.group = x.group) || s.holds y) := by
  rw [PrefixState.add_eq]
  split
  · rename_i hx
    have hmarked : s.marked.holds y = s.holds y := by cases y <;> rfl
    rw [hmarked]
    by_cases hgroup : y.group = x.group
    · have hy : s.holds y = s.holds x := s.holds_congr hgroup
      simp [hy, hx]
    · simp [hgroup]
  · exact s.holds_place x y

/-- How many prefix bytes the state holds, one of a group. -/
def PrefixState.count (s : PrefixState) : Nat := (if s.group1.isSome then 1 else 0) + s.p.length

theorem PrefixState.count_le (s : PrefixState) : s.count ≤ 4 := by
  unfold PrefixState.count Prefixes.length
  split_ifs <;> omega

theorem PrefixState.count_place {s : PrefixState} {x : PrefixByte} (h : s.holds x = false) :
    (s.place x).count = s.count + 1 := by
  cases x <;> grind [PrefixState.holds, PrefixState.place, PrefixState.count, Prefixes.length]

/-! ## Many prefix bytes -/

/-- The state after some bytes, of which only prefix bytes count. -/
def PrefixState.addBytes (s : PrefixState) (pre : List Byte) : PrefixState :=
  pre.foldl (fun s b => ((prefixByte b).map s.add).getD s) s

theorem PrefixState.addBytes_cons {s : PrefixState} {b : Byte} {x : PrefixByte} (hb : prefixByte b = some x)
    (pre : List Byte) : s.addBytes (b :: pre) = (s.add x).addBytes pre := by
  simp [PrefixState.addBytes, hb]

theorem PrefixState.marked_addBytes (s : PrefixState) (pre : List Byte) :
    s.marked.addBytes pre = (s.addBytes pre).marked := by
  induction pre generalizing s with
  | nil => rfl
  | cons b pre ih =>
    cases hb : prefixByte b with
    | none => simpa [PrefixState.addBytes, hb] using ih s
    | some x => rw [addBytes_cons hb, addBytes_cons hb, PrefixState.marked_add, ih]

/-- Every byte is a prefix byte. -/
abbrev AllPrefixes (pre : List Byte) : Prop := ∀ b ∈ pre, prefixGroup b ≠ none

/-- Without a repeated group each byte is counted. -/
theorem PrefixState.count_addBytes {s : PrefixState} {pre : List Byte} (hpre : AllPrefixes pre)
    (h : (s.addBytes pre).repeated = false) : (s.addBytes pre).count = s.count + pre.length := by
  induction pre generalizing s with
  | nil => rfl
  | cons b pre ih =>
    rw [AllPrefixes, List.forall_mem_cons] at hpre
    obtain ⟨x, hb⟩ := (prefixGroup_ne_none_iff b).1 hpre.1
    rw [addBytes_cons hb] at h ⊢
    rw [ih hpre.2 h, List.length_cons]
    rw [PrefixState.add_eq] at h ⊢
    split at h
    · rw [PrefixState.marked_addBytes] at h
      cases h
    · rename_i hx
      rw [if_neg hx, PrefixState.count_place (by simpa using hx)]
      omega

/-- The groups that the state has are those of `seen`. -/
def PrefixState.Saw (s : PrefixState) (seen : List (Option Nat)) : Prop :=
  ∀ x : PrefixByte, some x.group ∈ seen ↔ s.holds x = true

theorem PrefixState.saw_empty : PrefixState.empty.Saw [] := by
  intro x
  cases x <;> simp [PrefixState.empty, PrefixState.holds, Prefixes.empty]

theorem PrefixState.Saw.place {s : PrefixState} {seen : List (Option Nat)} (h : s.Saw seen) (x : PrefixByte) :
    (s.place x).Saw (some x.group :: seen) := by
  intro y
  simp [PrefixState.holds_place, h y]

theorem firstOfGroups_sublist (seen : List (Option Nat)) (pre : List Byte) :
    (firstOfGroups seen pre).Sublist pre := by
  induction pre generalizing seen with
  | nil => exact .slnil
  | cons b pre ih =>
    unfold firstOfGroups
    split
    · exact (ih seen).cons b
    · exact (ih _).cons_cons b

/-- A byte whose group came before is only noted; the others make up the state (R142). -/
theorem PrefixState.addBytes_firstOfGroups {s : PrefixState} {seen : List (Option Nat)} (hseen : s.Saw seen)
    {pre : List Byte} (hpre : AllPrefixes pre) :
    (s.addBytes (firstOfGroups seen pre)).repeated = s.repeated ∧
      s.addBytes pre =
        if firstOfGroups seen pre = pre then s.addBytes (firstOfGroups seen pre)
        else (s.addBytes (firstOfGroups seen pre)).marked := by
  induction pre generalizing s seen with
  | nil => exact ⟨rfl, rfl⟩
  | cons b pre ih =>
    rw [AllPrefixes, List.forall_mem_cons] at hpre
    obtain ⟨x, hb⟩ := (prefixGroup_ne_none_iff b).1 hpre.1
    have hgroup : prefixGroup b = some x.group := by rw [prefixGroup_eq, hb]; rfl
    rw [addBytes_cons hb, PrefixState.add_eq]
    by_cases hx : s.holds x = true
    · have hshorter : firstOfGroups seen pre ≠ b :: pre := fun h => by
        have hlen := (firstOfGroups_sublist seen pre).length_le
        rw [h, List.length_cons] at hlen
        omega
      obtain ⟨hrepeated, hstate⟩ := ih hseen hpre.2
      rw [firstOfGroups, hgroup, if_pos ((hseen x).2 hx), if_pos hx, if_neg hshorter, PrefixState.marked_addBytes,
        hstate]
      exact ⟨hrepeated, by split <;> rfl⟩
    · obtain ⟨hrepeated, hstate⟩ := ih (hseen.place x) hpre.2
      have hplace : (s.place x).repeated = s.repeated := by cases x <;> rfl
      rw [firstOfGroups, hgroup, if_neg (mt (hseen x).1 hx), if_neg hx, addBytes_cons hb, PrefixState.add_eq,
        if_neg hx, hstate, hrepeated, hplace]
      simp

/-- The state after prefix bytes of which two are of one group is that of the first of each, marked. -/
theorem addBytes_of_repeated {pre : List Byte} (hpre : AllPrefixes pre) (h : firstOfGroups [] pre ≠ pre) :
    PrefixState.empty.addBytes pre = (PrefixState.empty.addBytes (firstOfGroups [] pre)).marked := by
  rw [(PrefixState.addBytes_firstOfGroups PrefixState.saw_empty hpre).2, if_neg h]

theorem repeated_addBytes_firstOfGroups {pre : List Byte} (hpre : AllPrefixes pre) :
    (PrefixState.empty.addBytes (firstOfGroups [] pre)).repeated = false :=
  (PrefixState.addBytes_firstOfGroups PrefixState.saw_empty hpre).1

/-- At most four prefix bytes are of different groups. -/
theorem length_le_of_firstOfGroups {pre : List Byte} (hpre : AllPrefixes pre) (h : firstOfGroups [] pre = pre) :
    pre.length ≤ 4 := by
  have hrepeated := repeated_addBytes_firstOfGroups hpre
  rw [h] at hrepeated
  have hcount := PrefixState.count_addBytes hpre hrepeated
  have hle := (PrefixState.empty.addBytes pre).count_le
  omega

/-! ## The decoder after prefix bytes -/

/-- The decoder where the prefix bytes in `s` are read already. -/
def decodeFrom (dflt : Size) (s : PrefixState) (bs : List Byte) : Parse Instr :=
  (parsePrefixes s bs).andThen fun (s', opcode) rest =>
    (parseBody dflt s'.p opcode rest).andThen fun i rest' => joinGroup1 s' i rest'

theorem parsePrefixes_append {pre : List Byte} (hpre : AllPrefixes pre) (s : PrefixState) (bs : List Byte) :
    parsePrefixes s (pre ++ bs) = parsePrefixes (s.addBytes pre) bs := by
  induction pre generalizing s with
  | nil => rfl
  | cons b pre ih =>
    rw [AllPrefixes, List.forall_mem_cons] at hpre
    obtain ⟨x, hb⟩ := (prefixGroup_ne_none_iff b).1 hpre.1
    rw [List.cons_append, parsePrefixes, hb, PrefixState.addBytes_cons hb]
    exact ih hpre.2 _

theorem decode_append_prefixes {pre : List Byte} (hpre : AllPrefixes pre) (dflt : Size) (bs : List Byte) :
    decode dflt (pre ++ bs) = decodeFrom dflt (PrefixState.empty.addBytes pre) bs := by
  rw [decode, decodeFrom, parsePrefixes_append hpre]

theorem decodeFrom_opcode {opcode : Byte} (h : prefixGroup opcode = none) (dflt : Size) (s : PrefixState)
    (rest : List Byte) :
    decodeFrom dflt s (opcode :: rest) =
      (parseBody dflt s.p opcode rest).andThen fun i rest' => joinGroup1 s i rest' := by
  rw [decodeFrom, parsePrefixes, (prefixGroup_eq_none_iff opcode).1 h]
  rfl

/-- All bytes are prefix bytes, or prefix bytes stand before an opcode byte. -/
theorem allPrefixes_or_opcode (bs : List Byte) :
    AllPrefixes bs ∨ ∃ pre opcode rest, bs = pre ++ opcode :: rest ∧ AllPrefixes pre ∧ prefixGroup opcode = none := by
  induction bs with
  | nil => exact .inl nofun
  | cons b bs ih =>
    by_cases hb : prefixGroup b = none
    · exact .inr ⟨[], b, bs, rfl, nofun, hb⟩
    · rcases ih with hall | ⟨pre, opcode, rest, rfl, hpre, hopcode⟩
      · exact .inl (List.forall_mem_cons.2 ⟨hb, hall⟩)
      · exact .inr ⟨b :: pre, opcode, rest, rfl, List.forall_mem_cons.2 ⟨hb, hpre⟩, hopcode⟩

/-- The decoder on any bytes: prefix bytes alone are not enough, else the first other byte is the opcode. -/
theorem decode_cases (dflt : Size) (bs : List Byte) :
    (AllPrefixes bs ∧ decode dflt bs = .more) ∨
      ∃ pre opcode rest, bs = pre ++ opcode :: rest ∧ AllPrefixes pre ∧ decode dflt bs =
        (parseBody dflt (PrefixState.empty.addBytes pre).p opcode rest).andThen fun i rest' =>
          joinGroup1 (PrefixState.empty.addBytes pre) i rest' := by
  rcases allPrefixes_or_opcode bs with hall | ⟨pre, opcode, rest, rfl, hpre, hopcode⟩
  · refine .inl ⟨hall, ?_⟩
    have h := decode_append_prefixes hall dflt []
    rw [List.append_nil] at h
    exact h
  · refine .inr ⟨pre, opcode, rest, rfl, hpre, ?_⟩
    rw [decode_append_prefixes hpre, decodeFrom_opcode hopcode]

/-! ## Length and well-formedness of what is decoded -/

theorem joinGroup1_ok {s : PrefixState} {i j : Instr} {rest rest' : List Byte}
    (h : joinGroup1 s i rest = .ok j rest') :
    s.repeated = false ∧ rest' = rest ∧
      ((s.group1 = none ∧ j = i) ∨ (s.group1 = some .lock ∧ j = .lock i) ∨
        (s.group1 = some .rep ∧ repeated i = some j)) := by
  unfold joinGroup1 at h
  split at h
  · cases h
  · rename_i hrepeated
    refine ⟨by simpa using hrepeated, ?_⟩
    split at h
    · rename_i hg; cases h; exact ⟨rfl, .inl ⟨hg, rfl⟩⟩
    · rename_i hg; cases h; exact ⟨rfl, .inr (.inl ⟨hg, rfl⟩)⟩
    · cases h
    · rename_i hg
      split at h
      · rename_i i' hi; cases h; exact ⟨rfl, .inr (.inr ⟨hg, hi⟩)⟩
      · cases h

/-- F3 joined to an instruction makes it one byte longer and keeps it well-formed. -/
theorem repeated_wellMade {dflt : Size} {i j : Instr} (hwf : i.wf dflt = true) (hlock : i.takesLock = true)
    (h : repeated i = some j) : j.wf dflt = true ∧ j.length = 1 + i.length := by
  cases i
  case lodsb p rep | lodsw p rep | lodsd p rep =>
    cases h
    cases rep
    · exact ⟨hwf, by simp [Instr.length]; omega⟩
    · cases hlock
  all_goals cases h

/-- Settles O2: the prefix bytes are counted one by one, the rest by what the body takes. -/
theorem decodedIsWellFormedOfItsLength : Obligations.DecodedIsWellFormedOfItsLength := by
  intro dflt bs j rest h
  rcases decode_cases dflt bs with ⟨-, hmore⟩ | ⟨pre, opcode, mid, rfl, hpre, hdecode⟩
  · rw [hmore] at h
    cases h
  · rw [hdecode] at h
    cases hbody : parseBody dflt (PrefixState.empty.addBytes pre).p opcode mid with
    | more => simp [hbody, Parse.andThen] at h
    | refuse r => simp [hbody, Parse.andThen] at h
    | ok i rest' =>
      simp only [hbody, Parse.andThen] at h
      obtain ⟨hrepeated, rfl, hjoin⟩ := joinGroup1_ok h
      obtain ⟨used, rfl, hwf, hlock, hlen⟩ := parseBody_takes _ _ _ _ _ _ hbody
      have hcount := PrefixState.count_addBytes hpre hrepeated
      have hempty : PrefixState.empty.count = 0 := rfl
      refine ⟨?_, pre ++ opcode :: used, by simp, ?_⟩
      · rcases hjoin with ⟨-, rfl⟩ | ⟨-, rfl⟩ | ⟨-, hrep⟩
        · exact hwf
        · exact Bool.and_eq_true_iff.2 ⟨hlock, hwf⟩
        · exact (repeated_wellMade hwf hlock hrep).1
      · rw [List.length_append, List.length_cons]
        rw [hempty, PrefixState.count] at hcount
        rcases hjoin with ⟨hg, rfl⟩ | ⟨hg, rfl⟩ | ⟨hg, hrep⟩ <;> rw [hg] at hcount <;>
          simp only [Option.isSome, Bool.false_eq_true, if_true, if_false] at hcount
        · omega
        · simp only [Instr.length]
          omega
        · rw [(repeated_wellMade hwf hlock hrep).2]
          omega

end Sys2Proof
end

section

/-! How many bytes settle a parse; prefix bytes in any order and repeated (R142); opcodes outside the table (R161). -/

namespace Sys2Proof

open Machine (prefixGroup firstOfGroups)

/-! ## How many bytes a parse needs -/

/-- From `n` bytes on the parse needs no more, and it takes no more than `n` of them. -/
def Settles {α : Type} (n : Nat) (f : List Byte → Parse α) : Prop :=
  ∀ bs : List Byte, n ≤ bs.length →
    (∃ r, f bs = .refuse r) ∨ ∃ a rest, f bs = .ok a rest ∧ bs.length ≤ rest.length + n

theorem Settles.ok {α : Type} (n : Nat) (a : α) : Settles n fun bs => Parse.ok a bs :=
  fun bs _ => .inr ⟨a, bs, rfl, by omega⟩

theorem Settles.refuse {α : Type} (n : Nat) (r : DecodeRefusal) : Settles n fun _ => (Parse.refuse r : Parse α) :=
  fun _ _ => .inl ⟨r, rfl⟩

theorem Settles.andThen {α β : Type} {n m : Nat} {f : List Byte → Parse α} {g : α → List Byte → Parse β}
    (hf : Settles n f) (hg : ∀ a, Settles m (g a)) : Settles (n + m) fun bs => (f bs).andThen g := by
  intro bs hlen
  rcases hf bs (by omega) with ⟨r, h⟩ | ⟨a, rest, h, hrest⟩ <;> simp only [h, Parse.andThen]
  · exact .inl ⟨r, rfl⟩
  · rcases hg a rest (by omega) with ⟨r, h⟩ | ⟨b, rest', h, hrest'⟩
    · exact .inl ⟨r, h⟩
    · exact .inr ⟨b, rest', h, by omega⟩

theorem Settles.ite {α : Type} {c : Prop} [Decidable c] {n : Nat} {f g : List Byte → Parse α} (hf : Settles n f)
    (hg : Settles n g) : Settles n fun bs => if c then f bs else g bs := by
  by_cases h : c <;> simpa [h]

theorem Settles.mono {α : Type} {n m : Nat} {f : List Byte → Parse α} (hf : Settles n f) (h : n ≤ m) : Settles m f := by
  intro bs hlen
  rcases hf bs (by omega) with hr | ⟨a, rest, hok, hrest⟩
  · exact .inl hr
  · exact .inr ⟨a, rest, hok, by omega⟩

theorem takeByte_settles : Settles 1 takeByte := by
  intro bs hlen
  match bs, hlen with
  | b :: rest, _ => exact .inr ⟨b, rest, rfl, by simp⟩

theorem takeWord_settles : Settles 2 takeWord := by
  intro bs hlen
  match bs, hlen with
  | _ :: _ :: rest, _ => exact .inr ⟨_, rest, rfl, by simp⟩

theorem takeDword_settles : Settles 4 takeDword := by
  intro bs hlen
  match bs, hlen with
  | _ :: _ :: _ :: _ :: rest, _ => exact .inr ⟨_, rest, rfl, by simp⟩

theorem parseDisp16_settles (mod : BitVec 2) : Settles 2 (parseDisp16 mod) := by
  unfold parseDisp16
  split
  · exact .ok _ _
  · exact takeByte_settles.andThen fun d => .ok 1 _
  · exact takeWord_settles.andThen fun d => .ok 0 _

theorem parseDisp32_settles (mod : BitVec 2) : Settles 4 (parseDisp32 mod) := by
  unfold parseDisp32
  split
  · exact .ok _ _
  · exact takeByte_settles.andThen fun d => .ok 3 _
  · exact takeDword_settles.andThen fun d => .ok 0 _

theorem parseMem16_settles (mod : BitVec 2) (rm : BitVec 3) : Settles 2 (parseMem16 mod rm) := by
  unfold parseMem16
  exact .ite (takeWord_settles.andThen fun d => .ok 0 _) ((parseDisp16_settles mod).andThen fun d => .ok 0 _)

theorem withIndex_settles (sib : Byte) (make : Option (Gpr × Scale) → MemOp) : Settles 0 (withIndex sib make) := by
  unfold withIndex
  exact .ite (.ite (.ok _ _) (.refuse _ _)) (.ok _ _)

theorem parseSib_settles (mod : BitVec 2) (sib : Byte) : Settles 4 (parseSib mod sib) := by
  unfold parseSib
  exact .ite (takeDword_settles.andThen fun d => withIndex_settles _ _)
    ((parseDisp32_settles mod).andThen fun d => withIndex_settles _ _)

theorem parseMem32_settles (mod : BitVec 2) (rm : BitVec 3) : Settles 5 (parseMem32 mod rm) := by
  unfold parseMem32
  exact .ite (takeByte_settles.andThen fun sib => parseSib_settles mod sib)
    (.ite (takeDword_settles.andThen fun d => .ok 1 _) ((parseDisp32_settles mod).andThen fun d => .ok 1 _))

theorem parseRegMem_settles (asz : Size) (modrm : Byte) : Settles 5 (parseRegMem asz modrm) := by
  unfold parseRegMem
  refine .ite (.ok _ _) ?_
  cases asz
  · exact (parseMem16_settles _ _).andThen fun m => .ok 3 _
  · exact (parseMem32_settles _ _).andThen fun m => .ok 0 _

theorem parseFormat_settles (asz : Size) (f : Option Format) : Settles 6 (parseFormat asz f) := by
  match f with
  | none => exact .refuse _ _
  | some (.op i) => exact .ok _ _
  | some (.opCb make) => exact takeByte_settles.andThen fun d => .ok 5 _
  | some (.modRm make) =>
    exact takeByte_settles.andThen fun modrm => (parseRegMem_settles asz modrm).andThen fun rm => .ok 0 _
  | some (.digit make) =>
    refine takeByte_settles.andThen (m := 5) fun modrm => ?_
    cases make (field53 modrm) with
    | none => exact .refuse 5 _
    | some make' => exact (parseRegMem_settles asz modrm).andThen fun rm => .ok 0 _

/-- After the opcode's first byte: a second one, ModR/M, SIB and four of displacement. -/
theorem parseBody_settles (dflt : Size) (p : Prefixes) (opcode : Byte) : Settles 7 (parseBody dflt p opcode) := by
  unfold parseBody
  exact .ite (takeByte_settles.andThen fun b => parseFormat_settles _ _) ((parseFormat_settles _ _).mono (by decide))

theorem joinGroup1_ne_more (s : PrefixState) (i : Instr) (rest : List Byte) : joinGroup1 s i rest ≠ .more := by
  unfold joinGroup1
  split_ifs
  · nofun
  · cases s.group1 with
    | none => nofun
    | some g =>
      cases g
      · nofun
      · cases repeated i <;> nofun
      · nofun

/-- The body alone tells whether more bytes are needed. -/
theorem andThen_joinGroup1_eq_more_iff (x : Parse Instr) (s : PrefixState) :
    (x.andThen fun i rest => joinGroup1 s i rest) = .more ↔ x = .more := by
  cases x <;> simp [Parse.andThen, joinGroup1_ne_more]

/-- Settles O3: with at most one prefix byte of each of the four groups seven bytes at least stand behind the opcode's
first byte, which is enough for any body. -/
theorem decodeNeedsAtMostMaxLength : Obligations.DecodeNeedsAtMostMaxLength := by
  intro dflt bs hlen hmore
  unfold maxLength at hlen
  have hrepeated {pre : List Byte} (hpre : AllPrefixes pre) (hlong : 4 < pre.length) : firstOfGroups [] pre ≠ pre :=
    fun h => by have := length_le_of_firstOfGroups hpre h; omega
  rcases decode_cases dflt bs with ⟨hall, -⟩ | ⟨pre, opcode, rest, rfl, hpre, hdecode⟩
  · exact ⟨bs, [], by simp, hall, hrepeated hall (by omega)⟩
  · refine ⟨pre, opcode :: rest, rfl, hpre, ?_⟩
    by_cases hlong : 4 < pre.length
    · exact hrepeated hpre hlong
    · rw [hdecode, andThen_joinGroup1_eq_more_iff] at hmore
      rw [List.length_append, List.length_cons] at hlen
      rcases parseBody_settles dflt (PrefixState.empty.addBytes pre).p opcode rest (by omega) with
        ⟨r, h⟩ | ⟨i, rest', h, -⟩
      · cases hmore.symm.trans h
      · cases hmore.symm.trans h

/-! ## A body read behind another segment override -/

/-- Two parses that differ only in what they make of the bytes. -/
def SameBytes {α β : Type} : Parse α → Parse β → Prop
  | .more, .more => True
  | .refuse r, .refuse r' => r = r'
  | .ok _ rest, .ok _ rest' => rest = rest'
  | _, _ => False

theorem SameBytes.refl {α : Type} (x : Parse α) : SameBytes x x := by
  cases x
  · trivial
  · rfl
  · rfl

theorem SameBytes.andThen {α α' β β' : Type} {x : Parse α} {x' : Parse α'} {g : α → List Byte → Parse β}
    {g' : α' → List Byte → Parse β'} (hx : SameBytes x x') (hg : ∀ a a' rest, SameBytes (g a rest) (g' a' rest)) :
    SameBytes (x.andThen g) (x'.andThen g') := by
  cases x <;> cases x' <;> simp only [SameBytes] at hx <;> subst_vars
  · trivial
  · rfl
  · exact hg _ _ _

/-- Two formats that read the same bytes. -/
def SameFormat : Option Format → Option Format → Prop
  | none, none => True
  | some (.op _), some (.op _) => True
  | some (.opCb _), some (.opCb _) => True
  | some (.modRm _), some (.modRm _) => True
  | some (.digit make), some (.digit make') => ∀ reg, (make reg).isSome = (make' reg).isSome
  | _, _ => False

theorem parseFormat_sameBytes {asz : Size} {f f' : Option Format} (h : SameFormat f f') (bs : List Byte) :
    SameBytes (parseFormat asz f bs) (parseFormat asz f' bs) := by
  match f, f', h with
  | none, none, _ => rfl
  | some (.op _), some (.op _), _ => rfl
  | some (.opCb _), some (.opCb _), _ =>
    cases bs <;> simp [parseFormat, takeByte, Parse.andThen, SameBytes]
  | some (.modRm _), some (.modRm _), _ =>
    cases bs with
    | nil => trivial
    | cons modrm bs => exact SameBytes.andThen (.refl (parseRegMem asz modrm bs)) fun _ _ _ => rfl
  | some (.digit make), some (.digit make'), h =>
    cases bs with
    | nil => trivial
    | cons modrm bs =>
      have hreg := h (field53 modrm)
      simp only [parseFormat, takeByte, Parse.andThen]
      cases hm : make (field53 modrm) <;> cases hm' : make' (field53 modrm) <;> rw [hm, hm'] at hreg
      · rfl
      · cases hreg
      · cases hreg
      · exact SameBytes.andThen (.refl (parseRegMem asz modrm bs)) fun _ _ _ => rfl

theorem oneByteOpcode_sameFormat (p p' : Prefixes) (osz : Size) (b : Byte) :
    SameFormat (oneByteOpcode p osz b) (oneByteOpcode p' osz b) := by
  unfold oneByteOpcode
  split <;> trivial

theorem twoByteOpcode_sameFormat (p p' : Prefixes) (osz : Size) (b : Byte) :
    SameFormat (twoByteOpcode p osz b) (twoByteOpcode p' osz b) := by
  unfold twoByteOpcode
  split <;> try trivial
  · intro reg
    unfold group0F00
    split <;> rfl
  · intro reg
    unfold group0F01
    split <;> rfl

/-- Which bytes a body takes depends on the sizes only. -/
theorem parseBody_sameBytes {dflt : Size} {p p' : Prefixes} (hosz : p.opSize = p'.opSize)
    (hasz : p.addrSize = p'.addrSize) (opcode : Byte) (bs : List Byte) :
    SameBytes (parseBody dflt p opcode bs) (parseBody dflt p' opcode bs) := by
  have ho : p.operandSize dflt = p'.operandSize dflt := by rw [Prefixes.operandSize, Prefixes.operandSize, hosz]
  have ha : p.addressSize dflt = p'.addressSize dflt := by rw [Prefixes.addressSize, Prefixes.addressSize, hasz]
  unfold parseBody
  rw [ho, ha]
  split
  · cases bs with
    | nil => trivial
    | cons b bs => exact parseFormat_sameBytes (twoByteOpcode_sameFormat p p' _ b) bs
  · exact parseFormat_sameBytes (oneByteOpcode_sameFormat p p' _ opcode) bs

/-! ## The order of prefix bytes -/

/-- The states are one, or both have repeated groups and hold the same groups. -/
def PrefixState.Alike (s s' : PrefixState) : Prop :=
  s = s' ∨ (s.repeated = true ∧ s'.repeated = true ∧ ∀ x, s.holds x = s'.holds x)

theorem PrefixState.Alike.trans {s t u : PrefixState} (h1 : s.Alike t) (h2 : t.Alike u) : s.Alike u := by
  rcases h1 with rfl | ⟨hs, ht, hst⟩
  · exact h2
  · rcases h2 with rfl | ⟨-, hu, htu⟩
    · exact .inr ⟨hs, ht, hst⟩
    · exact .inr ⟨hs, hu, fun x => (hst x).trans (htu x)⟩

theorem PrefixState.add_repeated {s : PrefixState} (h : s.repeated = true) (x : PrefixByte) :
    (s.add x).repeated = true := by
  rw [PrefixState.add_eq]
  split
  · rfl
  · cases x <;> exact h

theorem PrefixState.Alike.add {s s' : PrefixState} (h : s.Alike s') (x : PrefixByte) : (s.add x).Alike (s'.add x) := by
  rcases h with rfl | ⟨hs, hs', hholds⟩
  · exact .inl rfl
  · refine .inr ⟨add_repeated hs x, add_repeated hs' x, fun y => ?_⟩
    rw [holds_add, holds_add, hholds]

theorem PrefixState.Alike.addBytes {s s' : PrefixState} (h : s.Alike s') (pre : List Byte) :
    (s.addBytes pre).Alike (s'.addBytes pre) := by
  induction pre generalizing s s' with
  | nil => exact h
  | cons b pre ih =>
    cases hb : prefixByte b with
    | none => simpa [PrefixState.addBytes, hb] using ih h
    | some x => rw [addBytes_cons hb, addBytes_cons hb]; exact ih (h.add x)

/-- Two bytes of one group: the second is only noted. -/
theorem PrefixState.add_add_repeated (s : PrefixState) {x y : PrefixByte} (h : y.group = x.group) :
    ((s.add x).add y).repeated = true := by
  have hholds : (s.add x).holds y = true := by rw [holds_add]; simp [h]
  rw [PrefixState.add_eq (s.add x), if_pos hholds]
  rfl

/-- Two bytes of different groups fill different places. -/
theorem PrefixState.add_comm (s : PrefixState) {x y : PrefixByte} (h : y.group ≠ x.group) :
    (s.add x).add y = (s.add y).add x := by
  have hplace : (s.place x).place y = (s.place y).place x := by
    cases x <;> cases y <;> simp [PrefixState.place, PrefixByte.group] at h ⊢
  have hmarked {s : PrefixState} (z : PrefixByte) : s.marked.place z = (s.place z).marked := by cases z <;> rfl
  have hyx : (s.add x).holds y = s.holds y := by rw [holds_add]; simp [h]
  have hxy : (s.add y).holds x = s.holds x := by rw [holds_add]; simp [h.symm]
  rw [PrefixState.add_eq (s.add x), PrefixState.add_eq (s.add y), hyx, hxy, PrefixState.add_eq, PrefixState.add_eq]
  cases s.holds x <;> cases s.holds y <;> simp [hmarked, hplace]

theorem PrefixState.add_add_alike (s : PrefixState) (x y : PrefixByte) : ((s.add x).add y).Alike ((s.add y).add x) := by
  by_cases h : y.group = x.group
  · refine .inr ⟨s.add_add_repeated h, s.add_add_repeated h.symm, fun z => ?_⟩
    rw [holds_add, holds_add, holds_add, holds_add, Bool.or_left_comm]
  · exact .inl (s.add_comm h)

theorem PrefixState.addBytes_perm {pre pre' : List Byte} (h : pre.Perm pre') (hpre : AllPrefixes pre)
    (s : PrefixState) : (s.addBytes pre).Alike (s.addBytes pre') := by
  induction h generalizing s with
  | nil => exact .inl rfl
  | cons b _ ih =>
    rw [AllPrefixes, List.forall_mem_cons] at hpre
    obtain ⟨x, hb⟩ := (prefixGroup_ne_none_iff b).1 hpre.1
    rw [addBytes_cons hb, addBytes_cons hb]
    exact ih hpre.2 _
  | swap b c l =>
    simp only [AllPrefixes, List.forall_mem_cons] at hpre
    obtain ⟨x, hx⟩ := (prefixGroup_ne_none_iff b).1 hpre.2.1
    obtain ⟨y, hy⟩ := (prefixGroup_ne_none_iff c).1 hpre.1
    rw [addBytes_cons hy, addBytes_cons hx, addBytes_cons hx, addBytes_cons hy]
    exact (s.add_add_alike y x).addBytes l
  | trans h1 _ ih1 ih2 =>
    exact (ih1 hpre s).trans (ih2 (fun b hb => hpre b (h1.mem_iff.2 hb)) s)

/-- The decoder makes the same of states that are alike: with a repeated group it makes no instruction of any. -/
theorem decodeFrom_alike {s s' : PrefixState} (h : s.Alike s') {opcode : Byte} (hopcode : prefixGroup opcode = none)
    (dflt : Size) (rest : List Byte) :
    decodeFrom dflt s (opcode :: rest) = decodeFrom dflt s' (opcode :: rest) := by
  rcases h with rfl | ⟨hs, hs', hholds⟩
  · rfl
  · rw [decodeFrom_opcode hopcode, decodeFrom_opcode hopcode]
    have hbody := parseBody_sameBytes (dflt := dflt) (hholds .opSize) (hholds .addrSize) opcode rest
    cases hx : parseBody dflt s.p opcode rest <;> cases hx' : parseBody dflt s'.p opcode rest <;>
      rw [hx, hx'] at hbody <;> simp only [SameBytes] at hbody
    · rfl
    · rw [hbody]; rfl
    · simp [Parse.andThen, joinGroup1, hs, hs']

/-- Settles O4. -/
theorem prefixOrderIsIrrelevant : Obligations.PrefixOrderIsIrrelevant := by
  intro dflt pre pre' opcode rest hpre hperm hopcode
  have hpre' : AllPrefixes pre' := fun b hb => hpre b (hperm.mem_iff.2 hb)
  rw [decode_append_prefixes hpre, decode_append_prefixes hpre']
  exact decodeFrom_alike (PrefixState.addBytes_perm hperm hpre _) hopcode dflt rest

/-! ## Repeated prefix groups -/

/-- The decoder after prefix bytes with a repeated group: the bytes are read as without it, and what they make is
refused. -/
theorem decodeFrom_marked (dflt : Size) (s : PrefixState) (bs : List Byte) :
    (∀ i r, decodeFrom dflt s.marked bs ≠ .ok i r) ∧
    (∀ i r, decodeFrom dflt s bs = .ok i r → decodeFrom dflt s.marked bs = .refuse .repeatedPrefix) ∧
    (decodeFrom dflt s.marked bs = .more ↔ decodeFrom dflt s bs = .more) := by
  rcases allPrefixes_or_opcode bs with hall | ⟨pre, opcode, rest, rfl, hpre, hopcode⟩
  · have hmore (s : PrefixState) : decodeFrom dflt s bs = .more := by
      have h := parsePrefixes_append hall s []
      rw [List.append_nil] at h
      rw [decodeFrom, h]
      rfl
    simp [hmore]
  · have hdecode (s : PrefixState) : decodeFrom dflt s (pre ++ opcode :: rest) =
        decodeFrom dflt (s.addBytes pre) (opcode :: rest) := by
      rw [decodeFrom, decodeFrom, parsePrefixes_append hpre]
    rw [hdecode, hdecode, PrefixState.marked_addBytes, decodeFrom_opcode hopcode, decodeFrom_opcode hopcode,
      andThen_joinGroup1_eq_more_iff, andThen_joinGroup1_eq_more_iff]
    cases hbody : parseBody dflt (s.addBytes pre).p opcode rest <;>
      simp [PrefixState.marked, hbody, Parse.andThen, joinGroup1]

/-- Settles O5: the first byte of each group makes the state, and a further one only marks it. -/
theorem repeatedPrefixGroupRefused : Obligations.RepeatedPrefixGroupRefused := by
  intro dflt pre rest hpre hrepeated
  have hfirst : AllPrefixes (firstOfGroups [] pre) := fun b hb => hpre b ((firstOfGroups_sublist [] pre).subset hb)
  rw [decode_append_prefixes hpre, decode_append_prefixes hfirst, addBytes_of_repeated hpre hrepeated]
  exact decodeFrom_marked dflt _ rest

/-! ## Opcodes outside the table -/

theorem oneByteOpcode_eq_none {b : Byte}
    (h : b ∉ [0x9F#8, 0x8D#8, 0xC9#8, 0xC5#8, 0xC4#8, 0xAC#8, 0xAD#8, 0xE2#8, 0xE1#8, 0xE0#8, 0x0F#8])
    (p : Prefixes) (osz : Size) : oneByteOpcode p osz b = none := by
  unfold oneByteOpcode
  split
  case h_11 => rfl
  all_goals rename_i hb; simp [← BitVec.toNat_inj, hb] at h

theorem twoByteOpcode_eq_none {b : Byte} (h : b ∉ [0x00#8, 0x01#8, 0x02#8, 0x03#8, 0xB2#8, 0xB4#8, 0xB5#8])
    (p : Prefixes) (osz : Size) : twoByteOpcode p osz b = none := by
  unfold twoByteOpcode
  split
  case h_8 => rfl
  all_goals rename_i hb; simp [← BitVec.toNat_inj, hb] at h

theorem group0F00_eq_none {reg : BitVec 3} (h : reg ∉ [2#3, 3#3]) (p : Prefixes) : group0F00 p reg = none := by
  unfold group0F00
  split
  case h_3 => rfl
  all_goals rename_i hreg; simp [← BitVec.toNat_inj, hreg] at h

theorem group0F01_eq_none {reg : BitVec 3} (h : reg ∉ [2#3, 3#3, 6#3]) (p : Prefixes) : group0F01 p reg = none := by
  unfold group0F01
  split
  case h_4 => rfl
  all_goals rename_i hreg; simp [← BitVec.toNat_inj, hreg] at h

/-- A body that is refused behind every prefix is so behind a byte of group 1 too. -/
theorem decode_refuses {group1 : List Byte} (hgroup1 : group1 ∈ [[], [0xF0#8], [0xF3#8], [0xF2#8]]) {opcode : Byte}
    (hopcode : prefixGroup opcode = none) {dflt : Size} {p : Prefixes} {r : DecodeRefusal} {rest : List Byte}
    (hbody : parseBody dflt p opcode rest = .refuse r) :
    decode dflt (group1 ++ (p.bytes ++ opcode :: rest)) = .refuse r := by
  have hnone := (prefixGroup_eq_none_iff opcode).1 hopcode
  have hgroup (g : Option Group1) (bs : List Byte)
      (h : parsePrefixes .empty bs =
        parsePrefixes { group1 := g, p := .empty, repeated := false } (p.bytes ++ opcode :: rest)) :
      decode dflt bs = .refuse r := by
    rw [parsePrefixes_bytes g p opcode rest hnone] at h
    simp only [decode, h, hbody, Parse.andThen]
  simp only [List.mem_cons, List.not_mem_nil, or_false] at hgroup1
  rcases hgroup1 with rfl | rfl | rfl | rfl
  · exact hgroup none _ rfl
  · exact hgroup (some .lock) _ rfl
  · exact hgroup (some .rep) _ rfl
  · exact hgroup (some .repne) _ rfl

/-- Settles O6. -/
theorem opcodeOutsideTheTableRefused : Obligations.OpcodeOutsideTheTableRefused := by
  intro dflt group1 p b modrm rest hgroup1
  have hescape : prefixGroup 0x0F#8 = none := by decide
  refine ⟨fun hprefix hb => decode_refuses hgroup1 hprefix ?_, fun hb => decode_refuses hgroup1 hescape ?_,
    fun hreg => decode_refuses hgroup1 hescape ?_, fun hreg => decode_refuses hgroup1 hescape ?_⟩
  · have hne : b ≠ 0x0F#8 := by rintro rfl; simp at hb
    rw [parseBody, if_neg hne, oneByteOpcode_eq_none hb]
    rfl
  · simp [parseBody, takeByte, Parse.andThen, twoByteOpcode_eq_none hb, parseFormat]
  · simp [parseBody, takeByte, Parse.andThen, twoByteOpcode, parseFormat, group0F00_eq_none hreg]
  · simp [parseBody, takeByte, Parse.andThen, twoByteOpcode, parseFormat, group0F01_eq_none hreg]

/-- Settles O8: each sequence is evaluated. -/
theorem sampleWordsDecode : Obligations.SampleWordsDecode := by
  unfold Obligations.SampleWordsDecode
  decide

end Sys2Proof
end

section

/-! The addressing forms, from the bytes to the offset and the default segment (R146, R147). -/

namespace Sys2Proof

open Machine (State effectiveAddress defaultSegment disp16Value disp32Value baseSum scaled indexValue rmRegisters16
  dispValue dispBytes16 dispBytes32 lowWord_toNat)

/-! ## Displacements -/

theorem append_toNat {n m : Nat} (x : BitVec n) (y : BitVec m) : (x ++ y).toNat = x.toNat * 2 ^ m + y.toNat := by
  rw [BitVec.toNat_append, ← Nat.shiftLeft_add_eq_or_of_lt y.isLt, Nat.shiftLeft_eq]

theorem takeWord_append {disp : List Byte} (hlen : disp.length = 2) (rest : List Byte) :
    ∃ d, takeWord (disp ++ rest) = .ok d rest ∧ (d.toNat : Int) = dispValue disp := by
  match disp, hlen with
  | [b0, b1], _ =>
    refine ⟨b1 ++ b0, rfl, ?_⟩
    rw [append_toNat, dispValue]
    omega

theorem takeDword_append {disp : List Byte} (hlen : disp.length = 4) (rest : List Byte) :
    ∃ d, takeDword (disp ++ rest) = .ok d rest ∧ (d.toNat : Int) = dispValue disp := by
  match disp, hlen with
  | [b0, b1, b2, b3], _ =>
    refine ⟨(b3 ++ b2) ++ (b1 ++ b0), rfl, ?_⟩
    rw [append_toNat, append_toNat, append_toNat, dispValue]
    omega

theorem signExtend_word_toNat : ∀ d : Byte, ((d.signExtend 16).toNat : Int) = d.toInt % 65536 := by decide

theorem signExtend_dword_toNat : ∀ d : Byte, ((d.signExtend 32).toNat : Int) = d.toInt % 4294967296 := by decide

theorem mod_cases : ∀ mod : BitVec 2, mod ≠ 3#2 → mod = 0#2 ∨ mod = 1#2 ∨ mod = 2#2 := by decide

theorem parseDisp16_append {mod : BitVec 2} {rm : BitVec 3} {disp : List Byte} (hmod : mod ≠ 3#2)
    (hbase : ¬ (mod = 0#2 ∧ rm = 6#3)) (hlen : disp.length = dispBytes16 mod rm) (rest : List Byte) :
    ∃ d, parseDisp16 mod (disp ++ rest) = .ok d rest ∧ ((disp16Value d).toNat : Int) = dispValue disp % 65536 := by
  rcases mod_cases mod hmod with rfl | rfl | rfl
  · obtain rfl : disp = [] := by simpa [dispBytes16, show rm ≠ 6#3 from fun h => hbase ⟨rfl, h⟩] using hlen
    exact ⟨.zero, rfl, rfl⟩
  · match disp, hlen with
    | [b], _ => exact ⟨.disp8 b, rfl, signExtend_word_toNat b⟩
  · obtain ⟨d, hd, hvalue⟩ := takeWord_append hlen rest
    refine ⟨.disp16 d, by simp [parseDisp16, hd, Parse.andThen], ?_⟩
    have := d.isLt
    simp only [disp16Value, ← hvalue]
    omega

theorem parseDisp32_append {mod : BitVec 2} {base : BitVec 3} {disp : List Byte} (hmod : mod ≠ 3#2)
    (hbase : ¬ (mod = 0#2 ∧ base = 5#3)) (hlen : disp.length = dispBytes32 mod base) (rest : List Byte) :
    ∃ d, parseDisp32 mod (disp ++ rest) = .ok d rest ∧
      ((disp32Value d).toNat : Int) = dispValue disp % 4294967296 := by
  rcases mod_cases mod hmod with rfl | rfl | rfl
  · obtain rfl : disp = [] := by simpa [dispBytes32, show base ≠ 5#3 from fun h => hbase ⟨rfl, h⟩] using hlen
    exact ⟨.zero, rfl, rfl⟩
  · match disp, hlen with
    | [b], _ => exact ⟨.disp8 b, rfl, signExtend_dword_toNat b⟩
  · obtain ⟨d, hd, hvalue⟩ := takeDword_append hlen rest
    refine ⟨.disp32 d, by simp [parseDisp32, hd, Parse.andThen], ?_⟩
    have := d.isLt
    simp only [disp32Value, ← hvalue]
    omega

/-! ## 16-bit forms -/

theorem baseSum_toNat (s : State) (rm : BitVec 3) :
    (baseSum s (.ofBits rm)).toNat = ((rmRegisters16 rm).map fun r => (s.reg32 r).toNat % 65536).sum % 65536 := by
  have hcases : ∀ rm : BitVec 3,
      rm = 0#3 ∨ rm = 1#3 ∨ rm = 2#3 ∨ rm = 3#3 ∨ rm = 4#3 ∨ rm = 5#3 ∨ rm = 6#3 ∨ rm = 7#3 := by decide
  rcases hcases rm with rfl | rfl | rfl | rfl | rfl | rfl | rfl | rfl <;>
    simp [Base16.ofBits, rmRegisters16, baseSum, State.reg16, lowWord_toNat]

theorem defaultSegment_based16 : ∀ (rm : BitVec 3) (d : Disp16),
    defaultSegment (.based16 (.ofBits rm) d) = if rm ∈ [2#3, 3#3, 6#3] then .ss else .ds := by
  intro rm d
  revert rm
  simp only [defaultSegment]
  decide

/-- Settles O9. -/
theorem addressingForms16 : Obligations.AddressingForms16 := by
  intro s modrm disp rest hmod hlen
  simp only [parseRegMem, if_neg hmod, parseMem16]
  by_cases hdirect : field76 modrm = 0#2 ∧ field20 modrm = 6#3
  · obtain ⟨d, hd, hvalue⟩ := takeWord_append (hlen.trans (by simp [dispBytes16, hdirect])) rest
    refine ⟨.direct16 d, by simp [hdirect, hd, Parse.andThen], ?_⟩
    rw [if_pos hdirect, effectiveAddress, BitVec.toNat_setWidth]
    exact ⟨by omega, rfl⟩
  · obtain ⟨d, hd, hvalue⟩ := parseDisp16_append hmod hdirect hlen rest
    refine ⟨.based16 (.ofBits (field20 modrm)) d, by simp [hdirect, hd, Parse.andThen], ?_⟩
    rw [if_neg hdirect]
    refine ⟨?_, defaultSegment_based16 _ d⟩
    have hsum := baseSum_toNat s (field20 modrm)
    simp only [effectiveAddress, BitVec.toNat_setWidth, BitVec.toNat_add]
    omega

/-! ## 32-bit forms -/

theorem defaultSegment_based32 (base : BitVec 3) (d : Disp32) :
    defaultSegment (.based32 (.ofBits base) d) = if base = 4#3 ∨ base = 5#3 then .ss else .ds := by
  simp only [defaultSegment, Gpr.ofBits_eq_iff, Gpr.toBits]

/-- Settles O10. -/
theorem addressingForms32 : Obligations.AddressingForms32 := by
  intro s modrm disp rest hmod hsib hlen
  simp only [parseRegMem, if_neg hmod, parseMem32, if_neg hsib]
  by_cases hdirect : field76 modrm = 0#2 ∧ field20 modrm = 5#3
  · obtain ⟨d, hd, hvalue⟩ := takeDword_append (hlen.trans (by simp [dispBytes32, hdirect])) rest
    refine ⟨.direct32 d, by simp [hdirect, hd, Parse.andThen], ?_⟩
    simp [hdirect, effectiveAddress, defaultSegment, hvalue]
  · obtain ⟨d, hd, hvalue⟩ := parseDisp32_append hmod hdirect hlen rest
    refine ⟨.based32 (.ofBits (field20 modrm)) d, by simp [hdirect, hd, Parse.andThen], ?_⟩
    rw [if_neg hdirect, defaultSegment_based32]
    refine ⟨?_, by simp [hsib]⟩
    simp only [effectiveAddress, BitVec.toNat_add]
    omega

theorem scaled_toNat (x : Dword) (scale : BitVec 2) :
    (scaled x (.ofBits scale)).toNat = x.toNat * 2 ^ scale.toNat % 4294967296 := by
  have hx := x.isLt
  have hcases : ∀ f : BitVec 2, f = 0#2 ∨ f = 1#2 ∨ f = 2#2 ∨ f = 3#2 := by decide
  rcases hcases scale with rfl | rfl | rfl | rfl <;>
    simp [Scale.ofBits, scaled, BitVec.toNat_shiftLeft, Nat.shiftLeft_eq, Nat.mod_eq_of_lt hx]

/-- The index that a SIB byte names. -/
def sibIndex (sib : Byte) : Option (Gpr × Scale) :=
  if field53 sib = 4#3 then none else some (.ofBits (field53 sib), .ofBits (field76 sib))

theorem withIndex_refused {sib : Byte} (h : field53 sib = 4#3 ∧ field76 sib ≠ 0#2)
    (make : Option (Gpr × Scale) → MemOp) (rest : List Byte) :
    withIndex sib make rest = .refuse .scaledMissingIndex := by
  simp [withIndex, h]

theorem withIndex_ok {sib : Byte} (h : ¬ (field53 sib = 4#3 ∧ field76 sib ≠ 0#2))
    (make : Option (Gpr × Scale) → MemOp) (rest : List Byte) :
    withIndex sib make rest = .ok (make (sibIndex sib)) rest := by
  unfold withIndex sibIndex
  by_cases hindex : field53 sib = 4#3
  · have hscale : field76 sib = 0#2 := by_contra fun hne => h ⟨hindex, hne⟩
    simp [hindex, hscale]
  · simp [hindex]

theorem indexValue_toNat (s : State) (sib : Byte) :
    (indexValue s (sibIndex sib)).toNat =
      (if field53 sib = 4#3 then 0 else (s.reg32 (.ofBits (field53 sib))).toNat * 2 ^ (field76 sib).toNat) %
        4294967296 := by
  unfold sibIndex
  split
  · rfl
  · exact scaled_toNat _ _

/-- Settles O11. -/
theorem addressingFormsSib : Obligations.AddressingFormsSib := by
  intro s modrm sib disp rest hmod hsib hlen
  simp only [parseRegMem, if_neg hmod, parseMem32, if_pos hsib, takeByte, Parse.andThen, parseSib]
  have hindex := indexValue_toNat s sib
  by_cases hdirect : field20 sib = 5#3 ∧ field76 modrm = 0#2
  · obtain ⟨d, hd, hvalue⟩ := takeDword_append (hlen.trans (by simp [dispBytes32, hdirect])) rest
    simp only [if_pos hdirect, hd]
    refine ⟨fun hrefused => by rw [withIndex_refused hrefused],
      fun hok => ⟨.sibDirect (sibIndex sib) d, by rw [withIndex_ok hok], ?_, by simp [defaultSegment, hdirect]⟩⟩
    rw [if_pos hdirect.symm]
    simp only [effectiveAddress, BitVec.toNat_add]
    omega
  · obtain ⟨d, hd, hvalue⟩ := parseDisp32_append hmod (fun h => hdirect h.symm) hlen rest
    simp only [if_neg hdirect, hd]
    refine ⟨fun hrefused => by rw [withIndex_refused hrefused],
      fun hok => ⟨.sib (.ofBits (field20 sib)) (sibIndex sib) d, by rw [withIndex_ok hok], ?_, ?_⟩⟩
    · rw [if_neg fun h => hdirect h.symm]
      simp only [effectiveAddress, BitVec.toNat_add]
      omega
    · have hsegment := defaultSegment_based32 (field20 sib) d
      rw [show defaultSegment (.sib (.ofBits (field20 sib)) (sibIndex sib) d) = _ from hsegment]
      grind

end Sys2Proof
end

section

/-! Fetching and stepping: the step runs the bytes it read at CS:EIP, or ends in their fault or refusal (R91, R430). -/

namespace Sys2Proof.Machine

/-- The bytes that stand at CS:EIP in a quiet state are read there, and nothing changes. -/
theorem State.readsBytes_of_holds {s : State} (hq : s.quiet = true) {bs : List Byte}
    (h : Memory.holds s.mem (s.seg.cs.base + s.eip) bs) : s.readsBytes 0 bs s :=
  (State.readsBytes_quiet hq 0 bs s).2 ⟨by simpa using h, rfl⟩

/-- The step that reads the bytes of an instruction (R484). -/
theorem step_of_reads {s t : State} {bs : List Byte} {i : Instr} (hr : s.readsBytes 0 bs t)
    (hl : s.eip.toNat + bs.length ≤ s.seg.cs.limit.toNat + 1) (hd : decode s.dflt bs = .ok i []) :
    step s = if s.peJustSet then .refused .afterModeSwitch else exec i t := by
  unfold step
  rw [State.fetch_reads hr hl hd, ← (State.readsBytes_agrees hr).peJustSet]

/-- The step that reads bytes which the decoder refuses (R161, R430). -/
theorem step_of_refused {s t : State} {bs : List Byte} {r : DecodeRefusal} (hr : s.readsBytes 0 bs t)
    (hl : s.eip.toNat + bs.length ≤ s.seg.cs.limit.toNat + 1) (hd : decode s.dflt bs = .refuse r) :
    step s = .refused (.undecoded r) := by
  unfold step State.fetch
  rw [State.fetchMore_refuses (bs := []) hr (State.bytesWithinLimit_le hl) (decode_nil _) hd]

/-- The bytes of an instruction that is fetched lie within CS's limit. -/
theorem State.withinLimit_of_le {s : State} {n : Nat} (hn : 0 < n) (h : n ≤ s.bytesWithinLimit) :
    s.eip.toNat + n ≤ s.seg.cs.limit.toNat + 1 := by
  unfold State.bytesWithinLimit at h
  omega

theorem decode_ok_ne_nil {dflt : Size} {bs rest : List Byte} {i : Instr} (h : decode dflt bs = .ok i rest) :
    0 < bs.length := by
  cases bs with
  | nil => cases h
  | cons b bs => simp

/-- Settles O12. -/
theorem stepRunsTheDecodedInstruction : Obligations.StepRunsTheDecodedInstruction := by
  intro s bs hl
  refine ⟨fun i hd hpending => ?_, fun r hd => ?_⟩
  · have hrun (s1 : State) (hr : s.readsBytes 0 bs s1) : step s = exec i s1 := by
      rw [step_of_reads hr hl hd, hpending]
      rfl
    exact ⟨hrun, fun hq hholds => hrun s (State.readsBytes_of_holds hq hholds)⟩
  · have hrefused (s1 : State) (hr : s.readsBytes 0 bs s1) : step s = .refused (.undecoded r) :=
      step_of_refused hr hl hd
    exact ⟨hrefused, fun hq hholds => hrefused s (State.readsBytes_of_holds hq hholds)⟩

/-- Settles O13: the fetch's lemmas say what reading changes, and O2 that the bytes are as many as the instruction's. -/
theorem stepIsAFetchedInstruction : Obligations.StepIsAFetchedInstruction := by
  intro s t h
  obtain ⟨i, bs, s1, hd, hroom, hr, hpending, hexec⟩ := step_next h
  obtain ⟨-, used, hused, hlen⟩ := decodedIsWellFormedOfItsLength _ _ _ _ hd
  rw [List.append_nil] at hused
  refine ⟨i, bs, s1, hd, hused ▸ hlen, State.withinLimit_of_le (decode_ok_ne_nil hd) hroom, hr,
    State.readsBytes_agrees hr, hpending, hexec,
    fun hx => ⟨fun hw => State.readsBytes_unwalked hx hw hr, fun hm a => ?_⟩, fun hq => ?_⟩
  · have hmarks := (State.readsBytes_marksOnly hx hm hr).2 a
    rw [show s.seg.cs.base + s.eip + BitVec.ofNat 32 0 = s.seg.cs.base + s.eip from BitVec.add_zero _] at hmarks
    exact hmarks.imp_right fun ⟨_, hentry, hbyte⟩ => ⟨hentry, hbyte⟩
  · simpa using ((State.readsBytes_quiet hq 0 bs s1).1 hr).1

/-- Settles O14. -/
theorem fetchFaultsEndTheStep : Obligations.FetchFaultsEndTheStep := by
  intro s s1 bs hr hmore hwithin
  have hlast : bs.length = 0 ∨ s.eip.toNat + (bs.length - 1) ≤ s.seg.cs.limit.toNat := by
    cases hn : bs.length with
    | zero => exact .inl rfl
    | succ n => exact .inr (hwithin n (by omega))
  have hag := State.readsBytes_agrees hr
  refine ⟨fun hbeyond => ?_, fun hinside f hf => ?_⟩
  · have hroom : s.bytesWithinLimit = bs.length := by
      unfold State.bytesWithinLimit
      omega
    unfold step State.fetch
    rw [hroom, State.fetchMore_beyond (bs := []) hr hmore]
    rfl
  · have hfetch : s.fetch = .fault f :=
      State.fetchMore_raises (bs := []) hr hmore (by unfold State.bytesWithinLimit; omega)
        (by rw [hag.seg, hag.eip, hag.programRights]; exact hf)
    obtain ⟨hmode, code, la, rfl⟩ := State.linRead_fault hf
    refine ⟨by unfold step; rw [hfetch], rfl, hag.eip, ?_⟩
    rwa [hag.mode] at hmode

/-- Settles O15. -/
theorem stepAfterModeSwitchRefused : Obligations.StepAfterModeSwitchRefused := by
  intro s hpending
  refine ⟨fun t h => ?_, fun bs i s1 hr hl hd => ?_⟩
  · obtain ⟨-, -, -, -, -, -, hnot, -⟩ := step_next h
    rw [hpending] at hnot
    cases hnot
  · rw [step_of_reads hr hl hd, hpending]
    rfl

end Sys2Proof.Machine
end

section

/-! Items of memory (R84, R87) and segment-relative reads (R88 to R92). -/

namespace Sys2Proof.Machine

theorem AgreeButAccess.unpaged {s t : State} (h : AgreeButAccess s t) : t.unpaged = s.unpaged := by rw [h]; rfl

theorem AgreeButAccess.quiet {s t : State} (h : AgreeButAccess s t) : t.quiet = s.quiet := by rw [h]; rfl

/-! ## Consecutive addresses -/

theorem mem_consecutive (pa a : Dword) (n : Nat) : a ∈ consecutive pa n ↔ inRange pa n a := by
  induction n generalizing pa with
  | zero => simp [consecutive, inRange]
  | succ n ih =>
    rw [consecutive, List.mem_cons, ih]
    constructor
    · rintro (rfl | ⟨k, hk, rfl⟩)
      · exact ⟨0, by omega, by simp⟩
      · exact ⟨k + 1, by omega, (ofNat_succ_add pa k).symm⟩
    · rintro ⟨k, hk, rfl⟩
      cases k with
      | zero => exact .inl (by simp)
      | succ k => exact .inr ⟨k, by omega, ofNat_succ_add pa k⟩

theorem notMem_consecutive_succ (pa : Dword) {n : Nat} (hn : n < 4294967296) : pa ∉ consecutive (pa + 1#32) n := by
  rw [mem_consecutive]
  rintro ⟨k, hk, h⟩
  have h := congrArg BitVec.toNat h
  have hpa := pa.isLt
  simp only [BitVec.toNat_add, BitVec.toNat_ofNat] at h
  omega

/-! ## The bytes of a number -/

/-- The sum of the bytes, each by its place. -/
theorem Memory.item_eq_sum (m : Memory) (pa : Dword) (n : Nat) :
    Memory.item m pa n =
      ((List.range n).map fun i => (Memory.byteAt m (pa + BitVec.ofNat 32 i)).toNat * 2 ^ (8 * i)).sum := by
  induction n generalizing pa with
  | zero => rfl
  | succ n ih =>
    have hterm (i : Nat) : (Memory.byteAt m (pa + BitVec.ofNat 32 (i + 1))).toNat * 2 ^ (8 * (i + 1)) =
        256 * ((Memory.byteAt m (pa + 1#32 + BitVec.ofNat 32 i)).toNat * 2 ^ (8 * i)) := by
      rw [ofNat_succ_add pa i, Nat.mul_add, Nat.pow_add]
      ring
    rw [Memory.item, ih, List.range_succ_eq_map, List.map_cons, List.map_map, List.sum_cons, ← List.sum_map_mul_left]
    simp only [Function.comp_def, Nat.succ_eq_add_one, hterm, BitVec.add_zero, Nat.mul_zero, Nat.pow_zero, Nat.mul_one]

/-- Each byte of a number stored at consecutive addresses. -/
theorem Memory.byteAt_setNumber_consecutive {m : Memory} (hm : Memory.wf m = true) (pa : Dword) (v : Nat) {n i : Nat}
    (hn : n ≤ 4294967296) (hi : i < n) :
    (Memory.byteAt (Memory.setNumber m (consecutive pa n) v) (pa + BitVec.ofNat 32 i)).toNat =
      v / 2 ^ (8 * i) % 256 := by
  induction n generalizing m pa v i with
  | zero => omega
  | succ n ih =>
    rw [consecutive, Memory.setNumber]
    cases i with
    | zero =>
      rw [BitVec.add_zero, Memory.byteAt_setNumber_other _ _ _ _ (notMem_consecutive_succ pa (by omega)),
        Memory.byteAt_setByte_same _ _ _ hm]
      simp
    | succ i =>
      rw [ofNat_succ_add pa i, ih (Memory.setByte_wf m pa _ hm) _ _ (by omega) (by omega), Nat.div_div_eq_div_mul,
        Nat.mul_add, Nat.pow_add, Nat.mul_comm (2 ^ (8 * i))]

/-- Settles O16. -/
theorem memoryItemsAreLittleEndian : Obligations.MemoryItemsAreLittleEndian := by
  intro s la n v access rights hu
  have hu' : s.agentsAct.unpaged = true := s.agentsAct_agrees.unpaged.trans hu
  refine ⟨fun w t hread => ?_, ?_, fun hq => ?_, fun hq hm hn => ?_⟩
  · rw [State.linRead_unpaged hu', Except.ok.injEq] at hread
    rw [State.linRead_unpaged hu, consecutive, State.busRead, State.busByte, hread]
  · have hstore := (s.busStore_agrees la (BitVec.ofNat 8 v)).unpaged.trans hu
    exact (State.linWrite_unpaged hu la (n + 1) v rights).trans
      (State.linWrite_unpaged hstore (la + 1#32) n (v / 256) rights).symm
  · rw [State.linRead_quiet hq, Memory.item_eq_sum]
  · refine ⟨_, State.linWrite_quiet hq la n v rights, rfl, Memory.setNumber_wf _ _ _ hm,
      fun i hi => Memory.byteAt_setNumber_consecutive hm la v (by omega) hi, fun a ha => ?_⟩
    exact Memory.byteAt_setNumber_other _ _ _ _ (by rwa [mem_consecutive])

/-! ## Segment-relative reads -/

theorem arExpandDown_iff (ar : BitVec 12) :
    arExpandDown ar = true ↔ ar.getLsbD 4 = true ∧ ar.getLsbD 3 = false ∧ ar.getLsbD 2 = true := by
  simp only [arExpandDown, arData, arS, Bool.and_eq_true, Bool.not_eq_true', and_assoc]

theorem readable_iff (ar : BitVec 12) :
    readable ar = true ↔ ¬ (ar.getLsbD 4 = true ∧ ar.getLsbD 3 = true ∧ ar.getLsbD 1 = false) := by
  simp only [readable, arCode, arS, arRW, Bool.not_eq_true', Bool.and_eq_false_iff, Bool.not_eq_false']
  cases ar.getLsbD 4 <;> cases ar.getLsbD 3 <;> cases ar.getLsbD 1 <;> decide

/-- `InLimit` as the two tests of R91 and R92. -/
theorem inLimit_iff (c : SegCache) (off : Dword) (n : Nat) :
    inLimit c off n = true ↔
      (arExpandDown c.ar = true → c.limit.toNat < off.toNat ∧
        off.toNat + n - 1 ≤ if arBig c.ar then 0xFFFFFFFF else 0xFFFF) ∧
      (¬ arExpandDown c.ar = true → off.toNat + n - 1 ≤ c.limit.toNat) := by
  unfold inLimit
  cases arExpandDown c.ar <;> simp

theorem State.segOk_iff (s : State) (k : SegReg) (off : Dword) (n : Nat) :
    s.segOk k off n = true ↔
      (s.mode = .prot → (s.seg.get k).valid = true ∧ readable (s.seg.get k).ar = true) ∧
        inLimit (s.seg.get k) off n = true := by
  by_cases hmode : s.mode = .prot <;> simp [State.segOk, hmode]

theorem takeException_segFault (s : State) (k : SegReg) :
    takeException s (s.segFault k) =
      if k = .ss ∧ (s.mode = .prot ∨ s.cfg.realStackFaultVector = .int12) then
        .stackFault (if s.mode = .real then none else some 0#32) s.eip
      else .generalProtection (if s.mode = .real then none else some 0#32) s.eip := by
  unfold State.segFault
  by_cases hmode : s.mode = .prot
  · by_cases hk : k = .ss <;> simp [takeException, State.errorCode, hmode, hk]
  · by_cases hk : k = .ss
    · cases hv : s.cfg.realStackFaultVector <;> simp [takeException, State.errorCode, hmode, hk]
    · simp [takeException, State.errorCode, hmode, hk]

/-- Settles O17. -/
theorem segmentReadChecks : Obligations.SegmentReadChecks := by
  intro s k off n hn c expandDown inside allowed stackVector code
  have hok : s.segOk k off n = true ↔ allowed ∧ inside := by
    rw [State.segOk_iff, readable_iff, inLimit_iff, arExpandDown_iff]
    rfl
  refine ⟨fun h => ?_, fun h => ?_⟩
  · have hread : s.segRead k off n =
        s.linRead (c.base + off) n .read (if s.cpl = 3#2 then .user else .supervisor) := if_pos (hok.2 h)
    exact ⟨hread, fun hq => hread.trans (State.linRead_quiet hq _ _ _ _)⟩
  · rw [State.segRead, if_neg (mt hok.1 h), raise, takeException_segFault]

end Sys2Proof.Machine
end

section

/-! Accesses under the page walk: the physical addresses, and the marks that a range of translations leaves (R106). -/

namespace Sys2Proof.Machine

/-! ## Marks -/

/-- How a byte changes by marks: bits 5 and 6 set where `dirty` holds, else bit 5 where `used` does, else nothing. -/
def Marked (dirty used : Prop) (b b' : Byte) : Prop :=
  (dirty → b' = b ||| 0x60#8) ∧ (¬ dirty → used → b' = b ||| 0x20#8) ∧ (¬ used → b' = b)

/-- Marks one after another are those of both. -/
theorem Marked.trans {d1 u1 d2 u2 : Prop} {b0 b1 b2 : Byte} (h1 : Marked d1 u1 b0 b1) (h2 : Marked d2 u2 b1 b2)
    (hd1 : d1 → u1) : Marked (d1 ∨ d2) (u1 ∨ u2) b0 b2 := by
  have hbits : (0x60#8 : Byte) ||| 0x20#8 = 0x60#8 ∧ (0x20#8 : Byte) ||| 0x60#8 = 0x60#8 := by decide
  obtain ⟨hdirty1, hused1, hsame1⟩ := h1
  obtain ⟨hdirty2, hused2, hsame2⟩ := h2
  by_cases d1h : d1
  · have hb1 := hdirty1 d1h
    have hb2 : b2 = b0 ||| 0x60#8 := by
      by_cases d2h : d2
      · rw [hdirty2 d2h, hb1, BitVec.or_assoc, BitVec.or_self]
      · by_cases u2h : u2
        · rw [hused2 d2h u2h, hb1, BitVec.or_assoc, hbits.1]
        · rw [hsame2 u2h, hb1]
    exact ⟨fun _ => hb2, fun h => absurd (.inl d1h) h, fun h => absurd (.inl (hd1 d1h)) h⟩
  · by_cases u1h : u1
    · have hb1 := hused1 d1h u1h
      refine ⟨fun h => ?_, fun h _ => ?_, fun h => absurd (.inl u1h) h⟩
      · rw [hdirty2 (h.resolve_left d1h), hb1, BitVec.or_assoc, hbits.2]
      · by_cases u2h : u2
        · rw [hused2 (fun d => h (.inr d)) u2h, hb1, BitVec.or_assoc, BitVec.or_self]
        · rw [hsame2 u2h, hb1]
    · rw [hsame1 u1h] at hdirty2 hused2 hsame2
      exact ⟨fun h => hdirty2 (h.resolve_left d1h), fun h hu => hused2 (fun d => h (.inr d)) (hu.resolve_left u1h),
        fun h => hsame2 fun u => h (.inr u)⟩

theorem Marked.congr {d d' u u' : Prop} {b b' : Byte} (h : Marked d u b b') (hd : d' ↔ d) (hu : u' ↔ u) :
    Marked d' u' b b' := by
  rwa [propext hd, propext hu]

/-- The marks of one walk (R106). -/
theorem PageWalk.mark_marked (w : PageWalk) (access : Access) {m : Memory} (hm : Memory.wf m = true) (a : Dword) :
    Marked (access = .write ∧ a = w.pte) (a = w.pde ∨ a = w.pte) (Memory.byteAt m a)
      (Memory.byteAt (w.mark access m) a) := by
  rw [w.byteAt_mark access m hm a]
  by_cases hpte : a = w.pte
  · rw [if_pos hpte]
    refine ⟨fun h => by rw [usedBits, if_pos h.1], fun h _ => ?_, fun h => absurd (.inr hpte) h⟩
    rw [usedBits_read fun hwrite => h ⟨hwrite, hpte⟩]
  · rw [if_neg hpte]
    refine ⟨fun h => absurd h.2 hpte, fun _ h => by rw [if_pos (h.resolve_right hpte)], fun h => ?_⟩
    rw [if_neg fun hpde => h (.inl hpde)]

/-! ## The translation of a range -/

/-- What translating `n` bytes by current walks does without other agents. -/
structure TranslatesByWalks (s t : State) (la : Dword) (n : Nat) (access : Access) (rights : Rights)
    (pas : List Dword) : Prop where
  frame : t = { s with mem := t.mem, tlb := t.tlb }
  alike : TranslateAlike s.mem t.mem s.cr3
  addresses : ∀ k < n, ∃ w, pageWalk s.mem s.cr3 (la + BitVec.ofNat 32 k) access rights = .ok w ∧ pas[k]? = some w.pa
  marks : ∀ a, Marked (access = .write ∧ s.usesTableEntry la n access rights a) (s.usesEntry la n access rights a)
    (Memory.byteAt s.mem a) (Memory.byteAt t.mem a)

theorem State.translate_byWalk {s t : State} {la pa : Dword} {access : Access} {rights : Rights}
    (hx : s.cfg.externalAgents = .absent) (hw : s.walks = true) (hc : s.tlbCurrent = true)
    (hm : Memory.wf s.mem = true) (h : s.translate la access rights = .ok (pa, t)) :
    t.tlbCurrent = true ∧ ∃ w, pageWalk s.mem s.cr3 la access rights = .ok w ∧ pa = w.pa ∧
      t = { s with mem := w.mark access s.mem, tlb := tlbInsert (w.entry la access) s.tlb } := by
  rw [State.translate_current hw (fun e he => State.tlbCurrent_find hx hc he)] at h
  exact ⟨State.walkPage_current hx hm hc h, State.walkPage_ok_absent hx h⟩

theorem State.translateRange_byWalks {s t : State} {la : Dword} {n : Nat} {access : Access} {rights : Rights}
    {pas : List Dword} (hx : s.cfg.externalAgents = .absent) (hw : s.walks = true) (hc : s.tlbCurrent = true)
    (hm : Memory.wf s.mem = true) (h : s.translateRange la access rights n = .ok (pas, t)) :
    TranslatesByWalks s t la n access rights pas := by
  induction n generalizing s la pas with
  | zero =>
    cases h
    exact ⟨rfl, .refl _ _, fun k hk => absurd hk (Nat.not_lt_zero k),
      fun a => ⟨fun ⟨_, k, hk, _⟩ => absurd hk (Nat.not_lt_zero k), fun _ ⟨k, hk, _⟩ => absurd hk (Nat.not_lt_zero k),
        fun _ => rfl⟩⟩
  | succ n ih =>
    obtain ⟨pa, s1, rest, h1, h2, rfl⟩ := State.translateRange_cons h
    obtain ⟨hc1, w, hwalk, rfl, hs1⟩ := State.translate_byWalk hx hw hc hm h1
    have hag := State.translate_agrees h1
    have hrest := ih (by rw [hag.cfg]; exact hx) (hag.walks.trans hw) hc1 (State.translate_wf h1 hm) h2
    have halike : TranslateAlike s.mem s1.mem s.cr3 := by rw [hs1]; exact w.mark_translateAlike hwalk access hm
    refine ⟨?_, halike.trans (hag.cr3 ▸ hrest.alike), fun k hk => ?_, fun a => ?_⟩
    · rw [hrest.frame, hs1]
    · cases k with
      | zero => exact ⟨w, by simpa using hwalk, rfl⟩
      | succ k =>
        obtain ⟨w', hw', hpa⟩ := hrest.addresses k (by omega)
        rw [hag.cr3, ← ofNat_succ_add la k] at hw'
        obtain ⟨w0, hw0, hplace⟩ := halike.symm.ok hw'
        exact ⟨w0, hw0, by rw [List.getElem?_cons_succ, hpa, ← w0.place_pa, hplace, w'.place_pa]⟩
    · have hfirst := w.mark_marked access hm a
      rw [show w.mark access s.mem = s1.mem by rw [hs1]] at hfirst
      refine (hfirst.trans (hrest.marks a) fun h => .inr h.2).congr ?_ ?_
      · rw [State.usesTableEntry_succ, State.usesTableEntry_alike halike hag.cr3, ← and_or_left]
        simp [hwalk]
      · rw [State.usesEntry_succ, State.usesEntry_alike halike hag.cr3]
        simp [hwalk]

/-- Settles O18. -/
theorem pagedAccessMarksOnlyUsedEntries : Obligations.PagedAccessMarksOnlyUsedEntries := by
  intro s t la n access rights pas hm hw hc h
  have hag := State.translateRange_agrees h
  have hread : s.linRead la n access rights = .ok (t.busRead pas) := by rw [State.linRead, h]
  have hwrite (hwr : access = .write) (v : Nat) : s.linWrite la n v rights = .ok (t.busWrite pas v) := by
    subst hwr
    rw [State.linWrite, h]
  refine ⟨hag, State.translateRange_wf h hm, State.translateRange_length h, hread, hwrite, fun hx => ?_⟩
  have hxt : t.cfg.externalAgents = .absent := by rw [hag.cfg]; exact hx
  have hwalks := State.translateRange_byWalks hx hw hc hm h
  refine ⟨hwalks.frame, hwalks.addresses, fun a => ?_, ?_, fun hwr v => ?_⟩
  · obtain ⟨hdirty, hused, hsame⟩ := hwalks.marks a
    exact ⟨fun hwr htable => hdirty ⟨hwr, htable⟩, hused, hsame⟩
  · rw [hread, State.busRead_absent hxt]
  · rw [hwrite hwr, State.busWrite_absent hxt]

end Sys2Proof.Machine
end

section

/-! Translation with page tables, in arithmetic on the two entries (R106). -/

namespace Sys2Proof.Machine

theorem State.mode_ne_real {s : State} (hpe : s.pe = true) : s.mode ≠ .real := by
  unfold State.mode
  rw [hpe]
  cases s.vm <;> simp

theorem takeException_pf {s : State} (hmode : s.mode ≠ .real) (code la : Dword) :
    takeException s (.pf code la) = .pageFault (some code) s.eip la := by
  simp [takeException, State.errorCode, hmode]

theorem faultCode_eq (present : Bool) (access : Access) (rights : Rights) :
    faultCode present access rights =
      BitVec.ofNat 32 ((if access = .write then 2 else 0) + (if rights = .user then 4 else 0) +
        if present then 1 else 0) := by
  cases present <;> cases access <;> cases rights <;> rfl

theorem accessDenied_iff (user writable : Bool) (access : Access) (rights : Rights) :
    accessDenied user writable access rights = true ↔
      rights = .user ∧ (user = false ∨ (access = .write ∧ writable = false)) := by
  simp [accessDenied]

/-! ## Where the entries stand -/

theorem pdeAddress_eq (cr3 la : Dword) :
    pdeAddress cr3 la = BitVec.ofNat 32 (cr3.toNat / 4096 * 4096 + la.toNat / 4194304 * 4) := by
  apply BitVec.eq_of_toNat_eq
  have hla := la.isLt
  rw [pdeAddress, BitVec.toNat_add, frameOf_toNat, BitVec.toNat_shiftLeft, BitVec.toNat_ushiftRight, BitVec.toNat_ofNat,
    Nat.shiftLeft_eq, Nat.shiftRight_eq_div_pow]
  omega

theorem pteAddress_eq {pde : Nat} (hpde : pde < 2 ^ 32) (la : Dword) :
    pteAddress (BitVec.ofNat 32 pde) la = BitVec.ofNat 32 (pde / 4096 * 4096 + la.toNat / 4096 % 1024 * 4) := by
  apply BitVec.eq_of_toNat_eq
  rw [pteAddress, BitVec.toNat_add, frameOf_toNat, BitVec.toNat_shiftLeft, tableIndex_toNat, BitVec.toNat_ofNat,
    BitVec.toNat_ofNat, Nat.shiftLeft_eq, Nat.mod_eq_of_lt hpde]
  omega

theorem frame_offset_eq {pte : Nat} (hpte : pte < 2 ^ 32) (la : Dword) :
    frameOf (BitVec.ofNat 32 pte) + (la &&& 0xFFF#32) = BitVec.ofNat 32 (pte / 4096 * 4096 + la.toNat % 4096) := by
  apply BitVec.eq_of_toNat_eq
  rw [BitVec.toNat_add, frameOf_toNat, offset_toNat, BitVec.toNat_ofNat, BitVec.toNat_ofNat, Nat.mod_eq_of_lt hpte]

theorem frame_append_offset (frame : BitVec 20) (la : Dword) :
    (frame ++ la.extractLsb' 0 12 : Dword) = BitVec.ofNat 32 (frame.toNat * 4096 + la.toNat % 4096) := by
  apply BitVec.eq_of_toNat_eq
  have hframe := frame.isLt
  refine (append_toNat frame (la.extractLsb' 0 12)).trans ?_
  rw [BitVec.extractLsb'_toNat, BitVec.toNat_ofNat, Nat.shiftRight_eq_div_pow]
  omega

/-! ## What the walk makes of two entries -/

/-- Both entries are present. -/
def entriesPresent (pde pte : Nat) : Prop := pde % 2 = 1 ∧ pte % 2 = 1

/-- The rights of two entries refuse an access. -/
def entriesDeny (pde pte : Nat) (access : Access) (rights : Rights) : Prop :=
  rights = .user ∧ (pde / 4 % 2 = 0 ∨ pte / 4 % 2 = 0 ∨ (access = .write ∧ (pde / 2 % 2 = 0 ∨ pte / 2 % 2 = 0)))

theorem ofNat_bit {n k : Nat} (hk : k < 32) : (BitVec.ofNat 32 n).getLsbD k = decide (n / 2 ^ k % 2 = 1) := by
  rw [BitVec.getLsbD_ofNat, decide_eq_true hk, Bool.true_and, Nat.testBit_eq_decide_div_mod_eq]

theorem present_iff (pde pte : Nat) :
    ((BitVec.ofNat 32 pde).getLsbD 0 && (BitVec.ofNat 32 pte).getLsbD 0) = true ↔ entriesPresent pde pte := by
  simp [ofNat_bit, entriesPresent, -BitVec.getLsbD_eq_getElem]

theorem denied_iff (pde pte : Nat) (access : Access) (rights : Rights) :
    accessDenied ((BitVec.ofNat 32 pde).getLsbD 2 && (BitVec.ofNat 32 pte).getLsbD 2)
      ((BitVec.ofNat 32 pde).getLsbD 1 && (BitVec.ofNat 32 pte).getLsbD 1) access rights = true ↔
      entriesDeny pde pte access rights := by
  rw [accessDenied_iff, ofNat_bit (by decide), ofNat_bit (by decide), ofNat_bit (by decide), ofNat_bit (by decide),
    entriesDeny]
  simp only [Bool.and_eq_false_iff, decide_eq_false_iff_not, Nat.reducePow, Nat.mod_two_ne_one, or_assoc, pow_one]

theorem walkOf_absent {pde pte : Nat} (h : ¬ entriesPresent pde pte) (pdeAt pteAt la : Dword) (access : Access)
    (rights : Rights) :
    walkOf pdeAt (BitVec.ofNat 32 pde) pteAt (BitVec.ofNat 32 pte) la access rights =
      .error (faultCode false access rights) := by
  rw [← present_iff] at h
  unfold walkOf
  cases hpde : (BitVec.ofNat 32 pde).getLsbD 0
  · rfl
  · cases hpte : (BitVec.ofNat 32 pte).getLsbD 0
    · rfl
    · simp [hpde, hpte, -BitVec.getLsbD_eq_getElem] at h

theorem walkOf_present {pde pte : Nat} (h : entriesPresent pde pte) (pdeAt pteAt la : Dword) (access : Access)
    (rights : Rights) :
    (entriesDeny pde pte access rights → walkOf pdeAt (BitVec.ofNat 32 pde) pteAt (BitVec.ofNat 32 pte) la access rights =
      .error (faultCode true access rights)) ∧
    (¬ entriesDeny pde pte access rights →
      ∃ w, walkOf pdeAt (BitVec.ofNat 32 pde) pteAt (BitVec.ofNat 32 pte) la access rights = .ok w ∧
        w.pde = pdeAt ∧ w.pte = pteAt ∧ w.pa = frameOf (BitVec.ofNat 32 pte) + (la &&& 0xFFF#32)) := by
  rw [← present_iff, Bool.and_eq_true] at h
  rw [← denied_iff]
  unfold walkOf
  dsimp only
  rw [h.1, h.2]
  refine ⟨fun hdenied => by rw [hdenied]; rfl, fun hallowed => ?_⟩
  rw [Bool.eq_false_of_not_eq_true hallowed]
  exact ⟨_, rfl, rfl, rfl, rfl⟩

/-! ## The walk of a state -/

theorem State.busRead_dword_lt (s : State) (pa : Dword) : (s.busRead (consecutive pa 4)).1 < 2 ^ 32 := by
  have h := s.busRead_lt (consecutive pa 4)
  simpa [consecutive] using h

theorem State.readEntries_eq {s s1 s2 : State} {la pdeAt pteAt : Dword} {pde pte : Nat}
    (hpdeAt : pdeAt = pdeAddress s.cr3 la) (hpde : s.busRead (consecutive pdeAt 4) = (pde, s1))
    (hpteAt : pteAt = pteAddress (BitVec.ofNat 32 pde) la) (hpte : s1.busRead (consecutive pteAt 4) = (pte, s2))
    (access : Access) (rights : Rights) :
    s.readEntries la access rights =
      (walkOf pdeAt (BitVec.ofNat 32 pde) pteAt (BitVec.ofNat 32 pte) la access rights, s2) := by
  subst hpdeAt hpteAt
  simp only [State.readEntries, State.busDword, hpde, hpte]

theorem State.walkPage_error {s s1 : State} {la code : Dword} {access : Access} {rights : Rights} (hpe : s.pe = true)
    (h : s.readEntries la access rights = (.error code, s1)) :
    s.walkPage la access rights = .error (.pageFault (some code) s.eip la) := by
  rw [State.walkPage, h]
  exact congrArg Except.error (takeException_pf (State.mode_ne_real hpe) code la)

theorem State.walkPage_of_entries {s s1 : State} {la : Dword} {w : PageWalk} {access : Access} {rights : Rights}
    (h : s.readEntries la access rights = (.ok w, s1)) :
    s.walkPage la access rights =
      .ok (w.pa, { s1.markUsed w access with tlb := tlbInsert (w.entry la access) s.tlb }) := by
  rw [State.walkPage, h]

/-! ## The translation buffer (log 9) -/

/-- A translation that may be stale is used where a free value says so. -/
theorem State.translate_stale {s : State} (hw : s.walks = true) {la : Dword} {e : TlbEntry}
    (he : tlbFind s.tlb (pageOf la) = some e) (hstale : s.agreesWith e = false) (access : Access) (rights : Rights) :
    s.translate la access rights =
      if Config.draw 1 s.draws = 1#1 then (s.drawn 1).useEntry e la access rights
      else (s.drawn 1).walkPage la access rights := by
  simp only [State.walks, Bool.and_eq_true, beq_iff_eq] at hw
  have hpe : s.pe = true := by
    have hon := hw.2
    simp only [State.pagingOn, Bool.and_eq_true] at hon
    exact hon.1
  simp only [State.translate, if_neg (State.mode_ne_real hpe), hw.1, hw.2, if_true, State.pagedTranslate, he, hstale,
    Bool.false_eq_true, if_false]

theorem State.useEntry_eq {s : State} (hpe : s.pe = true) (e : TlbEntry) (la : Dword) (access : Access)
    (rights : Rights) :
    s.useEntry e la access rights =
      if rights = .user ∧ (e.user = false ∨ (access = .write ∧ e.writable = false)) then
        .error (.pageFault (some (faultCode true access rights)) s.eip la)
      else if access = .write ∧ e.dirty = false then s.walkPage la access rights
      else .ok (BitVec.ofNat 32 (e.frame.toNat * 4096 + la.toNat % 4096), s) := by
  rw [State.useEntry, raise, takeException_pf (State.mode_ne_real hpe), frame_append_offset]
  exact if_congr (accessDenied_iff _ _ _ _) rfl rfl

/-- Settles O19: the two entries are named, then each clause is a case of the walk, or of the buffer. -/
theorem pageWalkTranslates : Obligations.PageWalkTranslates := by
  intro s la access rights hcfg hpe hpg pdeAt r1 pde pteAt r2 pte present denied code used holds
  have hw : s.walks = true := by rw [State.walks, hcfg, State.pagingOn, hpe, hpg]; rfl
  have hpdelt : pde < 2 ^ 32 := s.busRead_dword_lt pdeAt
  have hptelt : pte < 2 ^ 32 := r1.2.busRead_dword_lt pteAt
  have hentries : s.readEntries la access rights =
      (walkOf pdeAt (BitVec.ofNat 32 pde) pteAt (BitVec.ofNat 32 pte) la access rights, r2.2) :=
    State.readEntries_eq (pdeAddress_eq s.cr3 la).symm rfl (pteAddress_eq hpdelt la).symm rfl access rights
  have hcode : faultCode false access rights = BitVec.ofNat 32 code ∧
      faultCode true access rights = BitVec.ofNat 32 (code + 1) := ⟨faultCode_eq _ _ _, faultCode_eq _ _ _⟩
  refine ⟨fun hx => ?_, fun habsent => ?_, fun ⟨hpresent, hdenied⟩ => ?_, fun ⟨hpresent, hallowed⟩ => ?_,
    fun hcurrent => ?_, fun e he hstale => ?_⟩
  · have hr1 : r1 = (Memory.item s.mem pdeAt 4, s) := by
      rw [← number_consecutive]
      exact State.busRead_absent hx _
    refine ⟨congrArg Prod.fst hr1, ?_⟩
    rw [← number_consecutive, show pte = (r1.2.busRead (consecutive pteAt 4)).1 from rfl, hr1, State.busRead_absent hx]
  · rw [walkOf_absent habsent, hcode.1] at hentries
    exact State.walkPage_error hpe hentries
  · rw [(walkOf_present hpresent _ _ _ _ _).1 hdenied, hcode.2] at hentries
    exact State.walkPage_error hpe hentries
  · obtain ⟨w, hwalk, hwpde, hwpte, hwpa⟩ := (walkOf_present hpresent pdeAt pteAt la access rights).2 hallowed
    rw [hwalk] at hentries
    have hwalked := State.walkPage_of_entries hentries
    refine ⟨_, by rw [hwalked, hwpa, frame_offset_eq hptelt], State.walkPage_agrees hwalked, ?_, fun hx => ?_⟩
    · simp only [State.markUsed, hwpde, hwpte]
      rfl
    · have hr2 : r2.2 = s := by
        rw [State.readEntries_absent hx, Prod.mk.injEq] at hentries
        exact hentries.2.symm
      rw [hr2, State.markUsed_absent hx]
      refine ⟨rfl, fun hm a => ?_⟩
      rw [← hwpde, ← hwpte]
      exact w.byteAt_mark access s.mem hm a
  · refine State.translate_current hw (fun e he => ?_) access rights
    obtain ⟨hentry, hx⟩ := hcurrent e he
    simp [State.agreesWith, hentry, hx]
  · have hstale : s.agreesWith e = false := by
      rw [← Bool.not_eq_true]
      intro h
      simp only [State.agreesWith, Bool.and_eq_true, beq_iff_eq] at h
      exact hstale h
    have hdrawn : (s.drawn 1).pe = true := hpe
    rw [State.translate_stale hw he hstale, State.useEntry_eq hdrawn, hcode.2]
    dsimp only
    by_cases hdraw : Config.draw 1 s.draws = 1#1
    · rw [if_pos hdraw]
      by_cases hrefused : rights = .user ∧ (e.user = false ∨ (access = .write ∧ e.writable = false))
      · rw [if_pos hrefused, if_neg (by simp [hdraw, hrefused]), if_pos hrefused]
        rfl
      · by_cases hfirst : access = .write ∧ e.dirty = false
        · rw [if_neg hrefused, if_pos hfirst, if_pos (.inr ⟨hrefused, hfirst⟩)]
          rfl
        · rw [if_neg hrefused, if_neg hfirst, if_neg (by simp [hdraw, hfirst]), if_neg hrefused]
          rfl
    · rw [if_neg hdraw, if_pos (.inl hdraw)]
      rfl

end Sys2Proof.Machine
end

section

/-! Selectors, descriptors and the selector test of LAR and LSL (R93 to R98, R211). -/

namespace Sys2Proof.Machine

/-! ## The descriptor that a selector names -/

theorem selTi_iff (sel : Word) : selTi sel = true ↔ sel.toNat / 4 % 2 = 1 := by
  rw [selTi, BitVec.getLsbD, Nat.testBit_eq_decide_div_mod_eq, decide_eq_true_iff]

theorem selOffset_eq (sel : Word) : selOffset sel = sel.toNat / 8 * 8 := by
  have hsel := sel.isLt
  rw [selOffset, BitVec.extractLsb'_toNat, Nat.shiftRight_eq_div_pow]
  omega

/-- The named entry lies in its table (R98). -/
def State.inTable (s : State) (sel : Word) : Prop :=
  (¬ sel.toNat / 4 % 2 = 1 → sel.toNat / 8 * 8 + 7 ≤ s.gdtr.limit.toNat) ∧
  (sel.toNat / 4 % 2 = 1 → s.ldtr.valid = true ∧ sel.toNat / 8 * 8 + 7 ≤ s.ldtr.limit.toNat)

theorem wordLimit_toNat (limit : Word) : (limit.setWidth 32).toNat = limit.toNat :=
  BitVec.toNat_setWidth_of_le (by decide)

theorem State.descAddress_of_inTable {s : State} {sel : Word} (h : s.inTable sel) :
    s.descAddress sel =
      some ((if sel.toNat / 4 % 2 = 1 then s.ldtr.base else s.gdtr.base) + BitVec.ofNat 32 (sel.toNat / 8 * 8)) := by
  obtain ⟨hgdt, hldt⟩ := h
  by_cases hti : sel.toNat / 4 % 2 = 1
  · have hin := hldt hti
    simp [State.descAddress, State.tableOf, (selTi_iff sel).2 hti, hin.1, selOffset_eq, hin.2, hti]
  · have hgdt := hgdt hti
    have hfalse : selTi sel = false := by rw [← Bool.not_eq_true, selTi_iff]; exact hti
    simp [State.descAddress, State.tableOf, hfalse, selOffset_eq, wordLimit_toNat, hgdt, hti, -BitVec.toNat_setWidth]

theorem State.descAddress_of_not_inTable {s : State} {sel : Word} (h : ¬ s.inTable sel) : s.descAddress sel = none := by
  by_cases hti : sel.toNat / 4 % 2 = 1
  · have hout : ¬ (s.ldtr.valid = true ∧ sel.toNat / 8 * 8 + 7 ≤ s.ldtr.limit.toNat) :=
      fun hin => h ⟨fun hgdt => absurd hti hgdt, fun _ => hin⟩
    cases hvalid : s.ldtr.valid
    · simp [State.descAddress, State.tableOf, (selTi_iff sel).2 hti, hvalid]
    · have hlimit : ¬ sel.toNat / 8 * 8 + 7 ≤ s.ldtr.limit.toNat := fun hle => hout ⟨hvalid, hle⟩
      simp [State.descAddress, State.tableOf, (selTi_iff sel).2 hti, hvalid, selOffset_eq, hlimit]
  · have hout : ¬ sel.toNat / 8 * 8 + 7 ≤ s.gdtr.limit.toNat :=
      fun hin => h ⟨fun _ => hin, fun hldt => absurd hldt hti⟩
    have hfalse : selTi sel = false := by rw [← Bool.not_eq_true, selTi_iff]; exact hti
    simp [State.descAddress, State.tableOf, hfalse, selOffset_eq, wordLimit_toNat, hout, -BitVec.toNat_setWidth]

theorem ofNat_dword_toNat {v : Nat} (h : v < 256 ^ 4) : (BitVec.ofNat 32 v).toNat = v := by
  rw [BitVec.toNat_ofNat]
  exact Nat.mod_eq_of_lt h

/-- Settles O21. -/
theorem descriptorFetch : Obligations.DescriptorFetch := by
  intro s sel ldt offset inTable la
  refine ⟨fun hout => ?_, fun hin => ?_⟩
  · rw [State.readDesc, State.descAddress_of_not_inTable hout]
  · have hla : s.descAddress sel = some la := State.descAddress_of_inTable hin
    have hboth (lo s1 hi s2) (hlo : s.linRead la 4 .read .supervisor = .ok (lo, s1))
        (hhi : s1.linRead (la + 4#32) 4 .read .supervisor = .ok (hi, s2)) :
        ∃ d, s.readDesc sel = .ok (some d, s2) ∧ d.la = la ∧ d.lo.toNat = lo ∧ d.hi.toNat = hi := by
      refine ⟨{ lo := BitVec.ofNat 32 lo, hi := BitVec.ofNat 32 hi, la := la },
        by rw [State.readDesc, hla]; simp only [hlo, hhi], rfl, ?_, ?_⟩
      · exact ofNat_dword_toNat (State.linRead_lt hlo)
      · exact ofNat_dword_toNat (State.linRead_lt hhi)
    refine ⟨fun f hlo => ?_, fun lo s1 hlo => ⟨fun f hhi => ?_, fun hi s2 hhi => hboth lo s1 hi s2 hlo hhi⟩,
      fun hq => ?_⟩
    · rw [State.readDesc, hla]
      simp only [hlo]
    · rw [State.readDesc, hla]
      simp only [hlo, hhi]
    · exact hboth _ s _ s (State.linRead_quiet hq _ _ _ _) (State.linRead_quiet hq _ _ _ _)

/-! ## Base and limit -/

theorem Desc.base_toNat (d : Desc) :
    d.base.toNat = d.hi.toNat / 16777216 * 16777216 + d.hi.toNat % 256 * 65536 + d.lo.toNat / 65536 := by
  have hhi := d.hi.isLt
  have hlo := d.lo.isLt
  refine (append_toNat (d.hi.extractLsb' 24 8 ++ d.hi.extractLsb' 0 8) (d.lo.extractLsb' 16 16)).trans ?_
  simp only [append_toNat, BitVec.extractLsb'_toNat, Nat.shiftRight_eq_div_pow]
  omega

theorem Desc.raw_toNat (d : Desc) : d.raw.toNat = d.hi.toNat / 65536 % 16 * 65536 + d.lo.toNat % 65536 := by
  refine (append_toNat (d.hi.extractLsb' 16 4) (d.lo.extractLsb' 0 16)).trans ?_
  simp only [BitVec.extractLsb'_toNat, Nat.shiftRight_eq_div_pow]
  omega

/-- A page-granular limit: the raw limit's pages, to the last byte of the last (R93). -/
theorem pageGranular_toNat (raw : BitVec 20) :
    ((raw.setWidth 32 <<< 12) ||| 0xFFF#32 : Dword).toNat = raw.toNat * 4096 + 4095 := by
  have hraw := raw.isLt
  have hbits : ((raw.setWidth 32 <<< 12) ||| 0xFFF#32 : Dword) = (raw ++ 0xFFF#12 : Dword) := by
    refine BitVec.eq_of_getLsbD_eq fun j hj => ?_
    have hones : ∀ j < 32, (0xFFF#32).getLsbD j = decide (j < 12) := by decide
    have hones' : ∀ j < 12, (0xFFF#12).getLsbD j = true := by decide
    rw [BitVec.getLsbD_or, BitVec.getLsbD_shiftLeft, hones j hj, BitVec.getLsbD_append]
    by_cases h : j < 12
    · simp [h, hones' j h, -BitVec.getLsbD_eq_getElem]
    · simp [h, hj, show j - 12 < 32 by omega, -BitVec.getLsbD_eq_getElem]
  rw [hbits]
  exact append_toNat raw 0xFFF#12

/-- Settles O22. -/
theorem descriptorBaseAndLimit : Obligations.DescriptorBaseAndLimit := by
  intro d raw
  have hraw := d.raw_toNat
  refine ⟨d.base_toNat, ?_⟩
  show d.limit.toNat = if d.hi.getLsbD 23 = true then _ else _
  unfold Desc.limit Desc.granular
  split
  · rw [pageGranular_toNat, hraw]
  · rw [BitVec.toNat_setWidth, hraw, Nat.mod_eq_of_lt]
    omega

/-! ## The selector test -/

theorem Desc.dpl_toNat (d : Desc) : d.dpl.toNat = d.hi.toNat / 8192 % 4 := by
  rw [Desc.dpl, BitVec.extractLsb'_toNat, Nat.shiftRight_eq_div_pow]

theorem selRpl_toNat (sel : Word) : (selRpl sel).toNat = sel.toNat % 4 := by
  rw [selRpl, BitVec.extractLsb'_toNat, Nat.shiftRight_zero]

theorem Desc.type_bit (d : Desc) {j : Nat} (h : j < 4) : d.type.getLsbD j = d.hi.getLsbD (8 + j) := by
  rw [Desc.type, BitVec.getLsbD_extractLsb', decide_eq_true h, Bool.true_and]

theorem Desc.isConforming_iff (d : Desc) :
    d.isConforming = true ↔ d.hi.getLsbD 12 = true ∧ d.hi.getLsbD 11 = true ∧ d.hi.getLsbD 10 = true := by
  rw [Desc.isConforming, Bool.and_eq_true, Bool.and_eq_true, d.type_bit (by decide), d.type_bit (by decide), and_assoc]
  rfl

theorem visible_iff (d : Desc) (cpl : BitVec 2) (sel : Word) :
    visible d cpl (selRpl sel) = true ↔
      (d.hi.getLsbD 12 = true ∧ d.hi.getLsbD 11 = true ∧ d.hi.getLsbD 10 = true) ∨
        (cpl.toNat ≤ d.hi.toNat / 8192 % 4 ∧ sel.toNat % 4 ≤ d.hi.toNat / 8192 % 4) := by
  rw [visible, Bool.or_eq_true, Bool.and_eq_true, decide_eq_true_iff, decide_eq_true_iff, Desc.isConforming_iff,
    Desc.dpl_toNat, selRpl_toNat]

theorem State.query_of_null {s : State} {sel : Word} (h : isNull sel = true) (valid : Bool → BitVec 4 → Bool) :
    s.query sel valid = .ok (none, s) := by
  rw [State.query, if_pos h]

theorem State.query_of_error {s : State} {sel : Word} {f : Fault} (hnull : isNull sel = false)
    (h : s.readDesc sel = .error f) (valid : Bool → BitVec 4 → Bool) : s.query sel valid = .error f := by
  simp only [State.query, hnull, Bool.false_eq_true, if_false, h]

theorem State.query_of_outside {s s1 : State} {sel : Word} (hnull : isNull sel = false)
    (h : s.readDesc sel = .ok (none, s1)) (valid : Bool → BitVec 4 → Bool) : s.query sel valid = .ok (none, s1) := by
  simp only [State.query, hnull, Bool.false_eq_true, if_false, h]

theorem State.query_of_desc {s s1 : State} {sel : Word} {d : Desc} (hnull : isNull sel = false)
    (h : s.readDesc sel = .ok (some d, s1)) (valid : Bool → BitVec 4 → Bool) :
    s.query sel valid =
      .ok (if valid d.s d.type && visible d s.cpl (selRpl sel) then some d else none, s1) := by
  simp only [State.query, hnull, Bool.false_eq_true, if_false, h]
  split <;> rfl

/-- Settles O23. -/
theorem queryDeliversVisibleDescriptors : Obligations.QueryDeliversVisibleDescriptors := by
  intro s sel valid
  refine ⟨fun hlt => State.query_of_null ((isNull_iff_toNat_le_three sel).2 (by omega)) valid, fun hge => ?_⟩
  have hnull := isNull_eq_false_of_four_le hge
  refine ⟨fun f h => State.query_of_error hnull h valid, fun hq => ⟨_, State.readDesc_quiet hq sel⟩, fun r s1 h => ?_⟩
  cases r with
  | none => exact ⟨none, State.query_of_outside hnull h valid, by simp⟩
  | some d' =>
    refine ⟨_, State.query_of_desc hnull h valid, fun d => ?_⟩
    have hpasses : (valid d'.s d'.type && visible d' s.cpl (selRpl sel)) = true ↔
        valid d'.s d'.type = true ∧
          ((d'.hi.getLsbD 12 = true ∧ d'.hi.getLsbD 11 = true ∧ d'.hi.getLsbD 10 = true) ∨
            (s.cpl.toNat ≤ d'.hi.toNat / 8192 % 4 ∧ sel.toNat % 4 ≤ d'.hi.toNat / 8192 % 4)) := by
      rw [Bool.and_eq_true, visible_iff]
    constructor
    · intro hq
      split at hq
      · rename_i hpass
        cases hq
        exact ⟨rfl, hpasses.1 hpass⟩
      · cases hq
    · rintro ⟨hd, hvalid, hvisible⟩
      cases hd
      exact if_pos (hpasses.2 ⟨hvalid, hvisible⟩)

end Sys2Proof.Machine
end

section

/-! LEAVE (R240 to R242). -/

namespace Sys2Proof.Machine

/-! ## States that differ in the general registers only -/

/-- `t` is `s` but for the general registers. -/
def OnlyGpr (s t : State) : Prop := t = { s with gpr := t.gpr }

theorem OnlyGpr.refl (s : State) : OnlyGpr s s := rfl

theorem OnlyGpr.setRegN {s t : State} (h : OnlyGpr s t) (n : Size) (r : Gpr) (v : Dword) :
    OnlyGpr s (t.setRegN n r v) :=
  (t.setRegN_only_gpr n r v).trans (congrArg (fun x : State => { x with gpr := (t.setRegN n r v).gpr }) h)

theorem OnlyGpr.setAccumulator {s t : State} (h : OnlyGpr s t) (w : LodsWidth) (v : Nat) :
    OnlyGpr s (t.setAccumulator w v) :=
  (t.setAccumulator_only_gpr w v).trans (congrArg (fun x : State => { x with gpr := (t.setAccumulator w v).gpr }) h)

/-- The program counter moved past an instruction, counted from the state before its reads. -/
theorem OnlyGpr.retire {s s1 t : State} (h : OnlyGpr s1 t) (hag : AgreeButAccess s s1) (i : Instr) :
    t.retire i = { s1 with gpr := (t.retire i).gpr, eip := s.eip + BitVec.ofNat 32 i.length } := by
  rw [← hag.eip]
  exact congrArg (State.retire · i) h

theorem AgreeButAccess.reg32 {s t : State} (h : AgreeButAccess s t) (r : Gpr) : t.reg32 r = s.reg32 r := by
  rw [State.reg32, State.reg32, h.gpr]

/-- A register's low bits, as the number of an offset. -/
theorem State.regN_eq_ofNat (s : State) (n : Size) (r : Gpr) :
    s.regN n r = BitVec.ofNat 32 ((s.reg32 r).toNat % sizeModulus n) := by
  apply BitVec.eq_of_toNat_eq
  have h := (s.reg32 r).isLt
  rw [State.regN_toNat, BitVec.toNat_ofNat, Nat.mod_eq_of_lt (lt_of_le_of_lt (Nat.mod_le _ _) h)]

/-! ## LEAVE -/

theorem passesFFFF_iff (a : Size) (off : Dword) (n : Nat) :
    passesFFFF a off n = true ↔ a = .w16 ∧ 65536 < off.toNat + n := by
  rw [passesFFFF, Bool.and_eq_true, beq_iff_eq, decide_eq_true_iff]

theorem leaveFrame_passes {s : State} {n : Size}
    (h : passesFFFF s.stackAddrSize (s.regN s.stackAddrSize .ebp) n.bytes = true) (i : Instr) :
    leaveFrame i n s = .error (takeException s (s.segFault .ss)) := by
  simp only [leaveFrame, State.popAt, State.segReadTo, h, if_true, raise]

theorem leaveFrame_reads_ok {s s1 : State} {n : Size} {v : Nat}
    (hpass : passesFFFF s.stackAddrSize (s.regN s.stackAddrSize .ebp) n.bytes = false)
    (hread : s.segRead .ss (s.regN s.stackAddrSize .ebp) n.bytes = .ok (v, s1)) (i : Instr) :
    leaveFrame i n s =
      .ok (((s1.setRegN s.stackAddrSize .esp (s.regN s.stackAddrSize .ebp + BitVec.ofNat 32 n.bytes)).setRegN n .ebp
        (BitVec.ofNat 32 v)).retire i) := by
  simp only [leaveFrame, State.popAt, State.segReadTo, hpass, Bool.false_eq_true, if_false, hread]

theorem leaveFrame_reads_error {s : State} {n : Size} {f : Fault}
    (hpass : passesFFFF s.stackAddrSize (s.regN s.stackAddrSize .ebp) n.bytes = false)
    (hread : s.segRead .ss (s.regN s.stackAddrSize .ebp) n.bytes = .error f) (i : Instr) :
    leaveFrame i n s = .error f := by
  simp only [leaveFrame, State.popAt, State.segReadTo, hpass, Bool.false_eq_true, if_false, hread]

/-- The two LEAVE are one body at two operand sizes. -/
theorem exec_leave {p : Prefixes} {i : Instr} {w : Nat}
    (h : (i, w) ∈ ([(.leave16 p, 2), (.leave32 p, 4)] : List (Instr × Nat))) (s : State) :
    ∃ n : Size, w = n.bytes ∧ exec i s = settle (leaveFrame i n s) := by
  simp only [List.mem_cons, Prod.mk.injEq, List.not_mem_nil, or_false] at h
  rcases h with ⟨rfl, rfl⟩ | ⟨rfl, rfl⟩
  · exact ⟨.w16, rfl, rfl⟩
  · exact ⟨.w32, rfl, rfl⟩

/-- R45's condition for a stack address size of 32. -/
def State.bigStack (s : State) : Prop :=
  s.seg.ss.ar.getLsbD 10 = true ∧ (s.mode = .prot ∨ (s.mode = .real ∧ s.cfg.realStackByB = true))

theorem State.stackAddrSize_of_big {s : State} (h : s.bigStack) : s.stackAddrSize = .w32 := if_pos h

theorem State.stackAddrSize_of_not_big {s : State} (h : ¬ s.bigStack) : s.stackAddrSize = .w16 := if_neg h

theorem size_bytes_lt (n : Size) : 256 ^ n.bytes = sizeModulus n := by cases n <;> rfl

theorem sizeModulus_dvd (n : Size) : sizeModulus n ∣ 2 ^ 32 := by cases n <;> decide

theorem ofNat_bytes_toNat (n : Size) : (BitVec.ofNat 32 n.bytes).toNat = n.bytes := by cases n <;> rfl

/-- Settles O26. -/
theorem leaveReleasesTheFrame : Obligations.LeaveReleasesTheFrame := by
  rintro p s ⟨i, w⟩ hiw big size frame passes stackVector code
  obtain ⟨n, rfl, hexec⟩ := exec_leave hiw s
  have hsize : size = sizeModulus s.stackAddrSize := by
    by_cases h : big
    · rw [State.stackAddrSize_of_big h]
      exact if_pos h
    · rw [State.stackAddrSize_of_not_big h]
      exact if_neg h
  have hframe : s.regN s.stackAddrSize .ebp = BitVec.ofNat 32 frame := by
    rw [State.regN_eq_ofNat, ← hsize]
  have hframeNat : (s.regN s.stackAddrSize .ebp).toNat = frame := by rw [State.regN_toNat, ← hsize]
  have hpasses : passesFFFF s.stackAddrSize (s.regN s.stackAddrSize .ebp) n.bytes = true ↔ passes := by
    rw [passesFFFF_iff, hframeNat]
    refine and_congr_left fun _ => ⟨fun h hbig => ?_, State.stackAddrSize_of_not_big⟩
    rw [State.stackAddrSize_of_big hbig] at h
    cases h
  rw [hexec]
  refine ⟨fun h => ?_, fun h v s1 hread => ?_, fun h f hread => ?_⟩
  · rw [leaveFrame_passes (hpasses.2 h), takeException_segFault]
    simp only [true_and]
    rfl
  · have hag := State.segRead_agrees hread
    rw [← hframe] at hread
    rw [leaveFrame_reads_ok (Bool.eq_false_of_not_eq_true (mt hpasses.1 h)) hread]
    refine ⟨_, rfl, (((OnlyGpr.refl s1).setRegN _ _ _).setRegN _ _ _).retire hag i, fun r hesp hebp => ?_, ?_, ?_⟩
    · rw [State.reg32_retire, State.reg32_setRegN_other _ _ _ _ _ hebp, State.reg32_setRegN_other _ _ _ _ _ hesp,
        hag.reg32]
    · rw [State.reg32_retire, State.reg32_setRegN_other _ _ _ _ _ (by decide), State.setRegN_toNat, hag.reg32, ← hsize,
        BitVec.toNat_add, hframeNat, ofNat_bytes_toNat, hsize, Nat.mod_mod_of_dvd _ (sizeModulus_dvd _)]
    · have hv := State.segRead_lt hread
      rw [State.reg32_retire, State.setRegN_toNat, State.reg32_setRegN_other _ _ _ _ _ (by decide), hag.reg32]
      rw [size_bytes_lt] at hv
      have := (s.reg32 .ebp).isLt
      cases n <;> simp [sizeModulus, Size.bytes] at hv ⊢ <;> omega
  · rw [← hframe] at hread
    rw [leaveFrame_reads_error (Bool.eq_false_of_not_eq_true (mt hpasses.1 h)) hread]
    rfl

end Sys2Proof.Machine
end

section

/-! LODS and REP LODS (R350 to R355). -/

namespace Sys2Proof.Machine

/-! ## Equations of the body -/

/-- What one LODS leaves of the registers, given the number it read. -/
def lodsResult (w : LodsWidth) (a : Size) (s s1 : State) (v : Nat) : State :=
  (s1.setAccumulator w v).setRegN a .esi (advanceIndex s.df w (s.regN a .esi))

section

variable {i : Instr} {w : LodsWidth} {p : Prefixes} {s s1 : State} {v : Nat} {f : Fault}

theorem lodsOnce_of_read (h : s.segRead (segmentOr p .ds) (s.regN (p.addressSize s.dflt) .esi) w.bytes = .ok (v, s1)) :
    lodsOnce w p s = .ok (lodsResult w (p.addressSize s.dflt) s s1 v) := by
  simp only [lodsOnce, h, lodsResult]

theorem lodsOnce_of_fault (h : s.segRead (segmentOr p .ds) (s.regN (p.addressSize s.dflt) .esi) w.bytes = .error f) :
    lodsOnce w p s = .error f := by
  simp only [lodsOnce, h]

theorem loadString_once {t : State} (h : lodsOnce w p s = .ok t) : loadString i w p false s = .ok (t.retire i) := by
  simp only [loadString, Bool.false_eq_true, if_false, h]

theorem loadString_once_raises (h : lodsOnce w p s = .error f) : loadString i w p false s = .error f := by
  simp only [loadString, Bool.false_eq_true, if_false, h]

theorem loadString_done (h : s.regN (p.addressSize s.dflt) .ecx = 0#32) :
    loadString i w p true s = .ok (s.retire i) := by
  simp only [loadString, if_true, h]

/-- One iteration: the count drops by 1, and the program counter moves on when it reaches 0. -/
theorem loadString_iterates {t : State} (hcount : s.regN (p.addressSize s.dflt) .ecx ≠ 0#32)
    (h : lodsOnce w p s = .ok t) :
    loadString i w p true s =
      .ok (if s.regN (p.addressSize s.dflt) .ecx - 1#32 = 0#32 then
        (t.setRegN (p.addressSize s.dflt) .ecx (s.regN (p.addressSize s.dflt) .ecx - 1#32)).retire i
      else t.setRegN (p.addressSize s.dflt) .ecx (s.regN (p.addressSize s.dflt) .ecx - 1#32)) := by
  simp only [loadString, if_true, hcount, if_false, h]
  split
  · rename_i hlast
    rw [hlast]
  · rfl

theorem loadString_iterates_raises (hcount : s.regN (p.addressSize s.dflt) .ecx ≠ 0#32) (h : lodsOnce w p s = .error f) :
    loadString i w p true s = .error f := by
  simp only [loadString, if_true, hcount, if_false, h]

end

/-- The three LODS are one body at three widths. -/
theorem exec_lods {p : Prefixes} {rep : Bool} {i : Instr} {n : Nat}
    (h : (i, n) ∈ ([(.lodsb p rep, 1), (.lodsw p rep, 2), (.lodsd p rep, 4)] : List (Instr × Nat))) (s : State) :
    ∃ w : LodsWidth, n = w.bytes ∧ exec i s = settle (loadString i w p rep s) := by
  simp only [List.mem_cons, Prod.mk.injEq, List.not_mem_nil, or_false] at h
  rcases h with ⟨rfl, rfl⟩ | ⟨rfl, rfl⟩ | ⟨rfl, rfl⟩
  · exact ⟨.byte, rfl, rfl⟩
  · exact ⟨.word, rfl, rfl⟩
  · exact ⟨.dword, rfl, rfl⟩

/-! ## What one load leaves -/

theorem advanceIndex_value (df : Bool) (w : LodsWidth) (a : Size) (index : Dword) :
    (((advanceIndex df w index).toNat % sizeModulus a : Nat) : Int) =
      (if df then (index.toNat : Int) - (w.bytes : Int) else (index.toNat : Int) + (w.bytes : Int)) %
        (sizeModulus a : Int) := by
  have hindex := index.isLt
  have hbytes : (BitVec.ofNat 32 w.bytes).toNat = w.bytes := by cases w <;> rfl
  have hle : w.bytes ≤ 4 := by cases w <;> decide
  cases df
  · simp only [advanceIndex, Bool.false_eq_true, if_false, BitVec.toNat_add, hbytes]
    cases a <;> simp only [sizeModulus, if_true, reduceCtorEq, if_false] <;> omega
  · simp only [advanceIndex, if_true, BitVec.toNat_sub, hbytes]
    cases a <;> simp only [sizeModulus, if_true, reduceCtorEq, if_false] <;> omega

section

variable {w : LodsWidth} {a : Size} {s s1 : State} {v : Nat}

theorem lodsResult_onlyGpr (w : LodsWidth) (a : Size) (s s1 : State) (v : Nat) :
    OnlyGpr s1 (lodsResult w a s s1 v) :=
  ((OnlyGpr.refl s1).setAccumulator w v).setRegN _ _ _

theorem lodsResult_other (hag : AgreeButAccess s s1) {r : Gpr} (heax : r ≠ .eax) (hesi : r ≠ .esi) :
    (lodsResult w a s s1 v).reg32 r = s.reg32 r := by
  rw [lodsResult, State.reg32_setRegN_other _ _ _ _ _ hesi, State.reg32_setAccumulator_other _ _ _ _ heax, hag.reg32]

theorem lodsResult_eax (hag : AgreeButAccess s s1) (hv : v < 256 ^ w.bytes) :
    ((lodsResult w a s s1 v).reg32 .eax).toNat =
      (s.reg32 .eax).toNat / 2 ^ (8 * w.bytes) * 2 ^ (8 * w.bytes) + v := by
  rw [lodsResult, State.reg32_setRegN_other _ _ _ _ _ (by decide), State.setAccumulator_toNat _ _ _ hv, hag.reg32]

theorem lodsResult_esi (hag : AgreeButAccess s s1) :
    (((lodsResult w a s s1 v).reg32 .esi).toNat : Int) =
      (((s.reg32 .esi).toNat / sizeModulus a * sizeModulus a : Nat) : Int) +
        (if s.df then (((s.reg32 .esi).toNat % sizeModulus a : Nat) : Int) - (w.bytes : Int)
          else (((s.reg32 .esi).toNat % sizeModulus a : Nat) : Int) + (w.bytes : Int)) % (sizeModulus a : Int) := by
  rw [lodsResult, State.setRegN_toNat, State.reg32_setAccumulator_other _ _ _ _ (by decide), hag.reg32, Nat.cast_add,
    advanceIndex_value, State.regN_toNat]

end

/-- Settles O27. -/
theorem lodsLoadsAndSteps : Obligations.LodsLoadsAndSteps := by
  rintro p s ⟨i, n⟩ hin size index moved
  obtain ⟨w, rfl, hexec⟩ := exec_lods hin s
  have hindex : s.regN (p.addressSize s.dflt) .esi = BitVec.ofNat 32 index := State.regN_eq_ofNat _ _ _
  rw [hexec]
  refine ⟨fun v s1 hread => ?_, fun f hread => ?_⟩
  · have hag := State.segRead_agrees hread
    have hv := State.segRead_lt hread
    rw [← hindex] at hread
    rw [loadString_once (lodsOnce_of_read hread)]
    exact ⟨_, rfl, (lodsResult_onlyGpr _ _ _ _ _).retire hag i, fun r heax hesi => lodsResult_other hag heax hesi,
      lodsResult_eax hag hv, lodsResult_esi hag⟩
  · rw [← hindex] at hread
    rw [loadString_once_raises (lodsOnce_of_fault hread)]
    rfl

/-- The count of one iteration: it drops by 1 in its 16 or 32 bits. -/
theorem count_down_toNat {s t : State} {a : Size} (hecx : t.reg32 .ecx = s.reg32 .ecx)
    (h : 0 < (s.regN a .ecx).toNat) :
    ((t.setRegN a .ecx (s.regN a .ecx - 1#32)).reg32 .ecx).toNat + 1 = (s.reg32 .ecx).toNat := by
  have hlt := (s.reg32 .ecx).isLt
  rw [State.regN_toNat] at h
  rw [State.setRegN_toNat, hecx, BitVec.toNat_sub, State.regN_toNat, BitVec.toNat_ofNat]
  cases a <;> simp only [sizeModulus, if_true, reduceCtorEq, if_false] at h ⊢ <;> omega

theorem State.reg32_retireIf (c : Prop) [Decidable c] (u : State) (i : Instr) (r : Gpr) :
    (if c then u.retire i else u).reg32 r = u.reg32 r := by
  split <;> rfl

theorem State.retireIf_frame {s s1 u : State} (h : OnlyGpr s1 u) (hag : AgreeButAccess s s1) (c : Prop) [Decidable c]
    (i : Instr) :
    (if c then u.retire i else u) =
      { s1 with gpr := (if c then u.retire i else u).gpr
                eip := if c then s.eip + BitVec.ofNat 32 i.length else s.eip } := by
  split
  · exact h.retire hag i
  · rw [← hag.eip]
    exact h

/-- Settles O28. -/
theorem repLodsIteratesOnce : Obligations.RepLodsIteratesOnce := by
  rintro p s ⟨i, n⟩ hin size index count moved next
  obtain ⟨w, rfl, hexec⟩ := exec_lods hin s
  have hindex : s.regN (p.addressSize s.dflt) .esi = BitVec.ofNat 32 index := State.regN_eq_ofNat _ _ _
  have hcountNat : (s.regN (p.addressSize s.dflt) .ecx).toNat = count := State.regN_toNat _ _ _
  have hzero (h : 0 < count) : s.regN (p.addressSize s.dflt) .ecx ≠ 0#32 := by
    intro hc
    rw [hc] at hcountNat
    simp at hcountNat
    omega
  rw [hexec]
  refine ⟨fun h => ?_, fun h v s1 hread => ?_, fun h f hread => ?_⟩
  · rw [loadString_done (BitVec.eq_of_toNat_eq (hcountNat.trans h))]
    rfl
  · have hag := State.segRead_agrees hread
    have hv := State.segRead_lt hread
    rw [← hindex] at hread
    rw [loadString_iterates (hzero h) (lodsOnce_of_read hread)]
    have hlast : s.regN (p.addressSize s.dflt) .ecx - 1#32 = 0#32 ↔ count = 1 := by
      rw [← hcountNat]
      bv_omega
    have hcountdown := count_down_toNat (t := lodsResult w (p.addressSize s.dflt) s s1 v)
      (lodsResult_other hag (by decide) (by decide)) (hcountNat ▸ h)
    refine ⟨_, rfl, ?_, fun r heax hesi hecx => ?_, ?_, ?_, ?_⟩
    · rw [State.retireIf_frame ((lodsResult_onlyGpr _ _ _ _ _).setRegN _ _ _) hag]
      simp only [hlast]
      rfl
    · rw [State.reg32_retireIf, State.reg32_setRegN_other _ _ _ _ _ hecx, lodsResult_other hag heax hesi]
    · rw [State.reg32_retireIf, State.reg32_setRegN_other _ _ _ _ _ (by decide), lodsResult_eax hag hv]
    · rw [State.reg32_retireIf, State.reg32_setRegN_other _ _ _ _ _ (by decide)]
      exact lodsResult_esi hag
    · rw [State.reg32_retireIf]
      exact hcountdown
  · rw [← hindex] at hread
    rw [loadString_iterates_raises (hzero h) (lodsOnce_of_fault hread)]
    rfl

end Sys2Proof.Machine
end

section

/-! The net effect of REP LODSB (R355), by induction on the count. -/

namespace Sys2Proof.Machine

/-! ## Quiet states that differ in the general registers only -/

theorem OnlyGpr.quiet {s t : State} (h : OnlyGpr s t) : t.quiet = s.quiet := by rw [h]; rfl
theorem OnlyGpr.dflt {s t : State} (h : OnlyGpr s t) : t.dflt = s.dflt := by rw [h]; rfl
theorem OnlyGpr.eflags {s t : State} (h : OnlyGpr s t) : t.eflags = s.eflags := by rw [h]
theorem OnlyGpr.eip {s t : State} (h : OnlyGpr s t) : t.eip = s.eip := by rw [h]
theorem OnlyGpr.mem {s t : State} (h : OnlyGpr s t) : t.mem = s.mem := by rw [h]
theorem OnlyGpr.seg {s t : State} (h : OnlyGpr s t) : t.seg = s.seg := by rw [h]

theorem OnlyGpr.segOk {s t : State} (h : OnlyGpr s t) (k : SegReg) (off : Dword) (n : Nat) :
    t.segOk k off n = s.segOk k off n := by
  rw [h]
  rfl

/-- In a quiet state a read inside the segment answers what stands there, and changes nothing. -/
theorem State.segRead_of_segOk {s : State} (hq : s.quiet = true) {k : SegReg} {off : Dword} {n : Nat}
    (h : s.segOk k off n = true) :
    s.segRead k off n = .ok (Memory.item s.mem ((s.seg.get k).base + off) n, s) :=
  (if_pos h).trans (State.linRead_quiet hq _ _ _ _)

/-! ## One iteration -/

/-- The offset of the `j`th byte that a repeated LODSB reads, with a 16-bit address. -/
def State.lodsbOffset (s : State) (j : Nat) : Dword :=
  BitVec.ofInt 32 (((s.reg32 .esi).toNat + (if s.eflags.getLsbD 10 then -(j : Int) else j)) % 65536)

theorem State.lodsbOffset_toNat (s : State) (j : Nat) :
    ((s.lodsbOffset j).toNat : Int) =
      ((s.reg32 .esi).toNat + (if s.eflags.getLsbD 10 then -(j : Int) else j)) % 65536 := by
  rw [State.lodsbOffset, BitVec.toNat_ofInt]
  omega

/-- What one iteration leaves, in the terms of the net effect. -/
structure LodsbStep (p : Prefixes) (s t : State) : Prop where
  run : exec (.lodsb p true) s = .next t
  frame : t = { s with
    gpr := t.gpr
    eip := if (s.reg32 .ecx).toNat % 65536 = 1 then s.eip + BitVec.ofNat 32 (Instr.lodsb p true).length else s.eip }
  other : ∀ r, r ≠ .eax → r ≠ .esi → r ≠ .ecx → t.reg32 r = s.reg32 r
  eax : (t.reg32 .eax).toNat = (s.reg32 .eax).toNat / 256 * 256 +
    (Memory.byteAt s.mem ((s.seg.get (p.seg.getD .ds)).base + s.lodsbOffset 0)).toNat
  esi : (t.reg32 .esi).toNat = (s.reg32 .esi).toNat / 65536 * 65536 + (s.lodsbOffset 1).toNat
  ecx : (t.reg32 .ecx).toNat + 1 = (s.reg32 .ecx).toNat

theorem lodsb_iterates {p : Prefixes} {s : State} (hq : s.quiet = true) (ha : p.addressSize s.dflt = .w16)
    (hcount : 0 < (s.reg32 .ecx).toNat % 65536) (hok : s.segOk (p.seg.getD .ds) (s.lodsbOffset 0) 1 = true) :
    ∃ t, LodsbStep p s t := by
  have hoffset : s.lodsbOffset 0 = BitVec.ofNat 32 ((s.reg32 .esi).toNat % 65536) := by
    apply BitVec.eq_of_toNat_eq
    have h := s.lodsbOffset_toNat 0
    rw [BitVec.toNat_ofNat]
    split at h <;> omega
  have hiter := repLodsIteratesOnce p s (.lodsb p true, 1) (by simp)
  rw [if_pos ha] at hiter
  have hread := State.segRead_of_segOk hq hok
  have hnext := (hiter.2.1 hcount)
  rw [← hoffset] at hnext
  obtain ⟨t, hrun, hframe, hother, heax, hesi, hecx⟩ := hnext _ _ hread
  refine ⟨t, hrun, hframe, hother, by simpa [Memory.item] using heax, ?_, hecx⟩
  have h := s.lodsbOffset_toNat 1
  cases hdf : s.eflags.getLsbD 10 <;> rw [hdf] at h hesi <;>
    simp only [Bool.false_eq_true, if_false, if_true] at h hesi <;> omega

/-- After an iteration the bytes to come are those after the first. -/
theorem LodsbStep.lodsbOffset {p : Prefixes} {s t : State} (h : LodsbStep p s t) (j : Nat) :
    t.lodsbOffset j = s.lodsbOffset (j + 1) := by
  apply BitVec.eq_of_toNat_eq
  have hflags : t.eflags = s.eflags := by rw [h.frame]
  have hesi := h.esi
  have h1 := s.lodsbOffset_toNat 1
  have hsucc := s.lodsbOffset_toNat (j + 1)
  have hthis := t.lodsbOffset_toNat j
  rw [hflags] at hthis
  cases hdf : s.eflags.getLsbD 10 <;> rw [hdf] at h1 hsucc hthis <;>
    simp only [Bool.false_eq_true, if_false, if_true] at h1 hsucc hthis <;> omega

theorem execTimes_succ {i : Instr} {n : Nat} {s t : State} (h : exec i s = .next t) :
    execTimes i (n + 1) s = execTimes i n t := by
  simp only [execTimes, h]

/-- A part below a block does not change its multiple. -/
theorem block_add_div {m b : Nat} (hb : b < m) (a : Nat) : (a / m * m + b) / m * m = a / m * m := by
  rw [Nat.mul_comm (a / m) m, Nat.mul_add_div (by omega), Nat.div_eq_of_lt hb, Nat.add_zero, Nat.mul_comm]

/-- Settles O29. -/
theorem repLodsbNetEffect : Obligations.RepLodsbNetEffect := by
  intro p n
  induction n with
  | zero => exact fun s _ _ h => absurd h (Nat.lt_irrefl 0)
  | succ n ih =>
    intro s hq ha _ hcount at_ hall
    have hok (j : Nat) (hj : j < n + 1) : s.segOk (p.seg.getD .ds) (s.lodsbOffset j) 1 = true := by
      obtain ⟨v, hread⟩ := hall j hj
      exact (State.segRead_ok hread).1
    obtain ⟨t, hstep⟩ := lodsb_iterates hq ha (by omega) (hok 0 (by omega))
    have hecx := hstep.ecx
    have hframe := hstep.frame
    cases n with
    | zero =>
      rw [if_pos hcount] at hframe
      refine ⟨t, (execTimes_succ hstep.run).trans rfl, hframe, hstep.other, hstep.eax, hstep.esi, by omega⟩
    | succ n =>
      rw [if_neg (by omega)] at hframe
      have honly : OnlyGpr s t := hframe
      have hreads (j : Nat) (hj : j < n + 1) :
          ∃ v, t.segRead (p.seg.getD .ds) (t.lodsbOffset j) 1 = .ok (v, t) := by
        rw [hstep.lodsbOffset]
        exact ⟨_, State.segRead_of_segOk (honly.quiet.trans hq) ((honly.segOk _ _ _).trans (hok (j + 1) (by omega)))⟩
      obtain ⟨u, hrun, huframe, huother, hueax, huesi, huecx⟩ :=
        ih t (honly.quiet.trans hq) (honly.dflt ▸ ha) (by omega) (by omega) hreads
      replace hueax : (u.reg32 .eax).toNat = (t.reg32 .eax).toNat / 256 * 256 +
        (Memory.byteAt t.mem ((t.seg.get (p.seg.getD .ds)).base + t.lodsbOffset n)).toNat := hueax
      replace huesi : (u.reg32 .esi).toNat =
        (t.reg32 .esi).toNat / 65536 * 65536 + (t.lodsbOffset (n + 1)).toNat := huesi
      rw [honly.mem, honly.seg, hstep.lodsbOffset] at hueax
      rw [hstep.lodsbOffset] at huesi
      have hteax := hstep.eax
      have htesi := hstep.esi
      have hbyte := (Memory.byteAt s.mem ((s.seg.get (p.seg.getD .ds)).base + s.lodsbOffset 0)).isLt
      have hoffset := s.lodsbOffset_toNat 1
      have hoffsetLt : (s.lodsbOffset 1).toNat < 65536 := by
        rw [← Int.ofNat_lt, hoffset]
        exact Int.emod_lt_of_pos _ (by decide)
      refine ⟨u, (execTimes_succ hstep.run).trans hrun, ?_, fun r heax hesi hecx => ?_, ?_, ?_, ?_⟩
      · rw [huframe, honly]
      · rw [huother r heax hesi hecx, hstep.other r heax hesi hecx]
      · rw [hueax, hteax, block_add_div hbyte]
        rfl
      · rw [huesi, htesi, block_add_div hoffsetLt]
        rfl
      · rw [huecx]
        clear hueax huesi hteax htesi
        omega

end Sys2Proof.Machine
end

section

/-! LOOP, LOOPE and LOOPNE (R360 to R363). -/

namespace Sys2Proof.Machine

section

variable {i : Instr} {p : Prefixes} {rel8 : Byte} {cond : Dword → Bool → Bool} {s : State}

theorem loopStep_beyond (hcond : cond (s.countDown (p.addressSize s.dflt)) s.zf = true)
    (hbeyond : s.targetRefused (loopTarget (p.operandSize s.dflt) (s.nextPc i) rel8) = true) :
    loopStep i p rel8 cond s = .error (takeException s (.gp 0#32)) := by
  simp only [loopStep, hcond, if_true, hbeyond, raise]

theorem loopStep_taken (hcond : cond (s.countDown (p.addressSize s.dflt)) s.zf = true)
    (hwithin : s.targetRefused (loopTarget (p.operandSize s.dflt) (s.nextPc i) rel8) = false) :
    loopStep i p rel8 cond s =
      .ok ((s.setRegN (p.addressSize s.dflt) .ecx (s.countDown (p.addressSize s.dflt))).setEip
        (loopTarget (p.operandSize s.dflt) (s.nextPc i) rel8)) := by
  simp only [loopStep, hcond, if_true, hwithin, Bool.false_eq_true, if_false]

theorem loopStep_falls (hcond : cond (s.countDown (p.addressSize s.dflt)) s.zf = false) :
    loopStep i p rel8 cond s =
      .ok ((s.setRegN (p.addressSize s.dflt) .ecx (s.countDown (p.addressSize s.dflt))).retire i) := by
  simp only [loopStep, hcond, Bool.false_eq_true, if_false]

end

/-- The count, as a number of 16 or 32 bits. -/
theorem State.countDown_value (s : State) (a : Size) :
    ((s.countDown a).toNat : Int) =
      ((((s.reg32 .ecx).toNat % sizeModulus a : Nat) : Int) - 1) % (sizeModulus a : Int) := by
  have hecx := (s.reg32 .ecx).isLt
  cases a
  · simp only [State.countDown, BitVec.toNat_setWidth, BitVec.toNat_sub, State.reg16, lowWord_toNat, BitVec.toNat_ofNat,
      sizeModulus, if_true]
    omega
  · simp only [State.countDown, BitVec.toNat_sub, BitVec.toNat_ofNat, sizeModulus, reduceCtorEq, if_false]
    omega

theorem State.countDown_lt (s : State) (a : Size) : (s.countDown a).toNat < sizeModulus a := by
  rw [← Int.ofNat_lt, s.countDown_value]
  exact Int.emod_lt_of_pos _ (by cases a <;> decide)

/-- The target, as a number. -/
theorem loopTarget_value (osz : Size) (next : Dword) (rel8 : Byte) :
    ((loopTarget osz next rel8).toNat : Int) =
      if osz = .w16 then ((next.toNat % 65536 : Nat) + rel8.toInt) % 65536
      else (next.toNat + rel8.toInt) % 4294967296 := by
  cases osz
  · have h := signExtend_word_toNat rel8
    rw [if_pos rfl]
    simp only [loopTarget, BitVec.toNat_setWidth, BitVec.toNat_add, lowWord_toNat]
    omega
  · have h := signExtend_dword_toNat rel8
    simp only [loopTarget, BitVec.toNat_add, reduceCtorEq, if_false]
    omega

/-- The three LOOP are one body: the branch asks for a count that is not 0, and for the flag. -/
theorem exec_loop {p : Prefixes} {rel8 : Byte} {s : State} {i : Instr} {flag : Bool}
    (h : (i, flag) ∈ [(Instr.loop p rel8, true), (Instr.loope p rel8, s.eflags.getLsbD 6),
      (Instr.loopne p rel8, !s.eflags.getLsbD 6)]) :
    i.length = (Instr.loop p rel8).length ∧
      ∃ cond : Dword → Bool → Bool, (∀ count, cond count s.zf = (flag && count != 0#32)) ∧
        exec i s = settle (loopStep i p rel8 cond s) := by
  simp only [List.mem_cons, Prod.mk.injEq, List.not_mem_nil, or_false] at h
  rcases h with ⟨rfl, rfl⟩ | ⟨rfl, rfl⟩ | ⟨rfl, rfl⟩
  · exact ⟨rfl, _, fun count => (Bool.true_and _).symm, rfl⟩
  · exact ⟨rfl, _, fun count => rfl, rfl⟩
  · exact ⟨rfl, _, fun count => rfl, rfl⟩

theorem State.targetRefused_iff (s : State) (target : Dword) :
    s.targetRefused target = true ↔
      s.seg.cs.limit.toNat < target.toNat ∧ (s.mode = .prot ∨ s.cfg.loopLimitCheckReal = true) := by
  rw [State.targetRefused, Bool.and_eq_true, Bool.or_eq_true, decide_eq_true_iff, beq_iff_eq]

theorem ofInt_of_toNat {d : Dword} {x : Int} (h : (d.toNat : Int) = x) : BitVec.ofInt 32 x = d := by
  rw [← h, BitVec.ofInt_natCast, BitVec.ofNat_toNat, BitVec.setWidth_eq]

/-- Settles O30. -/
theorem loopCountsAndBranches : Obligations.LoopCountsAndBranches := by
  rintro p rel8 s ⟨i, flag⟩ hi size count next target taken beyond
  obtain ⟨hlen, cond, hcond, hexec⟩ := exec_loop hi
  have hnext : s.nextPc i = next := by rw [State.nextPc, hlen]
  have hcount : ((s.countDown (p.addressSize s.dflt)).toNat : Int) = count := s.countDown_value _
  have htarget : ((loopTarget (p.operandSize s.dflt) next rel8).toNat : Int) = target := loopTarget_value _ _ _
  have htaken : cond (s.countDown (p.addressSize s.dflt)) s.zf = true ↔ taken := by
    rw [hcond, Bool.and_eq_true, bne_iff_ne, ne_eq, ← BitVec.toNat_inj, and_comm]
    refine and_congr_left fun _ => not_congr ?_
    rw [← hcount, BitVec.toNat_ofNat]
    omega
  have hbeyond : s.targetRefused (loopTarget (p.operandSize s.dflt) (s.nextPc i) rel8) = true ↔ beyond := by
    rw [State.targetRefused_iff, hnext, ← Int.ofNat_lt, htarget]
  have hecx (t : State) (ht : t.gpr = (s.setRegN (p.addressSize s.dflt) .ecx (s.countDown (p.addressSize s.dflt))).gpr) :
      (∀ r, r ≠ .ecx → t.reg32 r = s.reg32 r) ∧
        ((t.reg32 .ecx).toNat : Int) = (((s.reg32 .ecx).toNat / size * size : Nat) : Int) + count := by
    have hreg (r : Gpr) :
        t.reg32 r = (s.setRegN (p.addressSize s.dflt) .ecx (s.countDown (p.addressSize s.dflt))).reg32 r :=
      congrArg (Gprs.get · r) ht
    refine ⟨fun r hr => by rw [hreg, State.reg32_setRegN_other _ _ _ _ _ hr], ?_⟩
    rw [hreg, State.setRegN_toNat, Nat.mod_eq_of_lt (s.countDown_lt _), Nat.cast_add, hcount]
    rfl
  rw [hexec]
  refine ⟨fun ⟨htake, hout⟩ => ?_, fun h => ?_⟩
  · rw [loopStep_beyond (htaken.2 htake) (hbeyond.2 hout)]
    rfl
  · by_cases htake : taken
    · have hwithin := Bool.eq_false_of_not_eq_true (mt hbeyond.1 fun hout => h ⟨htake, hout⟩)
      rw [loopStep_taken (htaken.2 htake) hwithin]
      refine ⟨_, rfl, ?_, hecx _ rfl⟩
      rw [if_pos htake, ofInt_of_toNat htarget, ← hnext]
      exact congrArg (State.setEip · _) (s.setRegN_only_gpr _ _ _)
    · rw [loopStep_falls (Bool.eq_false_of_not_eq_true (mt htaken.1 htake))]
      refine ⟨_, rfl, ?_, hecx _ rfl⟩
      rw [if_neg htake, ← hnext]
      exact congrArg (State.retire · i) (s.setRegN_only_gpr _ _ _)

end Sys2Proof.Machine
end

section

/-! LAR and LSL (R210 to R214, R380 to R384). -/

namespace Sys2Proof.Machine

/-! ## The types they accept -/

theorem larValidType_eq :
    larValidType = fun sys type => sys || decide (type.toNat ∈ [1, 2, 3, 4, 5, 6, 7, 9, 11, 12, 14, 15]) := by
  have h : ∀ (sys : Bool) (type : BitVec 4), larValidType sys type =
      (sys || decide (type.toNat ∈ [1, 2, 3, 4, 5, 6, 7, 9, 11, 12, 14, 15])) := by decide
  exact funext fun sys => funext (h sys)

theorem lslValidType_eq (type8 : Bool) :
    lslValidType type8 = fun sys type =>
      sys || decide (type.toNat ∈ [1, 2, 3, 9, 11]) || (type8 && decide (type.toNat = 8)) := by
  have h : ∀ (type8 sys : Bool) (type : BitVec 4), lslValidType type8 sys type =
      (sys || decide (type.toNat ∈ [1, 2, 3, 9, 11]) || (type8 && decide (type.toNat = 8))) := by decide
  exact funext fun sys => funext (h type8 sys)

/-! ## What they answer in Protected Mode -/

section

variable {i : Instr} {p : Prefixes} {rm : RegMem} {valid : Bool → BitVec 4 → Bool} {store : Desc → State → State}
  {s s1 s2 : State} {sel : Word} {d : Desc} {f : Fault}

theorem querySegment_readSelector_error (hmode : s.mode = .prot) (hread : s.readSelector p rm = .error f) :
    querySegment i p rm valid store s = .error f := by
  simp only [querySegment, hmode, ne_eq, not_true_eq_false, if_false, hread]

theorem querySegment_query_error (hmode : s.mode = .prot) (hread : s.readSelector p rm = .ok (sel, s1))
    (hquery : s1.query sel valid = .error f) : querySegment i p rm valid store s = .error f := by
  simp only [querySegment, hmode, ne_eq, not_true_eq_false, if_false, hread, hquery]

theorem querySegment_fails (hmode : s.mode = .prot) (hread : s.readSelector p rm = .ok (sel, s1))
    (hquery : s1.query sel valid = .ok (none, s2)) :
    querySegment i p rm valid store s = .ok ((s2.setZf false).retire i) := by
  simp only [querySegment, hmode, ne_eq, not_true_eq_false, if_false, hread, hquery]

theorem querySegment_delivers (hmode : s.mode = .prot) (hread : s.readSelector p rm = .ok (sel, s1))
    (hquery : s1.query sel valid = .ok (some d, s2)) :
    querySegment i p rm valid store s = .ok (((store d s2).setZf true).retire i) := by
  simp only [querySegment, hmode, ne_eq, not_true_eq_false, if_false, hread, hquery]

/-- ZF cleared and nothing else written. -/
theorem setZf_retire_frame (hag : AgreeButAccess s s2) (z : Bool) (i : Instr) :
    (s2.setZf z).retire i =
      { s2 with eflags := ((s2.setZf z).retire i).eflags, eip := s.eip + BitVec.ofNat 32 i.length } := by
  rw [← hag.eip]
  rfl

/-- A register written, and ZF. -/
theorem setZf_setReg32_retire_frame (hag : AgreeButAccess s s2) (r : Gpr) (v : Dword) (z : Bool) (i : Instr) :
    ((s2.setReg32 r v).setZf z).retire i =
      { s2 with gpr := (((s2.setReg32 r v).setZf z).retire i).gpr
                eflags := (((s2.setReg32 r v).setZf z).retire i).eflags
                eip := s.eip + BitVec.ofNat 32 i.length } := by
  rw [← hag.eip]
  rfl

/-- ZF, and every other flag as it was. -/
theorem withZf_bits {flags : Dword} (h : flags = s.eflags) (z : Bool) (k : Nat) :
    (withZf flags z).getLsbD k = if k = 6 then z else s.eflags.getLsbD k := by
  subst h
  by_cases hk : k < 32
  · exact withZf_bit _ _ _ hk
  · rw [if_neg (by omega), BitVec.getLsbD_of_ge _ _ (by omega), BitVec.getLsbD_of_ge _ _ (by omega)]

end

/-! ## What LAR stores -/

theorem larWord_toNat (d : Desc) : (larWord d).toNat = d.hi.toNat / 256 % 256 * 256 := by
  have hbits : larWord d = d.hi.extractLsb' 8 8 ++ 0#8 := by
    have hmask : ∀ j < 16, (0xFF00#16).getLsbD j = decide (8 ≤ j) := by decide
    refine BitVec.eq_of_getLsbD_eq fun j hj => ?_
    rw [larWord, lowWord, BitVec.getLsbD_and, hmask j hj, BitVec.getLsbD_append, BitVec.getLsbD_extractLsb',
      BitVec.getLsbD_extractLsb']
    by_cases h : j < 8
    · simp [h]
    · simp [h, hj, show j - 8 < 8 by omega, show 8 ≤ j by omega, -BitVec.getLsbD_eq_getElem]
  rw [hbits]
  refine (append_toNat _ _).trans ?_
  rw [BitVec.extractLsb'_toNat, Nat.shiftRight_eq_div_pow, BitVec.toNat_ofNat]
  omega

theorem larDword_bit (d : Desc) (x : BitVec 4) (k : Nat) :
    (larDword d x).getLsbD k =
      if (8 ≤ k ∧ k < 16) ∨ (20 ≤ k ∧ k < 24) then d.hi.getLsbD k
      else if 16 ≤ k ∧ k < 20 then x.getLsbD (k - 16) else false := by
  have hmask : ∀ k < 32, (0x00F0FF00#32).getLsbD k = decide ((8 ≤ k ∧ k < 16) ∨ (20 ≤ k ∧ k < 24)) := by decide
  by_cases hk : k < 32
  · rw [larDword, BitVec.getLsbD_or, BitVec.getLsbD_and, hmask k hk, BitVec.getLsbD_shiftLeft, BitVec.getLsbD_setWidth]
    by_cases hkept : (8 ≤ k ∧ k < 16) ∨ (20 ≤ k ∧ k < 24)
    · have hx : k < 16 ∨ x.getLsbD (k - 16) = false :=
        hkept.imp And.right fun h => BitVec.getLsbD_of_ge _ _ (by omega)
      rw [decide_eq_true hkept, if_pos hkept]
      rcases hx with h | h <;> simp [h, -BitVec.getLsbD_eq_getElem]
    · rw [decide_eq_false hkept, if_neg hkept]
      by_cases hfree : 16 ≤ k ∧ k < 20
      · simp [hfree, hk, show ¬ k < 16 by omega, show k - 16 < 32 by omega, -BitVec.getLsbD_eq_getElem]
      · rw [if_neg hfree]
        have hx : k < 16 ∨ x.getLsbD (k - 16) = false := by
          by_cases h : k < 16
          · exact .inl h
          · exact .inr (BitVec.getLsbD_of_ge _ _ (by omega))
        rcases hx with h | h <;> simp [h, -BitVec.getLsbD_eq_getElem]
  · rw [if_neg (by omega), if_neg (by omega), BitVec.getLsbD_of_ge _ _ (by omega)]

/-- Settles O31. -/
theorem larStoresAccessRights : Obligations.LarStoresAccessRights := by
  intro p dst rm s hmode types
  have htypes : types = larValidType := larValidType_eq.symm
  rw [htypes]
  refine ⟨fun f hread => ⟨settle_fault.2 (querySegment_readSelector_error hmode hread),
    settle_fault.2 (querySegment_readSelector_error hmode hread)⟩, fun sel s1 hread => ⟨fun f hquery =>
      ⟨settle_fault.2 (querySegment_query_error hmode hread hquery),
        settle_fault.2 (querySegment_query_error hmode hread hquery)⟩, fun s2 hquery i hi => ?_, fun d s2 hquery => ?_⟩⟩
  · have hag := (State.readSelector_agrees hread).trans (State.query_agrees hquery)
    refine ⟨(s2.setZf false).retire i, ?_, setZf_retire_frame hag false i, withZf_bits hag.eflags false⟩
    simp only [List.mem_cons, List.not_mem_nil, or_false] at hi
    rcases hi with rfl | rfl <;> exact settle_next.2 (querySegment_fails hmode hread hquery)
  · have hag := (State.readSelector_agrees hread).trans (State.query_agrees hquery)
    refine ⟨⟨_, settle_next.2 (querySegment_delivers hmode hread hquery), setZf_setReg32_retire_frame hag _ _ _ _,
      fun r hr => ?_, withZf_bits hag.eflags true, ?_⟩,
      ⟨_, settle_next.2 (querySegment_delivers hmode hread hquery), ?_, fun r hr => ?_, withZf_bits hag.eflags true,
        fun k => ?_⟩⟩
    · exact (State.reg32_setReg32_other _ _ _ _ hr).trans (hag.reg32 r)
    · refine (congrArg BitVec.toNat (State.reg32_setReg32_same s2 dst _)).trans ?_
      rw [withLowWord_toNat, larWord_toNat, hag.reg32]
    · rw [← hag.eip]
      rfl
    · exact (State.reg32_setReg32_other _ _ _ _ hr).trans (hag.reg32 r)
    · exact (congrArg (BitVec.getLsbD · k) (State.reg32_setReg32_same s2 dst _)).trans (larDword_bit d _ k)

/-- Settles O32. -/
theorem lslStoresTheLimit : Obligations.LslStoresTheLimit := by
  intro p dst rm s hmode types
  have htypes : types = lslValidType s.cfg.lslType8Valid := (lslValidType_eq _).symm
  rw [htypes]
  refine ⟨fun f hread => ⟨settle_fault.2 (querySegment_readSelector_error hmode hread),
    settle_fault.2 (querySegment_readSelector_error hmode hread)⟩, fun sel s1 hread => ⟨fun f hquery =>
      ⟨settle_fault.2 (querySegment_query_error hmode hread hquery),
        settle_fault.2 (querySegment_query_error hmode hread hquery)⟩, fun s2 hquery i hi => ?_,
      ?delivers⟩⟩
  · have hag := (State.readSelector_agrees hread).trans (State.query_agrees hquery)
    refine ⟨(s2.setZf false).retire i, ?_, setZf_retire_frame hag false i, withZf_bits hag.eflags false⟩
    simp only [List.mem_cons, List.not_mem_nil, or_false] at hi
    rcases hi with rfl | rfl <;> exact settle_next.2 (querySegment_fails hmode hread hquery)
  case delivers =>
    intro d s2 hquery raw limit io hio
    have hag := (State.readSelector_agrees hread).trans (State.query_agrees hquery)
    have hlimit : d.limit.toNat = limit := (descriptorBaseAndLimit d).2
    simp only [List.mem_cons, List.not_mem_nil, or_false] at hio
    rcases hio with rfl | rfl
    · refine ⟨_, settle_next.2 (querySegment_delivers hmode hread hquery), setZf_setReg32_retire_frame hag _ _ _ _,
        fun r hr => (State.reg32_setReg32_other _ _ _ _ hr).trans (hag.reg32 r), withZf_bits hag.eflags true, ?_⟩
      refine (congrArg BitVec.toNat (State.reg32_setReg32_same s2 dst _)).trans ?_
      rw [withLowWord_toNat, lowWord_toNat, hlimit, hag.reg32]
    · refine ⟨_, settle_next.2 (querySegment_delivers hmode hread hquery), setZf_setReg32_retire_frame hag _ _ _ _,
        fun r hr => (State.reg32_setReg32_other _ _ _ _ hr).trans (hag.reg32 r), withZf_bits hag.eflags true, ?_⟩
      exact (congrArg BitVec.toNat (State.reg32_setReg32_same s2 dst _)).trans hlimit

end Sys2Proof.Machine
end

section

/-! LSL and the limit that a segment register is loaded with (R93, R384). -/

namespace Sys2Proof.Machine

/-- A descriptor that may be loaded into a segment register is a code or data segment, and visible to its selector. -/
theorem visible_of_loadable {k : SegReg} {cpl : BitVec 2} {sel : Word} {d : Desc}
    (h : (if k = .ss then ssRefusal cpl sel d else dataRefusal cpl sel d) = none) :
    d.s = true ∧ visible d cpl (selRpl sel) = true := by
  split at h
  · obtain ⟨hrpl, hdata, hdpl, -⟩ := (ssRefusal_eq_none_iff _ _ _).1 h
    simp only [Desc.isWritableData, Desc.isData, Bool.and_eq_true] at hdata
    exact ⟨hdata.1.1, by simp [visible, hrpl, hdpl]⟩
  · obtain ⟨hdata, hlevel, -⟩ := (dataRefusal_eq_none_iff _ _ _).1 h
    have hs : d.s = true := by
      simp only [Desc.isData, Desc.isReadableCode, Bool.or_eq_true, Bool.and_eq_true] at hdata
      exact hdata.elim And.left fun hcode => hcode.1.1
    refine ⟨hs, ?_⟩
    rw [visible, Bool.or_eq_true, Bool.and_eq_true, decide_eq_true_iff, decide_eq_true_iff]
    cases hconforming : d.isConforming with
    | true => exact .inl rfl
    | false =>
      have hnot : ¬ (d.dpl.toNat < (selRpl sel).toNat ∨ d.dpl.toNat < cpl.toNat) :=
        fun hlow => hlevel ⟨hconforming, hlow⟩
      exact .inr ⟨by omega, by omega⟩

/-- In a quiet state the selector test of LSL delivers every descriptor that a segment register can be loaded with. -/
theorem State.query_of_loadSegment {s u : State} {k : SegReg} {sel : Word} (hq : s.quiet = true) (hmode : s.mode = .prot)
    (hnull : isNull sel = false) (h : s.loadSegment k sel = .ok u) (type8 : Bool) :
    ∃ d, s.readDesc sel = .ok (some d, s) ∧ u.seg.get k = SegCache.ofDesc sel d ∧
      s.query sel (lslValidType type8) = .ok (some d, s) := by
  rcases State.loadSegment_ok h with ⟨hnot, -⟩ | ⟨-, hnull', -⟩ | ⟨-, -, d, s1, s2, hdesc, hpassed, -, rfl⟩
  · exact absurd hmode hnot
  · rw [hnull] at hnull'
    cases hnull'
  · obtain rfl := State.readDesc_unwalked (State.quiet_unwalked hq) (State.quiet_agents hq) hdesc
    obtain ⟨hs, hvisible⟩ := visible_of_loadable hpassed
    refine ⟨d, hdesc, SegRegs.get_set_same _ _ _, ?_⟩
    rw [State.query_of_desc hnull hdesc, hvisible, show lslValidType type8 d.s d.type = true by simp [lslValidType, hs]]
    rfl

/-- Settles O33. -/
theorem lslAgreesWithTheLoadedLimit : Obligations.LslAgreesWithTheLoadedLimit := by
  intro p dst src k s u hq hmode hsel hload
  obtain ⟨d, hdesc, hcache, hquery⟩ :=
    State.query_of_loadSegment hq hmode (isNull_eq_false_of_four_le hsel) hload s.cfg.lslType8Valid
  have hread : s.readSelector p (.reg src) = .ok (s.reg16 src, s) := rfl
  have hdst : ((((s.setReg32 dst d.limit).setZf true).retire (.lsl32 p dst (.reg src))).reg32 dst) = d.limit :=
    State.reg32_setReg32_same s dst d.limit
  refine ⟨_, settle_next.2 (querySegment_delivers hmode hread hquery), (withZf_bits rfl true 6), ?_, fun d' hdesc' => ?_,
    fun hexpand off => ?_⟩
  · rw [hcache]
    exact hdst
  · rw [hdesc] at hdesc'
    cases hdesc'
    exact (congrArg BitVec.toNat hdst).trans (descriptorBaseAndLimit d).2
  · rw [inLimit, hexpand, hcache]
    refine decide_eq_true_iff.trans ?_
    rw [Nat.add_sub_cancel]
    exact Iff.of_eq (congrArg (off.toNat ≤ ·.toNat) hdst.symm)

end Sys2Proof.Machine
end

section

/-! LGDT and LIDT (R250 to R253) and LMSW (R304 to R306). -/

namespace Sys2Proof.Machine

/-! ## LGDT and LIDT -/

section

variable {i : Instr} {p : Prefixes} {m : MemOp} {store : TableReg → State → State} {s s1 : State} {v : Nat} {f : Fault}

theorem loadTableRegister_passes (hallowed : s.deniesSystem = false)
    (hpass : passesFFFF m.size (effectiveAddress s m) 6 = true) :
    loadTableRegister i p (.mem m) store s = .error (takeException s (s.segFault (operandSegment p m))) := by
  simp only [loadTableRegister, hallowed, Bool.false_eq_true, if_false, State.readTable, State.segReadTo, hpass, if_true,
    raise]

theorem loadTableRegister_readMem_error (hallowed : s.deniesSystem = false)
    (hpass : passesFFFF m.size (effectiveAddress s m) 6 = false) (hread : s.readMem p m 6 = .error f) :
    loadTableRegister i p (.mem m) store s = .error f := by
  rw [State.readMem] at hread
  simp only [loadTableRegister, hallowed, Bool.false_eq_true, if_false, State.readTable, State.segReadTo, hpass, hread]

theorem loadTableRegister_readMem_ok (hallowed : s.deniesSystem = false)
    (hpass : passesFFFF m.size (effectiveAddress s m) 6 = false) (hread : s.readMem p m 6 = .ok (v, s1)) :
    loadTableRegister i p (.mem m) store s =
      .ok ((store (tableOfOperand (p.operandSize s.dflt) v) s1).retire i) := by
  rw [State.readMem] at hread
  simp only [loadTableRegister, hallowed, Bool.false_eq_true, if_false, State.readTable, State.segReadTo, hpass, hread]

end

/-- Limit and base of a six-byte operand (R250, R251). -/
theorem tableOfOperand_toNat (n : Size) {v : Nat} (hv : v < 256 ^ 6) :
    (tableOfOperand n v).limit.toNat = v % 65536 ∧
      (tableOfOperand n v).base.toNat = if n = .w16 then v / 65536 % 16777216 else v / 65536 := by
  refine ⟨BitVec.toNat_ofNat v 16, ?_⟩
  cases n
  · rw [if_pos rfl, tableOfOperand, BitVec.toNat_setWidth, BitVec.toNat_ofNat]
    omega
  · rw [if_neg (by decide), tableOfOperand, BitVec.toNat_ofNat]
    omega

/-- Settles O34. -/
theorem lgdtLidtLoadTheTable : Obligations.LgdtLidtLoadTheTable := by
  intro p m s hmay passes stackVector code beyond
  have hallowed := s.mayLoadSystem_iff.1 hmay
  have hpasses : passesFFFF m.size (effectiveAddress s m) 6 = true ↔ passes := passesFFFF_iff _ _ _
  refine ⟨fun h => ?_, fun h f hread => ?_, fun h v s1 hread => ?_⟩
  · have hfault : takeException s (s.segFault (operandSegment p m)) = beyond := takeException_segFault s _
    rw [← hfault]
    exact ⟨settle_fault.2 (loadTableRegister_passes hallowed (hpasses.2 h)),
      settle_fault.2 (loadTableRegister_passes hallowed (hpasses.2 h))⟩
  · have hwithin := Bool.eq_false_of_not_eq_true (mt hpasses.1 h)
    exact ⟨settle_fault.2 (loadTableRegister_readMem_error hallowed hwithin hread),
      settle_fault.2 (loadTableRegister_readMem_error hallowed hwithin hread)⟩
  · have hwithin := Bool.eq_false_of_not_eq_true (mt hpasses.1 h)
    have hag : AgreeButAccess s s1 := State.segRead_agrees hread
    have htable := tableOfOperand_toNat (p.operandSize s.dflt) (State.segRead_lt hread)
    exact ⟨⟨_, settle_next.2 (loadTableRegister_readMem_ok hallowed hwithin hread), by rw [← hag.eip]; rfl, htable⟩,
      ⟨_, settle_next.2 (loadTableRegister_readMem_ok hallowed hwithin hread), by rw [← hag.eip]; rfl, htable⟩⟩

/-! ## LMSW -/

theorem loadMsw_readSelector_error {i : Instr} {p : Prefixes} {rm : RegMem} {s : State} {f : Fault}
    (hallowed : s.deniesSystem = false) (hread : s.readSelector p rm = .error f) : loadMsw i p rm s = .error f := by
  simp only [loadMsw, hallowed, Bool.false_eq_true, if_false, hread]

theorem loadMsw_readSelector_ok {i : Instr} {p : Prefixes} {rm : RegMem} {s s1 : State} {src : Word}
    (hallowed : s.deniesSystem = false) (hread : s.readSelector p rm = .ok (src, s1)) :
    loadMsw i p rm s = .ok ((s1.setMsw (mswAfter s1.cfg.lmswMask (lowWord s1.cr0) src)).retire i) := by
  simp only [loadMsw, hallowed, Bool.false_eq_true, if_false, hread]

/-- Settles O38. -/
theorem lmswLoadsTheStatusWord : Obligations.LmswLoadsTheStatusWord := by
  intro p rm s hmay
  have hallowed := s.mayLoadSystem_iff.1 hmay
  refine ⟨fun f hread => settle_fault.2 (loadMsw_readSelector_error hallowed hread), fun src s1 hread => ?_⟩
  have hag := State.readSelector_agrees hread
  have hpe : s1.pe = s.cr0.getLsbD 0 := by rw [State.pe, hag.cr0]
  have hbit0 : (mswAfter s1.cfg.lmswMask (lowWord s1.cr0) src).getLsbD 0 =
      (s.cr0.getLsbD 0 || (s.cfg.lmswMask.getLsbD 0 && src.getLsbD 0)) := by
    rw [mswAfter_bit_zero, hag.cr0, hag.cfg]
  refine ⟨_, settle_next.2 (loadMsw_readSelector_ok hallowed hread), by rw [← hag.eip]; rfl, fun k hk => ?_, ?_, ?_⟩
  · rw [State.retire_cr0, State.setMsw_cr0, withLowWord_bit, hag.cr0, hag.cfg]
    by_cases h16 : k < 16
    · rw [if_pos h16, mswAfter_bit _ _ _ h16, lowWord_bit _ h16, decide_eq_false (by omega)]
      simp [h16, -BitVec.getLsbD_eq_getElem]
    · rw [if_neg h16, if_neg fun h => h16 h.1]
  · rw [State.retire_cr0, State.setMsw_cr0, withLowWord_bit, if_pos (by decide), hbit0]
  · rw [State.retire_cr0, State.retire_peJustSet, State.setMsw_peJustSet, State.setMsw_cr0, withLowWord_bit,
      if_pos (by decide), hag.peJustSet, hpe]

/-- Settles O39: PE is set, so of the two cases of `exec_mode` it is the switch. -/
theorem lmswEntersProtectedMode : Obligations.LmswEntersProtectedMode := by
  intro p rm s s1 src hmode hvm hread hsrc hmask
  obtain ⟨t, hrun, hframe, -, hpe, -⟩ := (lmswLoadsTheStatusWord p rm s (.inl hmode)).2 src s1 hread
  have hag := State.readSelector_agrees hread
  have hset : t.pe = true := by rw [State.pe, hpe, hmask, hsrc, Bool.and_self, Bool.or_true]
  rcases exec_mode hrun with ⟨hsame, -⟩ | ⟨-, hpending, hswitch⟩
  · rw [hmode, State.mode_eq_real_iff, hset] at hsame
    cases hsame
  · obtain ⟨htmode, htcpl⟩ := hswitch hvm
    refine ⟨t, hrun, htmode, htcpl, ?_, ?_, ?_, ?_, ?_, (stepAfterModeSwitchRefused t hpending).1⟩
    all_goals rw [hframe, hag]

end Sys2Proof.Machine
end

section

/-! LTR (R385, R386): its checks, the busy bit it stores, and why a second LTR faults. -/

namespace Sys2Proof.Machine

/-! ## One byte stored -/

/-- A store of one byte is its translation, then the bus. -/
theorem State.linWrite_byte {s s1 : State} {la pa : Dword} {rights : Rights}
    (h : s.translate la .write rights = .ok (pa, s1)) (b : Byte) :
    s.linWrite la 1 b.toNat rights = .ok (s1.busStore pa b) := by
  simp only [State.linWrite, State.translateRange, h, State.busWrite, BitVec.ofNat_toNat, BitVec.setWidth_eq]

theorem State.busStore_byte_same {s : State} (hm : Memory.wf s.mem = true) (pa : Dword) (b : Byte) :
    Memory.byteAt (s.busStore pa b).mem pa = b :=
  Memory.byteAt_setByte_same _ pa b (State.agentsAct_wf hm)

theorem State.busStore_byte_other (s : State) {pa a : Dword} (b : Byte) (h : a ≠ pa) :
    Memory.byteAt (s.busStore pa b).mem a = Memory.byteAt s.agentsAct.mem a :=
  Memory.byteAt_setByte_other _ pa a b h

/-! ## What LTR asks of a descriptor -/

/-- A task state segment that is not busy. -/
def Desc.isAvailableTss (d : Desc) : Prop :=
  d.hi.getLsbD 12 = false ∧ (d.hi.toNat / 256 % 16 = 1 ∨ d.hi.toNat / 256 % 16 = 9)

theorem Desc.isAvailableTss_iff (d : Desc) : d.isAvailableTss ↔ (!d.s && (d.type == 1#4 || d.type == 9#4)) = true := by
  rw [Bool.and_eq_true, Bool.not_eq_true', Bool.or_eq_true, beq_iff_eq, beq_iff_eq, ← BitVec.toNat_inj,
    ← BitVec.toNat_inj, Desc.type_toNat]
  exact Iff.rfl

theorem ltrRefusal_of_not_available {d : Desc} (h : ¬ d.isAvailableTss) (sel : Word) :
    ltrRefusal sel d = some (.gp (selectorCode sel)) := by
  rw [Desc.isAvailableTss_iff, Bool.not_eq_true] at h
  exact if_pos h

theorem ltrRefusal_of_available {d : Desc} (h : d.isAvailableTss) (sel : Word) :
    ltrRefusal sel d = if d.present = false then some (.np (selectorCode sel)) else none := by
  rw [Desc.isAvailableTss_iff] at h
  exact if_neg (by rw [h]; exact Bool.noConfusion)

/-! ## What LTR answers at CPL 0 in Protected Mode -/

section

variable {p : Prefixes} {rm : RegMem} {s s1 s2 : State} {sel : Word} {d : Desc} {f : Fault}

theorem exec_ltr_readSelector_error (hmode : s.mode = .prot) (hcpl : s.cpl = 0#2)
    (hread : s.readSelector p rm = .error f) : exec (.ltr p rm) s = .fault f := by
  simp [exec, execLtr, loadTaskRegister, hmode, hcpl, hread]

theorem exec_ltr_null (hmode : s.mode = .prot) (hcpl : s.cpl = 0#2)
    (hread : s.readSelector p rm = .ok (sel, s1)) (hnull : isNull sel = true) :
    exec (.ltr p rm) s = .fault (takeException s1 (.gp 0#32)) := by
  simp [exec, execLtr, loadTaskRegister, hmode, hcpl, hread, hnull, raise]

theorem exec_ltr_selTi (hmode : s.mode = .prot) (hcpl : s.cpl = 0#2)
    (hread : s.readSelector p rm = .ok (sel, s1)) (hnull : isNull sel = false) (hti : selTi sel = true) :
    exec (.ltr p rm) s = .fault (takeException s1 (.gp (selectorCode sel))) := by
  simp [exec, execLtr, loadTaskRegister, hmode, hcpl, hread, hnull, hti, raise]

theorem exec_ltr_fetchDesc_error (hmode : s.mode = .prot) (hcpl : s.cpl = 0#2)
    (hread : s.readSelector p rm = .ok (sel, s1)) (hnull : isNull sel = false) (hti : selTi sel = false)
    (hfetch : s1.fetchDesc sel (ltrRefusal sel) = .error f) : exec (.ltr p rm) s = .fault f := by
  simp [exec, execLtr, loadTaskRegister, hmode, hcpl, hread, hnull, hti, hfetch]

/-- The busy byte's store decides. -/
theorem exec_ltr_fetchDesc_ok (hmode : s.mode = .prot) (hcpl : s.cpl = 0#2)
    (hread : s.readSelector p rm = .ok (sel, s1)) (hnull : isNull sel = false) (hti : selTi sel = false)
    (hfetch : s1.fetchDesc sel (ltrRefusal sel) = .ok (d, s2)) :
    exec (.ltr p rm) s =
      match s2.linWrite (d.la + 5#32) 1 (busyByte d).toNat .supervisor with
      | .error f => .fault f
      | .ok s3 => .next ({ s3 with tr := TaskReg.ofDesc sel d }.retire (.ltr p rm)) := by
  simp only [exec, execLtr, loadTaskRegister, hmode, hcpl, hread, hnull, hti, hfetch, ne_eq, not_true_eq_false, if_false,
    Bool.false_eq_true]
  cases s2.linWrite (d.la + 5#32) 1 (busyByte d).toNat .supervisor <;> rfl

end

/-- Settles O36: LTR's checks in R386's order, then the store of the busy byte. -/
theorem ltrLoadsTaskRegister : Obligations.LtrLoadsTaskRegister := by
  intro p rm s hmode hcpl
  refine ⟨fun f hread => exec_ltr_readSelector_error hmode hcpl hread, fun sel s1 hread => ?_⟩
  intro code
  have hag : AgreeButAccess s s1 := State.readSelector_agrees hread
  have hgp : takeException s1 (.gp (selectorCode sel)) = .generalProtection code s.eip :=
    (hag.takeException _).trans (takeException_gp_selector hmode sel)
  have hnp : takeException s1 (.np (selectorCode sel)) = .segmentNotPresent code s.eip :=
    (hag.takeException _).trans (takeException_np_selector hmode sel)
  refine ⟨fun hlt => ?null, fun hge hti => ?ldtSelector, fun hge hti => ?gdtSelector⟩
  case null =>
    rw [exec_ltr_null hmode hcpl hread ((isNull_iff_toNat_le_three sel).2 (by omega)), hag.takeException,
      takeException_gp_prot hmode]
  case ldtSelector =>
    rw [exec_ltr_selTi hmode hcpl hread (isNull_eq_false_of_four_le hge) hti, hgp]
  case gdtSelector =>
    have hnull := isNull_eq_false_of_four_le hge
    have hfault {f : Fault} (hfetch : s1.fetchDesc sel (ltrRefusal sel) = .error f) : exec (.ltr p rm) s = .fault f :=
      exec_ltr_fetchDesc_error hmode hcpl hread hnull hti hfetch
    refine ⟨fun f hdesc => hfault (State.fetchDesc_of_readDesc_error hdesc _),
      fun s2 hdesc => hgp ▸ hfault (State.fetchDesc_of_outside hdesc _), fun d s2 hdesc => ?_⟩
    refine ⟨fun hnot => ?notTss, fun htss hpresent => ?absent, fun htss hpresent => ?present⟩
    case notTss =>
      exact hgp ▸ hfault (State.fetchDesc_of_refused hdesc (ltrRefusal_of_not_available hnot sel))
    case absent =>
      refine hnp ▸ hfault (State.fetchDesc_of_refused hdesc ?_)
      exact (ltrRefusal_of_available htss sel).trans (if_pos hpresent)
    case present =>
      have hrefusal : ltrRefusal sel d = none :=
        (ltrRefusal_of_available htss sel).trans (if_neg (by rw [Desc.present, hpresent]; exact Bool.noConfusion))
      have hrun := exec_ltr_fetchDesc_ok hmode hcpl hread hnull hti (State.fetchDesc_of_passed hdesc hrefusal)
      refine ⟨?_, fun pa s3 htranslate => ?_⟩
      · change match s2.linWrite (d.la + 5#32) 1 (busyByte d).toNat .supervisor with
          | .error f => exec (.ltr p rm) s = .fault f
          | .ok _ => ∃ t, exec (.ltr p rm) s = .next t
        cases hwrite : s2.linWrite (d.la + 5#32) 1 (busyByte d).toNat .supervisor with
        | error f => rw [hrun, hwrite]
        | ok s3 => exact ⟨_, by rw [hrun, hwrite]⟩
      · have hag3 := (hag.trans (State.readDesc_agrees hdesc)).trans
          ((State.translate_agrees htranslate).trans (State.busStore_agrees s3 pa (busyByte d)))
        rw [State.linWrite_byte htranslate] at hrun
        refine ⟨_, hrun, ?_, fun hm => State.busStore_byte_same hm pa _, fun a ha => State.busStore_byte_other s3 _ ha⟩
        rw [← hag3.eip]
        rfl

/-! ## A second LTR -/

theorem busyByte_type (d : Desc) : (busyByte d).toNat % 16 ≠ 1 ∧ (busyByte d).toNat % 16 ≠ 9 := by
  have h : ∀ b : Byte, (b ||| 0x02#8).toNat % 16 ≠ 1 ∧ (b ||| 0x02#8).toNat % 16 ≠ 9 := by decide
  exact h d.arByte

/-- The type of the descriptor that stands in memory is in its byte 5. -/
theorem State.descAt_type (s : State) (la : Dword) :
    (s.descAt la).hi.toNat / 256 % 16 = (Memory.byteAt s.mem (la + 5#32)).toNat % 16 := by
  have hbyte : la + 4#32 + 1#32 = la + 5#32 := BitVec.add_assoc _ _ _
  have h0 := (Memory.byteAt s.mem (la + 4#32)).isLt
  have h1 := (Memory.byteAt s.mem (la + 5#32)).isLt
  rw [State.descAt, BitVec.toNat_ofNat, Memory.item, Memory.item, hbyte]
  omega

/-- LTR of a selector whose descriptor in memory is no available TSS. -/
theorem exec_ltr_of_busy {p : Prefixes} {r : Gpr} {t : State} {la : Dword} (hq : t.quiet = true) (hmode : t.mode = .prot)
    (hcpl : t.cpl = 0#2) (hnull : isNull (t.reg16 r) = false) (hti : selTi (t.reg16 r) = false)
    (hla : t.descAddress (t.reg16 r) = some la)
    (hbusy : (Memory.byteAt t.mem (la + 5#32)).toNat % 16 ≠ 1 ∧ (Memory.byteAt t.mem (la + 5#32)).toNat % 16 ≠ 9) :
    exec (.ltr p (.reg r)) t =
      .fault (.generalProtection (some (BitVec.ofNat 32 ((t.reg16 r).toNat / 4 * 4))) t.eip) := by
  have hdesc : t.readDesc (t.reg16 r) = .ok (some (t.descAt la), t) := by
    rw [State.readDesc_quiet hq, hla]
    rfl
  have hnot : ¬ (t.descAt la).isAvailableTss := by
    rintro ⟨-, htype⟩
    rw [State.descAt_type] at htype
    exact htype.elim hbusy.1 hbusy.2
  rw [← takeException_gp_selector hmode]
  exact exec_ltr_fetchDesc_error hmode hcpl rfl hnull hti
    (State.fetchDesc_of_refused hdesc (ltrRefusal_of_not_available hnot _))

/-- Settles O37: the store left the busy type in the descriptor that the second LTR reads. -/
theorem secondLtrFaults : Obligations.SecondLtrFaults := by
  intro p p' r s t hq hm hrun
  obtain ⟨hmode, hcpl, sel, s1, d, s2, s3, hread, hnull, hti, hdesc, -, hwrite, ht⟩ :=
    loadTaskRegister_ok (settle_next.1 hrun)
  cases hread
  have hla := State.readDesc_some hdesc
  obtain rfl := State.readDesc_unwalked (State.quiet_unwalked hq) (State.quiet_agents hq) hdesc
  rw [State.linWrite_byte (State.translate_unpaged (State.quiet_unpaged hq) _ _ _), Except.ok.injEq] at hwrite
  have hag : AgreeButAccess s2 s3 := hwrite ▸ State.busStore_agrees s2 _ _
  have hreg : t.reg16 r = s2.reg16 r := by
    rw [ht, State.reg16, State.reg16, ← hag.reg32]
    rfl
  have hbyte : Memory.byteAt t.mem (d.la + 5#32) = busyByte d := by
    rw [ht, ← hwrite]
    exact State.busStore_byte_same hm _ _
  rw [← hreg] at hnull hti hla ⊢
  refine exec_ltr_of_busy (la := d.la) ?_ ?_ ?_ hnull hti ?_ ?_
  · rw [ht]
    exact hag.quiet.trans hq
  · rw [ht]
    exact hag.mode.trans hmode
  · rw [ht]
    exact hag.cpl.trans hcpl
  · rw [← hla, hreg, ht]
    exact hag.descAddress _
  · rw [hbyte]
    exact busyByte_type d

end Sys2Proof.Machine
end

section

/-! The full-pointer loads outside Protected Mode, and in it for a selector that is not null (R271 to R275). -/

namespace Sys2Proof.Machine

/-! ## What a load leaves, given the segment register's new contents -/

/-- The state after a full-pointer load of the pointer `v` that put `c` into the segment register, `u` being the one that
its reads, and its store, left. -/
structure LoadsFullPointer (i : Instr) (fp : FullPointer) (v : Nat) (s u : State) (c : SegCache) (t : State) : Prop where
  frame : t = { u with gpr := t.gpr, seg := t.seg, eip := s.eip + BitVec.ofNat 32 i.length }
  loaded : t.seg.get fp.k = c
  otherSegs : ∀ k, k ≠ fp.k → t.seg.get k = s.seg.get k
  otherRegs : ∀ r, r ≠ fp.dst → t.reg32 r = s.reg32 r
  offset : (t.reg32 fp.dst).toNat =
    (if fp.n = .w16 then (s.reg32 fp.dst).toNat / 65536 * 65536 else 0) + v % 2 ^ (8 * fp.n.bytes)

theorem LoadsFullPointer.mem {i : Instr} {fp : FullPointer} {v : Nat} {s u t : State} {c : SegCache}
    (h : LoadsFullPointer i fp v s u c t) : t.mem = u.mem := by
  rw [h.frame]

theorem AgreeButAccess.loadsFullPointer {s u : State} (hag : AgreeButAccess s u) (i : Instr) (fp : FullPointer) (v : Nat)
    (c : SegCache) :
    LoadsFullPointer i fp v s u c (((u.setSeg fp.k c).setRegN fp.n fp.dst (BitVec.ofNat 32 v)).retire i) where
  frame := by
    rw [← hag.eip]
    exact State.setSeg_setRegN_retire_frame u fp.k c fp.n fp.dst _ i
  loaded := by rw [State.seg_setRegN_retire, State.setSeg_seg, SegRegs.get_set_same]
  otherSegs k hk := by rw [State.seg_setRegN_retire, State.setSeg_seg, SegRegs.get_set_other _ _ _ _ hk, hag.seg]
  otherRegs r hr := (State.reg32_setRegN_retire_other _ _ _ _ _ _ hr).trans (hag.reg32 r)
  offset := by
    rw [← hag.reg32]
    exact State.reg32_setRegN_offset (u.setSeg fp.k c) fp.n fp.dst v

theorem exec_fullPointer_readMem_error {i : Instr} {fp : FullPointer} {m : MemOp} {s : State} {f : Fault}
    (hfp : fullPointer i = some fp) (hrm : fp.rm = .mem m) (hread : s.readMem fp.p m (fp.n.bytes + 2) = .error f) :
    exec i s = .fault f := by
  simp only [exec_eq_loadFullPointer hfp, hrm, loadFullPointer, hread, settle_error]

/-- The selector of a pointer, as a number. -/
theorem pointerSelector_toNat {n : Size} {v : Nat} (hv : v < 256 ^ (n.bytes + 2)) :
    (BitVec.ofNat 16 (v / 2 ^ (8 * n.bytes))).toNat = v / 2 ^ (8 * n.bytes) := by
  rw [BitVec.toNat_ofNat]
  refine Nat.mod_eq_of_lt (Nat.div_lt_of_lt_mul (hv.trans_eq ?_))
  cases n <;> rfl

/-! ## Outside Protected Mode -/

theorem State.loadSegment_real {s : State} (hmode : s.mode ≠ .prot) (k : SegReg) (sel : Word) :
    s.loadSegment k sel = .ok (s.setSeg k ((s.seg.get k).loadReal (s.mode = .v86) sel)) :=
  if_neg hmode

theorem realBase_toNat (sel : Word) : ((sel.setWidth 32 : Dword) <<< 4).toNat = 16 * sel.toNat := by
  have hsel := sel.isLt
  rw [BitVec.toNat_shiftLeft, BitVec.toNat_setWidth, Nat.shiftLeft_eq]
  omega

/-- Settles O40. -/
theorem fullPointerOutsideProtectedMode : Obligations.FullPointerOutsideProtectedMode := by
  intro i fp m s hfp hrm hmode
  refine ⟨fun f hread => exec_fullPointer_readMem_error hfp hrm hread, fun v s1 hread => ?_⟩
  intro sel off
  have hag := State.readMem_agrees hread
  have hsel : (BitVec.ofNat 16 sel).toNat = sel := pointerSelector_toNat (State.segRead_lt hread)
  have hload := State.loadSegment_real (hag.mode ▸ hmode) fp.k (BitVec.ofNat 16 sel)
  have hresult := hag.loadsFullPointer i fp v ((s1.seg.get fp.k).loadReal (s1.mode = .v86) (BitVec.ofNat 16 sel))
  refine ⟨_, exec_fullPointer_next hfp hrm hread hload, hresult.frame, ?_, ?_, ?_, ?_, fun hge => ?_, hresult.otherSegs,
    hresult.otherRegs, hresult.offset⟩
  all_goals rw [hresult.loaded, SegCache.loadReal]
  · exact hsel
  · exact (realBase_toNat _).trans (congrArg (16 * ·) hsel)
  · simp only [hag.mode, hag.seg, decide_eq_true_eq]
  · simp only [hag.seg]
  · simp only [isNull_eq_false_of_four_le (hsel.symm ▸ hge), Bool.not_false, Bool.or_true]

/-! ## The checks of Protected Mode -/

/-- The check that a segment register asks of a descriptor (R272, R273). -/
def segmentRefusal (k : SegReg) (cpl : BitVec 2) (sel : Word) : Desc → Option Exc :=
  if k = .ss then ssRefusal cpl sel else dataRefusal cpl sel

section

variable {s s1 : State} {k : SegReg} {sel : Word} {d : Desc} {f : Fault}

theorem State.loadSegment_fetchDesc_error (hmode : s.mode = .prot) (hnull : isNull sel = false)
    (hfetch : s.fetchDesc sel (segmentRefusal k s.cpl sel) = .error f) : s.loadSegment k sel = .error f := by
  rw [segmentRefusal] at hfetch
  simp only [State.loadSegment, State.checkSegment, hmode, hnull, if_true, Bool.false_eq_true, if_false, hfetch]

theorem State.loadSegment_fetchDesc_ok (hmode : s.mode = .prot) (hnull : isNull sel = false)
    (hfetch : s.fetchDesc sel (segmentRefusal k s.cpl sel) = .ok (d, s1)) :
    s.loadSegment k sel = (s1.setAccessed d).map fun s2 => s2.setSeg k (SegCache.ofDesc sel d) := by
  rw [segmentRefusal] at hfetch
  simp only [State.loadSegment, State.checkSegment, hmode, hnull, if_true, Bool.false_eq_true, if_false, hfetch]
  cases s1.setAccessed d <;> rfl

end

theorem takeException_ss_selector {s : State} (hmode : s.mode = .prot) (sel : Word) :
    takeException s (.ss (selectorCode sel)) = .stackFault (some (BitVec.ofNat 32 (sel.toNat / 4 * 4))) s.eip := by
  simp [takeException, State.errorCode, hmode, selectorCode_eq_ofNat]

/-- A data segment (R95). -/
def Desc.isDataSegment (d : Desc) : Prop := d.hi.getLsbD 12 = true ∧ d.hi.getLsbD 11 = false

/-- A readable code segment (R95). -/
def Desc.isReadableCodeSegment (d : Desc) : Prop :=
  d.hi.getLsbD 12 = true ∧ d.hi.getLsbD 11 = true ∧ d.hi.getLsbD 9 = true

/-- SS may be loaded but for the P bit (R272). -/
def Desc.stackOk (d : Desc) (cpl : BitVec 2) (sel : Word) : Prop :=
  sel.toNat % 4 = cpl.toNat ∧ (d.isDataSegment ∧ d.hi.getLsbD 9 = true) ∧ d.hi.toNat / 8192 % 4 = cpl.toNat

/-- DS, ES, FS or GS may be loaded but for the P bit (R273). -/
def Desc.dataOk (d : Desc) (cpl : BitVec 2) (sel : Word) : Prop :=
  (d.isDataSegment ∨ d.isReadableCodeSegment) ∧
    ((d.isReadableCodeSegment ∧ d.hi.getLsbD 10 = true) ∨
      (sel.toNat % 4 ≤ d.hi.toNat / 8192 % 4 ∧ cpl.toNat ≤ d.hi.toNat / 8192 % 4))

theorem Desc.isData_iff (d : Desc) : d.isData = true ↔ d.isDataSegment := by
  rw [Desc.isData, Bool.and_eq_true, Bool.not_eq_true', d.type_bit (by decide)]
  exact Iff.rfl

theorem Desc.isWritableData_iff (d : Desc) : d.isWritableData = true ↔ d.isDataSegment ∧ d.hi.getLsbD 9 = true := by
  rw [Desc.isWritableData, Bool.and_eq_true, Desc.isData_iff, d.type_bit (by decide)]

theorem Desc.isReadableCode_iff (d : Desc) : d.isReadableCode = true ↔ d.isReadableCodeSegment := by
  rw [Desc.isReadableCode, Bool.and_eq_true, Bool.and_eq_true, d.type_bit (by decide), d.type_bit (by decide), and_assoc]
  exact Iff.rfl

theorem ssRefusal_eq (cpl : BitVec 2) (sel : Word) (d : Desc) :
    (¬ d.stackOk cpl sel → ssRefusal cpl sel d = some (.gp (selectorCode sel))) ∧
    (d.stackOk cpl sel → ssRefusal cpl sel d = if d.present = false then some (.ss (selectorCode sel)) else none) := by
  have hrpl : selRpl sel = cpl ↔ sel.toNat % 4 = cpl.toNat := by rw [← BitVec.toNat_inj, selRpl_toNat]
  have hdpl : d.dpl = cpl ↔ d.hi.toNat / 8192 % 4 = cpl.toNat := by rw [← BitVec.toNat_inj, Desc.dpl_toNat]
  rw [Desc.stackOk, ← hrpl, ← hdpl, ← Desc.isWritableData_iff]
  unfold ssRefusal
  split_ifs <;> simp_all

theorem dataRefusal_eq (cpl : BitVec 2) (sel : Word) (d : Desc) :
    (¬ d.dataOk cpl sel → dataRefusal cpl sel d = some (.gp (selectorCode sel))) ∧
    (d.dataOk cpl sel → dataRefusal cpl sel d = if d.present = false then some (.np (selectorCode sel)) else none) := by
  have hallowed : (d.isData || d.isReadableCode) = true ↔ d.isDataSegment ∨ d.isReadableCodeSegment := by
    rw [Bool.or_eq_true, Desc.isData_iff, Desc.isReadableCode_iff]
  have hconforming (h : d.isDataSegment ∨ d.isReadableCodeSegment) :
      (d.isReadableCodeSegment ∧ d.hi.getLsbD 10 = true) ↔ d.isConforming = true := by
    rw [Desc.isConforming_iff]
    refine ⟨fun ⟨⟨hs, hcode, _⟩, hc⟩ => ⟨hs, hcode, hc⟩, fun ⟨_, hcode, hc⟩ => ⟨h.resolve_left fun hdata => ?_, hc⟩⟩
    rw [hdata.2] at hcode
    cases hcode
  have hok : d.dataOk cpl sel ↔ (d.isData || d.isReadableCode) = true ∧
      ¬ (d.isConforming = false ∧ (d.dpl.toNat < (selRpl sel).toNat ∨ d.dpl.toNat < cpl.toNat)) := by
    rw [Desc.dataOk, hallowed]
    refine and_congr_right fun h => ?_
    rw [hconforming h, Desc.dpl_toNat, selRpl_toNat, not_and_or, Bool.not_eq_false, not_or, Nat.not_lt, Nat.not_lt]
  rw [hok]
  unfold dataRefusal
  generalize (d.isData || d.isReadableCode) = allowed
  split_ifs <;> simp_all

/-- Settles O42. -/
theorem fullPointerDescriptorChecks : Obligations.FullPointerDescriptorChecks := by
  intro i fp m s hfp hrm hmode
  refine ⟨fun f hread => exec_fullPointer_readMem_error hfp hrm hread, fun v s1 hread hge => ?_⟩
  intro sel code
  have hag := State.readMem_agrees hread
  have hmode1 : s1.mode = .prot := hag.mode.trans hmode
  have hnull : isNull sel = false :=
    isNull_eq_false_of_four_le ((pointerSelector_toNat (State.segRead_lt hread)).symm ▸ hge)
  have hfault {f : Fault} (hfetch : s1.fetchDesc sel (segmentRefusal fp.k s.cpl sel) = .error f) :
      exec i s = .fault f := by
    rw [← hag.cpl] at hfetch
    exact exec_fullPointer_fault hfp hrm hread (State.loadSegment_fetchDesc_error hmode1 hnull hfetch)
  have hgp : takeException s1 (.gp (selectorCode sel)) = .generalProtection code s.eip :=
    (hag.takeException _).trans (takeException_gp_selector hmode sel)
  have hnp : takeException s1 (.np (selectorCode sel)) = .segmentNotPresent code s.eip :=
    (hag.takeException _).trans (takeException_np_selector hmode sel)
  have hss : takeException s1 (.ss (selectorCode sel)) = .stackFault code s.eip :=
    (hag.takeException _).trans (takeException_ss_selector hmode sel)
  refine ⟨fun f hdesc => hfault (State.fetchDesc_of_readDesc_error hdesc _),
    fun s2 hdesc => hgp ▸ hfault (State.fetchDesc_of_outside hdesc _), fun d s2 hdesc => ?_⟩
  have hrefused {e : Exc} (h : segmentRefusal fp.k s.cpl sel d = some e) : exec i s = .fault (takeException s1 e) :=
    hfault (State.fetchDesc_of_refused hdesc h)
  refine ⟨fun hk hnot => ?_, fun hk hok hpresent => ?_, fun hk hnot => ?_, fun hk hok hpresent => ?_⟩
  · refine hgp ▸ hrefused ?_
    rw [segmentRefusal, if_pos hk]
    exact (ssRefusal_eq _ _ _).1 hnot
  · refine hss ▸ hrefused ?_
    rw [segmentRefusal, if_pos hk]
    exact ((ssRefusal_eq _ _ _).2 hok).trans (if_pos hpresent)
  · refine hgp ▸ hrefused ?_
    rw [segmentRefusal, if_neg hk]
    exact (dataRefusal_eq _ _ _).1 hnot
  · refine hnp ▸ hrefused ?_
    rw [segmentRefusal, if_neg hk]
    exact ((dataRefusal_eq _ _ _).2 hok).trans (if_pos hpresent)

/-! ## The Accessed bit -/

theorem State.setAccessed_unmarked {s : State} {d : Desc}
    (h : ¬ (d.hi.getLsbD 8 = false ∧ s.cfg.segLoadSetsAccessed = true)) : s.setAccessed d = .ok s := by
  rw [State.setAccessed, d.type_bit (by decide)]
  exact if_neg h

theorem State.setAccessed_marked {s : State} {d : Desc}
    (h : d.hi.getLsbD 8 = false ∧ s.cfg.segLoadSetsAccessed = true) :
    s.setAccessed d = s.linWrite (d.la + 5#32) 1 (d.arByte ||| 0x01#8).toNat .supervisor := by
  rw [State.setAccessed, d.type_bit (by decide)]
  exact if_pos h

/-- Settles O43. -/
theorem fullPointerLoadsTheDescriptor : Obligations.FullPointerLoadsTheDescriptor := by
  intro i fp m s s1 s2 v d hfp hrm hmode hread hge sel accessed marks hdesc hpassed result
  have hag := State.readMem_agrees hread
  have hag2 := hag.trans (State.readDesc_agrees hdesc)
  have hnull : isNull sel = false :=
    isNull_eq_false_of_four_le ((pointerSelector_toNat (State.segRead_lt hread)).symm ▸ hge)
  have hpassed1 : segmentRefusal fp.k s1.cpl sel d = none := by
    rw [hag.cpl, segmentRefusal]
    split at hpassed
    · rename_i hk
      rwa [if_pos hk]
    · rename_i hk
      rwa [if_neg hk]
  have hload := State.loadSegment_fetchDesc_ok (hag.mode.trans hmode) hnull
    (State.fetchDesc_of_passed hdesc hpassed1)
  refine ⟨fun hunmarked => ?_, fun hmarked => ⟨?_, fun pa s3 htranslate => ?_⟩⟩
  · rw [State.setAccessed_unmarked (hag2.cfg ▸ hunmarked)] at hload
    have hresult := hag2.loadsFullPointer i fp v (SegCache.ofDesc sel d)
    refine ⟨_, exec_fullPointer_next hfp hrm hread hload, ⟨?_, hresult.loaded, hresult.otherSegs, hresult.otherRegs,
      hresult.offset⟩, ?_⟩
    · exact hresult.frame.trans (by rw [hresult.mem])
    · exact hresult.mem
  · rw [State.setAccessed_marked (hag2.cfg ▸ hmarked)] at hload
    change match s2.linWrite (d.la + 5#32) 1 (d.arByte ||| 0x01#8).toNat .supervisor with
      | .error f => exec i s = .fault f
      | .ok _ => ∃ t, exec i s = .next t
    cases hwrite : s2.linWrite (d.la + 5#32) 1 (d.arByte ||| 0x01#8).toNat .supervisor with
    | error f =>
      rw [hwrite] at hload
      exact exec_fullPointer_fault hfp hrm hread hload
    | ok s3 =>
      rw [hwrite] at hload
      exact ⟨_, exec_fullPointer_next hfp hrm hread hload⟩
  · rw [State.setAccessed_marked (hag2.cfg ▸ hmarked), State.linWrite_byte htranslate] at hload
    have hag3 :=
      hag2.trans ((State.translate_agrees htranslate).trans (State.busStore_agrees s3 pa (d.arByte ||| 0x01#8)))
    have hresult := hag3.loadsFullPointer i fp v (SegCache.ofDesc sel d)
    refine ⟨_, exec_fullPointer_next hfp hrm hread hload, ⟨?_, hresult.loaded, hresult.otherSegs, hresult.otherRegs,
      hresult.offset⟩, fun hm => ?_, fun a ha => ?_⟩
    · exact hresult.frame.trans (by rw [hresult.mem]; rfl)
    · rw [hresult.mem]
      exact State.busStore_byte_same hm pa _
    · rw [hresult.mem]
      exact State.busStore_byte_other s3 _ ha

end Sys2Proof.Machine
end
